-- ==== Sys2Proof/Word.lean ====
section
/-!
DEFINITION. The word types of the MN-7360 and the plainest data structures of the model: a finite table keyed by
numbers, and lists of bytes. Spec: 00 R2 (bit and byte numbering).
-/

namespace Sys2Proof

abbrev Byte := BitVec 8
abbrev W16 := BitVec 16
abbrev W32 := BitVec 32
abbrev W64 := BitVec 64

/-- A finite table: keys with their values, keys rising. A key that is not listed has a default value. -/
abbrev Tbl (α : Type) := List (Nat × α)

namespace Tbl

variable {α : Type}

/-- The value listed at `k`, if any. -/
def find : Tbl α → Nat → Option α
  | [], _ => none
  | (j, x) :: r, k => if j = k then some x else find r k

/-- The value at `k`, or `d` where none is listed. -/
def get (t : Tbl α) (k : Nat) (d : α) : α :=
  (find t k).getD d

/-- List the value `v` at `k`, in the order of the keys. -/
def put : Tbl α → Nat → α → Tbl α
  | [], k, v => [(k, v)]
  | (j, x) :: r, k, v =>
    if k < j then (k, v) :: (j, x) :: r
    else if k = j then (k, v) :: r
    else (j, x) :: put r k v

/-- Remove what is listed at `k`. -/
def drop (t : Tbl α) (k : Nat) : Tbl α :=
  t.filter (fun e => e.1 != k)

end Tbl

/-- The little-endian number of a list of bytes: the first byte is the lowest (R2). -/
def leNat : List Byte → Nat
  | [] => 0
  | b :: r => b.toNat + 256 * leNat r

/-- The `n` little-endian bytes of a number (R2). -/
def leBytes : Nat → Nat → List Byte
  | 0, _ => []
  | n + 1, x => BitVec.ofNat 8 x :: leBytes n (x / 256)

/-- Bits `[hi:lo]` of a number (R2, R7). -/
def bitsOf (x hi lo : Nat) : Nat := (x / 2 ^ lo) % 2 ^ (hi + 1 - lo)

end Sys2Proof
end

