-- ==== Sys2Proof/Syntax.lean ====
section
/-!
DEFINITION. The syntax of the MN-7360's steps: one constructor for each row of the opcode table. An instruction carries
the fields of its words (05 R104, R107). A step of the device that is no instruction carries the numbers that say where
it comes about (95). Agents, cores and requests are numbered as Machine/State.lean says.
-/

namespace Sys2Proof

/-- The fields of an instruction's words other than DOM and OPC (05 R104, R107). `ext` holds bits 127:64: word 1 of a
96-bit instruction in its low half, words 1 and 2 of a 128-bit one; zero for a 64-bit one. -/
structure Fields where
  len : BitVec 2
  rb : Bool
  rs : Bool
  stall : BitVec 4
  wait : BitVec 8
  setK : BitVec 3
  setEn : Bool
  luA : Bool
  luB : Bool
  pred : BitVec 3
  pneg : Bool
  d : BitVec 7
  a : BitVec 7
  b : BitVec 7
  bs : Bool
  mod : BitVec 6
  ext : BitVec 64
  deriving DecidableEq, Repr

/-- The kinds of agents that execute instructions (05 R118). -/
inductive AgentKind where
  | band
  | ctl
  | fw
  deriving DecidableEq, Repr

/-- What a peer module asks of this module over Tropex (14 R315): a load, a store, an atomic on the tenant's virtual
addresses, or a packet for one of its rings. -/
inductive PeerRequest where
  | load (ctx : Nat) (va : W64) (len : Nat)
  | store (ctx : Nat) (va : W64) (data : List Byte)
  | atomic (ctx : Nat) (va : W64) (op : Nat) (v cmp : W32)
  | push (queue : Nat) (image : List W64)
  | firmware (data : List Byte)
  deriving DecidableEq, Repr

/-- The steps of the part, one constructor for each row of the opcode table. -/
inductive Instr where
  /-- SADD: Adds two S-registers into Sd once per packet, wrapping or saturating as MOD selects. (R409) -/
  | sadd (f : Fields)
  /-- SSUB: Subtracts Sb from Sa into Sd once per packet, wrapping or saturating as MOD selects. (R409) -/
  | ssub (f : Fields)
  /-- SMUL: Writes the low 64 bits of the product of two S-registers to Sd. (R409) -/
  | smul (f : Fields)
  /-- SMULHI: Writes the high 64 bits of the signed or unsigned product of two S-registers to Sd. (R409) -/
  | smulhi (f : Fields)
  /-- SAND: Writes the bitwise AND of two S-registers to Sd. (R409) -/
  | sand (f : Fields)
  /-- SOR: Writes the bitwise OR of two S-registers to Sd. (R409) -/
  | sor (f : Fields)
  /-- SXOR: Writes the bitwise XOR of two S-registers to Sd. (R409) -/
  | sxor (f : Fields)
  /-- SSHL: Shifts Sa left by Sb into Sd; a count of 64 or more gives zero. (R409) -/
  | sshl (f : Fields)
  /-- SSHR: Shifts Sa right by Sb, logically or arithmetically as MOD[0] selects, into Sd. (R409) -/
  | sshr (f : Fields)
  /-- SMIN: Writes the signed or unsigned lesser of two S-registers to Sd. (R409) -/
  | smin (f : Fields)
  /-- SMAX: Writes the signed or unsigned greater of two S-registers to Sd. (R409) -/
  | smax (f : Fields)
  /-- SCMP: Compares two S-registers and writes the result to a predicate in each guarded lane. (R410) -/
  | scmp (f : Fields)
  /-- SSEL: Writes Sa or Sb to Sd, chosen by an ANY or ALL test of a predicate over the packet. (R411) -/
  | ssel (f : Fields)
  /-- SMOV: Copies Sa into Sd. (R409) -/
  | smov (f : Fields)
  /-- SLI: Loads a 32-bit immediate, zero- or sign-extended, or a 64-bit immediate into Sd. (R415) -/
  | sli (f : Fields)
  /-- SLD: Loads one global value into Sd as one access of the band or control context. (R414) -/
  | sld (f : Fields)
  /-- SST: Stores the low bytes of Sb to one global address. (R414) -/
  | sst (f : Fields)
  /-- SREAD: Copies the special register named by its code into Sd. (R418) -/
  | sread (f : Fields)
  /-- SREAD_CLR: Reads FLAGS, STATUS or DETSTICKY into Sd and clears its sticky bits in the same step. (R97) -/
  | sreadClr (f : Fields)
  /-- SWRITE_SEED: Writes a band's stochastic-rounding SEED. (R422) -/
  | swriteSeed (f : Fields)
  /-- SWRITE_CHECK: Sets or clears a band's checking mode. (R422) -/
  | swriteCheck (f : Fields)
  /-- SWRITE_DET: Sets or clears deterministic mode for a band or a control context. (R422) -/
  | swriteDet (f : Fields)
  /-- SWRITE_MONITOR: Sets a band's MONITOR selection. (R422) -/
  | swriteMonitor (f : Fields)
  /-- SWRITE_PRIVCX: Sets or clears the PRIV bit of a control context. (R422) -/
  | swritePrivcx (f : Fields)
  /-- SWRITE_MQPRIO: Sets the matrix queue base priority of a control context. (R422) -/
  | swriteMqprio (f : Fields)
  /-- SWRITE_TILELO: Writes bits [63:0] of a tile-table entry. (R422) -/
  | swriteTilelo (f : Fields)
  /-- SWRITE_TILEHI: Writes bits [127:64] of a tile-table entry, with the state only EMPTY or READY. (R422) -/
  | swriteTilehi (f : Fields)
  /-- SWRITE_FENCED: Fences or unfences a core, so that the dispenser and admission skip or use it. (R23) -/
  | swriteFenced (f : Fields)
  /-- SWRITE_FREPLY: Answers a fault record RESOLVED, DENIED or ABSENT, releasing or trapping the threads or agents that wait on it. (R173) -/
  | swriteFreply (f : Fields)
  /-- SWRITE_INDIR: Writes a controller indirection entry, marking a piece as copying or flipping it to a new device piece. (R175) -/
  | swriteIndir (f : Fields)
  /-- SWRITE_PEWTER: Sets the Pewter carve-out of a die's L2 slices, zeroing Pewter. (R161) -/
  | swritePewter (f : Fields)
  /-- SWRITE_ROUTE: Sets the Tropex port mask that routes a node number. (R314) -/
  | swriteRoute (f : Fields)
  /-- SWRITE_NODE: Sets the module's Tropex node number. (R314) -/
  | swriteNode (f : Fields)
  /-- SWRITE_HBEAT: Writes the heartbeat of the issuer's partition, restarting the watchdog deadline and committing a replacement when due. (R332) -/
  | swriteHbeat (f : Fields)
  /-- VADD: Adds packed integer elements per lane, wrapping or saturating. (R432) -/
  | vadd (f : Fields)
  /-- VSUB: Subtracts packed integer elements per lane, wrapping or saturating. (R432) -/
  | vsub (f : Fields)
  /-- VMUL: Multiplies packed integer elements per lane, keeping the low bits or saturating. (R432) -/
  | vmul (f : Fields)
  /-- VMULHI: Writes the high half of each packed integer product per lane. (R432) -/
  | vmulhi (f : Fields)
  /-- VMAD: Computes a × b + c on packed integer elements per lane. (R432) -/
  | vmad (f : Fields)
  /-- VAND: Writes the bitwise AND of two lane words. (R432) -/
  | vand (f : Fields)
  /-- VOR: Writes the bitwise OR of two lane words. (R432) -/
  | vor (f : Fields)
  /-- VXOR: Writes the bitwise XOR of two lane words. (R432) -/
  | vxor (f : Fields)
  /-- VSHL: Shifts packed integer elements left per lane, wrapping or saturating. (R432) -/
  | vshl (f : Fields)
  /-- VSHR: Shifts packed elements right, arithmetically for I types and logically for N types. (R432) -/
  | vshr (f : Fields)
  /-- VMIN: Writes the lesser of each pair of packed elements. (R432) -/
  | vmin (f : Fields)
  /-- VMAX: Writes the greater of each pair of packed elements. (R432) -/
  | vmax (f : Fields)
  /-- VABS: Writes the absolute value of each packed signed element. (R432) -/
  | vabs (f : Fields)
  /-- VCLZ: Counts the leading zero bits of each packed element. (R431) -/
  | vclz (f : Fields)
  /-- VPOPC: Counts the one bits of each packed element. (R431) -/
  | vpopc (f : Fields)
  /-- VCMP: Compares lane integers and writes a predicate bit per guarded lane. (R434) -/
  | vcmp (f : Fields)
  /-- VSEL: Writes Va or b in every lane of the packet, chosen by the predicate named in PRED. (R435) -/
  | vsel (f : Fields)
  /-- VMOV: Copies a V-register, or broadcasts an S-register, into Vd. (R435) -/
  | vmov (f : Fields)
  /-- VAFF: Writes the affine sequence base + stride × lane into Vd. (R436) -/
  | vaff (f : Fields)
  /-- VSHFL: Moves lane values between lanes by index, up, down or XOR. (R441) -/
  | vshfl (f : Fields)
  /-- VREDUCE: Reduces the participants' values and writes the result to every participant. (R439) -/
  | vreduce (f : Fields)
  /-- VBALLOT: Writes the packet's mask, or count, of lanes whose predicate holds. (R437) -/
  | vballot (f : Fields)
  /-- VSCAN: Writes an inclusive or exclusive, optionally segmented, prefix of the lane values. (R440) -/
  | vscan (f : Fields)
  /-- FADD: Adds floating-point values per lane, rounding once. (R368) -/
  | fadd (f : Fields)
  /-- FSUB: Subtracts floating-point values per lane, rounding once. (R368) -/
  | fsub (f : Fields)
  /-- FMUL: Multiplies floating-point values per lane, rounding once. (R368) -/
  | fmul (f : Fields)
  /-- FFMA: Computes a × b + c per lane with one rounding. (R368) -/
  | ffma (f : Fields)
  /-- FMIN: Writes the exact floating-point minimum per lane. (R378) -/
  | fmin (f : Fields)
  /-- FMAX: Writes the exact floating-point maximum per lane. (R378) -/
  | fmax (f : Fields)
  /-- FCMP: Compares floating-point values and writes a predicate bit per guarded lane. (R371) -/
  | fcmp (f : Fields)
  /-- FCLASS: Writes a one-hot class word for each lane's floating-point value. (R370) -/
  | fclass (f : Fields)
  /-- FCVT: Converts between floating-point and integer types per lane, in the selected mode. (R374) -/
  | fcvt (f : Fields)
  /-- FRND: Rounds each lane's value to an integer in the same format. (R379) -/
  | frnd (f : Fields)
  /-- FKEY: Writes an unsigned key whose order matches the numeric order of the value. (R377) -/
  | fkey (f : Fields)
  /-- FRCP: Computes the frozen table-and-quadratic reciprocal per lane. (R372) -/
  | frcp (f : Fields)
  /-- FRSQ: Computes the frozen reciprocal square root per lane. (R372) -/
  | frsq (f : Fields)
  /-- FSQRT: Computes the exactly rounded square root per lane, with variable latency. (R375) -/
  | fsqrt (f : Fields)
  /-- FDIV: Computes the exactly rounded quotient per lane, with variable latency. (R375) -/
  | fdiv (f : Fields)
  /-- FEXP2: Computes the frozen base-2 exponential per lane. (R372) -/
  | fexp2 (f : Fields)
  /-- FLOG2: Computes the frozen base-2 logarithm per lane. (R372) -/
  | flog2 (f : Fields)
  /-- FSIN: Computes the frozen sine of an argument in turns per lane. (R372) -/
  | fsin (f : Fields)
  /-- FCOS: Computes the frozen cosine of an argument in turns per lane. (R372) -/
  | fcos (f : Fields)
  /-- DXENC: Encodes the 32 lane values into one DX block spread over the low lanes. (R363) -/
  | dxenc (f : Fields)
  /-- DXDEC: Decodes a DX block held in the low lanes into one element per lane. (R364) -/
  | dxdec (f : Fields)
  /-- LD: Issues a per-lane global load, with translation, faults and parking. (R385) -/
  | ld (f : Fields)
  /-- ST: Issues a per-lane global store as one request per line. (R420) -/
  | st (f : Fields)
  /-- LDS: Reads scratchpad at crew-local offsets at one instant for the packet. (R388) -/
  | lds (f : Fields)
  /-- LDS_T: Reads a tile's bytes once the tile is READY. (R388) -/
  | ldsT (f : Fields)
  /-- STS: Writes scratchpad at crew-local offsets at one instant for the packet. (R421) -/
  | sts (f : Fields)
  /-- STS_T: Writes a tile's bytes while the tile is EMPTY. (R421) -/
  | stsT (f : Fields)
  /-- LDRC: Loads like LD and marks the L1 lines with an expected read count. (R386) -/
  | ldrc (f : Fields)
  /-- ATOM: Performs a read-modify-write on global words per lane, in ascending lane order. (R341) -/
  | atom (f : Fields)
  /-- ATOMS: Performs a read-modify-write on scratchpad words at one instant for the packet. (R343) -/
  | atoms (f : Fields)
  /-- PREF: Asks L1 to fetch the lines addressed by the lanes; never traps. (R398) -/
  | pref (f : Fields)
  /-- RTBOX: Reads the ray's current node and writes the child hit summary. (R245) -/
  | rtbox (f : Fields)
  /-- RTTRI: Reads a triangle record and writes the watertight hit candidate. (R250) -/
  | rttri (f : Fields)
  /-- RTSTEP: Advances the ray's walk from the summary: descend, leaf, ascend or done. (R247) -/
  | rtstep (f : Fields)
  /-- RTHIT: Accepts a candidate into the ray when it lowers the (t, key) pair. (R251) -/
  | rthit (f : Fields)
  /-- LTWALK: Takes one descent step of a light tree, with one draw. (R269) -/
  | ltwalk (f : Fields)
  /-- RSVLD: Loads a 32-byte reservoir record per lane. (R263) -/
  | rsvld (f : Fields)
  /-- RSVST: Stores a 32-byte reservoir record per lane at one V. (R263) -/
  | rsvst (f : Fields)
  /-- RSVUPD: Offers a weighted candidate to a reservoir record, consuming one draw. (R264) -/
  | rsvupd (f : Fields)
  /-- RSVMRG: Merges a source record into a destination record, consuming one draw of the destination. (R265) -/
  | rsvmrg (f : Fields)
  /-- RSVNRM: Normalises a record's W, or writes the null sample. (R266) -/
  | rsvnrm (f : Fields)
  /-- RNG: Takes one draw per lane from a stream and advances its counter. (R261) -/
  | rng (f : Fields)
  /-- RNG_U: Takes one draw per lane and writes it as a uniform F32 in [0, 1). (R261) -/
  | rngU (f : Fields)
  /-- BRA: Branches each guarded thread by a signed offset. (R351) -/
  | bra (f : Fields)
  /-- BRC: Branches per thread, or for ANY or ALL of the packet, on a predicate. (R352) -/
  | brc (f : Fields)
  /-- CALL: Writes the return link and branches each guarded thread. (R353) -/
  | call (f : Fields)
  /-- CALLT: Calls through the shader table per lane, skipping null records. (R354) -/
  | callt (f : Fields)
  /-- RET: Returns each guarded thread to the address held in its link. (R404) -/
  | ret (f : Fields)
  /-- BJOIN: Holds threads until every masked, non-exited thread has arrived at the same BJOIN. (R350) -/
  | bjoin (f : Fields)
  /-- BJOIN_ALL: Reconverges with the mask of all 32 lanes. (R349) -/
  | bjoinAll (f : Fields)
  /-- EXIT: Makes each guarded thread EXITED, possibly ending the task or retiring the crew. (R366) -/
  | exit (f : Fields)
  /-- YIELD: Ends the band's run and yields its port. (R442) -/
  | yield (f : Fields)
  /-- NOP: Advances the PC and counts towards the run. (R396) -/
  | nop (f : Fields)
  /-- TRAP: Raises a TRAP with TADDR taken from Sa. (R430) -/
  | trap (f : Fields)
  /-- ERET: Returns guarded threads from the handler to re-execute the instruction at TPC. (R365) -/
  | eret (f : Fields)
  /-- ERET_NEXT: Returns guarded threads from the handler to the instruction after TPC. (R365) -/
  | eretNext (f : Fields)
  /-- BAR: Blocks threads at the crew barrier, releasing all when every participant has arrived. (R347) -/
  | bar (f : Fields)
  /-- GBAR: Arrives at the launch's global barrier, or returns NOTMEMBER for a late crew. (R381) -/
  | gbar (f : Fields)
  /-- FENCE_CREW: Holds later instructions until earlier scratchpad accesses performed, loads returned and stores assigned V. (R189) -/
  | fenceCrew (f : Fields)
  /-- FENCE_DEV: Holds later instructions until global time passes every V the band received. (R189) -/
  | fenceDev (f : Fields)
  /-- FENCE_SYS: Holds later instructions until remote and host accesses complete, reporting failed remote stores. (R189) -/
  | fenceSys (f : Fields)
  /-- CWAIT: Waits until a dependence counter reaches zero and returns its status. (R361) -/
  | cwait (f : Fields)
  /-- CWAIT_POLL: Samples a dependence counter's count and status at once. (R361) -/
  | cwaitPoll (f : Fields)
  /-- SPAWN: Places a task entry in a scope, queued or bound to a counter, and returns a status. (R417) -/
  | spawn (f : Fields)
  /-- TASKGET: Requests the crew's task from Bobbin, or waits for the next one. (R423) -/
  | taskget (f : Fields)
  /-- TASKEND: Ends a participant's part of the task, ending the task when all are done. (R426) -/
  | taskend (f : Fields)
  /-- SCOPE: Creates a user scope under the current task's scope. (R61) -/
  | scope (f : Fields)
  /-- SCLOSE: Seals a user scope, closing it at once if nothing is outstanding. (R62) -/
  | sclose (f : Fields)
  /-- CANCEL: Cancels a scope and its subtree and returns a ticket. (R355) -/
  | cancel (f : Fields)
  /-- SCWAIT: Waits until a scope is CANCELLED or CLOSED and returns its outcome. (R64) -/
  | scwait (f : Fields)
  /-- QPUSH: Pushes a packet image into a local or peer ring and returns a status. (R401) -/
  | qpush (f : Fields)
  /-- TMARK_READY: Moves an EMPTY tile to READY, publishing scratchpad stores to the engines. (R427) -/
  | tmarkReady (f : Fields)
  /-- TMARK_EMPTY: Moves a READY, unheld tile to EMPTY. (R427) -/
  | tmarkEmpty (f : Fields)
  /-- TSTAT: Returns the upper half of a tile-table entry without waiting. (R429) -/
  | tstat (f : Fields)
  /-- COPY: Queues a copy between global memory and tiles on the copy engine. (R358) -/
  | copy (f : Fields)
  /-- CCOPY: Queues a copy that commits with its version word at one V, or not at all. (R221) -/
  | ccopy (f : Fields)
  /-- HALO: Queues a copy of the other die's border strips into the local halo area. (R222) -/
  | halo (f : Fields)
  /-- MWLOAD: Queues the binding of a weight tile to the matrix array. (R228) -/
  | mwload (f : Fields)
  /-- MMUL: Queues a matrix multiply-accumulate into an accumulator tile. (R229) -/
  | mmul (f : Fields)
  /-- MDRAIN: Queues the conversion of accumulator rows into a scratchpad tile. (R232) -/
  | mdrain (f : Fields)
  /-- MZERO: Queues the zeroing of an accumulator tile with a fixed exponent. (R231) -/
  | mzero (f : Fields)
  /-- MZERO_AUTO: Queues the zeroing of an accumulator tile with its exponent left unset. (R231) -/
  | mzeroAuto (f : Fields)
  /-- RESAMPLE: Queues an Overlock resampling command over one 16 × 16 tile. (R270) -/
  | resample (f : Fields)
  /-- CARVE: Requests a new scratchpad carve-out of the core's SRAM ways. (R157) -/
  | carve (f : Fields)
  /-- CARVE_COMPLETE: Leaving ways are written back, zeroed and carved, and the CARVE status is written. (R158) -/
  | carveComplete (core : Nat)
  /-- TOKEN_RELEASE: A fixed-latency result's L clocks elapse and the token it set is released. (R90) -/
  | tokenRelease (agent token : Nat)
  /-- STALL_ELAPSED: A band's STALL count elapses and it may issue its next packet. (R89) -/
  | stallElapsed (agent : Nat)
  /-- RUN_END: A run reaches 24 packets or 64 STALL clocks and ends, forming a kill point. (R46) -/
  | runEnd (agent : Nat)
  /-- BAND_PRIORITY_AGEING: Each complete 64 µs an eligible band waits lowers its effective priority number by one. (R294) -/
  | bandPriorityAgeing (agent : Nat)
  /-- LOAD_REPLY: A load or fetch reply arrives, writes its lanes, frees the miss slot and may release the token. (R385) -/
  | loadReply (req : Nat)
  /-- SLICE_FETCH: A fetch reaches the home slice and receives the line with a lease end. (R180) -/
  | sliceFetch (req : Nat)
  /-- SLICE_STORE_ARRIVAL: A store or atomic write reaches its home slice and is assigned a visibility time. (R181) -/
  | sliceStoreArrival (req : Nat)
  /-- STORE_VISIBLE: At its visibility time the slice applies the store's bytes, performing any atomic. (R181) -/
  | storeVisible (req : Nat)
  /-- LEASE_END: A line's lease ends and the L1 may no longer hit it. (R180) -/
  | leaseEnd (core line : Nat)
  /-- L2_BANK_SERVICE: An L2 bank serves one request per clock, merging and ordering queued requests. (R169) -/
  | l2BankService (bank : Nat)
  /-- REMOTE_REPLY: A remote data, acknowledgement or NACK reply arrives and settles its lanes. (R303) -/
  | remoteReply (req : Nat) (nack : Bool) (data : List Byte)
  /-- REMOTE_TIMEOUT: A Tropex request has no reply 100 µs after leaving and ends in timeout. (R316) -/
  | remoteTimeout (req : Nat)
  /-- REMOTE_REQUEST: A remote load, store, atomic or QPUSH arrives at the target and is translated and served. (R315) -/
  | remoteRequest (node : Nat) (r : PeerRequest)
  /-- HOST_COMPLETION: A host-memory completion arrives, writing its lanes or trapping ACCESS for UR or CA. (R311) -/
  | hostCompletion (req : Nat) (ok : Bool) (data : List Byte)
  /-- HOST_COMPLETION_TIMEOUT: A host-memory load or atomic has no completion within 10 ms and fails. (R311) -/
  | hostCompletionTimeout (req : Nat)
  /-- HOST_BAR2_ACCESS: A host request through BAR2 reaches device physical memory. (R310) -/
  | hostBar2Access (write : Bool) (offset len : Nat) (data : List Byte)
  /-- HOST_BAR4_ACCESS: A host request through BAR4 reaches Pewter, or completes with UR beyond its size. (R310) -/
  | hostBar4Access (write : Bool) (offset len : Nat) (data : List Byte)
  /-- TASK_DELIVERY: Bobbin serves the crew's request and the record is written to the waiting participants. (R39) -/
  | taskDelivery (crew : Nat)
  /-- CREW_ADMISSION: A core with the needed free resources admits one crew of a waiting launch. (R290) -/
  | crewAdmission (launch core : Nat)
  /-- LAUNCH_AGEING: Each complete 64 µs lowers a waiting launch's effective priority number by one. (R290) -/
  | launchAgeing (launch : Nat)
  /-- LAUNCH_SPLIT: When every core has admitted, or 50 µs after start, the master splits the index space between dies. (R290) -/
  | launchSplit (launch : Nat)
  /-- GBAR_RELEASE: Within 2 µs of the last arrival every GBAR waiter becomes READY and receives DONE. (R381) -/
  | gbarRelease (launch : Nat)
  /-- CANCEL_BROADCAST_ARRIVAL: An accepted cancel reaches Bobbin, a front end or a core, which applies the fates of work. (R66) -/
  | cancelBroadcastArrival (target scope : Nat)
  /-- CREW_LANDING: A cancelled or aborted participant reaches its kill point and lands at the landing address. (R71) -/
  | crewLanding (agent : Nat)
  /-- ACK_RECORD_WRITE: The acknowledgement record is written and SCWAIT waiters are released. (R72) -/
  | ackRecordWrite (scope : Nat)
  /-- PEER_CANCEL_MESSAGE: A cancel message from a peer scope arrives over Tropex and cancels the local scope. (R68) -/
  | peerCancelMessage (node : Nat) (handle : W64)
  /-- PEER_ACKNOWLEDGEMENT: A peer's acknowledgement arrives and its outstanding count is removed. (R68) -/
  | peerAcknowledgement (scope node : Nat)
  /-- PEER_ACK_TIMEOUT: A peer that has not acknowledged within 100 µs is counted as acknowledged with REMOTE-LOST. (R68) -/
  | peerAckTimeout (scope node : Nat)
  /-- COPY_SEGMENT: The copy engine serves one 4 KiB destination segment of a started copy or HALO. (R218) -/
  | copySegment (core cx : Nat)
  /-- COPY_COMPLETE: A copy finishes, moves its tile, releases its token and decrements its counter with its status. (R215) -/
  | copyComplete (core cx : Nat)
  /-- CCOPY_COMMIT: A CCOPY compares its version word and applies all lines and the incremented word, or reports MISMATCH. (R221) -/
  | ccopyCommit (core cx : Nat)
  /-- MWLOAD_LATCH: The array latches the weight format and first rows, moving the tile hold. (R228) -/
  | mwloadLatch (core : Nat)
  /-- MZERO_EXECUTE: The accumulator tile is zeroed and its marks cleared over 128 clocks. (R231) -/
  | mzeroExecute (core : Nat)
  /-- MMUL_K_STEP: One k-step streams activations through the array into the shadow. (R230) -/
  | mmulKStep (core : Nat)
  /-- MDRAIN_COMPLETE: The drained rows are written and the tile goes from DRAINING to READY. (R232) -/
  | mdrainComplete (core : Nat)
  /-- MATRIX_PRIORITY_AGEING: Each complete 32 µs at the head of its queue lowers a command's priority number by one. (R225) -/
  | matrixPriorityAgeing (core cx : Nat)
  /-- GOVERNOR_GRANT: The rate-of-rise budget refills enough to grant an array start. (R236) -/
  | governorGrant (core : Nat)
  /-- RESAMPLE_START: The command starts, reads its surface descriptors and fails with FAULT if they are bad. (R270) -/
  | resampleStart (core cx : Nat)
  /-- RESAMPLE_PIXEL: Overlock computes and stores one pixel's resampled record. (R271) -/
  | resamplePixel (core cx : Nat)
  /-- RESAMPLE_COMPLETE: The last pixel is stored and the counter decremented with the command's status. (R270) -/
  | resampleComplete (core cx : Nat)
  /-- PREEMPTION: Firmware stops a crew, lets scratchpad copies finish, writes the save area and releases resources. (R304) -/
  | preemption (crew : Nat) (area : Nat)
  /-- RESTORE: A saved crew is placed on a core and every thread restarts at its restart point. (R306) -/
  | restore (crew : Nat) (target : Nat)
  /-- CONTEXT_SWITCH: Every crew of a context is pre-empted, its slots stopped and its TLB tag invalidated. (R309) -/
  | contextSwitch (ctx : Nat) (area : Nat)
  /-- ACCUMULATOR_RECLAIM: Firmware spills a pre-empted crew's accumulator tiles to its save area. (R307) -/
  | accumulatorReclaim (crew : Nat) (area : Nat)
  /-- QTAIL_WRITE: A write of a slot's doorbell tail, stopping the slot on OVERRUN. (R281) -/
  | qtailWrite (slot : Nat) (value : W64)
  /-- QCTL_WRITE: Firmware maps or unmaps a slot, refusing a bad base or size. (R278) -/
  | qctlWrite (slot : Nat) (value : W64)
  /-- PACKET_READ: The front end reads and checks the next packet of a slot's ring. (R285) -/
  | packetRead (slot : Nat)
  /-- QUEUE_AGEING: A slot waiting with a readable packet lowers its priority number each 64 µs. (R294) -/
  | queueAgeing (slot : Nat)
  /-- PAD: A PAD packet consumes its units and does nothing. (R284) -/
  | pad (slot : Nat)
  /-- LAUNCH: A LAUNCH packet is checked and creates a launch scope and begins admission, or fails. (R289) -/
  | launch (slot : Nat)
  /-- TASKS: A TASKS packet places its entries in the task queues of the scope's launch. (R284) -/
  | tasks (slot : Nat)
  /-- SIGNAL_WRITE: Writes a value to an address once earlier packets of the queue complete. (R284) -/
  | signalWrite (slot : Nat)
  /-- SIGNAL_DEC: Decrements a dependence counter, starting bound work at zero. (R287) -/
  | signalDec (slot : Nat)
  /-- SIGNAL_ARM: Arms an idle dependence counter with a count. (R287) -/
  | signalArm (slot : Nat)
  /-- SIGNAL_INC: Increments a dependence counter, saturating. (R287) -/
  | signalInc (slot : Nat)
  /-- WAIT_COUNTER_ZERO: Holds the slot until a dependence counter is zero. (R284) -/
  | waitCounterZero (slot : Nat)
  /-- WAIT_WORD_GE: Holds the slot until a memory word is at least a value. (R284) -/
  | waitWordGe (slot : Nat)
  /-- WAIT_WORD_EQ: Holds the slot until a memory word equals a value. (R284) -/
  | waitWordEq (slot : Nat)
  /-- WAIT_CHECK: Every 2 µs a WAITING slot re-checks its WAIT condition. (R284) -/
  | waitCheck (slot : Nat)
  /-- CANCEL_PACKET: Cancels a scope of any level and stores the ticket. (R284) -/
  | cancelPacket (slot : Nat)
  /-- FENCE_PACKET_DEV: Completes when earlier packets completed and their stores are visible at DEV scope. (R284) -/
  | fencePacketDev (slot : Nat)
  /-- FENCE_PACKET_SYS: Completes when earlier packets completed and their stores are visible at SYS scope. (R284) -/
  | fencePacketSys (slot : Nat)
  /-- SCOPE_CREATE: Creates a job, phase or graph scope and writes its handle. (R284) -/
  | scopeCreate (slot : Nat)
  /-- SCOPE_SEAL: Seals a phase or graph scope. (R284) -/
  | scopeSeal (slot : Nat)
  /-- SCOPE_CLOSE_JOB: The host closes a job. (R284) -/
  | scopeCloseJob (slot : Nat)
  /-- ATTEST: The management partition writes a signed attestation report. (R337) -/
  | attest (slot : Nat)
  /-- SLEWLIM_WRITE: Sets the rate-of-rise limit, ignoring invalid STEP values. (R317) -/
  | slewlimWrite (die : Nat) (value : W64)
  /-- TELEMETRY_RECORD: Every 1 ms each die writes one telemetry record and advances TLMSEQ. (R318) -/
  | telemetryRecord (die : Nat)
  /-- CURRENT_SAMPLE: Every 1 µs the die samples its core-rail current. (R318) -/
  | currentSample (die : Nat)
  /-- MONITOR_INTERVAL: Every 1 ms the prefetch monitors take a ratio sample. (R322) -/
  | monitorInterval (core : Nat)
  /-- ECC_RETRY: An uncorrectable read is retried once and then treated as transient or lasting. (R319) -/
  | eccRetry (site : Nat) (place : Nat) (ok : Bool)
  /-- DIE_LINK_LANE_FAILURE: A die-link module with a failing lane drops to 32 lanes. (R23) -/
  | dieLinkLaneFailure (link : Nat)
  /-- TROPEX_PORT_FAILURE: A failed Tropex port's traffic moves to the remaining routes. (R314) -/
  | tropexPortFailure (port : Nat)
  /-- POWER_ON: At power-on the carve-out is zero, die 0 leads and the boot images are logged. (R155) -/
  | powerOn
  /-- FWCMD_STAGE: Starts reading and verifying a firmware image into slot B. (R332) -/
  | fwcmdStage (die part : Nat)
  /-- STAGE_END: Verification finishes and the image is logged STAGED, or refused. (R332) -/
  | stageEnd (die part : Nat) (image : List Byte)
  /-- FWCMD_REPLACE: Starts quiescing the old image, after a leadership handoff on the leader. (R332) -/
  | fwcmdReplace (die part : Nat)
  /-- FWCMD_DISCARD: Clears a staged image with outcome DISCARDED. (R332) -/
  | fwcmdDiscard (die part : Nat)
  /-- QUIESCE_TIMEOUT: The old image misses its 5 ms handover and resumes. (R332) -/
  | quiesceTimeout (die part : Nat)
  /-- EXPORT: At its handover point the old image writes its state block. (R333) -/
  | fwExport (die part : Nat)
  /-- FALLBACK: A missed heartbeat deadline restarts the old image with its exported block. (R334) -/
  | fallback (die part : Nat)
  /-- MAILBOX_REQUEST: A request for a partition enters its mailbox, or is answered BUSY when full. (R331) -/
  | mailboxRequest (die part : Nat) (entry : W64)
  /-- LEASE_RENEWAL: The leader's 5 ms renewal message carries the new lease end to the follower. (R326) -/
  | leaseRenewal
  /-- LEADER_LEASE_EXPIRY: The leader's time reaches its lease end without renewal and it stops leader duties. (R326) -/
  | leaderLeaseExpiry
  /-- LEADER_TAKEOVER: 1 ms after the last lease end the follower becomes leader. (R326) -/
  | leaderTakeover
  /-- HANDOFF: The follower receives HANDOFF and leads with a 20 ms lease. (R327) -/
  | handoff
  /-- REGISTER_WRITE: A write to a register without behaviour of its own stores its RW fields. (R4) -/
  | registerWrite (fn : Nat) (offset : Nat) (value : W64)
  /-- UNASSIGNED_ENCODING: A fetched word with LEN 0b00 or an unassigned OPC raises ILLEGAL with sub-code 0x01 or 0x02 and performs nothing. (R117) -/
  | unassignedEncoding (w : W64)
  /-- VARIABLE_LATENCY_RESULT: A variable-latency result that is not a memory reply, such as FDIV, FSQRT, SREAD, TSTAT, SPAWN, SCOPE or CANCEL, is written and its token released. (R90) -/
  | variableLatencyResult (op : Nat)
  /-- CORE_RESET: A reset of a core sets its carve-out w to zero. (R155) -/
  | coreReset (core : Nat)
  /-- POWER_OFF: The dies lose power, the module presents nothing to software, and the power cycle ends. (R24) -/
  | powerOff
  /-- TLB_INVALIDATION: Firmware invalidates a tag and page in every core's TLB of both dies and waits for that invalidation to complete. (R166) -/
  | tlbInvalidation (tag page : Nat)
  /-- MONITOR_CLEAR: Firmware clears a core's or a die's monitors through the management interface. (R322) -/
  | monitorClear (unit : Nat)
  deriving DecidableEq, Repr

end Sys2Proof
end

