-- ==== Sys2Proof/Machine/Checks.lean ====
section
/-!
DEFINITION. The encoding checks of 05 R120, orders 4 to 11, as far as the instruction's words and its agent decide
them: which agents accept an instruction (R118), its lengths (R113 to R116), its operand fields (R78 to R82, R106,
R107), its modifier (R110 to R112) and its token field (R90). The conditions of order 11 that look at the machine's
state stand with the instruction's meaning.
-/

namespace Sys2Proof

/-- Domain and opcode of an instruction (R113 to R116); none for a step that is no instruction. -/
def opcodeOf : Instr → Option (Nat × Nat × Fields)
  | .sadd f => some (0, 0x00, f)
  | .ssub f => some (0, 0x01, f)
  | .smul f => some (0, 0x02, f)
  | .smulhi f => some (0, 0x03, f)
  | .sand f => some (0, 0x04, f)
  | .sor f => some (0, 0x05, f)
  | .sxor f => some (0, 0x06, f)
  | .sshl f => some (0, 0x07, f)
  | .sshr f => some (0, 0x08, f)
  | .smin f => some (0, 0x09, f)
  | .smax f => some (0, 0x0A, f)
  | .scmp f => some (0, 0x0B, f)
  | .ssel f => some (0, 0x0C, f)
  | .smov f => some (0, 0x0D, f)
  | .sli f => some (0, 0x0E, f)
  | .sld f => some (0, 0x10, f)
  | .sst f => some (0, 0x11, f)
  | .sread f => some (0, 0x18, f)
  | .sreadClr f => some (0, 0x18, f)
  | .swriteSeed f => some (0, 0x19, f)
  | .swriteCheck f => some (0, 0x19, f)
  | .swriteDet f => some (0, 0x19, f)
  | .swriteMonitor f => some (0, 0x19, f)
  | .swritePrivcx f => some (0, 0x19, f)
  | .swriteMqprio f => some (0, 0x19, f)
  | .swriteTilelo f => some (0, 0x19, f)
  | .swriteTilehi f => some (0, 0x19, f)
  | .swriteFenced f => some (0, 0x19, f)
  | .swriteFreply f => some (0, 0x19, f)
  | .swriteIndir f => some (0, 0x19, f)
  | .swritePewter f => some (0, 0x19, f)
  | .swriteRoute f => some (0, 0x19, f)
  | .swriteNode f => some (0, 0x19, f)
  | .swriteHbeat f => some (0, 0x19, f)
  | .vadd f => some (1, 0x00, f)
  | .vsub f => some (1, 0x01, f)
  | .vmul f => some (1, 0x02, f)
  | .vmulhi f => some (1, 0x03, f)
  | .vmad f => some (1, 0x04, f)
  | .vand f => some (1, 0x05, f)
  | .vor f => some (1, 0x06, f)
  | .vxor f => some (1, 0x07, f)
  | .vshl f => some (1, 0x08, f)
  | .vshr f => some (1, 0x09, f)
  | .vmin f => some (1, 0x0A, f)
  | .vmax f => some (1, 0x0B, f)
  | .vabs f => some (1, 0x0C, f)
  | .vclz f => some (1, 0x0D, f)
  | .vpopc f => some (1, 0x0E, f)
  | .vcmp f => some (1, 0x0F, f)
  | .vsel f => some (1, 0x10, f)
  | .vmov f => some (1, 0x11, f)
  | .vaff f => some (1, 0x12, f)
  | .vshfl f => some (1, 0x13, f)
  | .vreduce f => some (1, 0x14, f)
  | .vballot f => some (1, 0x15, f)
  | .vscan f => some (1, 0x16, f)
  | .fadd f => some (1, 0x40, f)
  | .fsub f => some (1, 0x41, f)
  | .fmul f => some (1, 0x42, f)
  | .ffma f => some (1, 0x43, f)
  | .fmin f => some (1, 0x44, f)
  | .fmax f => some (1, 0x45, f)
  | .fcmp f => some (1, 0x46, f)
  | .fclass f => some (1, 0x47, f)
  | .fcvt f => some (1, 0x48, f)
  | .frnd f => some (1, 0x49, f)
  | .fkey f => some (1, 0x4A, f)
  | .frcp f => some (1, 0x50, f)
  | .frsq f => some (1, 0x51, f)
  | .fsqrt f => some (1, 0x52, f)
  | .fdiv f => some (1, 0x53, f)
  | .fexp2 f => some (1, 0x54, f)
  | .flog2 f => some (1, 0x55, f)
  | .fsin f => some (1, 0x56, f)
  | .fcos f => some (1, 0x57, f)
  | .dxenc f => some (1, 0x60, f)
  | .dxdec f => some (1, 0x61, f)
  | .ld f => some (2, 0x00, f)
  | .st f => some (2, 0x01, f)
  | .lds f => some (2, 0x02, f)
  | .ldsT f => some (2, 0x02, f)
  | .sts f => some (2, 0x03, f)
  | .stsT f => some (2, 0x03, f)
  | .ldrc f => some (2, 0x04, f)
  | .atom f => some (2, 0x05, f)
  | .atoms f => some (2, 0x06, f)
  | .pref f => some (2, 0x07, f)
  | .rtbox f => some (2, 0x40, f)
  | .rttri f => some (2, 0x41, f)
  | .rtstep f => some (2, 0x42, f)
  | .rthit f => some (2, 0x43, f)
  | .ltwalk f => some (2, 0x44, f)
  | .rsvld f => some (2, 0x50, f)
  | .rsvst f => some (2, 0x51, f)
  | .rsvupd f => some (2, 0x52, f)
  | .rsvmrg f => some (2, 0x53, f)
  | .rsvnrm f => some (2, 0x54, f)
  | .rng f => some (2, 0x55, f)
  | .rngU f => some (2, 0x55, f)
  | .bra f => some (3, 0x00, f)
  | .brc f => some (3, 0x01, f)
  | .call f => some (3, 0x02, f)
  | .callt f => some (3, 0x03, f)
  | .ret f => some (3, 0x04, f)
  | .bjoin f => some (3, 0x05, f)
  | .bjoinAll f => some (3, 0x05, f)
  | .exit f => some (3, 0x06, f)
  | .yield f => some (3, 0x07, f)
  | .nop f => some (3, 0x08, f)
  | .trap f => some (3, 0x09, f)
  | .eret f => some (3, 0x0A, f)
  | .eretNext f => some (3, 0x0A, f)
  | .bar f => some (3, 0x20, f)
  | .gbar f => some (3, 0x21, f)
  | .fenceCrew f => some (3, 0x22, f)
  | .fenceDev f => some (3, 0x22, f)
  | .fenceSys f => some (3, 0x22, f)
  | .cwait f => some (3, 0x23, f)
  | .cwaitPoll f => some (3, 0x23, f)
  | .spawn f => some (3, 0x30, f)
  | .taskget f => some (3, 0x31, f)
  | .taskend f => some (3, 0x32, f)
  | .scope f => some (3, 0x33, f)
  | .sclose f => some (3, 0x34, f)
  | .cancel f => some (3, 0x35, f)
  | .scwait f => some (3, 0x36, f)
  | .qpush f => some (3, 0x37, f)
  | .tmarkReady f => some (3, 0x40, f)
  | .tmarkEmpty f => some (3, 0x40, f)
  | .tstat f => some (3, 0x41, f)
  | .copy f => some (3, 0x80, f)
  | .ccopy f => some (3, 0x81, f)
  | .halo f => some (3, 0x82, f)
  | .mwload f => some (3, 0x83, f)
  | .mmul f => some (3, 0x84, f)
  | .mdrain f => some (3, 0x85, f)
  | .mzero f => some (3, 0x86, f)
  | .mzeroAuto f => some (3, 0x86, f)
  | .resample f => some (3, 0x87, f)
  | .carve f => some (3, 0x88, f)
  | _ => none

/-- What an operand field names (05 R106). -/
inductive Role where
  /-- not used by the entry: zero (R106) -/
  | zero
  /-- other data, as the entry states -/
  | data
  /-- a V-register read as one operand; 126 and 127 are legal (R78) -/
  | vsrc
  /-- a V-register written as one operand; 126 discards (R78) -/
  | vdst
  /-- a group of V-registers that must lie below `.regs n` -/
  | group (size : Nat)
  /-- a V-register, or an S-register where BS or CS is set (R82) -/
  | vOrS
  /-- an S-register (R80) -/
  | s
  /-- an S-register with its number between two limits (a group of S-registers) -/
  | sIn (lo hi : Nat)
  deriving DecidableEq, Repr

/-- What a last-use bit may be (R93, R105). -/
inductive LastUse where
  /-- legal on a V-register below 126 -/
  | legal
  /-- the entry does not name it: zero, or sub-code 0x07 -/
  | unused
  /-- the operand is no V-register that takes it: sub-code 0x08 -/
  | barred
  deriving DecidableEq, Repr

/-- The layout of the extension (R107). -/
inductive Layout where
  | none
  | c
  | i
  | immB
  | q
  | x
  deriving DecidableEq, Repr

/-- Whether SET is used (R90). -/
inductive SetUse where
  | never
  | optional
  | required
  deriving DecidableEq, Repr

/-- The latency of a result (R89, R90). -/
inductive Latency where
  | none
  | fixed (clocks : Nat)
  | varying
  deriving DecidableEq, Repr

/-- What the manual says of one instruction's encoding, for the words that it has. -/
structure Spec where
  lens : List Nat := [1]
  d : Role := .zero
  a : Role := .zero
  b : Role := .zero
  c : Role := .zero
  luA : LastUse := .unused
  luB : LastUse := .unused
  /-- the MOD bits that have a meaning (R112) -/
  modMask : Nat := 0
  /-- the modifier holds values that the instruction accepts (check 7) -/
  modOk : Bool := true
  lay : Layout := .none
  /-- the bits of IMM24 (layout C) or of the descriptor (layout X) that the entry uses -/
  immMask : Nat := 0
  /-- entry-specific fields that must be zero are (check 8) -/
  zeroOk : Bool := true
  /-- entry-specific operand ranges hold (check 9) -/
  rangeOk : Bool := true
  /-- the entry's own conditions on the words hold (check 11) -/
  entryOk : Bool := true
  tok : SetUse := .optional
  /-- performed once per packet (R105) -/
  once : Bool := false
  /-- a commit instruction (R51) -/
  commit : Bool := false
  /-- the packet is held to R34 when D names S1 to S63 -/
  scalarDest : Bool := false
  lat : Latency := .none
  deriving DecidableEq, Repr

namespace Fields

/-- Bits `[hi:lo]` of MOD. -/
def m (f : Fields) (hi lo : Nat) : Nat := bitsOf f.mod.toNat hi lo

/-- One bit of MOD. -/
def mb (f : Fields) (k : Nat) : Bool := f.mod.getLsbD k

/-- The C field of layout C (R107). -/
def cReg (f : Fields) : Nat := bitsOf f.ext.toNat 6 0

/-- The CS bit of layout C (R107). -/
def cs (f : Fields) : Bool := f.ext.getLsbD 7

/-- IMM24 of layout C, as bits. -/
def imm24 (f : Fields) : Nat := bitsOf f.ext.toNat 31 8

/-- IMM24 of layout C, sign-extended to 64 bits (R109). -/
def sx24 (f : Fields) : W64 := (BitVec.ofNat 24 f.imm24).signExtend 64

/-- IMM32 of layout I. -/
def imm32 (f : Fields) : W32 := f.ext.extractLsb' 0 32

/-- Bits `[hi:lo]` of the descriptor of layout X, numbered from 0 at bit 64 of the instruction. -/
def x (f : Fields) (hi lo : Nat) : Nat := bitsOf f.ext.toNat hi lo

/-- The counter designator of an engine command's descriptor (R216). -/
def cnt (f : Fields) : Nat := f.x 45 30

/-- The SCOPE field of an engine command's descriptor (R216). -/
def scopeReg (f : Fields) : Nat := f.x 63 58

/-- The offset of BRA: bits 53:26 of the word, signed (R106). -/
def off28 (f : Fields) : Int := (BitVec.ofNat 28
  (f.d.toNat + 2 ^ 7 * f.a.toNat + 2 ^ 14 * f.b.toNat + 2 ^ 21 * f.bs.toNat + 2 ^ 22 * f.mod.toNat)).toInt

/-- The offset of BRC: bits 47:26, signed (R352). -/
def off22 (f : Fields) : Int := (BitVec.ofNat 22
  (f.d.toNat + 2 ^ 7 * f.a.toNat + 2 ^ 14 * f.b.toNat + 2 ^ 21 * f.bs.toNat)).toInt

/-- The offset of CALL: bits 53:33, signed (R353). -/
def off21 (f : Fields) : Int := (BitVec.ofNat 21
  (f.a.toNat + 2 ^ 7 * f.b.toNat + 2 ^ 14 * f.bs.toNat + 2 ^ 15 * f.mod.toNat)).toInt

end Fields

/-- A scalar ALU instruction (R409). MOD values that its row does not list fail check 7. -/
def scalarAlu (modOk : Bool) : Spec :=
  { d := .s, a := .s, b := .s, luA := .barred, luB := .barred, modMask := 63, modOk := modOk,
    once := true, scalarDest := true, lat := .fixed 2 }

/-- A two-operand vector integer instruction of R431 with its types and saturation. -/
def vecInt (f : Fields) (types : List Nat) (sat : Bool) (l : Nat) : Spec :=
  { lens := [1, 2], d := .vdst, a := .vsrc, b := if f.len = 2#2 then .data else .vOrS, lay := .immB,
    luA := .legal, luB := .legal, modMask := 15, modOk := types.contains (f.m 2 0) && (sat || !f.mb 3),
    lat := .fixed l }

/-- A unary vector integer instruction of R431. -/
def vecUnary (f : Fields) (sat : Bool) : Spec :=
  { d := .vdst, a := .vsrc, luA := .legal, modMask := 15,
    modOk := [0, 2, 4].contains (f.m 2 0) && (sat || !f.mb 3), lat := .fixed 4 }

/-- The type and rounding fields of R110. -/
def fpModOk (f : Fields) : Bool := f.m 2 0 ≤ 2 && f.m 5 3 ≤ 5

/-- The type field of an exact or frozen instruction, whose rounding field is zero (R110). -/
def fpExactOk (f : Fields) : Bool := f.m 2 0 ≤ 2 && f.m 5 3 == 0

/-- A frozen transcendental (R372). -/
def frozenFp (f : Fields) : Spec :=
  { d := .vdst, a := .vsrc, luA := .legal, modMask := 63, modOk := fpExactOk f, lat := .fixed 12 }

/-- The registers of one lane that LD's size field names (R384); 7 stands for the record of RSVLD (R263). -/
def sizeRegs (sz : Nat) : Nat := if sz = 7 then 8 else if sz = 6 then 4 else if sz = 5 then 2 else 1

/-- D of a load: one register, or a group (R384). -/
def loadDest (f : Fields) : Role := if f.m 2 0 ≤ 4 then .vdst else .group (sizeRegs (f.m 2 0))

/-- D of a store: a source, or a group (R419). -/
def storeSrc (f : Fields) : Role := if f.m 2 0 ≤ 4 then .vsrc else .group (sizeRegs (f.m 2 0))

/-- SET of a load: required unless D discards (R384). -/
def loadSet (f : Fields) : SetUse := if f.d = 126#7 then .optional else .required

/-- A memory instruction of R109: index, base and scale. -/
def memBase (f : Fields) : Spec :=
  { lens := [1, 2], a := .vsrc, b := .s, luA := .legal, luB := .barred, modMask := 0x30,
    lay := if f.len = 2#2 then .c else .none, immMask := 0xFFFFFF, lat := .varying }

/-- The base or the tile of a scratchpad instruction (R387). -/
def ldsBase (f : Fields) : Role := if f.mb 3 then .data else .s

/-- ATOM and ATOMS (R339). -/
def atomSpec (f : Fields) : Spec :=
  let k := if f.len = 2#2 then f.cReg else f.d.toNat
  let fromS := f.len = 2#2 && f.cs
  { memBase f with
    d := .vdst, c := if f.len = 2#2 then .vOrS else .zero, modMask := 63, modOk := f.m 3 0 ≤ 11,
    rangeOk := !(f.m 3 0 == 10 && !fromS && (k ≥ 125)), commit := true, tok := loadSet f }

/-- An instruction with only the issue-control fields (R346, R366, R396, R442). -/
def bare : Spec := { tok := .never }

/-- The link of CALL, CALLT and RET (R353, R404): a pair of V-registers in a band, an S-register elsewhere. -/
def linkRole (k : AgentKind) : Role := if k = .band then .group 2 else .s

/-- A scope instruction (R60). -/
def scopeSpec (commit : Bool) : Spec :=
  { d := .s, a := .s, luA := .barred, once := true, commit := commit, scalarDest := true, lat := .varying,
    tok := .required }

/-- An engine command (R216). -/
def engineSpec : Spec := { once := true, commit := true, lat := .varying }

/-- SWRITE (R422): A the value, B the index, D the target code. -/
def swriteSpec (f : Fields) (code : Nat) : Spec :=
  { d := .data, a := .s, b := .s, luA := .barred, luB := .barred, once := true, entryOk := f.d.toNat == code,
    lat := .varying }

/-- VREDUCE's and VSCAN's operation and type (R438). -/
def reduceOk (f : Fields) : Bool := f.m 5 3 ≤ 5 && f.m 2 0 ≤ 4 && !(f.m 5 3 ≥ 3 && f.m 2 0 ≥ 2)

/-- Whether two groups of registers overlap. -/
def overlap (x nx y ny : Nat) : Bool := x < y + ny && y < x + nx

/-- What the entries say of an instruction's encoding, for the agent that issues it. -/
def specOf (k : AgentKind) : Instr → Spec
  | .sadd f | .ssub f => scalarAlu (f.mod.toNat ≤ 2)
  | .smul f | .sand f | .sor f | .sxor f | .sshl f => scalarAlu (f.mod.toNat == 0)
  | .smulhi f | .sshr f | .smin f | .smax f => scalarAlu (f.mod.toNat ≤ 1)
  | .scmp f => { scalarAlu (f.mod.toNat == 0) with
      d := .data, scalarDest := false, entryOk := f.d.toNat / 8 ≤ 10 }
  | .ssel f => scalarAlu (f.mod.toNat ≤ 31)
  | .smov f => { scalarAlu (f.mod.toNat == 0) with b := .zero }
  | .sli f =>
    { lens := [2, 3], d := .s, modMask := 1, modOk := !(f.len == 3#2 && f.mb 0),
      lay := if f.len = 3#2 then .q else .i, once := true, scalarDest := true, lat := .fixed 2 }
  | .sld f => {
      lens := [1, 2], d := .s, a := .s, luA := .barred, modMask := 15, modOk := f.m 2 0 != 7,
      lay := .i, once := true, scalarDest := true, lat := .varying, tok := .required }
  | .sst f => {
      lens := [1, 2], a := .s, b := .s, luA := .barred, luB := .barred, modMask := 7,
      modOk := f.m 2 0 % 2 == 0, lay := .i, once := true, lat := .varying }
  | .sread f | .sreadClr f =>
    { d := .s, a := .data, modMask := 1, once := true, scalarDest := true, lat := .varying, tok := .required,
      entryOk := f.a.toNat ≤ 0x14 && (!f.mb 0 || [0x0A, 0x0B, 0x0F].contains f.a.toNat) }
  | .swriteSeed f => swriteSpec f 0x00
  | .swriteCheck f => swriteSpec f 0x01
  | .swriteDet f => swriteSpec f 0x02
  | .swriteMonitor f => swriteSpec f 0x03
  | .swritePrivcx f => swriteSpec f 0x04
  | .swriteMqprio f => swriteSpec f 0x05
  | .swriteTilelo f => swriteSpec f 0x06
  | .swriteTilehi f => swriteSpec f 0x07
  | .swriteFenced f => swriteSpec f 0x08
  | .swriteFreply f => swriteSpec f 0x09
  | .swriteIndir f => swriteSpec f 0x0A
  | .swritePewter f => swriteSpec f 0x0B
  | .swriteRoute f => swriteSpec f 0x0C
  | .swriteNode f => swriteSpec f 0x0D
  | .swriteHbeat f => swriteSpec f 0x0E
  | .vadd f | .vsub f => vecInt f [0, 1, 2, 3, 4, 5] true 4
  | .vmul f => vecInt f [0, 1, 2, 3, 4, 5] true 6
  | .vmulhi f => vecInt f [0, 1, 2, 3, 4, 5] false 6
  | .vmad f => { vecInt f [0, 1, 2, 3, 4, 5] true 6 with
      lens := [2], b := .vOrS, c := .vOrS, lay := .c, immMask := 0 }
  | .vand f | .vor f | .vxor f => vecInt f [0] false 4
  | .vshl f => vecInt f [0, 1, 2, 3, 4, 5] true 4
  | .vshr f | .vmin f | .vmax f => vecInt f [0, 1, 2, 3, 4, 5] false 4
  | .vabs f => vecUnary f true
  | .vclz f | .vpopc f => vecUnary f false
  | .vcmp f => { vecInt f [0, 1] false 4 with d := .data, entryOk := f.d.toNat / 8 ≤ 6 }
  | .vsel f => { vecInt f [0] false 4 with lens := [1], lay := .none, b := .vOrS }
  | .vmov f => { vecInt f [0] false 4 with
      lens := [1], lay := .none, a := if f.bs then .zero else .vsrc, b := if f.bs then .vOrS else .zero,
      luA := if f.bs then .unused else .legal, luB := if f.bs then .barred else .unused }
  | .vaff _ => {
      lens := [2], d := .vdst, b := .vOrS, c := .vOrS, luB := .legal, lay := .c, immMask := 0xFFFFFF,
      lat := .fixed 4 }
  | .vshfl _ => { d := .vdst, a := .vsrc, b := .vOrS, luA := .legal, luB := .legal, modMask := 0x30, lat := .fixed 8 }
  | .vreduce f => { d := .vdst, a := .vsrc, luA := .legal, modMask := 63, modOk := reduceOk f, lat := .fixed 8 }
  | .vballot f => {
      d := .vdst, a := .data, modMask := 0x30, modOk := f.m 5 4 ≤ 1, zeroOk := f.a.toNat < 16,
      lat := .fixed 8 }
  | .vscan f => {
      d := .vdst, a := .vsrc, b := .data, luA := .legal, modMask := 63, modOk := reduceOk f,
      zeroOk := f.b.toNat < 32 && (f.b.getLsbD 1 || bitsOf f.b.toNat 4 2 == 0), lat := .fixed 8 }
  | .fadd f | .fsub f | .fmul f => { vecInt f [0] false 6 with modMask := 63, modOk := fpModOk f }
  | .ffma f => { vecInt f [0] false 6 with
      modMask := 63, modOk := fpModOk f, lens := [2], b := .vOrS, c := .vOrS,
      lay := .c, immMask := 0 }
  | .fmin f | .fmax f => {
      d := .vdst, a := .vsrc, b := .vOrS, luA := .legal, luB := .legal, modMask := 63,
      modOk := fpExactOk f, lat := .fixed 6 }
  | .fcmp f => {
      d := .data, a := .vsrc, b := .vOrS, luA := .legal, luB := .legal, modMask := 63,
      modOk := fpExactOk f, entryOk := f.d.toNat / 8 ≤ 7, lat := .fixed 6 }
  | .fclass f => { d := .vdst, a := .vsrc, modMask := 63, modOk := fpExactOk f, lat := .fixed 6 }
  | .fcvt f => {
      d := .vdst, a := .vsrc, b := .data, luA := .legal, modMask := 63,
      modOk := f.m 2 0 ≤ 4 && f.m 5 3 ≤ 5, zeroOk := f.b.toNat < 8,
      entryOk := f.b.toNat ≤ 4 && f.b.toNat != f.m 2 0 && !(f.b.toNat ≥ 3 && f.m 2 0 ≥ 3), lat := .fixed 6 }
  | .frnd f => { d := .vdst, a := .vsrc, modMask := 63, modOk := fpModOk f, lat := .fixed 6 }
  | .fkey f => {
      d := .vdst, a := .vsrc, b := .data, modMask := 63, modOk := fpExactOk f, zeroOk := f.b.toNat < 2,
      lat := .fixed 6 }
  | .frcp f | .frsq f | .fexp2 f | .flog2 f | .fsin f | .fcos f => frozenFp f
  | .fsqrt f => { d := .vdst, a := .vsrc, modMask := 63, modOk := fpModOk f, lat := .varying, tok := .required }
  | .fdiv f => {
      d := .vdst, a := .vsrc, b := .vOrS, modMask := 63, modOk := fpModOk f, lat := .varying,
      tok := .required }
  | .dxenc f => {
      d := .vdst, a := .vsrc, b := if f.bs then .vOrS else .data, luA := .legal,
      luB := if f.bs then .barred else .unused, modMask := 31,
      modOk := f.m 1 0 != 3 && f.m 3 2 != 3, rangeOk := f.bs || f.b == 126#7, lat := .fixed 8 }
  | .dxdec f => {
      d := .vdst, a := .vsrc, luA := .legal, modMask := 15,
      modOk := f.m 1 0 != 3 && f.m 3 2 % 2 == 0, lat := .fixed 8 }
  | .ld f => { memBase f with d := loadDest f, modMask := 63, modOk := f.m 2 0 != 7, tok := loadSet f }
  | .st f => { memBase f with d := storeSrc f, modMask := 0x37, modOk := [0, 2, 4, 5, 6].contains (f.m 2 0) }
  | .lds f | .ldsT f => { memBase f with
      d := loadDest f, b := ldsBase f, luA := .unused, luB := if f.mb 3 then .unused else .barred, modMask := 63,
      modOk := f.m 2 0 != 7, zeroOk := !(f.mb 3 && f.b.getLsbD 6), tok := loadSet f }
  | .sts f | .stsT f => { memBase f with
      d := storeSrc f, b := ldsBase f, luA := .unused, luB := if f.mb 3 then .unused else .barred, modMask := 63,
      modOk := [0, 2, 4, 5, 6].contains (f.m 2 0), zeroOk := !(f.mb 3 && f.b.getLsbD 6) }
  | .ldrc f => { memBase f with
      lens := [2], d := loadDest f, c := .data, modMask := 0x37, modOk := f.m 2 0 != 7,
      zeroOk := f.cReg < 16 && !f.cs, entryOk := f.cReg % 16 != 0, tok := loadSet f }
  | .atom f | .atoms f => atomSpec f
  | .pref f => memBase f
  | .rtbox f => {
      d := .group 7, a := .group 16, b := .s, lat := .varying, tok := .required,
      entryOk := !overlap f.d.toNat 7 f.a.toNat 16 }
  | .rttri f => {
      d := .group 6, a := .group 16, b := .s, modMask := 3, modOk := f.m 1 0 != 3, lat := .varying,
      tok := .required, entryOk := !overlap f.d.toNat 6 f.a.toNat 16 }
  | .rtstep f => {
      d := .group 16, a := .group 7, b := .vdst, lat := .fixed 4,
      entryOk := !overlap f.d.toNat 16 f.a.toNat 7 && !overlap f.b.toNat 1 f.d.toNat 16 &&
        !overlap f.b.toNat 1 f.a.toNat 7 }
  | .rthit f => {
      lens := [2], d := .group 16, a := .group 6, c := if f.imm24 % 2 = 1 then .vOrS else .zero,
      lay := .c, immMask := 1, lat := .fixed 6, entryOk := !overlap f.d.toNat 16 f.a.toNat 6 }
  | .ltwalk f => {
      lens := [2], d := .group 5, a := .group 3, b := .s, lay := .c, lat := .varying, tok := .required,
      entryOk := !overlap f.d.toNat 5 f.a.toNat 3 }
  | .rsvld f => { memBase f with lens := [2], d := .group 8, tok := .required }
  | .rsvst f => { memBase f with lens := [2], d := .group 8 }
  | .rsvupd f => {
      lens := [2], d := .group 8, a := .group 4, luA := .barred, luB := .barred, lay := .c, immMask := 0xFFFF,
      entryOk := f.imm24 != 0 && !overlap f.d.toNat 8 f.a.toNat 4, lat := .fixed 10 }
  | .rsvmrg f => {
      lens := [2], d := .group 8, a := .group 8, b := .vOrS, luA := .barred, luB := .legal, lay := .c,
      immMask := 0xFFFF, lat := .fixed 10,
      entryOk := f.imm24 != 0 && !overlap f.d.toNat 8 f.a.toNat 8 &&
        (f.bs || (!overlap f.b.toNat 1 f.d.toNat 8 && !overlap f.b.toNat 1 f.a.toNat 8)) }
  | .rsvnrm _ => { d := .group 8, luA := .barred, luB := .barred, lat := .fixed 10 }
  | .rng f | .rngU f => {
      d := .vdst, a := .group 2, modMask := 1, lat := .fixed 8,
      entryOk := !overlap f.d.toNat 1 f.a.toNat 2 }
  | .bra _ => { d := .data, a := .data, b := .data, modMask := 63, tok := .never }
  | .brc f => { d := .data, a := .data, b := .data, modMask := 63, modOk := f.m 5 4 != 3, tok := .never }
  | .call _ => { d := linkRole k, a := .data, b := .data, modMask := 63, tok := .never }
  | .callt _ => {
      d := linkRole k, a := if k = .band then .vsrc else .s, lat := .varying, tok := .required,
      luA := if k = .band then .unused else .barred }
  | .ret _ => { a := linkRole k, luA := if k = .band then .unused else .barred, tok := .never }
  | .bjoin f | .bjoinAll f => {
      a := if f.mb 0 then .zero else .s, luA := if f.mb 0 then .unused else .barred,
      modMask := 1, tok := .never }
  | .exit _ => { bare with entryOk := k != .fw }
  | .yield _ => { bare with once := true }
  | .nop _ => bare
  | .trap _ => { a := .s, luA := .barred, once := true, tok := .never }
  | .eret _ | .eretNext _ => { modMask := 1, tok := .never }
  | .bar _ => bare
  | .gbar f => { d := .s, lat := .varying, tok := if f.d = 0#7 then .optional else .required, scalarDest := true }
  | .fenceCrew f | .fenceDev f | .fenceSys f => { modMask := 3, modOk := f.m 1 0 != 3, once := true, tok := .never }
  | .cwait _ | .cwaitPoll _ => {
      d := .s, a := .s, luA := .barred, modMask := 1, once := true, scalarDest := true,
      lat := .varying, tok := .required }
  | .spawn f => {
      lens := [2], d := .s, a := .sIn 1 60, b := .s, c := if f.cs then .vOrS else .zero, luA := .barred,
      luB := .barred, lay := .c, once := true, commit := true, scalarDest := true, lat := .varying,
      tok := .required }
  | .taskget _ => {
      d := .sIn 1 59, once := true, commit := true, scalarDest := true, lat := .varying,
      tok := .required }
  | .taskend _ => { a := .s, luA := .barred, once := true, commit := true, lat := .varying }
  | .scope _ => { scopeSpec true with modMask := 1 }
  | .sclose _ => { scopeSpec true with d := .zero, scalarDest := false, tok := .optional }
  | .cancel _ => scopeSpec true
  | .scwait _ => scopeSpec false
  | .qpush _ => {
      lens := [2], d := .s, a := .s, b := .s, luA := .barred, luB := .barred, lay := .c,
      immMask := 0xFFFFFF, once := true, commit := true, scalarDest := true, lat := .varying, tok := .required }
  | .tmarkReady f | .tmarkEmpty f => {
      d := .data, modMask := 1, rangeOk := f.d.toNat < 64, once := true,
      commit := true, lat := .varying }
  | .tstat _ => { d := .s, modMask := 63, once := true, scalarDest := true, lat := .varying, tok := .required }
  | .copy f => { engineSpec with
      lens := [3], lay := .x, d := .sIn 1 60, a := if f.mb 0 then .zero else .s, b := if f.mb 1 then .zero else .s,
      luA := if f.mb 0 then .unused else .barred, luB := if f.mb 1 then .unused else .barred, modMask := 7,
      immMask := 0xFFFFFFFFC0000000,
      zeroOk := (f.mb 0 || f.x 57 52 == 0) && (f.mb 1 || f.x 51 46 == 0) }
  | .ccopy f => { engineSpec with
      lens := [3], lay := .x, d := .sIn 1 60, a := if f.mb 0 then .zero else .s, b := .s,
      luA := if f.mb 0 then .unused else .barred, luB := .barred, modMask := 1,
      immMask := 0xFFF03FFFC0000FFF, zeroOk := f.mb 0 || f.x 57 52 == 0 }
  | .halo _ => { engineSpec with
      lens := [3], lay := .x, d := .sIn 1 63, a := .s, luA := .barred, immMask := 0xFC003FFFC0000000 }
  | .mwload _ => { engineSpec with lens := [2], lay := .c, immMask := 63 }
  | .mmul f => { engineSpec with lens := [3], lay := .x, immMask := 0xFFFFBFFFFFFFC000, modOk := f.x 16 14 ≤ 4 }
  | .mdrain f => { engineSpec with
      lens := [2], lay := .c, a := .s, b := if f.imm24 / 2 ^ 14 % 2 = 1 then .s else .zero, luA := .barred,
      luB := if f.imm24 / 2 ^ 14 % 2 = 1 then .barred else .unused,
      c := if f.imm24 / 2 ^ 15 % 2 = 1 then (if f.cs then .vOrS else .data) else .zero, immMask := 0xFFFF,
      modOk := bitsOf f.imm24 13 11 ≤ 5, entryOk := f.imm24 / 2 ^ 15 % 2 == 0 || f.cs }
  | .mzero f | .mzeroAuto f => { engineSpec with
      d := .data, a := if f.mb 0 then .zero else .s, luA := if f.mb 0 then .unused else .barred, modMask := 1,
      zeroOk := f.d.toNat < 32 }
  | .resample _ => { engineSpec with
      lens := [3], lay := .x, d := .sIn 1 57, modMask := 1,
      immMask := 0xFC003FFFFFFFFFE0 }
  | .carve _ => { engineSpec with d := .s, a := .s, luA := .barred, scalarDest := true, tok := .required }
  | _ => {}

/-- Whether an agent accepts an instruction by its domain and opcode (R118). -/
def accepted (k : AgentKind) (dom opc : Nat) : Bool :=
  match k with
  | .band => !(dom = 3 && opc ≥ 0x80)
  | .ctl => dom = 0 || dom = 3
  | .fw => dom = 0 || (dom = 3 && (opc ≤ 0x0A || opc = 0x22))

/-- Whether an instruction needs privilege (R119, R422, R356). -/
def privileged (dom opc : Nat) : Bool := (dom = 0 && opc = 0x19) || (dom = 3 && opc = 0x88)

/-- Check 8 of R120 on one operand field. -/
def fieldZeroOk (r : Role) (code : Nat) (sel : Bool) : Bool :=
  match r with
  | .zero => code == 0 && !sel
  | .vOrS => !(sel && code ≥ 64)
  | _ => !sel

/-- Check 9 of R120 on one operand field: `sel` is BS or CS, `n` the band's `.regs n`. -/
def fieldRangeOk (r : Role) (code : Nat) (sel : Bool) (n : Nat) : Bool :=
  match r with
  | .zero | .data => true
  | .vsrc => code < n || code ≥ 126
  | .vdst => code < n || code == 126
  | .group k => code + k ≤ n
  | .vOrS => if sel then code < 64 else code < n || code ≥ 126
  | .s => code < 64
  | .sIn lo hi => lo ≤ code && code ≤ hi

/-- Check 8 of R120 on a last-use bit. -/
def luZeroOk (u : LastUse) (bit : Bool) : Bool := !bit || u != .unused

/-- Check 9 of R120 on a last-use bit (R93): `sel` where the operand is an S-register by BS. -/
def luRangeOk (u : LastUse) (bit : Bool) (code : Nat) (sel : Bool) : Bool :=
  !bit || (u == .legal && !sel && code < 126)

/-- Check 8 of R120. -/
def unusedZero (p : Spec) (f : Fields) : Bool :=
  let immB := p.lay = .immB && f.len = 2#2
  let data3 := p.b = .data && p.a = .data
  fieldZeroOk p.d f.d.toNat false && fieldZeroOk p.a f.a.toNat false &&
  (if immB then f.b == 0#7 && !f.bs && !f.luB else data3 || fieldZeroOk p.b f.b.toNat f.bs) &&
  luZeroOk p.luA f.luA && luZeroOk p.luB f.luB &&
  (f.mod.toNat &&& (63 - p.modMask)) == 0 &&
  (f.setEn || f.setK == 0#3) && (p.tok != .never || !f.setEn) &&
  (match p.lay with
   | .c => fieldZeroOk p.c f.cReg f.cs && (f.imm24 &&& (0xFFFFFF - p.immMask)) == 0
   | .x => (f.ext.toNat &&& (2 ^ 64 - 1 - p.immMask)) == 0
   | _ => true) &&
  p.zeroOk

/-- Check 8 of R120 on the immediate of a 96-bit F16 or BF16 instruction (R108). -/
def immHighZero (dom opc : Nat) (p : Spec) (f : Fields) : Bool :=
  !(p.lay = .immB && f.len = 2#2 && dom = 1 && opc ≥ 0x40 && f.m 2 0 ≥ 1 && f.imm32.toNat ≥ 2 ^ 16)

/-- Check 9 of R120. -/
def rangesOk (p : Spec) (f : Fields) (n : Nat) : Bool :=
  let immB := p.lay = .immB && f.len = 2#2
  fieldRangeOk p.d f.d.toNat false n && fieldRangeOk p.a f.a.toNat false n &&
  (immB || fieldRangeOk p.b f.b.toNat f.bs n) &&
  (p.lay != .c || fieldRangeOk p.c f.cReg f.cs n) &&
  luRangeOk p.luA f.luA f.a.toNat false && (immB || luRangeOk p.luB f.luB f.b.toNat f.bs) &&
  p.rangeOk

/-- The second register of a CAS pair lies below `.regs n` (R339, check 9). -/
def casPairOk (i : Instr) (f : Fields) (n : Nat) : Bool :=
  match i with
  | .atom _ | .atoms _ =>
    let k := if f.len = 2#2 then f.cReg else f.d.toNat
    f.m 3 0 != 10 || (f.len == 2#2 && f.cs) || k + 1 < n
  | _ => true

/-- The first of the checks 4 to 11 of R120 that the instruction's words fail, as its sub-code: for an agent of kind
`k`, with privilege or not, whose `.regs n` is `n`. -/
def checkWords (k : AgentKind) (priv : Bool) (n : Nat) (i : Instr) : Option Nat :=
  match opcodeOf i with
  | none => none
  | some (dom, opc, f) =>
    let p := specOf k i
    if !accepted k dom opc then some 0x03
    else if privileged dom opc && !priv then some 0x04
    else if !p.lens.contains f.len.toNat then some 0x05
    else if !p.modOk then some 0x06
    else if !(unusedZero p f && immHighZero dom opc p f) then some 0x07
    else if !(rangesOk p f n && casPairOk i f n) then some 0x08
    else if p.tok = .required && !f.setEn then some 0x09
    else if !p.entryOk then some 0x0A
    else none

end Sys2Proof
end

