-- ==== Sys2Proof/WellFormed.lean ====
section
/-!
DEFINITION. Well-formed instructions: those that a program for some agent may hold (05 R118, R128), whose constructor is
the one that their modifier or target names, and whose extension lies within their length.
-/

namespace Sys2Proof

/-- The bits of the extension that LEN gives an instruction (R101). -/
def Fields.extFits (f : Fields) : Bool :=
  if f.len = 3#2 then true else if f.len = 2#2 then f.ext.toNat < 2 ^ 32 else f.ext.toNat == 0

/-- The modifier, or the target code, names the constructor that carries the fields. -/
def Instr.formOk : Instr → Bool
  | .sread f => !f.mb 0
  | .sreadClr f => f.mb 0
  | .swriteHbeat f => f.d.toNat ≥ 0x0E
  | .swriteSeed f => f.d.toNat == 0x00
  | .swriteCheck f => f.d.toNat == 0x01
  | .swriteDet f => f.d.toNat == 0x02
  | .swriteMonitor f => f.d.toNat == 0x03
  | .swritePrivcx f => f.d.toNat == 0x04
  | .swriteMqprio f => f.d.toNat == 0x05
  | .swriteTilelo f => f.d.toNat == 0x06
  | .swriteTilehi f => f.d.toNat == 0x07
  | .swriteFenced f => f.d.toNat == 0x08
  | .swriteFreply f => f.d.toNat == 0x09
  | .swriteIndir f => f.d.toNat == 0x0A
  | .swritePewter f => f.d.toNat == 0x0B
  | .swriteRoute f => f.d.toNat == 0x0C
  | .swriteNode f => f.d.toNat == 0x0D
  | .lds f | .sts f => !f.mb 3
  | .ldsT f | .stsT f => f.mb 3
  | .rng f => !f.mb 0
  | .rngU f => f.mb 0
  | .bjoin f => !f.mb 0
  | .bjoinAll f => f.mb 0
  | .eret f => !f.mb 0
  | .eretNext f => f.mb 0
  | .fenceCrew f => f.mod.extractLsb' 0 2 == 0#2
  | .fenceDev f => f.mod.extractLsb' 0 2 == 1#2
  | .fenceSys f => f.mod.extractLsb' 0 2 == 2#2 || f.mod.extractLsb' 0 2 == 3#2
  | .cwait f => !f.mb 0
  | .cwaitPoll f => f.mb 0
  | .tmarkReady f => f.mb 0
  | .tmarkEmpty f => !f.mb 0
  | .mzero f => !f.mb 0
  | .mzeroAuto f => f.mb 0
  | _ => true

/-- The instruction can be encoded: it has words, its LEN is not 0b00, its extension fits its length and its form is
the one its fields name. -/
def Instr.encodable (i : Instr) : Bool :=
  match opcodeOf i with
  | some (_, _, f) => f.len != 0#2 && f.extFits && i.formOk
  | none => false

/-- The checks 4 to 11 of R120 that the words decide pass for some agent with privilege (R118, R128). -/
def Instr.acceptedSomewhere (i : Instr) : Bool :=
  checkWords .band true 126 i == none || checkWords .ctl true 126 i == none || checkWords .fw true 126 i == none

/-- A well-formed instruction. -/
def Instr.wf (i : Instr) : Bool := i.encodable && i.acceptedSomewhere

end Sys2Proof
end

