-- ==== Sys2Proof/Decode.lean ====
section
/-!
DEFINITION. Decoding of instruction words, total on any bytes, and the encoder that goes with it.
Spec: 05 R101 (lengths), R104 (first word), R107 (extension words), R113 to R117 (opcode map).
-/

namespace Sys2Proof

/-- The fields of the first word `w` (R104) with the extension `ext` (R107). -/
def fieldsOf (w : W64) (ext : BitVec 64) : Fields where
  len := w.extractLsb' 0 2
  rb := w.getLsbD 2
  rs := w.getLsbD 3
  stall := w.extractLsb' 4 4
  wait := w.extractLsb' 8 8
  setK := w.extractLsb' 16 3
  setEn := w.getLsbD 19
  luA := w.getLsbD 20
  luB := w.getLsbD 21
  pred := w.extractLsb' 22 3
  pneg := w.getLsbD 25
  d := w.extractLsb' 26 7
  a := w.extractLsb' 33 7
  b := w.extractLsb' 40 7
  bs := w.getLsbD 47
  mod := w.extractLsb' 48 6
  ext := ext

/-- The first word of domain `dom`, opcode `opc` and the fields `f` (R104). -/
def firstWord (dom : BitVec 2) (opc : BitVec 8) (f : Fields) : W64 :=
  dom ++ opc ++ f.mod ++ BitVec.ofBool f.bs ++ f.b ++ f.a ++ f.d ++ BitVec.ofBool f.pneg ++ f.pred ++
    BitVec.ofBool f.luB ++ BitVec.ofBool f.luA ++ BitVec.ofBool f.setEn ++ f.setK ++ f.wait ++ f.stall ++
    BitVec.ofBool f.rs ++ BitVec.ofBool f.rb ++ f.len

/-- FENCE by its scope (08 R188). MOD[1:0] = 3 names no scope: FENCE.SYS carries it and check 7 turns it away. -/
def fenceAt (f : Fields) : Instr :=
  if f.mod.extractLsb' 0 2 = 0#2 then .fenceCrew f
  else if f.mod.extractLsb' 0 2 = 1#2 then .fenceDev f
  else .fenceSys f

/-- SWRITE by its target code (22 R422). A code the table does not give is carried by SWRITE HBEAT, and check 11 turns it away. -/
def swriteAt (code : Nat) (f : Fields) : Instr :=
  match code with
  | 0x00 => .swriteSeed f
  | 0x01 => .swriteCheck f
  | 0x02 => .swriteDet f
  | 0x03 => .swriteMonitor f
  | 0x04 => .swritePrivcx f
  | 0x05 => .swriteMqprio f
  | 0x06 => .swriteTilelo f
  | 0x07 => .swriteTilehi f
  | 0x08 => .swriteFenced f
  | 0x09 => .swriteFreply f
  | 0x0A => .swriteIndir f
  | 0x0B => .swritePewter f
  | 0x0C => .swriteRoute f
  | 0x0D => .swriteNode f
  | _ => .swriteHbeat f

/-- The instruction of domain 00 (scalar) with opcode `opc` (R113); none where the value is unassigned (R117). -/
def scalarAt (opc : Nat) (f : Fields) : Option Instr :=
  match opc with
  | 0x00 => some (.sadd f)
  | 0x01 => some (.ssub f)
  | 0x02 => some (.smul f)
  | 0x03 => some (.smulhi f)
  | 0x04 => some (.sand f)
  | 0x05 => some (.sor f)
  | 0x06 => some (.sxor f)
  | 0x07 => some (.sshl f)
  | 0x08 => some (.sshr f)
  | 0x09 => some (.smin f)
  | 0x0A => some (.smax f)
  | 0x0B => some (.scmp f)
  | 0x0C => some (.ssel f)
  | 0x0D => some (.smov f)
  | 0x0E => some (.sli f)
  | 0x10 => some (.sld f)
  | 0x11 => some (.sst f)
  | 0x18 => some (if f.mod.getLsbD 0 then .sreadClr f else .sread f)
  | 0x19 => some (swriteAt f.d.toNat f)
  | _ => none

/-- The instruction of domain 01 (vector arithmetic) with opcode `opc` (R114); none where the value is unassigned (R117). -/
def vectorAt (opc : Nat) (f : Fields) : Option Instr :=
  match opc with
  | 0x00 => some (.vadd f)
  | 0x01 => some (.vsub f)
  | 0x02 => some (.vmul f)
  | 0x03 => some (.vmulhi f)
  | 0x04 => some (.vmad f)
  | 0x05 => some (.vand f)
  | 0x06 => some (.vor f)
  | 0x07 => some (.vxor f)
  | 0x08 => some (.vshl f)
  | 0x09 => some (.vshr f)
  | 0x0A => some (.vmin f)
  | 0x0B => some (.vmax f)
  | 0x0C => some (.vabs f)
  | 0x0D => some (.vclz f)
  | 0x0E => some (.vpopc f)
  | 0x0F => some (.vcmp f)
  | 0x10 => some (.vsel f)
  | 0x11 => some (.vmov f)
  | 0x12 => some (.vaff f)
  | 0x13 => some (.vshfl f)
  | 0x14 => some (.vreduce f)
  | 0x15 => some (.vballot f)
  | 0x16 => some (.vscan f)
  | 0x40 => some (.fadd f)
  | 0x41 => some (.fsub f)
  | 0x42 => some (.fmul f)
  | 0x43 => some (.ffma f)
  | 0x44 => some (.fmin f)
  | 0x45 => some (.fmax f)
  | 0x46 => some (.fcmp f)
  | 0x47 => some (.fclass f)
  | 0x48 => some (.fcvt f)
  | 0x49 => some (.frnd f)
  | 0x4A => some (.fkey f)
  | 0x50 => some (.frcp f)
  | 0x51 => some (.frsq f)
  | 0x52 => some (.fsqrt f)
  | 0x53 => some (.fdiv f)
  | 0x54 => some (.fexp2 f)
  | 0x55 => some (.flog2 f)
  | 0x56 => some (.fsin f)
  | 0x57 => some (.fcos f)
  | 0x60 => some (.dxenc f)
  | 0x61 => some (.dxdec f)
  | _ => none

/-- The instruction of domain 10 (vector memory, ray, reservoir and random) with opcode `opc` (R115); none where the value is unassigned (R117). -/
def memoryAt (opc : Nat) (f : Fields) : Option Instr :=
  match opc with
  | 0x00 => some (.ld f)
  | 0x01 => some (.st f)
  | 0x02 => some (if f.mod.getLsbD 3 then .ldsT f else .lds f)
  | 0x03 => some (if f.mod.getLsbD 3 then .stsT f else .sts f)
  | 0x04 => some (.ldrc f)
  | 0x05 => some (.atom f)
  | 0x06 => some (.atoms f)
  | 0x07 => some (.pref f)
  | 0x40 => some (.rtbox f)
  | 0x41 => some (.rttri f)
  | 0x42 => some (.rtstep f)
  | 0x43 => some (.rthit f)
  | 0x44 => some (.ltwalk f)
  | 0x50 => some (.rsvld f)
  | 0x51 => some (.rsvst f)
  | 0x52 => some (.rsvupd f)
  | 0x53 => some (.rsvmrg f)
  | 0x54 => some (.rsvnrm f)
  | 0x55 => some (if f.mod.getLsbD 0 then .rngU f else .rng f)
  | _ => none

/-- The instruction of domain 11 (control, synchronisation, tasks, tiles, engines and system) with opcode `opc` (R116); none where the value is unassigned (R117). -/
def controlAt (opc : Nat) (f : Fields) : Option Instr :=
  match opc with
  | 0x00 => some (.bra f)
  | 0x01 => some (.brc f)
  | 0x02 => some (.call f)
  | 0x03 => some (.callt f)
  | 0x04 => some (.ret f)
  | 0x05 => some (if f.mod.getLsbD 0 then .bjoinAll f else .bjoin f)
  | 0x06 => some (.exit f)
  | 0x07 => some (.yield f)
  | 0x08 => some (.nop f)
  | 0x09 => some (.trap f)
  | 0x0A => some (if f.mod.getLsbD 0 then .eretNext f else .eret f)
  | 0x20 => some (.bar f)
  | 0x21 => some (.gbar f)
  | 0x22 => some (fenceAt f)
  | 0x23 => some (if f.mod.getLsbD 0 then .cwaitPoll f else .cwait f)
  | 0x30 => some (.spawn f)
  | 0x31 => some (.taskget f)
  | 0x32 => some (.taskend f)
  | 0x33 => some (.scope f)
  | 0x34 => some (.sclose f)
  | 0x35 => some (.cancel f)
  | 0x36 => some (.scwait f)
  | 0x37 => some (.qpush f)
  | 0x40 => some (if f.mod.getLsbD 0 then .tmarkReady f else .tmarkEmpty f)
  | 0x41 => some (.tstat f)
  | 0x80 => some (.copy f)
  | 0x81 => some (.ccopy f)
  | 0x82 => some (.halo f)
  | 0x83 => some (.mwload f)
  | 0x84 => some (.mmul f)
  | 0x85 => some (.mdrain f)
  | 0x86 => some (if f.mod.getLsbD 0 then .mzeroAuto f else .mzero f)
  | 0x87 => some (.resample f)
  | 0x88 => some (.carve f)
  | _ => none

/-- The instruction of domain `dom` and opcode `opc`, if the map assigns one (R113 to R117). -/
def instrAt (dom opc : Nat) (f : Fields) : Option Instr :=
  match dom with
  | 0 => scalarAt opc f
  | 1 => vectorAt opc f
  | 2 => memoryAt opc f
  | _ => controlAt opc f

/-- The bytes that the LEN field gives an instruction (R101); 8 where LEN is 0b00 (R365). -/
def lenBytes (len : BitVec 2) : Nat :=
  if len = 2#2 then 12 else if len = 3#2 then 16 else 8

/-- The instruction of a first word and the extension bytes that follow it. -/
def decodeWords (w : W64) (ext : BitVec 64) : Instr :=
  if w.extractLsb' 0 2 = 0#2 then .unassignedEncoding w
  else
    match instrAt (w.extractLsb' 62 2).toNat (w.extractLsb' 54 8).toNat (fieldsOf w ext) with
    | some i => i
    | none => .unassignedEncoding w

/-- Why bytes are no instruction: fewer bytes than the first word or than LEN asks for. -/
inductive DecodeError where
  | truncatedFirstWord
  | truncatedExtension
  deriving DecidableEq, Repr

/-- Decode the instruction at the head of a list of bytes, with the bytes after it. -/
def decode (bs : List Byte) : Except DecodeError (Instr × List Byte) :=
  if bs.length < 8 then .error .truncatedFirstWord
  else
    let w : W64 := BitVec.ofNat 64 (leNat (bs.take 8))
    let n := lenBytes (w.extractLsb' 0 2)
    if bs.length < n then .error .truncatedExtension
    else .ok (decodeWords w (BitVec.ofNat 64 (leNat ((bs.take n).drop 8))), bs.drop n)

/-- The bytes of an instruction; none for a step of the device that is no instruction. -/
def encode (i : Instr) : List Byte :=
  match i with
  | .unassignedEncoding w => leBytes 8 w.toNat
  | i =>
    match opcodeOf i with
    | some (dom, opc, f) =>
      leBytes 8 (firstWord (BitVec.ofNat 2 dom) (BitVec.ofNat 8 opc) f).toNat ++
        leBytes (lenBytes f.len - 8) f.ext.toNat
    | none => []

/-- The instruction that the decoder reads from the bits of `w`, as the host numbers them. -/
def decodeTableWord (nbits w : Nat) : Option Instr :=
  match decode (leBytes 16 (w % 2 ^ nbits)) with
  | .ok (i, _) => some i
  | .error _ => none

end Sys2Proof
end

