-- ==== Sys2Proof/Machine/Fp.lean ====
section
/-!
DEFINITION. Floating-point arithmetic, exact and then rounded once (06 R129 to R138, 21 R367 to R379): the formats, the
exact magnitudes, the six rounding modes with stochastic rounding, and the operations on bit patterns with their flags.
-/

namespace Sys2Proof.Machine

/-- MIX (00 R9). -/
def mix (k c : W32) : W32 :=
  let x := (k ^^^ c) * 0x6A09E667#32
  let x := (x ^^^ (x >>> 16)) * 0x3C6EF372#32
  x ^^^ (x >>> 16)

/-- The flags of R133: bits of FLAGS. -/
def flagInvalid : BitVec 5 := 1
def flagDivZero : BitVec 5 := 2
def flagOverflow : BitVec 5 := 4
def flagUnderflow : BitVec 5 := 8
def flagInexact : BitVec 5 := 16

/-- A floating-point format: significand bits, the exponents of the largest and the smallest normal binade, width (R129). -/
structure Fmt where
  p : Nat
  emax : Nat
  emin : Int
  width : Nat
  deriving DecidableEq, Repr

def Fmt.f32 : Fmt := ⟨24, 127, -126, 32⟩
def Fmt.f16 : Fmt := ⟨11, 15, -14, 16⟩
def Fmt.bf16 : Fmt := ⟨8, 127, -126, 16⟩

/-- The format of a type code (R110). -/
def fmtOf (ty : Nat) : Fmt := if ty = 1 then .f16 else if ty = 2 then .bf16 else .f32

namespace Fmt

/-- The exponent of the smallest step: that of the subnormals. -/
def qmin (f : Fmt) : Int := f.emin - (f.p - 1 : Nat)

/-- The pattern of +∞. -/
def inf (f : Fmt) : Nat := (2 * f.emax + 1) * 2 ^ (f.p - 1)

/-- The canonical NaN (R131). -/
def nan (f : Fmt) : Nat := f.inf + 2 ^ (f.p - 2)

/-- The sign bit. -/
def sign (f : Fmt) (neg : Bool) : Nat := if neg then 2 ^ (f.width - 1) else 0

/-- The pattern of the largest finite value. -/
def maxFin (f : Fmt) : Nat := f.inf - 1

end Fmt

/-- A decoded value: a NaN (signalling or quiet), an infinity, or a finite number sign · m · 2^e. -/
inductive FVal where
  | nan (signalling : Bool)
  | inf (neg : Bool)
  | fin (neg : Bool) (m : Nat) (e : Int)
  deriving DecidableEq, Repr

/-- Decode a pattern of a format (R129, R131). -/
def Fmt.decode (f : Fmt) (x : Nat) : FVal :=
  let x := x % 2 ^ f.width
  let neg := x / 2 ^ (f.width - 1) == 1
  let frac := x % 2 ^ (f.p - 1)
  let ex := x / 2 ^ (f.p - 1) % (2 * f.emax + 2)
  if ex = 2 * f.emax + 1 then
    if frac = 0 then .inf neg else .nan (frac < 2 ^ (f.p - 2))
  else if ex = 0 then .fin neg frac f.qmin
  else .fin neg (frac + 2 ^ (f.p - 1)) (f.qmin + (ex - 1 : Nat))

/-- The integer square root. -/
def isqrt (x : Nat) : Nat :=
  let rec go : Nat → Nat → Nat
    | 0, acc => acc
    | b + 1, acc => go b (if (acc + 2 ^ b) * (acc + 2 ^ b) ≤ x then acc + 2 ^ b else acc)
  go (x.log2 / 2 + 1) 0

/-- An exact non-negative magnitude: num / den · 2^e, or the square root of num · 2^e. -/
inductive Mag where
  | rat (num den : Nat) (e : Int)
  | root (num : Nat) (e : Int)
  deriving DecidableEq, Repr

/-- The floor of the magnitude times 2^k, and whether it is exact. -/
def Mag.floorAt (x : Mag) (k : Int) : Nat × Bool :=
  match x with
  | .rat n d e =>
    let sh := e + k
    let a := n * 2 ^ sh.toNat
    let b := d * 2 ^ (-sh).toNat
    (a / b, a % b == 0)
  | .root n e =>
    let sh := e + 2 * k
    if sh ≥ 0 then
      let a := n * 2 ^ sh.toNat
      let r := isqrt a
      (r, r * r == a)
    else
      let b := 2 ^ (-sh).toNat
      let r := isqrt (n / b)
      (r, r * r * b == n)

/-- Whether the magnitude is zero. -/
def Mag.isZero : Mag → Bool
  | .rat n _ _ => n == 0
  | .root n _ => n == 0

/-- The exponent of the binade of a non-zero magnitude: the largest E with 2^E ≤ x. -/
def Mag.log2 (x : Mag) : Int :=
  let guess : Int := match x with
    | .rat n d e => (n.log2 : Int) - d.log2 + e
    | .root n e => ((n.log2 : Int) + e) / 2
  if (x.floorAt (-(guess + 1))).1 ≥ 1 then guess + 1
  else if (x.floorAt (-guess)).1 ≥ 1 then guess
  else guess - 1

/-- The rounding modes of R110 and R134. -/
def rneMode : Nat := 0
def srMode : Nat := 5

/-- The stochastic choice of R136: away from zero, for `k` discarded bits. -/
def srAway (seed : W32) (x : Mag) (q : Int) (k : Nat) : Bool :=
  let d := (x.floorAt (k - q)).1 % 2 ^ k
  (mix seed (BitVec.ofNat 32 d)).toNat % 2 ^ k < d

/-- Whether a magnitude that is not a multiple of 2^q rounds away from zero to that step (R134). -/
def roundsAway (mode : Nat) (seed : W32) (k : Nat) (neg : Bool) (x : Mag) (q : Int) : Bool :=
  let n := (x.floorAt (-q)).1
  let h := x.floorAt (1 - q)
  let half := h.1 % 2 == 1
  match mode with
  | 0 => half && (!h.2 || n % 2 == 1)
  | 1 => false
  | 2 => !neg
  | 3 => neg
  | 4 => half
  | _ => srAway seed x q k

/-- Round a magnitude to a multiple of 2^q: the multiple, and whether it is exact. -/
def roundStep (mode : Nat) (seed : W32) (k : Nat) (neg : Bool) (x : Mag) (q : Int) : Nat × Bool :=
  let n := x.floorAt (-q)
  if n.2 then (n.1, true)
  else (if roundsAway mode seed k neg x q then n.1 + 1 else n.1, false)

/-- What overflow delivers (R135). -/
def overflowTo (f : Fmt) (mode : Nat) (neg : Bool) : Nat :=
  let toInf := match mode with
    | 1 => false
    | 2 => !neg
    | 3 => neg
    | _ => true
  f.sign neg + (if toInf then f.inf else f.maxFin)

/-- Round an exact magnitude once to a format (R134 to R136): the pattern and the flags. `kOf q` is the number of
discarded bits that stochastic rounding takes when the step is 2^q. -/
def roundTo (f : Fmt) (mode : Nat) (seed : W32) (kOf : Int → Nat) (neg : Bool) (x : Mag) : Nat × BitVec 5 :=
  if x.isZero then (f.sign neg, 0)
  else
    let b := x.log2
    let q := max b f.emin - (f.p - 1 : Nat)
    let exact := (x.floorAt (-q)).2
    let away := !exact && roundsAway mode seed (kOf q) neg x q
    let n := (x.floorAt (-q)).1 + (if away then 1 else 0)
    let top : Int := (n.log2 : Int) + q
    if n ≠ 0 && top > f.emax then (overflowTo f mode neg, flagOverflow ||| flagInexact)
    else
      let pat := f.sign neg + (q - f.qmin).toNat * 2 ^ (f.p - 1) + n
      let tiny :=
        b < f.emin &&
          (b < f.emin - 1 ||
            (let q' := b - (f.p - 1 : Nat)
             let u := x.floorAt (-q')
             let away' := !u.2 && (if mode = srMode then away else roundsAway mode seed 32 neg x q')
             u.1 + (if away' then 1 else 0) < 2 ^ f.p))
      (pat, if exact then 0 else flagInexact ||| (if tiny then flagUnderflow else 0))

/-- Arithmetic results take 32 discarded bits (R136). -/
def k32 (_ : Int) : Nat := 32

/-- A conversion takes the source bits below the step, at most 32 (R136): `lsb` is the exponent of the source's last bit. -/
def kConv (lsb q : Int) : Nat := min (q - lsb).toNat 32

/-- Whether a value is a signalling NaN. -/
def FVal.snan : FVal → Bool
  | .nan s => s
  | _ => false

/-- Whether a value is a NaN. -/
def FVal.isNan : FVal → Bool
  | .nan _ => true
  | _ => false

/-- The flags of NaN operands (R131). -/
def nanFlags (l : List FVal) : BitVec 5 := if l.any FVal.snan then flagInvalid else 0

/-- A signed finite number as an integer times a power of two. -/
def sgn (neg : Bool) (m : Nat) : Int := if neg then -(m : Int) else m

/-- The exact sum of two dyadic numbers: an integer times the smaller power. -/
def dyAdd (a : Int) (ea : Int) (b : Int) (eb : Int) : Int × Int :=
  let e := min ea eb
  (a * 2 ^ (ea - e).toNat + b * 2 ^ (eb - e).toNat, e)

/-- Round an exact signed dyadic; a zero has the sign `zneg` (R134). -/
def roundDy (f : Fmt) (mode : Nat) (seed : W32) (zneg : Bool) (x : Int × Int) : Nat × BitVec 5 :=
  if x.1 = 0 then (f.sign zneg, 0)
  else roundTo f mode seed k32 (x.1 < 0) (.rat x.1.natAbs 1 x.2)

/-- The sign of an exact zero sum (R134): two zeros of one sign keep it; otherwise + but for RDN. -/
def zeroSign (mode : Nat) (bothZero an bn : Bool) : Bool := if bothZero && an == bn then an else mode == 3

/-- The sum of two values (R368, R369). -/
def addVals (f : Fmt) (mode : Nat) (seed : W32) (a b : FVal) : Nat × BitVec 5 :=
  match a, b with
  | .nan _, _ | _, .nan _ => (f.nan, nanFlags [a, b])
  | .inf n, .inf n' => if n = n' then (f.sign n + f.inf, 0) else (f.nan, flagInvalid)
  | .inf n, _ | _, .inf n => (f.sign n + f.inf, 0)
  | .fin n m e, .fin n' m' e' =>
    roundDy f mode seed (zeroSign mode (m == 0 && m' == 0) n n') (dyAdd (sgn n m) e (sgn n' m') e')

/-- A value with its sign inverted; a NaN stays (R368). -/
def FVal.neg : FVal → FVal
  | .nan s => .nan s
  | .inf n => .inf !n
  | .fin n m e => .fin (!n) m e

def fpAdd (f : Fmt) (mode : Nat) (seed : W32) (a b : Nat) : Nat × BitVec 5 :=
  addVals f mode seed (f.decode a) (f.decode b)

def fpSub (f : Fmt) (mode : Nat) (seed : W32) (a b : Nat) : Nat × BitVec 5 :=
  addVals f mode seed (f.decode a) (f.decode b).neg

/-- The product (R368, R369). -/
def fpMul (f : Fmt) (mode : Nat) (seed : W32) (a b : Nat) : Nat × BitVec 5 :=
  match f.decode a, f.decode b with
  | .nan s, y => (f.nan, nanFlags [.nan s, y])
  | x, .nan s => (f.nan, nanFlags [x, .nan s])
  | .inf n, .inf n' => (f.sign (n != n') + f.inf, 0)
  | .inf n, .fin n' m _ | .fin n' m _, .inf n =>
    if m = 0 then (f.nan, flagInvalid) else (f.sign (n != n') + f.inf, 0)
  | .fin n m e, .fin n' m' e' => roundTo f mode seed k32 (n != n') (.rat (m * m') 1 (e + e'))

/-- a × b + c, rounded once (R368, R369). -/
def fpFma (f : Fmt) (mode : Nat) (seed : W32) (a b c : Nat) : Nat × BitVec 5 :=
  let x := f.decode a
  let y := f.decode b
  let z := f.decode c
  let zeroInf := match x, y with
    | .inf _, .fin _ 0 _ | .fin _ 0 _, .inf _ => true
    | _, _ => false
  if zeroInf then (f.nan, flagInvalid)
  else if x.isNan || y.isNan || z.isNan then (f.nan, nanFlags [x, y, z])
  else
    let infProd := match x, y with
      | .inf n, .inf n' | .inf n, .fin n' _ _ | .fin n' _ _, .inf n => some (n != n')
      | _, _ => none
    match infProd, z with
    | some n, .inf n' => if n = n' then (f.sign n + f.inf, 0) else (f.nan, flagInvalid)
    | some n, _ => (f.sign n + f.inf, 0)
    | none, .inf n => (f.sign n + f.inf, 0)
    | none, _ =>
      match x, y, z with
      | .fin n m e, .fin n' m' e', .fin n2 m2 e2 =>
        let pn := n != n'
        roundDy f mode seed (zeroSign mode (m * m' == 0 && m2 == 0) pn n2)
          (dyAdd (sgn pn (m * m')) (e + e') (sgn n2 m2) e2)
      | _, _, _ => (f.nan, 0)

/-- The quotient (R369, R375). -/
def fpDiv (f : Fmt) (mode : Nat) (seed : W32) (a b : Nat) : Nat × BitVec 5 :=
  match f.decode a, f.decode b with
  | .nan s, y => (f.nan, nanFlags [.nan s, y])
  | x, .nan s => (f.nan, nanFlags [x, .nan s])
  | .inf _, .inf _ => (f.nan, flagInvalid)
  | .inf n, .fin n' _ _ => (f.sign (n != n') + f.inf, 0)
  | .fin n _ _, .inf n' => (f.sign (n != n'), 0)
  | .fin n m e, .fin n' m' e' =>
    if m' = 0 then
      if m = 0 then (f.nan, flagInvalid) else (f.sign (n != n') + f.inf, flagDivZero)
    else roundTo f mode seed k32 (n != n') (.rat m m' (e - e'))

/-- The square root (R369, R375). -/
def fpSqrt (f : Fmt) (mode : Nat) (seed : W32) (a : Nat) : Nat × BitVec 5 :=
  match f.decode a with
  | .nan s => (f.nan, nanFlags [.nan s])
  | .inf n => if n then (f.nan, flagInvalid) else (f.inf, 0)
  | .fin n m e =>
    if m = 0 then (f.sign n, 0)
    else if n then (f.nan, flagInvalid)
    else roundTo f mode seed k32 false (.root m e)

/-- Compare two magnitudes with sign: a finite number below, equal to or above another (−0 equal to +0). -/
def cmpFin (n : Bool) (m : Nat) (e : Int) (n' : Bool) (m' : Nat) (e' : Int) : Ordering :=
  let d := dyAdd (sgn n m) e (-(sgn n' m')) e'
  if d.1 < 0 then .lt else if d.1 = 0 then .eq else .gt

/-- Compare two values that are not NaN. -/
def cmpVals (a b : FVal) : Ordering :=
  match a, b with
  | .inf n, .inf n' => if n = n' then .eq else if n then .lt else .gt
  | .inf n, _ => if n then .lt else .gt
  | _, .inf n => if n then .gt else .lt
  | .fin n m e, .fin n' m' e' => cmpFin n m e n' m' e'
  | _, _ => .eq

/-- FMIN and FMAX (R138, R378): −0 below +0; a NaN operand gives the canonical NaN. -/
def fpMinMax (f : Fmt) (isMax : Bool) (a b : Nat) : Nat × BitVec 5 :=
  let x := f.decode a
  let y := f.decode b
  let a := a % 2 ^ f.width
  let b := b % 2 ^ f.width
  if x.isNan || y.isNan then (f.nan, nanFlags [x, y])
  else
    let aNeg := a / 2 ^ (f.width - 1) == 1
    let aLess := match cmpVals x y with
      | .lt => true
      | .gt => false
      | .eq => aNeg
    (if aLess != isMax then a else b, 0)

/-- FCMP's condition (R371), and its flag. -/
def fpCmp (f : Fmt) (cond a b : Nat) : Bool × BitVec 5 :=
  let x := f.decode a
  let y := f.decode b
  let un := x.isNan || y.isNan
  let o := cmpVals x y
  let r := match cond with
    | 0 => !un && o == .eq
    | 1 => un || o != .eq
    | 2 => !un && o == .lt
    | 3 => !un && o != .gt
    | 4 => !un && o == .gt
    | 5 => !un && o != .lt
    | 6 => un
    | _ => !un
  (r, nanFlags [x, y])

/-- FCLASS's word (R370). -/
def fpClass (f : Fmt) (a : Nat) : Nat :=
  match f.decode a with
  | .nan s => if s then 2 ^ 8 else 2 ^ 9
  | .inf n => if n then 1 else 2 ^ 7
  | .fin n m _ =>
    if m = 0 then (if n then 2 ^ 3 else 2 ^ 4)
    else if m < 2 ^ (f.p - 1) then (if n then 2 ^ 2 else 2 ^ 5)
    else if n then 2 else 2 ^ 6

/-- FKEY's key (R377): `low` is the NANLO mode. -/
def fpKey (f : Fmt) (low : Bool) (a : Nat) : Nat :=
  let w := f.width
  let x := a % 2 ^ w
  if (f.decode x).isNan then (if low then 0 else 2 ^ w - 1)
  else if x < 2 ^ (w - 1) then x + 2 ^ (w - 1)
  else 2 ^ w - 1 - x

/-- The exponent of the last bit of a finite value in its format: the step of its binade. -/
def lsbOf (e : Int) : Int := e

/-- Round a finite value to an integer in a mode: the magnitude and whether it is exact (R374, R379). -/
def toInteger (mode : Nat) (seed : W32) (neg : Bool) (m : Nat) (e : Int) : Nat × Bool :=
  roundStep mode seed (kConv (lsbOf e) 0) neg (.rat m 1 e) 0

/-- FRND (R379). -/
def fpRnd (f : Fmt) (mode : Nat) (seed : W32) (a : Nat) : Nat × BitVec 5 :=
  match f.decode a with
  | .nan s => (f.nan, nanFlags [.nan s])
  | .inf n => (f.sign n + f.inf, 0)
  | .fin n m e =>
    if e ≥ 0 then (a % 2 ^ f.width, 0)
    else
      let r := toInteger mode seed n m e
      ((roundTo f 0 0 k32 n (.rat r.1 1 0)).1, if r.2 then 0 else flagInexact)

/-- Widen or narrow between formats (R137, R374). -/
def fpConvert (src dst : Fmt) (mode : Nat) (seed : W32) (a : Nat) : Nat × BitVec 5 :=
  match src.decode a with
  | .nan s => (dst.nan, nanFlags [.nan s])
  | .inf n => (dst.sign n + dst.inf, 0)
  | .fin n m e => roundTo dst mode seed (kConv (lsbOf e)) n (.rat m 1 e)

/-- An integer to a format (R374). -/
def intToFp (dst : Fmt) (mode : Nat) (seed : W32) (x : Int) : Nat × BitVec 5 :=
  roundTo dst mode seed (kConv 0) (x < 0) (.rat x.natAbs 1 0)

/-- A float to an integer between `lo` and `hi` (R374). -/
def fpToInt (src : Fmt) (mode : Nat) (seed : W32) (lo hi : Int) (a : Nat) : Int × BitVec 5 :=
  match src.decode a with
  | .nan _ => (0, flagInvalid)
  | .inf n => (if n then lo else hi, flagInvalid)
  | .fin n m e =>
    let r := toInteger mode seed n m e
    let q := sgn n r.1
    if q < lo then (lo, flagInvalid)
    else if q > hi then (hi, flagInvalid)
    else (q, if r.2 then 0 else flagInexact)

/-- FCVT on one lane word (R374): type codes 0 F32, 1 F16, 2 BF16, 3 I32, 4 N32. -/
def fpCvt (dst src mode : Nat) (seed : W32) (a : W32) : W32 × BitVec 5 :=
  if src ≤ 2 then
    if dst ≤ 2 then
      let r := fpConvert (fmtOf src) (fmtOf dst) mode seed a.toNat
      (BitVec.ofNat 32 r.1, r.2)
    else
      let r := fpToInt (fmtOf src) mode seed (if dst = 3 then -2 ^ 31 else 0) (if dst = 3 then 2 ^ 31 - 1 else 2 ^ 32 - 1)
        a.toNat
      (BitVec.ofInt 32 r.1, r.2)
  else
    let r := intToFp (fmtOf dst) mode seed (if src = 3 then a.toInt else a.toNat)
    (BitVec.ofNat 32 r.1, r.2)

/-- The flags of a list of rounded nodes, and their values. -/
def rnAdd (f : Fmt) (a b : Nat × BitVec 5) : Nat × BitVec 5 :=
  let r := fpAdd f 0 0 a.1 b.1
  (r.1, r.2 ||| a.2 ||| b.2)

/-- One level of the tree of R143: neighbours added in pairs. -/
def treeLevel (f : Fmt) : List (Nat × BitVec 5) → List (Nat × BitVec 5)
  | a :: b :: r => rnAdd f a b :: treeLevel f r
  | l => l

/-- The pairwise tree over 2^n values (R143). -/
def treeSum (f : Fmt) : Nat → List (Nat × BitVec 5) → Nat × BitVec 5
  | 0, l => l.headD (f.sign true, 0)
  | n + 1, l => treeSum f n (treeLevel f l)

/-- The sum over lanes 0 to n − 1 by aligned blocks of decreasing size (R144): `b` bits of n still to look at. -/
def blockSum (f : Fmt) (n : Nat) : Nat → List (Nat × BitVec 5) → Option (Nat × BitVec 5) → Nat × BitVec 5
  | 0, _, acc => acc.getD (f.sign true, 0)
  | b + 1, l, acc =>
    if n / 2 ^ b % 2 = 1 then
      let x := treeSum f b (l.take (2 ^ b))
      blockSum f n b (l.drop (2 ^ b)) (some (match acc with
        | none => x
        | some y => rnAdd f y x))
    else blockSum f n b l acc

end Sys2Proof.Machine
end

