-- ==== Sys2Proof/Config.lean ====
section
/-!
DEFINITION. What the model does not fix: the free values (opaque constants without a body, applied to the plain
counter `State.freeCtr`), and the constants of the part that the spec states once. Spec: 00 R11 (what an unpredictable
result may be), 01 R16, R18 (block counts).
-/

namespace Sys2Proof.Config

/-- A free bit: which of two values the spec allows. First argument the counter of the step, then a place. Log 8. -/
opaque freeBit : Nat → Nat → Nat → Bool

/-- A free 32-bit word (an unpredictable register or lane, R11). Log 8. -/
opaque freeWord : Nat → Nat → Nat → BitVec 32

/-- A free number: a physical quantity that the spec measures and does not compute (temperature, power). Log 8. -/
opaque freeNat : Nat → Nat → Nat → Nat

/-- The image that a partition of a die boots (15 R325, R335): it is not in the spec. Log 16. -/
opaque bootImage : Nat → Nat → List Byte

/-- The vendor root public key, x and y, fused into a die (15 R328). Log 15. -/
opaque rootKey : Nat → BitVec 528 × BitVec 528

/-- The fused minimum version of a partition kind on a die (15 R328). Log 15. -/
opaque fusedMinVersion : Nat → Nat → Nat

/-- The ECDSA P-521 signature r, s by the module identity key over a digest (15 R337): 132 bytes. Log 15. -/
opaque moduleSignature : BitVec 512 → BitVec 1056

/-- The sections, identifier, version and data, that a firmware image writes at its handover (15 R333): firmware data.
First argument the counter of the step, then the die and the partition. Log 15. -/
opaque exportSections : Nat → Nat → Nat → List (BitVec 16 × BitVec 16 × List Byte)

/-- The difference of the two dies' global time counters in ns, taken mod 5 and less 2: at most 2 either way (01 R15). Log 22. -/
opaque dieSkew : Nat → BitVec 3

/-- Cores of a die (R16). -/
def cores : Nat := 96

/-- Band slots of a core (R18). -/
def slots : Nat := 64

/-- One arithmetic clock in units of a third of a nanosecond (R3). -/
def clock : Nat := 2

/-- One tick of global time in units of a third of a nanosecond (R3). -/
def tick : Nat := 3

/-- A microsecond in units of a third of a nanosecond (R3). -/
def usec : Nat := 3000

/-- A millisecond in units of a third of a nanosecond (R3). -/
def msec : Nat := 3000000

end Sys2Proof.Config
end

