-- ==== Sys2Proof/Machine/Sha.lean ====
section
/-!
DEFINITION. SHA-512 (15 R328, R333, R335), with its constants computed as their standard defines them: the fractional
parts of the square and cube roots of the first primes (log 15); the entries of a measurement log and the running digest
(15 R335).
-/

namespace Sys2Proof.Machine

/-- The first 80 primes. -/
def firstPrimes : List Nat :=
  [2, 3, 5, 7, 11, 13, 17, 19, 23, 29, 31, 37, 41, 43, 47, 53, 59, 61, 67, 71] ++
  [73, 79, 83, 89, 97, 101, 103, 107, 109, 113, 127, 131, 137, 139, 149, 151, 157, 163, 167, 173] ++
  [179, 181, 191, 193, 197, 199, 211, 223, 227, 229, 233, 239, 241, 251, 257, 263, 269, 271, 277, 281] ++
  [283, 293, 307, 311, 313, 317, 331, 337, 347, 349, 353, 359, 367, 373, 379, 383, 389, 397, 401, 409]

/-- The largest `r` below `acc + 2^b` with `r^e ≤ x`, found bit by bit from bit `b - 1`. -/
def rootFrom (e x : Nat) : Nat → Nat → Nat
  | 0, acc => acc
  | b + 1, acc => rootFrom e x b (if (acc + 2 ^ b) ^ e ≤ x then acc + 2 ^ b else acc)

/-- The first 64 bits of the fraction of the cube root of a prime. -/
def shaK (p : Nat) : W64 := BitVec.ofNat 64 (rootFrom 3 (p * 2 ^ 192) 68 0)

/-- The first 64 bits of the fraction of the square root of a prime. -/
def shaH (p : Nat) : W64 := BitVec.ofNat 64 (rootFrom 2 (p * 2 ^ 128) 69 0)

/-- One schedule word from those before it (the latest first). -/
def shaNextWord (w : List W64) : W64 :=
  let x1 := w.getD 1 0
  let x14 := w.getD 14 0
  let s1 := x1.rotateRight 19 ^^^ x1.rotateRight 61 ^^^ (x1 >>> 6)
  let s0 := x14.rotateRight 1 ^^^ x14.rotateRight 8 ^^^ (x14 >>> 7)
  s1 + w.getD 6 0 + s0 + w.getD 15 0

/-- `n` more schedule words, the latest first. -/
def shaSchedule : Nat → List W64 → List W64
  | 0, w => w
  | n + 1, w => shaSchedule n (shaNextWord w :: w)

/-- One round over the eight working words. -/
def shaRound (h : List W64) (kw : W64) : List W64 :=
  let a := h.getD 0 0
  let b := h.getD 1 0
  let c := h.getD 2 0
  let e := h.getD 4 0
  let s1 := e.rotateRight 14 ^^^ e.rotateRight 18 ^^^ e.rotateRight 41
  let ch := (e &&& h.getD 5 0) ^^^ (~~~e &&& h.getD 6 0)
  let t1 := h.getD 7 0 + s1 + ch + kw
  let s0 := a.rotateRight 28 ^^^ a.rotateRight 34 ^^^ a.rotateRight 39
  let maj := (a &&& b) ^^^ (a &&& c) ^^^ (b &&& c)
  [t1 + s0 + maj, a, b, c, h.getD 3 0 + t1, e, h.getD 5 0, h.getD 6 0]

/-- The big-endian number of a list of bytes. -/
def beNat (bs : List Byte) : Nat := leNat bs.reverse

/-- Cut a list into `n` pieces of `k`. -/
def cut {α : Type} (k : Nat) : Nat → List α → List (List α)
  | 0, _ => []
  | n + 1, l => l.take k :: cut k n (l.drop k)

/-- One block of 128 bytes. -/
def shaBlock (h : List W64) (bs : List Byte) : List W64 :=
  let w := (cut 8 16 bs).map (fun b => BitVec.ofNat 64 (beNat b))
  let ws := (shaSchedule 64 w.reverse).reverse
  let kws := (ws.zip (firstPrimes.map shaK)).map (fun e => e.1 + e.2)
  let h' := kws.foldl shaRound h
  (h.zip h').map (fun e => e.1 + e.2)

/-- SHA-512 of a list of bytes, as the number whose big-endian bytes are the digest. -/
def sha512 (bs : List Byte) : BitVec 512 :=
  let n := bs.length
  let pad := (239 - n % 128) % 128
  let msg := bs ++ [0x80#8] ++ List.replicate pad 0#8 ++ (leBytes 16 (8 * n)).reverse
  let h := (cut 128 (msg.length / 128) msg).foldl shaBlock ((firstPrimes.take 8).map shaH)
  h.foldl (fun acc x => (acc <<< (64 : Nat)) ||| (x.zeroExtend 512)) 0

/-- The 64 bytes of a digest, most significant first. -/
def digestBytes (d : BitVec 512) : List Byte := (leBytes 64 d.toNat).reverse

/-- An entry of a measurement log (15 R335): event 0 BOOT, 1 STAGED, 2 SWITCH, 3 FALLBACK, 4 COMMIT. -/
structure LogEntry where
  index : Nat
  die : Nat
  kind : Nat
  event : Nat
  time : Nat
  version : W32
  digest : BitVec 512
  deriving DecidableEq, Repr

/-- The 128 bytes of a log entry (R335). -/
def logBytes (e : LogEntry) : List Byte :=
  leBytes 4 e.index ++ leBytes 1 e.die ++ leBytes 1 e.kind ++ leBytes 1 e.event ++ [0#8] ++ leBytes 8 e.time ++
    leBytes 4 e.version.toNat ++ List.replicate 44 0#8 ++ digestBytes e.digest

/-- LOGD after an entry: SHA-512(LOGD, entry) (R335). -/
def logNext (logd : BitVec 512) (e : LogEntry) : BitVec 512 := sha512 (digestBytes logd ++ logBytes e)

end Sys2Proof.Machine
end

