-- ==== Sys2Proof/Machine/Image.lean ====
section
/-!
DEFINITION. Firmware images (15 R328): their layout, their digest, the verification of their signatures by ECDSA over P-521
(R332, log 15), and where they stand in a firmware core's SRAM (R325, log 42).
-/

namespace Sys2Proof.Machine

/-! The curve P-521 (log 15): y² = x³ - 3x + b over the integers modulo 2^521 - 1, with a point of the prime order n. -/

def Curve.p : Nat := 2 ^ 521 - 1
def Curve.n : Nat := 2 ^ 521 - 1 - 0x5ae79787c40d069948033feb708f65a2fc44a36477663b851449048e16ec79bf6
def Curve.b : Nat :=
  0x51953EB9618E1C9A1F929A21A0B68540EEA2DA725B99B315F3B8B489918EF109E156193951EC7E937B1652C0BD3BB1BF073573DF883D2C34F1EF451FD46B503F00
def Curve.gx : Nat :=
  0xC6858E06B70404E9CD9E3ECB662395B4429C648139053FB521F828AF606B4D3DBAA14B5E77EFE75928FE1DC127A2FFA8DE3348B3C1856A429BF97E7E31C2E5BD66
def Curve.gy : Nat :=
  0x11839296A789A3BC0045C8A5FB42C7D1BD998F54449579B446817AFBD17273E662C97EE72995EF42640C550B9013FAD0761353C7086A272C24088BE94769FD16650

/-- A power modulo `m`, over as many bits of the exponent as the first argument says: base, exponent, product so far. -/
def powMod (m : Nat) : Nat → Nat → Nat → Nat → Nat
  | 0, _, _, acc => acc
  | n + 1, b, e, acc => powMod m n (b * b % m) (e / 2) (if e % 2 = 1 then acc * b % m else acc)

/-- The inverse modulo a prime of at most 521 bits. -/
def invMod (m a : Nat) : Nat := powMod m 521 (a % m) (m - 2) 1

/-- A point of the curve: x/z² and y/z³, and the point at infinity where z is 0. -/
structure Point where
  x : Nat
  y : Nat
  z : Nat
  deriving DecidableEq, Repr

/-- The difference of two residues. -/
def subMod (m a b : Nat) : Nat := (a + (m - b % m)) % m

/-- A point added to itself. -/
def Point.dbl (q : Point) : Point :=
  let m := Curve.p
  let yy := q.y * q.y % m
  let s := 4 * q.x * yy % m
  let zz := q.z * q.z % m
  let t := 3 * subMod m q.x zz * (q.x + zz) % m
  let x := subMod m (t * t) (2 * s)
  { x, y := subMod m (t * subMod m s x) (8 * yy * yy), z := 2 * q.y * q.z % m }

/-- The sum of two points. -/
def Point.add (q r : Point) : Point :=
  let m := Curve.p
  if q.z = 0 then r
  else if r.z = 0 then q
  else
    let zq := q.z * q.z % m
    let zr := r.z * r.z % m
    let u := q.x * zr % m
    let s := q.y * zr * r.z % m
    let h := subMod m (r.x * zq) u
    let k := subMod m (r.y * zq * q.z) s
    if h = 0 then (if k = 0 then q.dbl else { x := 1, y := 1, z := 0 })
    else
      let hh := h * h % m
      let hhh := hh * h % m
      let v := u * hh % m
      let x := subMod m (k * k) (hhh + 2 * v)
      { x, y := subMod m (k * subMod m v x) (s * hhh), z := h * q.z * r.z % m }

/-- A multiple of a point, over as many bits as the first argument says: the factor, the point, the sum so far. -/
def Point.mul : Nat → Nat → Point → Point → Point
  | 0, _, _, acc => acc
  | n + 1, k, q, acc => Point.mul n (k / 2) q.dbl (if k % 2 = 1 then acc.add q else acc)

/-- Whether r, s is the signature by a public key over a digest of 512 bits. -/
def ecdsaOk (qx qy r s digest : Nat) : Bool :=
  let m := Curve.p
  let n := Curve.n
  let inf : Point := { x := 1, y := 1, z := 0 }
  let w := invMod n s
  let t := (Point.mul 521 (digest % n * w % n) { x := Curve.gx, y := Curve.gy, z := 1 } inf).add
    (Point.mul 521 (r * w % n) { x := qx, y := qy, z := 1 } inf)
  decide (qx < m) && decide (qy < m) && qy * qy % m == subMod m (qx * qx * qx + Curve.b) (3 * qx) && decide (0 < r) &&
    decide (r < n) && decide (0 < s) && decide (s < n) && t.z != 0 &&
    t.x * invMod m (t.z * t.z) % m % n == r

/-- Whether bytes hold r and s, 66 bytes each, of a signature by a key over bytes (R328); the numbers are big-endian as
their standard writes them (log 15). -/
def signatureOk (qx qy : Nat) (sig bs : List Byte) : Bool :=
  ecdsaOk qx qy (beNat (sig.take 66)) (beNat ((sig.drop 66).take 66)) (sha512 bs).toNat

/-! Images. -/

/-- An image (15 R328): its version, schemas and digest. -/
structure Image where
  version : W32 := 0
  schema : Nat := 0
  importMin : Nat := 0
  importMax : Nat := 0
  digest : BitVec 512 := 0
  deriving DecidableEq, Repr

/-- The fields of an image's header (R328). -/
def Image.ofBytes (b : List Byte) : Image :=
  let n := fun (o k : Nat) => leNat ((b.drop o).take k)
  { version := BitVec.ofNat 32 (n 8 4)
    schema := n 12 2
    importMin := n 14 2
    importMax := n 16 2
    digest := sha512 (b.take (512 + n 24 8)) }

/-- Whether an image keeps its sizes (R328). -/
def imageSizes (b : List Byte) : Bool :=
  let body := leNat ((b.drop 24).take 8)
  body % 64 == 0 && decide (512 + body + 132 ≤ 2 ^ 21) && decide (512 + body + 132 ≤ b.length)

/-- Whether an image's endorsement verifies against the vendor root key fused into a die (R328, R332). -/
def endorsementOk (die : Nat) (b : List Byte) : Bool :=
  signatureOk (Config.rootKey die).1.toNat (Config.rootKey die).2.toNat ((b.drop 165).take 132) ((b.drop 32).take 133)

/-- Whether an image's signature verifies against its signing key, which is uncompressed (R328, R332). -/
def imageSigned (b : List Byte) : Bool :=
  let n := 512 + leNat ((b.drop 24).take 8)
  leNat ((b.drop 32).take 1) == 4 &&
    signatureOk (beNat ((b.drop 33).take 66)) (beNat ((b.drop 99).take 66)) ((b.drop n).take 132) (b.take n)

/-! Firmware SRAM (R325); where its slots, its blocks and the log stand in it is the model's (log 42). -/

/-- The SRAM offset of an image slot. -/
def slotOff (part slot : Nat) : Nat := (2 * part + slot) * 2 ^ 21

/-- The SRAM offset of a partition's state block. -/
def blockOff (part : Nat) : Nat := 12 * 2 ^ 20 + part * 2 ^ 20

/-- The SRAM offset of the measurement log. -/
def logOff : Nat := 15 * 2 ^ 20

/-- A list of bytes with others in place from an offset on; what it lacks before them reads as zero. -/
def listWrite (l : List Byte) (o : Nat) (bs : List Byte) : List Byte :=
  (l ++ List.replicate (o - l.length) 0).take o ++ bs ++ l.drop (o + bs.length)

end Sys2Proof.Machine
end

