-- ==== Sys2Proof/Machine/State.lean ====
section
/-!
DEFINITION. The state of the module as plain data (INVENTORY.md, '## State'), the reasons a step can stop, and the
state after reset.

Numbering used throughout the model. An agent's key: a band of slot n of core c of die d is d·2^20 + c·2^12 + n, a
control context cx of that core is d·2^20 + c·2^12 + 64 + cx, partition p of the firmware core of die d is
d·2^20 + 255·2^12 + p. A core's key is 128·d + c. A crew has the key of its control context. The agents of a crew that is
saved stand, without running, at their old keys plus a multiple of 2^24: there arrive the results that they still wait
for (13 R304). Times are counted in
thirds of a nanosecond since power-on: an arithmetic clock is 2 of them, a tick 3 (00 R3).
Addresses of the one memory: see Machine/Ops.lean, `Space`.
-/

namespace Sys2Proof.Machine

/-- No step of this machine ends in a fault of the model: every trap, park and failure that the spec describes is a next
state. -/
inductive Fault where
  deriving DecidableEq, Repr

/-- Why an instruction has no meaning in the model. -/
inductive Refusal where
  /-- The instruction's meaning is not written: raised by an arm of Dispatch.lean. Safe: the machine goes on. -/
  | notModelled (mnemonic : String)
  deriving DecidableEq, Repr

/-- A V-register with its shape tag (04 R85). -/
inductive VReg where
  | dead
  | uni (v : W32)
  | aff (base stride : W32)
  | gen (lanes : List W32)
  deriving DecidableEq, Repr

/-- The state of a thread (02 R25). A BLOCKED thread stands at a BJOIN with its mask, at a BAR or at a GBAR; `parked`
holds the die and serial of its fault record and its own address; `held` is a thread behind the handler (13 R300); `waiting` a thread whose
instruction waits for its replies or for a task (13 R303, 23 R423). -/
inductive TState where
  | ready
  | exited
  | bjoin (mask : W32)
  | bar
  | gbar
  | parked (die serial : Nat) (va : W64)
  | held
  | waiting
  deriving DecidableEq, Repr

/-- A thread: its program counter, its restart point and its state (02 R25). -/
structure Thread where
  pc : W64 := 0
  restart : W64 := 0
  st : TState := .exited
  deriving DecidableEq, Repr

/-- A register of an agent. -/
inductive Reg where
  | v (n : Nat)
  | s (n : Nat)
  | p (n : Nat)
  deriving DecidableEq, Repr

/-- A fixed-latency result that is not yet due: the register's earlier content and the time from which the result is
read (04 R89). -/
structure Recent where
  reg : Reg
  oldV : VReg
  oldS : W64
  due : Nat
  deriving DecidableEq, Repr

/-- Why an agent lands (04 R98): CANCELLED, EXIT or FAULT. -/
inductive Reason where
  | cancelled
  | exit
  | fault
  deriving DecidableEq, Repr

/-- What an agent waits for in TASKGET: its destination and its token (23 R423). -/
structure TaskWait where
  dest : Nat
  tok : Nat
  deriving DecidableEq, Repr

/-- A band, a control context or a firmware partition: its registers, threads and issue state. -/
structure Agent where
  kind : AgentKind := .band
  /-- it belongs to a resident crew, or is a running partition -/
  live : Bool := false
  /-- the key of its crew (02 R35) -/
  crew : Nat := 0
  /-- the band's index within its crew (02 R36) -/
  band : Nat := 0
  threads : Tbl Thread := []
  v : Tbl VReg := []
  s : Tbl W64 := []
  /-- P0 to P6, one bit a lane (04 R81) -/
  p : Tbl W32 := []
  /-- K0 to K7: pending producers (04 R91) -/
  k : Tbl Nat := []
  /-- when each token's count last fell to 0, and, at 8 more, from 15 to 14 (12 R294) -/
  tokAt : Tbl Nat := []
  tcode : BitVec 8 := 0
  tpc : W64 := 0
  taddr : W64 := 0
  hmask : W32 := 0
  /-- the bytes of the instruction that last trapped, as it was fetched (20 R365) -/
  tlen : W64 := 8
  flags : BitVec 5 := 0
  /-- the flags of fixed-latency results that are not yet due, each with its time (22 R418) -/
  flagsDue : List (Nat × BitVec 5) := []
  reason : BitVec 8 := 0
  nullcall : Bool := false
  detSticky : W64 := 0
  seed : W32 := 0
  check : Bool := false
  det : Bool := false
  monitor : BitVec 6 := 0
  /-- the PRIV context bit (05 R119) -/
  priv : Bool := false
  /-- `.regs n= g=` (04 R88) -/
  n : Nat := 126
  g : Nat := 126
  runOpen : Bool := false
  runPackets : Nat := 0
  runStalls : Nat := 0
  stalled : Bool := false
  stallEnd : Nat := 0
  /-- tokens of fixed-latency results: token and time of release (04 R90) -/
  timers : List (Nat × Nat) := []
  recent : List Recent := []
  /-- the instant of the latest load, in ns (08 R183) -/
  lastInst : Nat := 0
  /-- what host or peer memory has answered, by lane and address, to the instruction at which threads stand: LTWALK's nodes,
  QPUSH's image (13 R303) -/
  peeked : List (Nat × W64 × List Byte) := []
  /-- V of the latest store at DEV scope, in ns (08 R181) -/
  lastV : Nat := 0
  /-- the time from which FENCE.DEV's condition on V holds, in ns (08 R189) -/
  fenceAt : Nat := 0
  /-- failed posted remote stores: the operation of the store, its address and whether by timeout (08 R200) -/
  failed : List (Nat × W64 × Bool) := []
  /-- the participant has received the crew's task (02 R39) -/
  received : Bool := false
  /-- the participant has issued TASKEND for it (02 R42) -/
  ended : Bool := false
  /-- the participant has received END (02 R41) -/
  endSeen : Bool := false
  taskWait : Option TaskWait := none
  landing : Option Reason := none
  /-- GBAR: arrived in the current generation; destination and token of the pending status (21 R381) -/
  gbarIn : Bool := false
  gbarDest : List (Nat × Option Nat) := []
  /-- the clock in which its instruction last did not issue, and it yielded (02 R47) -/
  waitedAt : Option Nat := none
  eligibleSince : Nat := 0
  lastRunEnd : Nat := 0
  ageSteps : Nat := 0
  /-- control context: matrix queue base priority (09 R225) -/
  mqprio : Nat := 0
  /-- control context: the weight tile bound by the latest MWLOAD issued, and by the latest performed (09 R228) -/
  bound : Option Nat := none
  loaded : Option Nat := none
  /-- the weight format that the context's latest MWLOAD latched (06 R148) -/
  wfmt : Option Nat := none
  /-- firmware partition: its trap vector (23 R430) -/
  vector : W64 := 0
  deriving DecidableEq, Repr

/-- A task record (02 R40): kind 1 DISPENSED, 2 QUEUED. -/
structure Task where
  kind : Nat
  scope : Nat
  payload : List W64
  seq : W64
  deriving DecidableEq, Repr

/-- A queued entry (12 R284, 23 R417): its scope and its 32 bytes. -/
structure Entry where
  scope : Nat
  body : List W64
  /-- a SPAWN of its core's crew has placed it -/
  own : Bool := false
  deriving DecidableEq, Repr

/-- The kernel descriptor of a launch (12 R288). -/
structure Kernel where
  entry : W64 := 0
  control : W64 := 0
  landing : W64 := 0
  handler : W64 := 0
  shaderBase : W64 := 0
  shaderLimit : Nat := 0
  bands : Nat := 1
  n : Nat := 1
  g : Nat := 0
  acc : Nat := 0
  scratch : Nat := 0
  /-- tile number and tile-table bits [111:0] of each declaration -/
  tiles : List (Nat × BitVec 128) := []
  deriving DecidableEq, Repr

/-- The kinds of engine command. -/
inductive CmdKind where
  | copy
  | ccopy
  | halo
  | resample
  | mwload
  | mmul
  | mdrain
  | mzero (auto : Bool)
  deriving DecidableEq, Repr

/-- An engine command in a queue (09 R207): its fields, the registers it read at issue, its scope, counter and token,
and its progress. -/
structure Cmd where
  id : Nat
  kind : CmdKind
  pc : W64
  f : Fields
  regs : List W64
  scope : Nat
  cnt : Nat := 0
  tok : Option Nat := none
  started : Bool := false
  /-- segments, pixels or k-steps completed -/
  done : Nat := 0
  /-- status bits of 09 R215 -/
  status : BitVec 5 := 0
  /-- the fault record that the command waits for (09 R219) -/
  wait : Option (Nat × Nat) := none
  /-- the work is over: what remains is its completion step -/
  finished : Bool := false
  issued : Nat := 0
  begun : Nat := 0
  /-- when the matrix engine first ran it (14 R322) -/
  first : Option Nat := none
  headSince : Nat := 0
  ageSteps : Nat := 0
  /-- the V that its reads must follow, then the largest V of its writes, in ns (09 R196) -/
  maxV : Nat := 0
  /-- source lines that a copy has read, each with the poison of its bytes (09 R196) -/
  lines : Tbl (List (Byte × Bool)) := []
  /-- source lines whose fetch is held at their slice, each with the command that owned it then and, once that has written
  it, the V of the write (08 R195) -/
  met : Tbl (Nat × Nat) := []
  /-- bytes read by a CCOPY, or the surface descriptors read by a HALO or RESAMPLE at their start -/
  data : List Byte := []
  /-- of an MMUL, the weight tile bound at its issue (09 R229) -/
  weights : Option Nat := none
  /-- it has overtaken an MMUL (09 R226) -/
  overtook : Bool := false
  /-- of a RESAMPLE: the S-registers at its issue, and the pages that a reply has denied to its pixel (11 R272, R273) -/
  sregs : List W64 := []
  denied : List Nat := []
  /-- of a RESAMPLE: the results of the pixels of a row that are still to be stored: record, status bits, poison (11 R271,
  R272) -/
  row : List (List W32 × BitVec 5 × Bool) := []
  /-- of a RESAMPLE: the sectors of its result surface that it has stored, each with its bytes and their poison before and after
  (11 R271) -/
  wrote : Tbl ((List Byte × Bool) × (List Byte × Bool)) := []
  deriving DecidableEq, Repr

/-- A resident, or saved, crew (02 R35). -/
structure Crew where
  core : Nat
  launch : Nat
  bands : List Nat
  ordinal : Nat := 0
  hasCtl : Bool := false
  ctx : Nat := 0
  scratchBase : Nat := 0
  scratchSize : Nat := 0
  /-- accumulator tiles of the core, ACC0 first (09 R237) -/
  accs : List Nat := []
  /-- tile number to tile-table entry (09 R208) -/
  tiles : Tbl Nat := []
  task : Option Task := none
  /-- a task is held that has been killed or aborted (02 R42) -/
  killed : Bool := false
  /-- a request to Bobbin is outstanding (02 R39) -/
  asked : Bool := false
  /-- END has been handed to the crew (02 R41) -/
  endGiven : Bool := false
  /-- designators recorded by TASKENDs (23 R426) -/
  dones : List Nat := []
  /-- member of the launch's GBAR (21 R381) -/
  member : Bool := false
  /-- where its save area stands, once pre-empted; whether its task was dropped; whether its tiles were reclaimed (13 R305) -/
  saved : Option Nat := none
  droppedTask : Bool := false
  reclaimed : Bool := false
  /-- the engine commands that wait with it for its restore (13 R305) -/
  cmds : List Cmd := []
  /-- since when its bands have stopped for a pre-emption that waits for its engines (13 R304) -/
  stopping : Option Nat := none
  /-- where the scratchpad image of its save area, and its spilled accumulator tiles, stand (13 R305, R307) -/
  padImage : Nat := 0
  spill : Nat := 0
  deriving DecidableEq, Repr

/-- An accumulator tile (06 R149): its elements (0 where not listed), its exponent and mode (0 fixed, 1 automatic and
unset, 2 automatic and set), its re-zeroing mark (03 R70). -/
structure Acc where
  elems : Tbl Int := []
  e : Int := 0
  mode : Nat := 1
  mark : Bool := false
  deriving DecidableEq, Repr

/-- A line held in L1 (07 R154, R155, 08 R180, 07 R159, R177): its lease end in ns, its way of the SRAM array, its valid
sectors, its read count, whether PREF filled it and whether a demand access has touched it. -/
structure L1Line where
  line : Nat
  leaseEnd : Nat
  way : Nat := 15
  sectors : BitVec 4 := 15
  count : Nat := 0
  pref : Bool := false
  touched : Bool := false
  deriving DecidableEq, Repr

/-- A valid leaf in a TLB (07 R166): context tag, first virtual address, size and entry. -/
structure TlbEntry where
  ctx : Nat
  va : Nat
  size : Nat
  entry : W64
  deriving DecidableEq, Repr

/-- A monitor (14 R322). -/
structure Monitor where
  least : Nat := 0
  greatest : Nat := 0
  count : Nat := 0
  bins : Tbl Nat := []
  deriving DecidableEq, Repr

/-- A fault record (07 R172). -/
structure FaultRec where
  die : Nat
  serial : Nat
  va : W64
  ctx : Nat
  core : Nat
  agent : Nat
  access : Nat
  slot : Nat
  level : Nat
  time : Nat
  lanes : W32
  deriving DecidableEq, Repr

/-- A CARVE in progress (07 R157, 20 R356). -/
structure Carving where
  target : Nat
  op : Nat
  since : Nat
  deriving DecidableEq, Repr

/-- Weights in the matrix array (06 R148, 09 R228, R230): the control context and the tile format they belong to, the first
row that they are, and the bytes of each row. -/
structure Latch where
  ctx : Nat
  fmt : Nat
  row : Nat
  rows : List (List Byte)
  deriving DecidableEq, Repr

/-- What an aligned 4-byte word of a scratchpad held before an access wrote it, and who wrote (08 R191). -/
structure PadWord where
  at_ : Nat
  was : W32
  who : Nat
  deriving DecidableEq, Repr

/-- A core (01 R18). -/
structure Core where
  fenced : Bool := false
  /-- scratchpad ways (07 R155) -/
  w : Nat := 0
  carving : Option Carving := none
  /-- the operation that holds the status of the latest CARVE (20 R356) -/
  carveOp : Option Nat := none
  tiles : Tbl (BitVec 128) := []
  accs : Tbl Acc := []
  copyQ : Tbl (List Cmd) := []
  matQ : Tbl (List Cmd) := []
  /-- the control context whose matrix command runs -/
  running : Option Nat := none
  /-- MMUL shadows by control context (09 R234) -/
  shadows : Tbl Acc := []
  /-- the weights in the array (09 R228, R230) -/
  latched : Option Latch := none
  /-- the clock at which the latest k-step ended, and that of a granted start (09 R236) -/
  lastStream : Option Nat := none
  grantedAt : Option Nat := none
  /-- the clock at which the matrix engine last ended a command or a k-step (09 R226, R230) -/
  matIdle : Nat := 0
  l1 : List L1Line := []
  tlb : List TlbEntry := []
  /-- the band whose run is open, by port (02 R46) -/
  ports : Tbl Nat := []
  /-- the time from which a port may issue its next packet, by port (01 R18, 02 R28) -/
  portAt : Tbl Nat := []
  /-- the control context that ran last (09 R204) -/
  lastCtl : Nat := 0
  /-- copy-engine round robin (09 R218) -/
  lastCopy : Nat := 0
  /-- the largest V of Overlock's stores (08 R198) -/
  overV : Nat := 0
  /-- the command whose tile Overlock has begun (22 R403) -/
  overOn : Option Nat := none
  prefIssued : BitVec 48 := 0
  prefUsed : BitVec 48 := 0
  prefEarly : BitVec 48 := 0
  prefLate : BitVec 48 := 0
  /-- the counts issued, used and early at the end of the latest 1 ms interval, and that time (14 R322) -/
  prefAt : BitVec 48 × BitVec 48 × BitVec 48 := (0, 0, 0)
  intervalAt : Nat := 0
  monitors : Tbl Monitor := []
  /-- fault records held for want of queue room (07 R172) -/
  heldRecs : List FaultRec := []
  /-- the scratchpad words that bands have written in an arithmetic clock, and that clock (08 R191): latest first -/
  padAt : Nat := 0
  padWas : List PadWord := []
  /-- the events of the tile table in an arithmetic clock, and that clock (23 R428): each an entry and the event's place -/
  tileAt : Nat := 0
  tileEvents : List (Nat × Nat) := []
  deriving DecidableEq, Repr

/-- The state of a scope (03 R56). -/
inductive ScopeState where
  | opened
  | cancelling
  | cancelled
  | closed
  deriving DecidableEq, Repr

/-- The first fault of a scope (03 R56). -/
structure FirstFault where
  tcode : Nat
  tpc : W64
  core : Nat
  time : Nat
  deriving DecidableEq, Repr

/-- A peer scope on a remote list (03 R68): the number of the link, its node, its handle, when a cancel was sent, whether
it is settled. -/
structure Peer where
  id : Nat := 0
  node : Nat
  handle : W64
  sent : Option Nat := none
  settled : Bool := false
  deriving DecidableEq, Repr

/-- An entry of the scope table (03 R56). `used` is false for a free entry; `final` says that the count reached zero
and the record is being written (03 R72). -/
structure Scope where
  used : Bool := false
  level : Nat := 0
  state : ScopeState := .opened
  sealed : Bool := false
  autocancel : Bool := false
  gen : W32 := 0
  parent : Nat := 0
  path : List Nat := []
  outstanding : Nat := 0
  killed : Nat := 0
  dropped : Nat := 0
  copies : Nat := 0
  matrix : Nat := 0
  ticket : W64 := 0
  ackaddr : W64 := 0
  fault : Option FirstFault := none
  remote : List Peer := []
  remoteLost : Bool := false
  /-- the peer modules whose scopes it is linked to, or that have cancelled it: its acknowledgement goes to them (03 R68) -/
  watchers : List Nat := []
  /-- the context in which the scope was created (03 R72) -/
  ctx : Nat := 0
  /-- the time at which the count reached zero, once it has; the record is still to be written -/
  zeroAt : Option Nat := none
  /-- the stores that were pending at that time: the record comes after them (03 R73) -/
  after : List Nat := []
  /-- when those stores were seen to be visible, in ns -/
  quietAt : Option Nat := none
  /-- the fault record that the acknowledgement record waits for -/
  ackWait : Option (Nat × Nat) := none
  /-- the write of the record to host or peer memory, once it is on its way (03 R72) -/
  ackReq : Option Nat := none
  /-- when the cancel was accepted, in thirds of a ns (14 R322) -/
  cancelledAt : Nat := 0
  deriving DecidableEq, Repr

/-- A cancel on its way (03 R66): the scope, the units that it has reached, and the crew that issued it: its die, launch
and ordinal (12 R464). -/
structure Cast where
  scope : Nat
  done : List Nat := []
  issuer : Option (Nat × Nat × Nat) := none
  deriving DecidableEq, Repr

/-- Where a launch stands. -/
inductive LaunchPhase where
  | bound
  | waiting
  | running
  | over
  deriving DecidableEq, Repr

/-- A record of a trace (12 R296): its kind, the crew's ordinal, TASKSEQ, first position or serial, the count, status or
victim, and the entries handed out. -/
structure TraceRec where
  kind : Nat
  ord : Nat
  incomplete : Bool
  seq : W64
  count : W64
  handed : W64
  deriving DecidableEq, Repr

/-- A launch (12 R288 to R296), with the index and the generation of its launch scope. -/
structure Launch where
  scope : Nat
  /-- the generation of its scope's entry -/
  gen : W32
  /-- its job, with the generation of the job's entry -/
  job : Nat := 0
  jobGen : W32 := 0
  id : W32
  die : Nat
  slot : Nat
  ctx : Nat
  prio : Nat
  dimX : Nat := 1
  dimY : Nat := 1
  dimZ : Nat := 1
  wait : Nat := 0
  doneCnt : Nat := 0
  seed : W32 := 0
  check : Bool := false
  det : Bool := false
  morton : Bool := false
  map : Bool := false
  replay : Bool := false
  monitor : BitVec 6 := 0
  chunk : Nat := 1
  mapAddr : W64 := 0
  /-- the ownership map (11 R276), read with the LAUNCH -/
  mapBits : List Byte := []
  traceAddr : W64 := 0
  traceCap : Nat := 0
  kernel : Kernel := {}
  /-- memory as instruction fetch sees it (05 R103) -/
  code : List Host.Cell := []
  /-- 32-byte blocks of code that the launch's own agents have stored to (05 R103) -/
  selfStored : List Nat := []
  phase : LaunchPhase := .waiting
  processed : Nat := 0
  startAt : Nat := 0
  ageSteps : Nat := 0
  split : Bool := false
  /-- the members of its GBAR are fixed (21 R381) -/
  formed : Bool := false
  /-- positions of the dispense order not yet given to a core, by die -/
  ranges : Tbl (Nat × Nat) := []
  /-- the rest of each core's chunk -/
  chunks : Tbl (Nat × Nat) := []
  /-- task queues by core -/
  queues : Tbl (List Entry) := []
  /-- crews admitted on each die so far, and the cores that have admitted their one crew (12 R290) -/
  crewsOf : Tbl Nat := []
  admitted : List Nat := []
  /-- dequeues of each die (12 R293) -/
  dequeued : Tbl Nat := []
  /-- TASKGET has begun to return END (12 R284) -/
  endBegun : Bool := false
  /-- the last core that TASKS placed an entry on (12 R284) -/
  lastTasks : Nat := 0
  gbarGen : Nat := 0
  /-- trace records written by each die; recording stopped; entries handed out (12 R296, R464) -/
  traced : Tbl Nat := []
  traceOff : List Nat := []
  handed : Tbl Nat := []
  /-- by die, the fault record that its next trace record waits for, and the records that wait with it (12 R464) -/
  traceWait : Tbl Nat := []
  traceHeld : Tbl (List TraceRec) := []
  /-- the trace that a REPLAY launch follows, by die -/
  trace : Tbl (List TraceRec) := []
  /-- tasks that have ended without a kill, by die (03 R77) -/
  endedOf : Tbl Nat := []
  /-- records of its trace that a replay has followed, by die (12 R296) -/
  replayed : Tbl Nat := []
  /-- steals: when, the thief and its victim (12 R292) -/
  stolen : List (Nat × Nat × Nat) := []
  /-- coordinates dropped by a cancel are counted (03 R69) -/
  coordsDropped : Bool := false
  deriving DecidableEq, Repr

/-- What a dependence counter holds (12 R287), a launch or a task named by its launch; `off` says that a cancel has detached it (03 R69). -/
inductive Binding where
  | launch (id : Nat) (off : Bool)
  | task (launch core : Nat) (e : Entry) (off : Bool)
  deriving DecidableEq, Repr

/-- A dependence counter (12 R287): its count, status bits (09 R215) and binding. -/
structure Counter where
  count : Nat := 0
  status : BitVec 5 := 0
  bind : Option Binding := none
  deriving DecidableEq, Repr

/-- A decrement that waits until stores are visible (08 R194, 23 R426): its counter designator, the status that it adds,
and the requests of the stores. -/
structure PendingDec where
  designator : Nat
  status : BitVec 5
  stores : List Nat
  deriving DecidableEq, Repr

/-- The state of a queue slot (12 R279). -/
inductive SlotState where
  | unmapped
  | running
  | stopped
  | waiting
  deriving DecidableEq, Repr

/-- A packet that a slot has read: its offset in the ring, and its units (12 R283). -/
structure Packet where
  offset : Nat
  units : List W64
  /-- of a LAUNCH, memory as it stood when the packet was read (05 R103) -/
  code : List Host.Cell := []
  /-- the time of the tail write that covered the packet (14 R322) -/
  written : Nat := 0
  deriving DecidableEq, Repr

/-- What a processed packet still waits for (12 R283, R284): its launch scope; its turn to write; the completion of the
earlier packets, then the stores that were pending at that time; the stores of its attestation report (15 R337). -/
inductive OpenKind where
  | launch (scope : Nat) (gen : W32)
  | write (va v : W64)
  | fence (sys : Bool) (after : Option (List Nat))
  | report (stores : List Nat)
  /-- an ATTEST in a mailbox (15 R337): its report address and nonce -/
  | attest (va : W64) (nonce : List W64)
  deriving DecidableEq, Repr

/-- A processed packet that has not completed (12 R283): the slot that read it, its offset and its EVENT bit; for its
write, the fault record that it waits for and whether the reply has denied the page (12 R463). -/
structure OpenPacket where
  slot : Nat
  ctx : Nat
  offset : Nat
  event : Bool
  kind : OpenKind
  wait : Option (Nat × Nat) := none
  denied : Bool := false
  deriving DecidableEq, Repr

/-- A hardware queue slot (12 R278). -/
structure Slot where
  base : W64 := 0
  size : W64 := 0
  head : W32 := 0
  tail : W32 := 0
  ctx : Nat := 0
  prio : Nat := 0
  cause : Nat := 0
  state : SlotState := .unmapped
  en : Bool := false
  acl : W64 := 0
  /-- the queue number that firmware gave the queue mapped here (22 R400) -/
  queue : W32 := 0
  /-- the packet read and not yet processed -/
  cur : Option Packet := none
  /-- the QCTL value that unmaps the slot once its current packet is over (12 R280) -/
  leaving : Option W64 := none
  /-- the fault record that the slot waits for (12 R285, R463), and the pages that replies have denied to its packet -/
  wait : Option (Nat × Nat) := none
  denied : List Nat := []
  /-- the time of the latest check of a WAIT condition, and of the latest tail write -/
  checked : Nat := 0
  tailAt : Nat := 0
  /-- the tail writes whose units are not yet processed, with their times, the oldest first (14 R322) -/
  tails : List (W32 × Nat) := []
  /-- the stores that came before the latest tail write: the ring is read after them (08 R194) -/
  after : List Nat := []
  /-- since when the packet at the head is to be read, and the steps by which it has aged (12 R294) -/
  since : Nat := 0
  ageSteps : Nat := 0
  deriving DecidableEq, Repr

/-- Where a request is served (07 R165). -/
inductive Place where
  | slice
  | node (n : Nat)
  | host
  deriving DecidableEq, Repr

/-- What a request does. -/
inductive Access where
  | load
  | store
  | atomic
  | pref
  deriving DecidableEq, Repr

/-- One lane's part of a request: the lane, which piece of the lane's access, the address, its length, the bytes stored
and, for an atomic, its operation and compare value. -/
structure Part where
  lane : Nat
  piece : Nat
  addr : Nat
  va : W64
  len : Nat
  data : List Byte := []
  op : Nat := 0
  cmp : W32 := 0
  deriving DecidableEq, Repr

/-- How far a request has come: `queued` while it waits for a miss slot (07 R168). -/
inductive Stage where
  | queued
  | sent
  | fetched
  | arrived
  | visible
  | answered
  deriving DecidableEq, Repr

/-- The miss slot that a request holds (07 R168): none, one of its band's own, or a shared one. -/
inductive MissSlot where
  | none
  | own
  | shared
  deriving DecidableEq, Repr

/-- One request of one line (07 R167). -/
structure Req where
  id : Nat
  op : Nat
  agent : Nat
  core : Nat
  place : Place
  access : Access
  line : Nat
  parts : List Part
  lease : Nat := 0
  noL1 : Bool := false
  count : Nat := 0
  stage : Stage := .sent
  v : Nat := 0
  /-- bytes read, part by part -/
  got : List (List Byte) := []
  leaseEnd : Nat := 0
  failed : Bool := false
  timeout : Bool := false
  /-- a demand access has met this prefetch while it was pending (07 R177) -/
  touched : Bool := false
  issued : Nat := 0
  /-- its miss slot, and when it was sent (07 R168) -/
  slot : MissSlot := .none
  sentAt : Nat := 0
  /-- requests that came later and that its bank has served before it (07 R169) -/
  passed : Nat := 0
  /-- of a store that has no V yet: a load of its band has been served from it (08 R182) -/
  fwd : Bool := false
  /-- of a load that reached a line while an engine owned it: the V of the engine's write (08 R195) -/
  notBefore : Nat := 0
  /-- the line that it was to read is poisoned (07 R170) -/
  bad : Bool := false
  /-- its packet has counted as a reader of the line already (07 R159) -/
  counted : Bool := false
  /-- of a store or atomic: the launch that issued it (05 R103) -/
  launch : Option Nat := none
  /-- of a store: where its failure is recorded (03 R76), the scope with its generation, and the instruction's address -/
  scope : Option (Nat × W32) := none
  pc : W64 := 0
  deriving DecidableEq, Repr

/-- What an operation in flight does with its replies. -/
inductive OpKind where
  /-- values known at issue: S-registers, V-registers by lane, predicates, flags -/
  | values (s : List (Nat × W64)) (v : List (Nat × VReg)) (flags : BitVec 5)
  /-- LD, LDRC and RSVLD: destination, size code (7 for a record of RSVLD) -/
  | load (d size : Nat)
  /-- SLD -/
  | sload (d size : Nat)
  /-- stores of a band or control context -/
  | store
  | pref
  | atomic (d : Nat) (op : Nat)
  /-- LDS before it performs (08 R191): destination, size code, each lane's address -/
  | lds (d size : Nat) (parts : List (Nat × Nat))
  /-- STS before it performs: each lane's address and bytes -/
  | sts (parts : List (Nat × List Byte))
  /-- ATOMS before it performs: destination, operation, each lane's address, word and compare value -/
  | atoms (d op : Nat) (parts : List (Nat × Nat × W32 × W32))
  /-- bytes of host or peer memory that an instruction needs before it performs (13 R303), kept in `Agent.peeked`; whether
  its threads share them -/
  | peek (whole : Bool)
  /-- LTWALK with its nodes read (11 R269): its walker, the walker and position words of each lane, its node's bytes, and
  whether every source is uniform -/
  | walk (d : Nat) (src : List (List W32)) (nodes : List (List Byte)) (uniform : Bool)
  /-- CALLT: its link, the lanes that call and those that skip (20 R354) -/
  | callt (d : Nat) (calling skipping : W32)
  /-- RTBOX: its summary, the ray words of each lane, and whether every source is uniform -/
  | rtbox (d : Nat) (rays : List (List W32)) (uniform : Bool)
  /-- RTTRI: its candidate, its culling bits, the ray words of each lane, and whether every source is uniform -/
  | rttri (d : Nat) (cull : Nat) (rays : List (List W32)) (uniform : Bool)
  | cwait (d cnt : Nat)
  /-- CARVE, until its status is known (07 R157) -/
  | carve (d : Nat)
  | scwait (d scope : Nat) (gen : W32)
  /-- SPAWN, before it performs: its result, its scope's handle or none for the task's, its entry, its counter -/
  | spawn (d : Nat) (handle : Option W64) (body : List W64) (bind : Option Nat)
  /-- QPUSH, before it performs: its result, its queue handle and the packet image; the fault record that it waits for, and
  whether the reply has denied a page of the ring -/
  | qpush (d : Nat) (handle : W64) (image : List W64) (wait : Option (Nat × Nat)) (denied : Bool)
  /-- a QPUSH on its way to a peer (22 R401): its result, the node, when it left, and the scope whose remote list holds a
  place for it -/
  | push (d node since : Nat) (scope : Option Nat)
  deriving DecidableEq, Repr

/-- An operation in flight of an agent: its order of issue is its number. -/
structure Op where
  id : Nat
  agent : Nat
  kind : OpKind
  /-- lanes of the packet with a true guard that did not park -/
  lanes : W32
  /-- the threads of its packet -/
  pkt : W32 := 0
  tok : Option Nat
  /-- whether the write covers every non-exited thread (04 R86) -/
  covers : Bool := false
  /-- of a commit instruction, whose result is written before a landing (02 R51, 03 R63) -/
  commit : Bool := false
  /-- registers that a later instruction has written meanwhile (04 R91) -/
  clash : List Reg := []
  pc : W64 := 0
  /-- the threads that wait at the instruction for its replies (13 R303, 20 R354), and the PC after it -/
  held : W32 := 0
  next : W64 := 0
  /-- registers that last use frees once the replies are in (04 R93) -/
  lu : List Nat := []
  deriving DecidableEq, Repr

/-- What a slice records of a line (08 R181, R195): latest lease end, one ns after V of the last store (0 where there is none), the commands that own it. -/
structure LineRec where
  leaseEnd : Nat := 0
  nextV : Nat := 0
  owners : List Nat := []
  deriving DecidableEq, Repr

/-- A context: the root of its page table, and whether its crews are switched out (07 R163, 13 R309). -/
structure Ctx where
  root : Nat := 0
  hasRoot : Bool := false
  out : Bool := false
  job : Nat := 0
  deriving DecidableEq, Repr

/-- An event that is not yet visible: the units that EVTAIL advances by, whether it raises the vector, and its stores. -/
structure Posted where
  units : Nat
  raises : Bool
  stores : List Nat
  deriving DecidableEq, Repr

/-- An event queue (14 R312); `next` is the tail with the events that are not yet visible. -/
structure EvQueue where
  base : W64 := 0
  size : W64 := 0
  head : W32 := 0
  tail : W32 := 0
  en : Bool := false
  vector : Nat := 0
  every : Bool := false
  lost : W32 := 0
  next : W32 := 0
  posted : List Posted := []
  deriving DecidableEq, Repr

/-- The power and telemetry registers of a die (14 R317, R318), its rate-of-rise budget in A·µs/3000 and its samples. -/
structure Power where
  step : Nat := 0x28
  tlmBase : W64 := 0
  tlmSize : W64 := 0
  tlmSeq : W32 := 0
  budget : Nat := 1500
  budgetAt : Nat := 0
  delayed : Bool := false
  missed : Bool := false
  samples : List Nat := []
  lastSample : Nat := 0
  lastRecord : Nat := 0
  deriving DecidableEq, Repr

/-- The phase of a replacement (15 R330). -/
inductive FwPhase where
  | idle
  | staging
  | staged
  | quiesce
  | exporting
  | switching
  | probation
  deriving DecidableEq, Repr

/-- An entry of a partition's mailbox (15 R331): a request of one word, or an ATTEST packet that waits, by its queue and its
offset in the ring (R337). -/
inductive Mail where
  | word (w : W64)
  | attest (queue offset : Nat)
  deriving DecidableEq, Repr

/-- The answer that a request of a partition has had (15 R331): BUSY, or one of the partition. -/
structure MailAnswer where
  die : Nat
  part : Nat
  entry : Mail
  busy : Bool
  deriving DecidableEq, Repr

/-- A firmware partition (15 R324, R329, R330). -/
structure Partition where
  slot : Nat := 0
  phase : FwPhase := .idle
  outcome : Nat := 0
  active : Image := {}
  staged : Option Image := none
  img : W64 := 0
  hbeat : W64 := 0
  mailbox : List Mail := []
  /-- the bytes of its image slots, and of its state block (15 R325, R333) -/
  images : Tbl (List Byte) := []
  block : List Byte := []
  /-- the block's digest matched when the new image started: it is imported (15 R333) -/
  imported : Bool := true
  quiesceAt : Nat := 0
  switchAt : Nat := 0
  firstBeat : Option Nat := none
  lastBeat : Nat := 0
  deriving DecidableEq, Repr

/-- The firmware core of a die: its measurement log, running digest and leadership (15 R326, R335). -/
structure FwCore where
  entries : List LogEntry := []
  count : Nat := 0
  logd : BitVec 512 := 0
  leads : Bool := false
  leaseEnd : Nat := 0
  /-- lease ends on their way to this die in messages of the leader (15 R326); it has sent HANDOFF (15 R327) -/
  inbox : List Nat := []
  handoff : Bool := false
  deriving DecidableEq, Repr

/-- A device piece of a GDDR7 controller that no entry of its indirection table names (07 R174): its bytes and its poisoned
sectors, each by its place in a frame. -/
structure DevPiece where
  cells : List Host.Cell := []
  poison : List Nat := []
  deriving DecidableEq, Repr

/-- A logged error (14 R319, R321). -/
structure ErrorRec where
  die : Nat
  site : Nat
  place : Nat
  lasting : Bool
  /-- it was corrected (14 R319) -/
  corrected : Bool := false
  time : Nat
  deriving DecidableEq, Repr

/-- What the module answers to a request of the host or of a peer (14 R310, R315, R316): data, an acknowledgement, the result
word of a push, a NACK, UR, a poisoned completion. -/
inductive Reply where
  | data (bs : List Byte)
  | ack
  | result (w : W64)
  /-- the acknowledgement of a scope, by its handle (03 R68) -/
  | settled (h : W64)
  | nack
  | unsupported
  | poisoned
  deriving DecidableEq, Repr

/-- A request of a peer that has not performed (14 R315, 08 R199): its node, and the fault record that it waits for, where
it is not the turn of its node's earlier requests that it waits for. -/
structure HeldPeer where
  node : Nat
  req : PeerRequest
  wait : Option (Nat × Nat)
  deriving DecidableEq, Repr

/-- A store of a peer that is to be acknowledged once its requests are visible (08 R199). -/
structure PeerAck where
  node : Nat
  stores : List Nat
  deriving DecidableEq, Repr

/-- A request of a peer that ended in NACK, as firmware logs it (14 R316): a DENIED reply 1, an ABSENT reply 2, a page without
the permission 3, a poisoned line 4, the access-control bitmap 5. -/
structure NackRec where
  node : Nat
  cause : Nat
  time : Nat
  deriving DecidableEq, Repr

/-- One turn of the schedule (log 1): a step of the device, an agent that issues, or clocks that pass. -/
inductive Turn where
  | event (i : Instr)
  | issue (agent : Nat)
  | pass (clocks : Nat)
  deriving DecidableEq, Repr

/-- The module. -/
structure State where
  /-- time since power-on, in thirds of a ns (00 R3) -/
  t : Nat
  powered : Bool
  /-- the one memory in canonical form: device memory, Pewter, scratchpads (Machine/Effects.lean) -/
  mem : List Host.Cell
  /-- poisoned 32-byte sectors (14 R320) -/
  poison : List Nat
  agents : Tbl Agent
  crews : Tbl Crew
  cores : Tbl Core
  scopes : Tbl Scope
  launches : Tbl Launch
  counters : Tbl Counter
  /-- decrements that wait for stores (08 R194) -/
  decs : List PendingDec
  slots : Tbl Slot
  /-- head and tail saved with the queues that are not mapped, by queue number (12 R280) -/
  queues : Tbl (W32 × W32)
  /-- the context that owns each queue that has been mapped, by queue number (22 R401) -/
  queueCtx : Tbl Nat
  /-- packets that are processed and not completed, oldest first, by queue number (12 R280, R283) -/
  opens : Tbl (List OpenPacket)
  /-- the slot that each die's front end read last (12 R294) -/
  frontLast : Tbl Nat
  ops : List Op
  reqs : List Req
  lines : Tbl LineRec
  casts : List Cast
  faults : List FaultRec
  faultSerial : Tbl Nat
  ctxs : Tbl Ctx
  evqs : Tbl EvQueue
  /-- entries of the indirection tables, and the device pieces that none names (07 R174) -/
  indir : Tbl W64
  pieces : Tbl DevPiece
  pewter : Tbl Nat
  node : BitVec 9
  routes : Tbl (BitVec 18)
  /-- failed Tropex ports (14 R314), and the width of each die-link module that has lost a lane (14 R313) -/
  portsDown : List Nat
  links : Tbl Nat
  power : Tbl Power
  parts : Tbl Partition
  /-- the answers that requests of the partitions have had (15 R331) -/
  mailOut : List MailAnswer
  fws : Tbl FwCore
  /-- MSI-X vectors raised: function and vector (14 R312, R321) -/
  msi : List (Nat × Nat)
  errors : List ErrorRec
  /-- corrected errors counted by die and structure, 16 to a die (14 R319) -/
  correctable : Tbl Nat
  dieMonitors : Tbl Monitor
  /-- requests of peers that wait (14 R315), and stores of theirs that are not yet acknowledged (08 R199) -/
  heldPeers : List HeldPeer
  peerAcks : List PeerAck
  /-- replies that the module has sent, to peers by node and to the host (14 R310, R315) -/
  peerOut : List (Nat × Reply)
  hostOut : List Reply
  /-- requests of peers that ended in NACK (14 R316), and the firmware messages received, by node (14 R315) -/
  nacks : List NackRec
  peerMsgs : List (Nat × List Byte)
  /-- log2 of the size of the BAR2 window, and the virtual functions that the host has enabled (14 R310) -/
  bar2 : Nat
  vfs : Nat
  cancelSerial : W32
  /-- the time of the latest CANCEL of an agent, and its place in the order of that clock (03 R67) -/
  cancelLast : Nat × Nat
  /-- cancels counted by job under DET (03 R77) -/
  jobCancels : Tbl Nat
  nextId : Nat
  /-- the model's own: the schedule still to come (log 1) -/
  agenda : List Turn
  /-- the model's own: the agent whose packet is performed, and the packet's PC where it is not the least (log 1) -/
  cur : Nat
  curPc : Option W64
  /-- the model's own: the counter of the free values (log 8) -/
  freeCtr : Nat
  deriving DecidableEq, Repr

/-- A partition after power-on: its boot image, a free value, stands in slot 0 and is active (15 R325, log 16). -/
def bootPartition (die part : Nat) : Partition :=
  { active := Image.ofBytes (Config.bootImage die part), images := [(0, Config.bootImage die part)] }

/-- A partition's agent after power-on: it runs its boot image from the entry, with privilege (15 R324, 05 R119). The spec
gives its registers no reset value (log 4). -/
def bootAgent (part : Nat) : Agent :=
  let pc := BitVec.ofNat 64 (slotOff part 0 + 512)
  { kind := .fw, live := true, priv := true, threads := [(0, { pc, restart := pc, st := .ready })] }

/-- The BOOT entry of a partition (15 R335). -/
def bootEntry (die part : Nat) : LogEntry :=
  { index := part, die := die, kind := part, event := 0, time := 0, version := (bootPartition die part).active.version,
    digest := (bootPartition die part).active.digest }

/-- The firmware core of a die after power-on: die 0 leads (15 R326), and the log holds the boot entries 0 to 2 (15 R335). -/
def bootFw (die : Nat) : FwCore :=
  { entries := [bootEntry die 0, bootEntry die 1, bootEntry die 2]
    count := 3
    logd := logNext (logNext (logNext 0 (bootEntry die 0)) (bootEntry die 1)) (bootEntry die 2)
    leads := die == 0
    leaseEnd := 20000000 }

/-- The state after reset: power-on (01 R24, 07 R155, 15 R326, R329, R335), with nothing launched. Fields that the spec
gives no reset value stand at the values that log 4 names. -/
def State.reset : State where
  t := 0
  powered := true
  mem := []
  poison := []
  agents := [(255 * 2 ^ 12, bootAgent 0), (255 * 2 ^ 12 + 1, bootAgent 1), (255 * 2 ^ 12 + 2, bootAgent 2),
    (2 ^ 20 + 255 * 2 ^ 12, bootAgent 0), (2 ^ 20 + 255 * 2 ^ 12 + 1, bootAgent 1), (2 ^ 20 + 255 * 2 ^ 12 + 2, bootAgent 2)]
  crews := []
  cores := []
  scopes := []
  launches := []
  counters := []
  decs := []
  slots := []
  queues := []
  queueCtx := []
  opens := []
  frontLast := []
  ops := []
  reqs := []
  lines := []
  casts := []
  faults := []
  faultSerial := []
  ctxs := []
  evqs := []
  indir := []
  pieces := []
  pewter := []
  node := 0x1FF
  routes := []
  portsDown := []
  links := []
  power := []
  parts := [(0, bootPartition 0 0), (1, bootPartition 0 1), (2, bootPartition 0 2),
    (4, bootPartition 1 0), (5, bootPartition 1 1), (6, bootPartition 1 2)]
  mailOut := []
  fws := [(0, bootFw 0), (1, bootFw 1)]
  msi := []
  errors := []
  correctable := []
  dieMonitors := []
  heldPeers := []
  peerAcks := []
  peerOut := []
  hostOut := []
  nacks := []
  peerMsgs := []
  bar2 := 28
  vfs := 63
  cancelSerial := 1
  cancelLast := (0, 0)
  jobCancels := []
  nextId := 1
  agenda := []
  cur := 0
  curPc := none
  freeCtr := 0

end Sys2Proof.Machine
end

