-- ==== Sys2Proof/Machine/Effects.lean ====
section
/-!
DEFINITION. The primitive effects that every step is made of, the small language of programs over them, the one memory
and its canonical form, and the accessors of State. A meaning is a program; `exec` answers the state that it leaves.
Every change of memory, of time and of the free-value counter goes through an effect of its own, so that what holds of
them is proved once, over the effects.
-/

namespace Sys2Proof.Machine

/-- Memory is in canonical form: addresses strictly rising, and no byte that an unlisted address reads as (log 3). -/
def Memory.wf : List Host.Cell → Bool
  | [] => true
  | [c] => c.2 != 0
  | c :: d :: r => c.2 != 0 && decide (c.1 < d.1) && Memory.wf (d :: r)

/-- What an address reads as where no byte is listed (log 3). -/
def Memory.unlisted : Byte := 0

/-- The byte at an address. -/
def Memory.read : List Host.Cell → Nat → Byte
  | [], _ => Memory.unlisted
  | c :: r, a => if c.1 = a then c.2 else Memory.read r a

/-- Put a byte in front, unless it is what an unlisted address reads as. -/
def Memory.cons (a : Nat) (b : Byte) (m : List Host.Cell) : List Host.Cell :=
  if b = Memory.unlisted then m else (a, b) :: m

/-- Write a byte; the canonical form is kept. -/
def Memory.write : List Host.Cell → Nat → Byte → List Host.Cell
  | [], a, b => Memory.cons a b []
  | c :: r, a, b =>
    if a < c.1 then Memory.cons a b (c :: r)
    else if a = c.1 then Memory.cons a b r
    else c :: Memory.write r a b

/-- Write bytes to consecutive addresses. -/
def Memory.writes : List Host.Cell → Nat → List Byte → List Host.Cell
  | m, _, [] => m
  | m, a, b :: r => Memory.writes (Memory.write m a b) (a + 1) r

/-- Read `n` consecutive bytes. -/
def Memory.reads (m : List Host.Cell) (a : Nat) : Nat → List Byte
  | 0 => []
  | n + 1 => Memory.read m a :: Memory.reads m (a + 1) n

/-- Zero the addresses from `lo` up to `hi`. -/
def Memory.clear (m : List Host.Cell) (lo hi : Nat) : List Host.Cell :=
  m.filter (fun c => c.1 < lo || hi ≤ c.1)

/-! The address spaces of the one memory. Device memory has its physical address (R160). -/

/-- Where Pewter begins: its address has the die in bit 37 and the offset in [29:0] (R162). -/
def Space.pewter : Nat := 2 ^ 38

/-- Where the scratchpads begin. -/
def Space.scratch : Nat := 2 ^ 40

/-- The address of a scratchpad offset of a core (R155). -/
def Space.scratchAt (core off : Nat) : Nat := Space.scratch + core * 2 ^ 21 + off

/-- A primitive effect. -/
inductive Eff where
  /-- bytes stored to memory from an address upwards -/
  | bytes (a : Nat) (bs : List Byte)
  /-- memory zeroed from `lo` up to `hi` -/
  | clear (lo hi : Nat)
  /-- time passes, in thirds of a nanosecond -/
  | pass (n : Nat)
  /-- a free value has been taken -/
  | free
  /-- an agent that is there changes -/
  | agent (k : Nat) (f : Agent → Agent)
  /-- any other change: memory, time and the free-value counter stay -/
  | upd (f : State → State)
  /-- the module is powered on anew; what the schedule holds stays -/
  | powerOn

/-- The agent with a key (an unused one where nothing is listed). -/
def State.agent (s : State) (k : Nat) : Agent := s.agents.get k {}

/-- What an effect does to the state. -/
def applyEff (s : State) : Eff → State
  | .bytes a bs => { s with mem := Memory.writes s.mem a bs }
  | .clear lo hi => { s with mem := Memory.clear s.mem lo hi }
  | .pass n => { s with t := s.t + n }
  | .free => { s with freeCtr := s.freeCtr + 1 }
  | .agent k f =>
    match s.agents.find k with
    | some a => { s with agents := s.agents.put k (f a) }
    | none => s
  | .upd f => { f s with mem := s.mem, t := s.t, freeCtr := s.freeCtr }
  | .powerOn => { State.reset with agenda := s.agenda, freeCtr := s.freeCtr }

/-- A program over the effects: what comes later may look at the state that what came before has left. -/
inductive Prog where
  | skip
  | act (e : Eff)
  | seq (p q : Prog)
  | look (f : State → Prog)

/-- Run a program. -/
def Prog.run : Prog → State → State
  | .skip, s => s
  | .act e, s => applyEff s e
  | .seq p q, s => q.run (p.run s)
  | .look f, s => (f s).run s

namespace Prog

/-- Programs one after another. -/
def all : List Prog → Prog
  | [] => .skip
  | p :: r => .seq p (all r)

/-- A program for each element of a list, in order. -/
def each {α : Type} (l : List α) (f : α → Prog) : Prog := all (l.map f)

/-- A program where a condition holds. -/
def when (c : Bool) (p : Prog) : Prog := if c then p else .skip

/-- Change an agent. -/
def agent (k : Nat) (f : Agent → Agent) : Prog := .act (.agent k f)

/-- Put an agent in place. -/
def newAgent (k : Nat) (a : Agent) : Prog := .act (.upd (fun s => { s with agents := s.agents.put k a }))

/-- Change the rest of the state. -/
def upd (f : State → State) : Prog := .act (.upd f)

/-- Store bytes. -/
def bytes (a : Nat) (bs : List Byte) : Prog := .act (.bytes a bs)

end Prog

/-- The outcome of a program: the state that it leaves. -/
def done (p : Prog) (s : State) : Host.Outcome State Fault Refusal := .next (p.run s)

namespace State

def core (s : State) (c : Nat) : Core := s.cores.get c {}
def crew? (s : State) (k : Nat) : Option Crew := s.crews.find k
def scope (s : State) (i : Nat) : Scope := s.scopes.get i {}
def launch? (s : State) (i : Nat) : Option Launch := s.launches.find i
def counter (s : State) (d : Nat) : Counter := s.counters.get d {}
def slot (s : State) (i : Nat) : Slot := s.slots.get i {}
def ctx (s : State) (c : Nat) : Ctx := s.ctxs.get c {}
def evq (s : State) (c : Nat) : EvQueue := s.evqs.get c {}
def lineRec (s : State) (l : Nat) : LineRec := s.lines.get l {}
def powerOf (s : State) (d : Nat) : Power := s.power.get d {}
def part (s : State) (die p : Nat) : Partition := s.parts.get (4 * die + p) {}
def fw (s : State) (d : Nat) : FwCore := s.fws.get d {}
def op? (s : State) (i : Nat) : Option Op := s.ops.find? (fun o => o.id == i)
def req? (s : State) (i : Nat) : Option Req := s.reqs.find? (fun r => r.id == i)

/-- Global time in ns (R3, R15). -/
def ns (s : State) : Nat := s.t / Config.tick

/-- Arithmetic clocks since power-on (R3). -/
def clocks (s : State) : Nat := s.t / Config.clock

/-- Read bytes of memory. -/
def readBytes (s : State) (a n : Nat) : List Byte := Memory.reads s.mem a n

/-- Read a little-endian number of memory (R2). -/
def readNat (s : State) (a n : Nat) : Nat := leNat (s.readBytes a n)

/-- A free bit for a place. -/
def freeBit (s : State) (place : Nat) : Bool := Config.freeBit s.freeCtr place 0

/-- A free word for a place. -/
def freeWord (s : State) (place sub : Nat) : W32 := Config.freeWord s.freeCtr place sub

end State

namespace Prog

def core (c : Nat) (f : Core → Core) : Prog :=
  upd (fun s => { s with cores := s.cores.put c (f (s.core c)) })
def crew (k : Nat) (f : Crew → Crew) : Prog :=
  upd (fun s => match s.crew? k with
    | some c => { s with crews := s.crews.put k (f c) }
    | none => s)
def scope (i : Nat) (f : Scope → Scope) : Prog :=
  upd (fun s => { s with scopes := s.scopes.put i (f (s.scope i)) })
def launch (i : Nat) (f : Launch → Launch) : Prog :=
  upd (fun s => match s.launch? i with
    | some l => { s with launches := s.launches.put i (f l) }
    | none => s)
def counter (d : Nat) (f : Counter → Counter) : Prog :=
  upd (fun s => { s with counters := s.counters.put d (f (s.counter d)) })
def slot (i : Nat) (f : Slot → Slot) : Prog :=
  upd (fun s => { s with slots := s.slots.put i (f (s.slot i)) })
def opens (q : Nat) (f : List OpenPacket → List OpenPacket) : Prog :=
  upd (fun s => { s with opens := match f (s.opens.get q []) with
    | [] => s.opens.drop q
    | l => s.opens.put q l })
def part (die p : Nat) (f : Partition → Partition) : Prog :=
  upd (fun s => { s with parts := s.parts.put (4 * die + p) (f (s.part die p)) })
def fw (d : Nat) (f : FwCore → FwCore) : Prog :=
  upd (fun s => { s with fws := s.fws.put d (f (s.fw d)) })
def powerOf (d : Nat) (f : Power → Power) : Prog :=
  upd (fun s => { s with power := s.power.put d (f (s.powerOf d)) })
def line (l : Nat) (f : LineRec → LineRec) : Prog :=
  upd (fun s => { s with lines := s.lines.put l (f (s.lineRec l)) })
def op (i : Nat) (f : Op → Op) : Prog :=
  upd (fun s => { s with ops := s.ops.map (fun o => if o.id = i then f o else o) })
def req (i : Nat) (f : Req → Req) : Prog :=
  upd (fun s => { s with reqs := s.reqs.map (fun r => if r.id = i then f r else r) })
def dropOp (i : Nat) : Prog := upd (fun s => { s with ops := s.ops.filter (fun o => o.id != i) })
def dropReq (i : Nat) : Prog := upd (fun s => { s with reqs := s.reqs.filter (fun r => r.id != i) })

/-- Log the poisoned sectors of which a store that covers them in part is discarded (R320): errors that are not lasting, each at
its sector's address and with the structure of R319 that the address lies in (log 99). -/
def logDiscards (secs : List Nat) : Prog :=
  upd (fun s => { s with errors := s.errors ++ secs.eraseDups.map (fun sec =>
    let a := 32 * sec
    { die := if a < Space.scratch then a / 2 ^ 37 % 2 else (a - Space.scratch) / 2 ^ 28
      site := if a < Space.pewter then 0 else if a < Space.scratch then 2 else 5
      place := a
      lasting := false
      time := s.ns }) })

/-- Store bytes and clear the poison of the sectors that they cover whole; bytes of a poisoned sector that they cover
in part are discarded, and logged (R320). -/
def storeBytes (a : Nat) (bs : List Byte) : Prog :=
  .look fun s =>
    if s.poison.isEmpty then bytes a bs
    else
      let idx := (List.range bs.length).map (fun i => a + i)
      let full := fun sec => decide (a ≤ 32 * sec) && decide (32 * sec + 32 ≤ a + bs.length)
      let bad := fun x => s.poison.contains (x / 32) && !full (x / 32)
      all [
        each (idx.zip bs) (fun e => when (!bad e.1) (bytes e.1 [e.2])),
        logDiscards ((idx.filter bad).map (· / 32)),
        upd (fun s => { s with poison := s.poison.filter (fun sec => !full sec) })]

end Prog

/-! Keys of agents and cores. -/

/-- The die of an agent. -/
def dieOf (k : Nat) : Nat := k / 2 ^ 20 % 2

/-- The key of an agent's core. -/
def coreOf (k : Nat) : Nat := 128 * dieOf k + k / 2 ^ 12 % 256

/-- The number of an agent's core on its die (R17). -/
def coreNo (k : Nat) : Nat := k / 2 ^ 12 % 256

/-- The band slot of a band, 64 plus the context of a control context, the partition of a firmware partition. -/
def unitOf (k : Nat) : Nat := k % 2 ^ 12

/-- The key of the agent at a place. -/
def agentKey (die core unit : Nat) : Nat := die * 2 ^ 20 + core * 2 ^ 12 + unit

/-- The key of the agent at a place of a core given by its key. -/
def agentAt (core unit : Nat) : Nat := agentKey (core / 128) (core % 128) unit

/-- The die of a core's key. -/
def coreDie (c : Nat) : Nat := c / 128

end Sys2Proof.Machine
end

