-- ==== Sys2Proof/Machine/Operands.lean ====
section
/-!
DEFINITION. Operands: lanes and masks, shape tags, reading and writing registers (04 R78 to R96), results that are read
or overwritten too early, last use and the count of general slots.
-/

namespace Sys2Proof.Machine

/-- The mask of the lanes for which `f` holds. -/
def maskOf (f : Nat → Bool) : W32 :=
  (List.range 32).foldl (fun m l => if f l then m ||| (1#32 <<< l) else m) 0

/-- The lanes of a mask, ascending. -/
def lanesOf (m : W32) : List Nat := (List.range 32).filter (fun l => m.getLsbD l)

/-- The number of lanes of a mask. -/
def popc (m : W32) : Nat := (lanesOf m).length

namespace VReg

/-- The value in a lane (R85); a dead register reads as zero (R93). -/
def lane (r : VReg) (l : Nat) : W32 :=
  match r with
  | dead => 0
  | uni v => v
  | aff base stride => base + stride * BitVec.ofNat 32 l
  | gen ls => ls.getD l 0

/-- Whether every lane holds one value by its tag: U, or X, which reads as a zero of shape U (R93). -/
def uniform : VReg → Bool
  | dead | uni _ => true
  | _ => false

/-- Whether the register takes a general slot. -/
def general : VReg → Bool
  | gen _ => true
  | _ => false

/-- An affine result whose stride is zero is tagged U (R86). -/
def norm : VReg → VReg
  | aff base stride => if stride = 0 then uni base else aff base stride
  | r => r

/-- A register with one word for each lane. -/
def ofLanes (f : Nat → W32) : VReg := gen ((List.range 32).map f)

/-- The register after a write of `new` in the lanes `act` (R86, R87): where the write covers every non-exited thread
the new shape stands, and the lanes of a G result that are not written keep what they held; otherwise the register is G. -/
def merge (old new : VReg) (act : W32) (covers : Bool) : VReg :=
  let mixed := ofLanes (fun l => if act.getLsbD l then new.lane l else old.lane l)
  if covers then (if new.general then mixed else new.norm) else mixed

end VReg

/-- A per-lane result of sources with the given shapes: U where every source is U, otherwise G (R86). -/
def perLane (srcs : List VReg) (f : Nat → W32) : VReg :=
  if srcs.all VReg.uniform then .uni (f 0) else .ofLanes f

namespace Agent

/-- A thread of the agent. -/
def thread (a : Agent) (l : Nat) : Thread := a.threads.get l {}

/-- The threads whose state satisfies a condition. -/
def stMask (a : Agent) (f : TState → Bool) : W32 :=
  a.threads.foldl (fun m e => if f e.2.st then m ||| (1#32 <<< e.1) else m) 0

/-- The non-exited threads (R97). -/
def liveMask (a : Agent) : W32 := a.stMask (· != .exited)

/-- The READY threads. -/
def readyMask (a : Agent) : W32 := a.stMask (· == .ready)

/-- Change the threads of a mask. -/
def mapThreads (a : Agent) (m : W32) (f : Nat → Thread → Thread) : Agent :=
  { a with
    threads := a.threads.map (fun e => if m.getLsbD e.1 then (e.1, f e.1 e.2) else e) }

/-- A V-register as it stands; 126 is zero and 127 the lane number (R78). -/
def rawV (a : Agent) (n : Nat) : VReg :=
  if n = 126 then .uni 0 else if n = 127 then .aff 0 1 else a.v.get n .dead

/-- An S-register as it stands; S0 is zero (R80). -/
def rawS (a : Agent) (n : Nat) : W64 := if n = 0 then 0 else a.s.get n 0

/-- A predicate as it stands; P7 is true (R81). -/
def rawP (a : Agent) (n : Nat) : W32 := if n = 7 then 0xFFFFFFFF else a.p.get n 0

/-- Write a V-register; 126 discards (R78). -/
def putV (a : Agent) (n : Nat) (x : VReg) : Agent := if n ≥ 126 then a else { a with v := a.v.put n x }

/-- Write an S-register; S0 discards (R80). -/
def putS (a : Agent) (n : Nat) (x : W64) : Agent := if n = 0 then a else { a with s := a.s.put n x }

/-- Write a predicate in the lanes of a mask; P7 discards (R81). -/
def putP (a : Agent) (n : Nat) (x act : W32) : Agent :=
  if n = 7 then a else { a with p := a.p.put n ((a.rawP n &&& ~~~act) ||| (x &&& act)) }

/-- The fixed-latency result of a register that is not yet due (R89). -/
def early (a : Agent) (r : Reg) (now : Nat) : Option Recent :=
  a.recent.find? (fun x => x.reg == r && decide (now < x.due))

/-- The token counts (R91). -/
def tok (a : Agent) (k : Nat) : Nat := a.k.get k 0

end Agent

/-- The registers that an operation in flight will write. -/
def OpKind.dests : OpKind → List Reg
  | .values s v _ => (s.filter (fun e => e.1 != 0)).map (fun e => .s e.1) ++ v.map (fun e => .v e.1)
  | .load d size => if d ≥ 126 then [] else (List.range (sizeRegs size)).map (fun i => .v (d + i))
  | .sload d _ | .cwait d _ | .carve d | .scwait d _ _ | .spawn d _ _ _ | .qpush d _ _ _ _ | .push d _ _ _ => if d = 0 then [] else [.s d]
  | .store | .pref | .peek _ | .sts _ | .callt .. => []
  | .atomic d _ | .atoms d _ _ => if d ≥ 126 then [] else [.v d]
  | .lds d size _ => if d ≥ 126 then [] else (List.range (sizeRegs size)).map (fun i => .v (d + i))
  | .rtbox d .. => (List.range 7).map (fun i => .v (d + i))
  | .rttri d .. | .walk d .. => (List.range 5).map (fun i => .v (d + i))

/-- Whether an operation is a scratchpad access that has not yet performed (R191). -/
def OpKind.onPad : OpKind → Bool
  | .lds .. | .sts _ | .atoms .. => true
  | _ => false

/-- Whether every scratchpad access that an agent issued before operation `op` has performed (R189, R191). -/
def State.padDone (s : State) (k op : Nat) : Bool := s.ops.all (fun o => o.agent != k || decide (o.id ≥ op) || !o.kind.onPad)

/-- Whether a pending producer of the agent will write a register (R91). -/
def State.pending (s : State) (k : Nat) (r : Reg) : Bool :=
  s.ops.any (fun o => o.agent == k && o.kind.dests.contains r)

/-- Places of the free values of registers. -/
def Reg.place : Reg → Nat
  | .v n => n
  | .s n => 256 + n
  | .p n => 512 + n

/-- One of two V-register values in each lane, freely (R89, R91, R95); one free choice where both are U. -/
def State.eitherV (s : State) (place : Nat) (x y : VReg) : VReg :=
  if x.uniform && y.uniform then (if Config.freeBit s.freeCtr place 0 then .uni (x.lane 0) else .uni (y.lane 0))
  else .ofLanes (fun l => if Config.freeBit s.freeCtr place l then x.lane l else y.lane l)

/-- What an instruction reads from the registers. -/
structure Regs where
  v : Nat → VReg
  s : Nat → W64
  p : Nat → W32

/-- A free 64-bit word. -/
def State.free64 (s : State) (place : Nat) : W64 := s.freeWord place 1 ++ s.freeWord place 0

/-- The V-register that a pending producer will leave, where its value is known (R91). -/
def Op.knownV (o : Op) (n : Nat) (old : VReg) : Option VReg :=
  match o.kind with
  | .values _ v _ => (v.find? (fun e => e.1 == n)).map (fun e => old.merge e.2 o.lanes o.covers)
  | _ => none

/-- The S-register that a pending producer will leave, where its value is known (R91). -/
def Op.knownS (o : Op) (n : Nat) : Option W64 :=
  match o.kind with
  | .values ss _ _ => (ss.find? (fun e => e.1 == n)).map Prod.snd
  | _ => none

/-! What replies hold. -/

/-- The lanes of accesses. -/
def partLanes (ps : List Part) : W32 := maskOf (fun l => ps.any (fun p => p.lane == l))

/-- The word or words that a load writes to a lane (R384). -/
def loadWords (size : Nat) (bs : List Byte) : List W32 :=
  match size with
  | 1 => [(bs.getD 0 0).signExtend 32]
  | 3 => [(BitVec.ofNat 16 (leNat (bs.take 2))).signExtend 32]
  | 0 | 2 | 4 => [BitVec.ofNat 32 (leNat bs)]
  | _ => (List.range (sizeRegs size)).map (fun i => BitVec.ofNat 32 (leNat ((bs.drop (4 * i)).take 4)))

/-- The value of SLD (R413). -/
def sloadWord (size : Nat) (bs : List Byte) : W64 :=
  match size with
  | 1 => (bs.getD 0 0).signExtend 64
  | 3 => (BitVec.ofNat 16 (leNat (bs.take 2))).signExtend 64
  | 5 => (BitVec.ofNat 32 (leNat (bs.take 4))).signExtend 64
  | _ => BitVec.ofNat 64 (leNat bs)

/-- The parts of a request with the bytes that its reply holds. -/
def Req.filled (r : Req) : List (Part × List Byte) := r.parts.zip r.got

/-- The word of a reply's lane. -/
def replyWord (r : Req) (l : Nat) (g : List Byte → W32) : W32 :=
  match r.filled.find? (fun e => e.1.lane == l) with
  | some e => g e.2
  | none => 0

/-- The replies that an operation has so far: its results are written once it has them all (R91, 07 R170). -/
def State.repliesOf (s : State) (o : Op) : List Req :=
  s.reqs.filter (fun r => r.op == o.id && r.stage == .answered && !r.failed)

/-- The V-register that the replies of a load or an atomic leave so far (R91). -/
def State.repliedV (s : State) (o : Op) (n : Nat) (old : VReg) : Option VReg :=
  let put := fun (g : List Byte → W32) => match s.repliesOf o with
    | [] => none
    | rs => some (rs.foldl (fun v r => v.merge (.ofLanes (fun l => replyWord r l g)) (partLanes r.parts) false) old)
  match o.kind with
  | .load d size => if d ≤ n && n < d + sizeRegs size then put (fun bs => (loadWords size bs).getD (n - d) 0) else none
  | .atomic d _ => if n = d then put (fun bs => BitVec.ofNat 32 (leNat bs)) else none
  | _ => none

/-- The S-register that the reply of a load leaves. -/
def State.repliedS (s : State) (o : Op) (n : Nat) : Option W64 :=
  match o.kind, s.repliesOf o with
  | .sload d size, r :: _ => if n = d then some (sloadWord size r.got.flatten) else none
  | _, _ => none

/-- Read a V-register: a result that is not yet due reads as the old or the new value in each lane (R89). A register with
a pending producer reads as its content or as the producer's value (R91): the value of a producer that has none yet
cannot be read before its reply, and the reply may come first (log 7). Of a packet's replies each may be in (log 86). -/
def State.readV (s : State) (k n : Nat) : VReg :=
  let a := s.agent k
  if n ≥ 126 then a.rawV n
  else
    let now := match a.early (.v n) s.t with
      | some r => s.eitherV n r.oldV (a.rawV n)
      | none => a.rawV n
    ((s.ops.filter (fun o => o.agent == k)).filterMap (fun o => ((o.knownV n (a.rawV n)).or (s.repliedV o n (a.rawV n))).map (fun x => (o.id, x)))).foldl
      (fun v e => s.eitherV (16384 + 128 * e.1 + n) v e.2) now

/-- Read an S-register (R89, R91). -/
def State.readS (s : State) (k n : Nat) : W64 :=
  let a := s.agent k
  if n = 0 then 0
  else
    let now := match a.early (.s n) s.t with
      | some r => if s.freeBit (256 + n) then r.oldS else a.rawS n
      | none => a.rawS n
    ((s.ops.filter (fun o => o.agent == k)).filterMap (fun o => ((o.knownS n).or (s.repliedS o n)).map (fun x => (o.id, x)))).foldl
      (fun v e => if Config.freeBit s.freeCtr (16384 + 128 * e.1) n then v else e.2) now

/-- Read a predicate (R89). -/
def State.readP (s : State) (k n : Nat) : W32 :=
  let a := s.agent k
  match a.early (.p n) s.t with
  | some r => maskOf (fun l => if Config.freeBit s.freeCtr (512 + n) l then r.oldS.getLsbD l else (a.rawP n).getLsbD l)
  | none => a.rawP n

/-- What an agent's instruction reads. -/
def State.regs (s : State) (k : Nat) : Regs := { v := s.readV k, s := s.readS k, p := s.readP k }

/-- Note that a register holds a fixed-latency result: what it held before, and when the result is due (R89). -/
def Agent.note (a : Agent) (now : Nat) (r : Reg) (oldV : VReg) (oldS : W64) (lat : Nat) : Agent :=
  { a with
    recent := { reg := r, oldV, oldS, due := now + Config.clock * lat } ::
      a.recent.filter (fun x => decide (now < x.due) && x.reg != r) }

/-- Write a fixed-latency V result. An earlier result that is not yet due may come after it: either stands, in each
lane (R89). -/
def State.fixV (s : State) (lat n : Nat) (x : VReg) (a : Agent) : Agent :=
  if n ≥ 126 then a
  else
    let old := a.rawV n
    let x := match a.early (.v n) s.t with
      | some _ => s.eitherV (1024 + n) old x
      | none => x
    (a.putV n x).note s.t (.v n) old 0 lat

/-- Write a fixed-latency S result. -/
def State.fixS (s : State) (lat n : Nat) (x : W64) (a : Agent) : Agent :=
  if n = 0 then a
  else
    let old := a.rawS n
    let x := match a.early (.s n) s.t with
      | some _ => if s.freeBit (1280 + n) then old else x
      | none => x
    (a.putS n x).note s.t (.s n) .dead old lat

/-- Write a fixed-latency predicate result in the lanes of a mask. -/
def State.fixP (s : State) (lat n : Nat) (x act : W32) (a : Agent) : Agent :=
  if n = 7 then a
  else
    let old := a.rawP n
    let x := match a.early (.p n) s.t with
      | some _ => maskOf (fun l => if Config.freeBit s.freeCtr (1536 + n) l then old.getLsbD l else x.getLsbD l)
      | none => x
    (a.putP n x act).note s.t (.p n) .dead (old.zeroExtend 64) lat

/-- An instruction writes registers: operations in flight that will write them too find it when they complete (R91). -/
def Prog.clash (k : Nat) (rs : List Reg) : Prog :=
  .upd (fun s => { s with
    ops := s.ops.map (fun o =>
      if o.agent = k then { o with clash := (rs.filter o.kind.dests.contains) ++ o.clash } else o) })

/-- Write the result of an operation in flight to a V-register: the lanes `act`, covering every non-exited thread or
not as decided at issue (R86). Where a later instruction has written it, either value stands in each lane (R91). Over a
fixed-latency result that is not yet due it stands, and the earlier one never comes (log 112). -/
def State.lateV (s : State) (n : Nat) (x : VReg) (act : W32) (covers clash : Bool) (a : Agent) : Agent :=
  let old := a.rawV n
  let new := old.merge x act covers
  a.putV n (if clash then s.eitherV (2048 + n) old new else new)

/-- Write the result of an operation in flight to an S-register. -/
def State.lateS (s : State) (n : Nat) (x : W64) (clash : Bool) (a : Agent) : Agent :=
  a.putS n (if clash && s.freeBit (2304 + n) then a.rawS n else x)

/-- The V-registers that an operation in flight will make G (R86 to R88). -/
def Op.makesG (o : Op) : List Nat :=
  let all := o.kind.dests.filterMap (fun r => match r with
    | .v n => some n
    | _ => none)
  match o.kind with
  | .values _ v _ => ((v.filter (fun e => e.2.general || !o.covers)).map Prod.fst).filter (· < 126)
  | .rtbox _ _ uniform => if uniform && o.covers then [] else all
  | .rttri _ _ _ uniform | .walk _ _ _ uniform => if uniform && o.covers then [] else all
  | _ => all

/-- The registers tagged G, with those that operations in flight will make G (R88). -/
def State.generals (s : State) (k : Nat) : List Nat :=
  let a := s.agent k
  let now := (a.v.filter (fun e => e.2.general)).map Prod.fst
  (now ++ (s.ops.filter (fun o => o.agent == k)).flatMap Op.makesG).eraseDups

/-- The number of registers tagged G after an instruction that releases `dead` and writes `dests`, each with whether
its result is G (R88). -/
def State.demand (s : State) (k : Nat) (dead : List Nat) (dests : List (Nat × Bool)) : Nat :=
  let kept := (s.generals k).filter (fun n => !dead.contains n && !(dests.map Prod.fst).contains n)
  kept.length + ((dests.filter (fun d => d.2 && decide (d.1 < 126))).map Prod.fst).eraseDups.length

end Sys2Proof.Machine
end

