-- ==== Sys2Proof/Machine/Flags.lean ====
section
/-!
DEFINITION. The sticky flags and the STATUS register (04 R97 to R99, 06 R133).
-/

namespace Sys2Proof.Machine

/-- Add flags to the sticky FLAGS of an agent (R133). -/
def Agent.addFlags (a : Agent) (f : BitVec 5) : Agent := { a with flags := a.flags ||| f }

/-- The FLAGS at a time: those of results still to come are not in (22 R418). -/
def Agent.flagsAt (a : Agent) (now : Nat) : BitVec 5 :=
  (a.flagsDue.filter (fun e => decide (e.1 ≤ now))).foldl (fun f e => f ||| e.2) a.flags

/-- The FLAGS once every result is in. -/
def Agent.allFlags (a : Agent) : BitVec 5 := a.flagsDue.foldl (fun f e => f ||| e.2) a.flags

/-- The flags of a fixed-latency result come with it (R133, 22 R418). -/
def Agent.dueFlags (a : Agent) (now lat : Nat) (f : BitVec 5) : Agent :=
  if f = 0 then a else { a with flagsDue := a.flagsDue ++ [(now + Config.clock * lat, f)] }

/-- FLAGS is read and cleared (R97): the flags of results still to come stay to come (22 R418). -/
def Agent.clearFlags (a : Agent) (now : Nat) : Agent :=
  { a with flags := 0, flagsDue := a.flagsDue.filter (fun e => decide (now < e.1)) }

/-- The flags of the lanes of a mask, together. -/
def laneFlags (m : W32) (f : Nat → BitVec 5) : BitVec 5 :=
  (lanesOf m).foldl (fun acc l => acc ||| f l) 0

/-- The STATUS register (R98). -/
def Agent.status (a : Agent) : W64 :=
  BitVec.ofNat 64 (a.reason.toNat + 2 ^ 8 * a.nullcall.toNat + 2 ^ 9 * a.det.toNat + 2 ^ 10 * a.check.toNat)

/-- The code of a landing's reason in STATUS (R98). -/
def Reason.code : Reason → BitVec 8
  | .cancelled => 1
  | .exit => 2
  | .fault => 3

/-- The carry out of a 64-bit sum that saturates or wraps: the exact integer brought into a range (R409, R432). -/
def clampInt (lo hi x : Int) : Int := if x < lo then lo else if x > hi then hi else x

end Sys2Proof.Machine
end

