-- ==== Sys2Proof/Machine/Mem.lean ====
section
/-!
DEFINITION. Translation, permissions and fault records (07 R160 to R166, R170 to R173), the lines of memory, and stores
and reads by agents that have no band (front ends, Bobbin, Overlock, acknowledgement records).
-/

namespace Sys2Proof.Machine

/-- Where a translated access goes: its place, its address there (`Space` for local memory), its lease length in ns. -/
structure Target where
  place : Place
  addr : Nat
  lease : Nat
  r : Bool
  w : Bool
  x : Bool
  deriving DecidableEq, Repr

/-- The outcome of a translation (R170): a malformed walk or leaf, an absent entry with its level, or a target. -/
inductive Xlat where
  | access
  | absent (level : Nat)
  | ok (t : Target)
  deriving DecidableEq, Repr

/-- A virtual address is canonical when bits [63:57] equal bit 56 (R163). -/
def canonical (va : W64) : Bool := va.toNat / 2 ^ 56 == 0 || va.toNat / 2 ^ 56 == 0xFF

/-- Bits of the virtual address that index the table of a level, and how far they stand from bit 0 (R163). -/
def levelShift (level : Nat) : Nat := if level = 0 then 16 else 21 + 9 * (level - 1)

/-- Entries of a table of a level (R163). -/
def levelEntries (level : Nat) : Nat := if level = 0 then 32 else 512

/-- What a walk finds: a leaf with its level, or why there is none. -/
inductive Walk where
  | bad
  | absent (level : Nat)
  | leaf (level : Nat) (entry : Nat)
  deriving DecidableEq, Repr

/-- Reserved bits of every entry (R164). -/
def entryReserved (e : Nat) : Bool := e / 2 ^ 63 % 2 == 0 && bitsOf e 7 6 == 0 && e / 2 % 2 == 0

/-- A non-leaf entry: node, lease, type, permissions zero (R164). One whose table address is not in device memory, or is
not aligned to the table's size (R163), is malformed too: the spec gives it no outcome (log 82). -/
def nonLeafOk (level e : Nat) : Bool :=
  entryReserved e && bitsOf e 62 50 == 0 && bitsOf e 5 3 == 0 && bitsOf e 49 38 == 0 &&
    (level == 1 || bitsOf e 11 8 == 0)

/-- The level-by-level walk of R163: `level + 1` tables still to read, the next at physical address `table`; a table in a frame
that is `hidden` from the physical address space is malformed (log 82). -/
def walkFrom (mem : List Host.Cell) (hidden : Nat → Bool) (va : Nat) : Nat → Nat → Walk
  | 0, _ => .bad
  | level + 1, table =>
    let idx := va / 2 ^ levelShift level % levelEntries level
    let e := leNat (Memory.reads mem (table + 8 * idx) 8)
    if e % 2 = 0 then .absent level
    else if level = 0 then .leaf 0 e
    else if e / 4 % 2 = 1 then (if level ≤ 2 then .leaf level e else .bad)
    else if nonLeafOk level e && !hidden (bitsOf e 49 8 * 256) then walkFrom mem hidden va level (bitsOf e 49 8 * 256)
    else .bad

/-- Frames of a die with a lasting fault of GDDR7: firmware retires them (01 R23, 14 R319). -/
def State.retired (s : State) (die : Nat) : Nat :=
  (((s.errors.filter (fun e => e.lasting && e.site == 0 && e.die == die)).map (fun e => e.place / 2 ^ 21)).eraseDups).length

/-- Whether an address of device memory lies in a frame of its die that firmware withholds from the physical address space
(01 R23): 64 at boot, and one more for each frame retired beyond that reserve; the last ones (log 96). -/
def State.withheld (s : State) (pa : Nat) : Bool :=
  decide (pa / 2 ^ 21 % 2 ^ 16 ≥ 2 ^ 16 - max 64 (s.retired (pa / 2 ^ 37 % 2)))

/-- Whether a range of device memory meets a withheld frame. -/
def State.withheldRange (s : State) (a n : Nat) : Bool :=
  (List.range ((a + n - 1) / 2 ^ 21 + 1 - a / 2 ^ 21)).any (fun i => s.withheld (a + 2 ^ 21 * i))

/-- Whether a leaf's frame field fits its page size and its type (R163, R164). -/
def leafOk (s : State) (level e : Nat) : Bool :=
  let ty := bitsOf e 51 50
  let node := bitsOf e 62 54
  let isLocal := node == 0x1FF || BitVec.ofNat 9 node == s.node
  entryReserved e && ty != 3 && bitsOf e 15 8 == 0 &&
    (level == 0 || bitsOf e (levelShift level - 1) 16 == 0) &&
    (!isLocal || ty == 1 || (bitsOf e 49 38 == 0 && (ty == 0 || bitsOf e 36 30 == 0)))

/-- The lease length of a code, in ns (R164). -/
def leaseNs (code : Nat) : Nat := if code = 1 then 500 else if code = 2 then 2000 else if code = 3 then 8000 else 0

/-- The carved size of a die's Pewter (R161). -/
def State.pewterSize (s : State) (die : Nat) : Nat := s.pewter.get die 0 * 2 ^ 27

/-- What a leaf says of an address (R164, R165). -/
def leafTarget (s : State) (va level e : Nat) : Xlat :=
  if !leafOk s level e then .access
  else
    let ty := bitsOf e 51 50
    let node := bitsOf e 62 54
    let pa := bitsOf e 49 16 * 2 ^ 16 + va % 2 ^ levelShift level
    let r := e / 8 % 2 == 1
    let w := e / 16 % 2 == 1
    let x := e / 32 % 2 == 1
    if !(node == 0x1FF || BitVec.ofNat 9 node == s.node) then .ok { place := .node node, addr := pa, lease := 0, r, w, x }
    else if ty = 1 then .ok { place := .host, addr := pa, lease := 0, r, w, x }
    else if ty = 2 then
      if pa % 2 ^ 30 ≥ s.pewterSize (pa / 2 ^ 37) then .access
      else .ok { place := .slice, addr := Space.pewter + pa, lease := leaseNs (bitsOf e 53 52), r, w, x }
    else if s.withheld pa then .access
    else .ok { place := .slice, addr := pa, lease := leaseNs (bitsOf e 53 52), r, w, x }

/-- The walk for an address in a context; a context without a root has no valid entry. -/
def State.walk (s : State) (ctx : Nat) (va : W64) : Walk :=
  let c := s.ctx ctx
  if !canonical va then .bad
  else if !c.hasRoot then .absent 4
  else walkFrom s.mem s.withheld va.toNat 5 c.root

/-- Translate without a TLB. -/
def State.xlat (s : State) (ctx : Nat) (va : W64) : Xlat :=
  match s.walk ctx va with
  | .bad => .access
  | .absent l => .absent l
  | .leaf l e => leafTarget s va.toNat l e

/-- The leaf that a core's TLB holds for an address (R166). -/
def Core.tlbFor (c : Core) (ctx : Nat) (va : W64) : Option TlbEntry :=
  c.tlb.find? (fun e => e.ctx == ctx && decide (e.va ≤ va.toNat) && decide (va.toNat < e.va + e.size))

/-- The most leaves that the two TLBs of a core hold (R166): 4,096, and 256 in the first level. -/
def tlbEntries : Nat := 4352

/-- The level of a page of a size. -/
def sizeLevel (size : Nat) : Nat := if size = 2 ^ 16 then 0 else if size = 2 ^ 21 then 1 else 2

/-- Translate on a core: where its TLB holds a leaf that the tables no longer hold, either may be used until firmware's
invalidation is complete (R166). -/
def State.xlatCore (s : State) (core ctx : Nat) (va : W64) : Xlat :=
  if !canonical va then .access
  else match (s.core core).tlbFor ctx va with
    | none => s.xlat ctx va
    | some e =>
      let held := leafTarget s va.toNat (sizeLevel e.size) e.entry.toNat
      if s.xlat ctx va = held then held
      else if Config.freeBit s.freeCtr 4096 (e.va / 2 ^ 16) then held else s.xlat ctx va

/-- A core's TLB takes the leaf of an address that it translates (R166). Where it is full, a leaf leaves it, freely chosen
(log 80). -/
def Prog.fillTlb (core ctx : Nat) (va : W64) : Prog :=
  .look fun s =>
    match s.walk ctx va with
    | .leaf l e =>
      if ((s.core core).tlbFor ctx va).isSome || leafTarget s va.toNat l e = .access then .skip
      else
        let size := 2 ^ levelShift l
        let entry : TlbEntry := { ctx, va := va.toNat / size * size, size, entry := BitVec.ofNat 64 e }
        .core core (fun c => { c with
          tlb := entry :: (if c.tlb.length < tlbEntries then c.tlb
            else c.tlb.eraseIdx (Config.freeNat s.freeCtr 4097 core % c.tlb.length)) })
    | _ => .skip

/-- The line of an address. -/
def lineOf (a : Nat) : Nat := a / 128

/-- The die that is the home of an address of device memory or Pewter (R160, R162). -/
def homeDie (a : Nat) : Nat := a / 2 ^ 37 % 2

/-- Whether any byte of a range lies in a poisoned sector (R170, R320). -/
def State.poisoned (s : State) (a len : Nat) : Bool :=
  s.poison.any (fun sec => decide (32 * sec < a + len) && decide (a < 32 * sec + 32))

/-! Miss slots (R168). -/

/-- Whether an agent's requests take miss slots (R168): the bands and the control contexts of the cores. -/
def usesSlots (k : Nat) : Bool := decide (unitOf k < 72) && decide (coreNo k < Config.cores)

/-- A request that is still to be served: it waits for a miss slot, or has been sent. -/
def Req.unserved (r : Req) : Bool := r.stage == .queued || r.stage == .sent

/-- Whether a request holds its miss slot: until its reply arrives, and a store until it has its V (R168, log 81). -/
def Req.holds (r : Req) : Bool :=
  r.slot != .none && match r.access with
    | .store => r.stage == .sent
    | _ => r.stage != .answered

/-- The slot that a new request of an agent takes now: one of the 8 of its band slot first, then one of the 2,560 shared
ones (R168). -/
def State.slotFor (s : State) (k : Nat) : MissSlot :=
  if unitOf k < 64 && decide ((s.reqs.filter (fun r => r.agent == k && r.slot == .own && r.holds)).length < 8) then .own
  else if (s.reqs.filter (fun r => r.core == coreOf k && r.slot == .shared && r.holds)).length < 2560 then .shared
  else .none

/-- Send the requests of a core that wait for a miss slot, the oldest first, as slots are free (R168). -/
def State.grantSlots (s : State) (core : Nat) : State :=
  (s.reqs.filter (fun r => r.core == core && r.stage == .queued)).foldl (fun s r =>
    match s.slotFor r.agent with
    | .none => s
    | x => { s with
      reqs := s.reqs.map (fun q => if q.id = r.id then { q with stage := .sent, slot := x, sentAt := s.t } else q) }) s

/-- A miss slot of a core may have become free. -/
def Prog.grantSlots (core : Nat) : Prog := .upd (fun s => s.grantSlots core)

/-! Fault records (R172). -/

/-- The 64 KiB page of an address. -/
def pageOf (va : W64) : Nat := va.toNat / 2 ^ 16

/-- An outstanding record of a die for a context and page, in the queue or held by a core. -/
def State.openFault (s : State) (die ctx : Nat) (va : W64) : Option FaultRec :=
  (s.faults ++ s.cores.flatMap (fun c => c.2.heldRecs)).find?
    (fun r => r.die == die && r.ctx == ctx && pageOf r.va == pageOf va)

/-- Records of a die's queue (R172). -/
def State.queued (s : State) (die : Nat) : Nat := (s.faults.filter (fun r => r.die == die)).length

/-- Whether a fault of a core finds no room: the queue is full and the core holds 16 records (R172). -/
def State.faultFull (s : State) (die core : Nat) : Bool :=
  decide (s.queued die ≥ 4096) && decide ((s.core core).heldRecs.length ≥ 16)

/-- The serial that a fault waits under: that of the outstanding record of its page, or the die's next one (R172). -/
def State.faultSerialFor (s : State) (die ctx : Nat) (va : W64) : Nat :=
  match s.openFault die ctx va with
  | some r => r.serial
  | none => s.faultSerial.get die 0

/-- Send a fault record unless one for the page is outstanding (R172). `core` is the core's key, where a core holds the
record when the queue has no room. -/
def Prog.fault (die ctx : Nat) (va : W64) (coreKey coreByte agent access slot level : Nat) (lanes : W32) : Prog :=
  .upd (fun s =>
    match s.openFault die ctx va with
    | some _ => s
    | none =>
      let serial := s.faultSerial.get die 0
      let r : FaultRec :=
        { die, serial, va, ctx, core := coreByte, agent, access, slot, level, time := s.ns, lanes }
      let s := { s with faultSerial := s.faultSerial.put die ((serial + 1) % 2 ^ 32) }
      if s.queued die ≥ 4096 then
        let c := s.core coreKey
        { s with cores := s.cores.put coreKey { c with heldRecs := c.heldRecs ++ [r] } }
      else { s with faults := s.faults ++ [r] })

/-- A fault of an agent of the die that belongs to no core (R172). A record that finds the queue full is held, in any
number, under the key 0xFFF: the spec bounds only what a core holds (log 83). -/
def Prog.dieFault (die ctx : Nat) (va : W64) (access level : Nat) : Prog :=
  .fault die ctx va 0xFFF 0xFF 5 access 0xFF level 0

/-! Stores and reads by an agent of the die. -/

/-- Whether an agent without a band may store to a line now: its V would be this instant (R181), and no engine owns the
line (R195). -/
def State.lineOpen (s : State) (line : Nat) : Bool :=
  let r := s.lineRec line
  decide (r.leaseEnd ≤ s.ns) && decide (r.nextV ≤ s.ns) && r.owners.isEmpty

/-- Store bytes of device memory or Pewter at one V, this instant. -/
def Prog.storeNow (a : Nat) (bs : List Byte) : Prog :=
  .look fun s =>
    .seq (.storeBytes a bs) (.line (lineOf a) (fun r => { r with nextV := s.ns + 1 }))

/-- What a die agent's access to a virtual address meets: it may go on at an address, it must wait for the line or for
a page, or it fails. -/
inductive Reach where
  | now (t : Target)
  | later
  | absent (level : Nat)
  | fail
  deriving DecidableEq, Repr

/-- A store of a die agent (R463, R72, R464): the page present and writable, the line open. -/
def State.reachStore (s : State) (ctx : Nat) (va : W64) : Reach :=
  match s.xlat ctx va with
  | .access => .fail
  | .absent l => .absent l
  | .ok t =>
    if !t.w then .fail
    else if t.place = .slice && !s.lineOpen (lineOf t.addr) then .later
    else .now t

/-- A read of a die agent (R463, R285, R289). -/
def State.reachLoad (s : State) (ctx : Nat) (va : W64) : Reach :=
  match s.xlat ctx va with
  | .access => .fail
  | .absent l => .absent l
  | .ok t => if t.r then .now t else .fail

/-- Store to a reached target: local memory takes the bytes; host and peer memory are outside the module (log 18). -/
def Prog.storeAt (t : Target) (bs : List Byte) : Prog :=
  if t.place = .slice then .storeNow t.addr bs else .skip

/-- Read a reached target; host and peer memory answer free values (log 18). -/
def State.readAt (s : State) (t : Target) (n : Nat) : List Byte :=
  if t.place = .slice then s.readBytes t.addr n
  else (List.range n).map (fun i => (s.freeWord (8192 + i) 0).extractLsb' 0 8)

end Sys2Proof.Machine
end

