-- ==== Sys2Proof/Machine/Events.lean ====
section
/-!
DEFINITION. Stores by agents of a die (front ends, Bobbin, firmware's hardware) as requests with a visibility time
(08 R181), and the event queues of the contexts (14 R312).
-/

namespace Sys2Proof.Machine

/-- The key under which a die agent's stores are kept: unit 0 Bobbin and events, 512 and up the queue slots. -/
def dieKey (die unit : Nat) : Nat := agentKey die 254 unit

/-- A range cut at multiples of a power of two that divides the page size. -/
def cutAt (step : Nat) : Nat → W64 → List Byte → List (W64 × List Byte)
  | 0, _, _ => []
  | fuel + 1, va, bs =>
    if bs.isEmpty then []
    else
      let k := step - va.toNat % step
      (va, bs.take k) :: cutAt step fuel (va + BitVec.ofNat 64 k) (bs.drop k)

/-- The time at which a store that reaches a line now becomes visible (R181). -/
def State.storeV (s : State) (line : Nat) : Nat :=
  let r := s.lineRec line
  max s.ns (max r.leaseEnd r.nextV)

/-- The V that a store of an agent comes after (R181): that of its latest store, where it is pending or kept. -/
def State.agentV (s : State) (k : Nat) : Nat :=
  s.reqs.foldl (fun v r => if r.agent = k then max v r.v else v) (s.agent k).lastV

/-- Send one store of a die agent within one line. A line of local memory has its V at once, unless an engine owns it
(R195) or an earlier store of the agent has none: then, and for host and peer memory, the request is on its way. -/
def Prog.dieStoreLine (key : Nat) (t : Target) (va : W64) (bs : List Byte) : Prog :=
  .upd (fun s =>
    let line := lineOf t.addr
    let now := t.place == .slice && (s.lineRec line).owners.isEmpty && s.reqs.all (fun r => r.agent != key || r.stage != .sent)
    let v := max (s.storeV line) (s.agentV key)
    { s with
      reqs := s.reqs ++ [{
        id := s.nextId
        op := s.nextId
        agent := key
        core := 128 * dieOf key + 127
        place := t.place
        access := .store
        line
        parts := [{ lane := 0, piece := 0, addr := t.addr, va, len := bs.length, data := bs }]
        stage := if now then .arrived else .sent
        v := if now then v else 0
        issued := s.t
        sentAt := s.t }]
      lines := if now then s.lines.put line { s.lineRec line with nextV := v + 1 } else s.lines
      nextId := s.nextId + 1 })

/-- Store bytes at a virtual address of a context, line by line; a page that does not take them takes nothing. -/
def Prog.dieStore (key ctx : Nat) (va : W64) (bs : List Byte) : Prog :=
  .each (cutAt 128 (bs.length / 128 + 2) va bs) (fun e => .look fun s =>
    match s.xlat ctx e.1 with
    | .ok t => if t.w then .dieStoreLine key t e.1 e.2 else .skip
    | _ => .skip)

/-- What a die agent's store, or read, of a range meets; a read of a line that an engine owns is held (R195). -/
inductive Store where
  | ok
  | hold
  | absent (va : W64) (level : Nat)
  | fail
  deriving DecidableEq, Repr

/-- Whether an engine owns a line of a range of device memory (R195). -/
def State.ownedRange (s : State) (t : Target) (n : Nat) : Bool :=
  t.place == .slice && (List.range (n / 128 + 2)).any (fun j =>
    decide (128 * (lineOf t.addr + j) < t.addr + n) && !(s.lineRec (lineOf t.addr + j)).owners.isEmpty)

/-- Look at a range that a die agent stores to, or reads (R463). -/
def State.reach (s : State) (ctx : Nat) (write : Bool) (va : W64) (n : Nat) : Store :=
  (cutAt 65536 (n / 65536 + 2) va (List.replicate n 0)).foldl (fun m e => match m with
    | .ok | .hold => match s.xlat ctx e.1 with
      | .ok t =>
        if !(if write then t.w else t.r) then .fail
        else if !write && s.ownedRange t e.2.length then .hold else m
      | .absent l => .absent e.1 l
      | .access => .fail
    | m => m) .ok

/-- The bytes that a die agent reads at a range (R182). -/
def State.dieRead (s : State) (ctx : Nat) (va : W64) (n : Nat) : List Byte :=
  (cutAt 65536 (n / 65536 + 2) va (List.replicate n 0)).flatMap (fun e => match s.xlat ctx e.1 with
    | .ok t => s.readAt t e.2.length
    | _ => List.replicate e.2.length 0)

/-- The requests of a die agent that are pending. -/
def State.dieStores (s : State) (key : Nat) : List Nat := (s.reqs.filter (fun r => r.agent == key)).map Req.id

/-! Event queues (R312). -/

/-- Bytes of an event ring. -/
def EvQueue.bytes (q : EvQueue) : Nat := 2 ^ (bitsOf q.size.toNat 4 0)

/-- Units of an event ring. -/
def EvQueue.units (q : EvQueue) : Nat := q.bytes / 32

/-- Advance EVTAIL past the events whose stores are visible, and raise their vectors (R312). -/
def Prog.settleEvents (ctx : Nat) : Nat → Prog
  | 0 => .skip
  | n + 1 =>
    .look fun s =>
      let q := s.evq ctx
      match q.posted with
      | e :: r =>
        if e.stores.all (fun i => (s.req? i).isNone) then
          .seq (.upd (fun s => { s with
              evqs := s.evqs.put ctx { q with tail := q.tail + BitVec.ofNat 32 e.units, posted := r }
              msi := if e.raises then s.msi ++ [(ctx, q.vector)] else s.msi }))
            (settleEvents ctx n)
        else .skip
      | [] => .skip

/-- Advance every context's EVTAIL as far as its events are visible. -/
def Prog.fireEvents : Prog := .look fun s => .each (s.evqs.map Prod.fst) (fun c => .settleEvents c 64)

/-- Post an event of a number of 32-byte units to a context's queue (R312): dropped where the ring lacks room, with PAD
units up to the ring's end where it would straddle it. -/
def Prog.postEvent (die ctx : Nat) (bs : List Byte) : Prog :=
  .look fun s =>
    let q := s.evq ctx
    if !q.en then .skip
    else
      let n := bs.length / 32
      let held := (q.next - q.head).toNat
      let place := q.next.toNat % q.units
      let pad := if place + n > q.units then q.units - place else 0
      if held + pad + n > q.units then
        .upd (fun s => { s with evqs := s.evqs.put ctx { q with lost := if q.lost = 0xFFFFFFFF then q.lost else q.lost + 1 } })
      else
        let key := dieKey die 0
        let old := s.dieStores key
        let addr := fun (u : Nat) => q.base + BitVec.ofNat 64 (32 * u)
        .all [
          .when (pad != 0) (.dieStore key ctx (addr place) (List.replicate (32 * pad) 0)),
          .dieStore key ctx (addr ((place + pad) % q.units)) bs,
          .upd (fun s => { s with
            evqs := s.evqs.put ctx { q with
              next := q.next + BitVec.ofNat 32 (pad + n)
              posted := q.posted ++ [{
                units := pad + n
                raises := q.every || held == 0
                stores := (s.dieStores key).filter (fun i => !old.contains i) }] } }),
          .settleEvents ctx 64]

/-- A front-end event (R286). -/
def feEvent (kind die slot cause offset : Nat) (info : W64) (time : Nat) : List Byte :=
  leBytes 1 kind ++ leBytes 1 die ++ leBytes 2 slot ++ leBytes 1 cause ++ leBytes 3 0 ++ leBytes 8 offset ++
    leBytes 8 info.toNat ++ leBytes 8 time

/-- The die of a slot (R278). -/
def slotDie (i : Nat) : Nat := i / 256

/-- Post a front-end event of a slot (R286). -/
def Prog.slotEvent (slot ctx kind cause offset : Nat) (info : W64) (det : Bool) : Prog :=
  .look fun s => .postEvent (slotDie slot) ctx (feEvent kind (slotDie slot) slot cause offset info (if det then 0 else s.ns))

end Sys2Proof.Machine
end

