-- ==== Sys2Proof/Machine/Scopes.lean ====
section
/-!
DEFINITION. The scope table (03 R55 to R59), cancels (R63, R66, R67), first faults (R76), the completion of scopes
(R58, R72) and the dependence counters (12 R287).
-/

namespace Sys2Proof.Machine

/-- The counter of a designator, where V is set (R214): die and index. -/
def counterOf (designator : Nat) : Option Nat :=
  if designator / 2 ^ 15 % 2 = 1 then some (designator % 2 ^ 15) else none

/-! Handles (R57). -/

/-- The index of a handle. -/
def hIndex (h : W64) : Nat := h.toNat % 2 ^ 16

/-- The generation of a handle. -/
def hGen (h : W64) : W32 := h.extractLsb' 16 32

/-- The node of a handle. -/
def hNode (h : W64) : BitVec 9 := h.extractLsb' 48 9

/-- The handle of an entry, with node 0x1FF. -/
def State.handle (s : State) (i : Nat) : W64 :=
  BitVec.ofNat 64 (i + 2 ^ 16 * (s.scope i).gen.toNat + 2 ^ 48 * 0x1FF)

/-- Whether a node of the domain (01 R20) has a route left (14 R314). -/
def State.reachable (s : State) (node : Nat) : Bool :=
  decide (node < 384) && (List.range 18).any (fun p => (s.routes.get node 0).getLsbD p && !s.portsDown.contains p)

/-- A foreign handle (R57). -/
def State.foreign (s : State) (h : W64) : Bool :=
  (h >>> 57) != 0 || !(hNode h == 0x1FF || hNode h == s.node)

/-- A stale handle (R57): its generation is not the entry's, or the entry is free. -/
def State.stale (s : State) (h : W64) : Bool :=
  let e := s.scope (hIndex h)
  !e.used || e.gen != hGen h

/-- Whether a scope lies in a cancelled subtree (R66). -/
def State.inCancelled (s : State) (i : Nat) : Bool :=
  (i :: (s.scope i).path).any (fun j => (s.scope j).state == .cancelling || (s.scope j).state == .cancelled)

/-- The scope itself or one of its ancestors. -/
def State.within (s : State) (i anc : Nat) : Bool := i == anc || (s.scope i).path.contains anc

/-- The first scope of a level on the way up from a scope. -/
def State.ofLevel (s : State) (i level : Nat) : Option Nat :=
  (i :: (s.scope i).path).find? (fun j => (s.scope j).level == level)

/-- The job of a scope. -/
def State.jobOf (s : State) (i : Nat) : Option Nat := s.ofLevel i 4

/-- The launch with a launch scope. -/
def State.launchAt (s : State) (i : Nat) : Option (Nat × Launch) :=
  s.launches.find? (fun e => e.2.scope == i && e.2.gen == (s.scope i).gen)

/-- The launch scope of a launch, while its entry is still that scope: an entry that has been freed, once the scope was
CANCELLED, may hold another scope. -/
def State.home (s : State) (l : Launch) : Option Nat :=
  if (s.scope l.scope).used && (s.scope l.scope).gen == l.gen then some l.scope else none

/-- Whether a launch scope is CANCELLED, freed or not. -/
def State.past (s : State) (l : Launch) : Bool := (s.home l).all (fun i => (s.scope i).state == .cancelled)

/-- Whether a launch scope lies in a cancelled subtree, or has been freed. -/
def State.gone (s : State) (l : Launch) : Bool := (s.home l).all s.inCancelled

/-- The job of a launch, while its entry is still that job. -/
def State.jobHere (s : State) (l : Launch) : Option Nat :=
  if (s.scope l.job).used && (s.scope l.job).gen == l.jobGen then some l.job else none

/-- Whether a cancel of a scope concerns a launch: one of the two lies within the other. -/
def State.touches (s : State) (l : Launch) (i : Nat) : Bool := (s.home l).any (fun j => s.within j i || s.within i j)

/-- Whether a launch in deterministic mode is concerned by a cancel of a scope: its ticket's serial counts by job (R77). -/
def State.detNear (s : State) (i : Nat) : Bool := s.launches.any (fun e => e.2.det && s.touches e.2 i)

/-- Whether a unit has been reached by a cancel that covers a scope: 0 and 1 Bobbin of a die, 2 and 3 a front end, 16
upwards a core by its key. -/
def State.known (s : State) (unit i : Nat) : Bool :=
  (i :: (s.scope i).path).any (fun j =>
    let e := s.scope j
    (e.state == .cancelling || e.state == .cancelled) &&
      s.casts.all (fun c => c.scope != e.ticket.toNat % 2 ^ 16 || c.done.contains unit))

/-- A free entry of the scope table, the lowest (log 21); index 0 is never allocated (R55). -/
def State.freeScope (s : State) : Option Nat :=
  let n := s.scopes.length + 1
  ((List.range n).map (fun i => i + 1)).find? (fun i => decide (i < 65536) && !(s.scope i).used)

/-- The 57 bits of an acknowledgement address that an entry keeps (R56), as the canonical address that they stand for. -/
def ackAddr (a : W64) : W64 := (a.setWidth 57).signExtend 64

/-- A scope that gets a child has more outstanding: a record that is not yet on its way waits for it again (R58, R73). -/
def Scope.adopt (e : Scope) : Scope :=
  if e.ackReq.isSome then { e with outstanding := e.outstanding + 1 }
  else { e with outstanding := e.outstanding + 1, zeroAt := none, after := [], quietAt := none }

/-- Create an entry (R58): OPEN, or CANCELLING with its parent's ticket under a parent that is CANCELLING. -/
def Prog.newScope (i level parent : Nat) (auto : Bool) (ack : W64) (ctx : Nat) : Prog :=
  .look fun s =>
    let p := s.scope parent
    let under := parent != 0 && p.state == .cancelling
    .seq
      (.scope i (fun old =>
        { used := true, level, parent, autocancel := auto, ackaddr := ackAddr ack, ctx, gen := old.gen,
          state := if under then .cancelling else .opened, ticket := if under then p.ticket else 0,
          path := if parent = 0 then [] else parent :: p.path, cancelledAt := s.t }))
      (.when (parent != 0) (.scope parent Scope.adopt))

/-- Add to a counter that saturates. -/
def satAdd (top a b : Nat) : Nat := min top (a + b)

/-- Count killed and dropped tasks, copies and matrix commands in a scope (R56, R69). -/
def Prog.count (i killed dropped copies matrix : Nat) : Prog :=
  .scope i (fun e => { e with
    killed := satAdd 0xFFFFFFFF e.killed killed
    dropped := satAdd 0xFFFFFFFF e.dropped dropped
    copies := satAdd 0xFFFF e.copies copies
    matrix := satAdd 0xFFFF e.matrix matrix })

/-- The outcome word of SCWAIT (R64). -/
def Scope.outcome (e : Scope) : W64 :=
  BitVec.ofNat 64 ((if e.state = .cancelled then 2 else 3) + (if e.remoteLost then 4 else 0) +
    (match e.fault with
     | some f => 8 + 2 ^ 8 * f.tcode
     | none => 0))

/-- Release the SCWAIT waiters of a scope with its outcome (R64). -/
def Prog.releaseScwait (i : Nat) : Prog :=
  .upd (fun s =>
    let e := s.scope i
    { s with
      ops := s.ops.map (fun o =>
        match o.kind with
        | .scwait d j g => if j = i && g = e.gen then { o with kind := .values [(d, e.outcome)] [] 0 } else o
        | _ => o) })

/-- Free an entry: its generation increases by 1 (R58). -/
def Scope.free (e : Scope) : Scope := { gen := e.gen + 1 }

/-- Whether a scope is in its final state. -/
def Scope.final (e : Scope) : Bool := e.state == .cancelled || e.state == .closed

/-- A node is to have a scope's acknowledgement: at once where the scope is final or gone, else when it becomes final (R68). -/
def Prog.watch (node : Nat) (handle : W64) : Prog :=
  .look fun s =>
    let i := hIndex handle
    if node = 0x1FF then .skip
    else if s.stale handle || (s.scope i).final then .upd (fun s => { s with peerOut := s.peerOut ++ [(node, .settled handle)] })
    else .scope i (fun e => { e with watchers := if e.watchers.contains node then e.watchers else e.watchers ++ [node] })

/-- Free the final children of a scope (R58). -/
def Prog.freeChildren (i : Nat) : Prog :=
  .upd (fun s => { s with
    scopes := s.scopes.map (fun e =>
      if e.2.used && e.2.parent == i && e.2.final then (e.1, e.2.free) else e) })

/-- The handle by which a peer knows an entry (R57). -/
def State.farHandle (s : State) (i : Nat) : W64 :=
  BitVec.ofNat 64 (i + 2 ^ 16 * (s.scope i).gen.toNat + 2 ^ 48 * s.node.toNat)

/-- A scope that is final acknowledges to the peers that wait for it (R68). -/
def Prog.acknowledge (i : Nat) : Prog :=
  .upd (fun s => { s with peerOut := s.peerOut ++ (s.scope i).watchers.map (fun n => (n, .settled (s.farHandle i))) })

/-- Whether a cancel that reaches a scope is still on its way to some unit (R66). -/
def State.casting (s : State) (i : Nat) : Bool := s.casts.any (fun c => s.within i c.scope)

/-- Whether a scope has nothing outstanding and is about to reach its final state (R58). -/
def State.ripe (s : State) (i : Nat) : Bool :=
  let e := s.scope i
  e.used && e.outstanding == 0 && e.zeroAt.isNone && !s.casting i &&
    ((e.state == .opened && e.sealed) || e.state == .cancelling)

/-- Queue a decrement that waits for stores (R194). -/
def Prog.addDec (designator : Nat) (status : BitVec 5) (stores : List Nat) : Prog :=
  .when ((counterOf designator).isSome) (.upd (fun s => { s with decs := s.decs ++ [{ designator, status, stores }] }))

/-- A launch scope completes: its done counter is decremented (12 R288), and its LAUNCH packet completes (R283). -/
def Prog.doneLaunch (i : Nat) (cancelled : Bool) : Prog :=
  .look fun s =>
    match s.launchAt i with
    | some (_, l) =>
      .seq (.addDec l.doneCnt (if cancelled then 1 else 0) [])
        (.each s.opens (fun e =>
          let here := e.2.filter (fun o => o.kind == .launch i l.gen)
          .seq (.opens e.1 (fun q => q.filter (fun o => !here.contains o)))
            (.each (here.filter OpenPacket.event) (fun o => .slotEvent o.slot o.ctx 4 0 o.offset (l.id.zeroExtend 64) l.det))))
    | none => .skip

/-- Whether a store or an atomic request has taken its effect: an atomic that is visible may still have its answer to give. -/
def State.made (s : State) (id : Nat) : Bool :=
  (s.req? id).all (fun r => r.stage == .visible || r.stage == .answered)

/-- The stores that are pending now, those to peer and host memory with them (R73). -/
def State.pendingStores (s : State) : List Nat :=
  ((s.reqs.filter (fun r => r.access == .store || r.access == .atomic)).map Req.id).filter (fun i => !s.made i)

/-- Whether a scope that is ripe reaches its final state at once: it has no record to write, and a launch has no store pending,
which its completion follows (30 R447). -/
def State.endsNow (s : State) (i : Nat) : Bool :=
  (s.scope i).ackaddr == 0 && ((s.scope i).level != 1 || s.pendingStores.isEmpty)

/-- A scope's count has reached zero and its record is still to be written: the record comes after the stores that are
pending now (R72, R73). -/
def Prog.zeroed (i : Nat) : Prog :=
  .look fun s => .scope i (fun x => { x with zeroAt := some s.t, after := s.pendingStores })

/-- A scope reaches its final state (R58, R72): its waiters are released, its children's entries freed, its counts (none
where it is CLOSED) added to its parent's, whose outstanding count drops; and so on upwards. A job entry is freed when the host has closed it. -/
def Prog.finish : Nat → Nat → Prog
  | 0, _ => .skip
  | n + 1, i =>
    .look fun s =>
      let e := s.scope i
      let p := e.parent
      let e := if e.state = .cancelling then e else { e with killed := 0, dropped := 0, copies := 0, matrix := 0 }
      .all [
        .scope i (fun _ => { e with
          state := if e.state = .cancelling then .cancelled else .closed
          zeroAt := some (e.zeroAt.getD s.t) }),
        .releaseScwait i,
        .acknowledge i,
        .freeChildren i,
        .doneLaunch i (e.state == .cancelling),
        .when (e.level == 4 && e.sealed) (.seq (.scope i Scope.free)
          (.upd (fun s => { s with jobCancels := s.jobCancels.drop i }))),
        .when (p != 0) (.all [
          .count p e.killed e.dropped e.copies e.matrix,
          .scope p (fun x => { x with outstanding := x.outstanding - 1 }),
          .look fun s =>
            if s.ripe p then
              (if s.endsNow p then finish n p else .zeroed p)
            else .skip])]

/-- Look whether a scope is done: it reaches its final state at once, or stores and its record come first (R72, 30 R447). -/
def Prog.settle (i : Nat) : Prog :=
  .look fun s =>
    if s.ripe i then
      (if s.endsNow i then .finish 13 i else .zeroed i)
    else .skip

/-- Add to a scope's outstanding count (R59). -/
def Prog.addWork (i n : Nat) : Prog := .scope i (fun e => { e with outstanding := e.outstanding + n })

/-- Take from a scope's outstanding count (R59). -/
def Prog.endWork (i n : Nat) : Prog :=
  .seq (.scope i (fun e => { e with outstanding := e.outstanding - n })) (.settle i)

/-! Cancels. -/

/-- A ticket (R63). -/
def ticketWord (serial status index : Nat) : W64 := BitVec.ofNat 64 (2 ^ 32 * serial + 2 ^ 16 * status + index)

/-- The serial after one (R67). -/
def nextSerial (n : W32) : W32 := if n = 0xFFFFFFFF then 1 else n + 1

/-- The serial that a cancel takes: the module's, or under DET the count of the issuing job's cancels (R67, R77). -/
def State.serialFor (s : State) (det : Bool) (job : Nat) : Nat :=
  if det then (s.jobCancels.get job 0 + 1) % 2 ^ 32 else s.cancelSerial.toNat

/-- An accepted cancel of a scope (R66): the scope and its OPEN descendants become CANCELLING with one ticket, messages
leave for their peers (R68), and the broadcast sets out. -/
def Prog.acceptCancel (i : Nat) (det : Bool) (job : Nat) (issuer : Option (Nat × Nat × Nat)) : Prog :=
  .upd (fun s =>
    let ticket := ticketWord (s.serialFor det job) 0 i
    let hit := fun (e : Nat × Scope) => e.2.used && e.2.state == .opened && s.within e.1 i
    { s with
      scopes := s.scopes.map (fun e =>
        if hit e then
          (e.1, { e.2 with
            state := .cancelling
            ticket := ticket
            cancelledAt := s.t
            remote := e.2.remote.map (fun p => { p with sent := some s.t }) })
        else e)
      cancelSerial := nextSerial s.cancelSerial
      jobCancels := s.jobCancels.put job (s.jobCancels.get job 0 + 1)
      casts := s.casts ++ [{ scope := i, issuer }] })

/-- The status of a cancel that names a live scope: 0 ACCEPTED, 1 ALREADY, 2 CLOSED (R63). -/
def State.cancelStatus (s : State) (i : Nat) : Nat :=
  match (s.scope i).state with
  | .opened => 0
  | .cancelling | .cancelled => 1
  | .closed => 2

/-- The ticket that a cancel of a live scope returns (R63). -/
def State.cancelTicket (s : State) (i : Nat) (det : Bool) (job : Nat) : W64 :=
  match s.cancelStatus i with
  | 0 => ticketWord (s.serialFor det job) 0 i
  | 1 => ticketWord ((s.scope i).ticket.toNat / 2 ^ 32) 1 i
  | _ => ticketWord 0 2 i

/-- Cancel a live scope, where it is OPEN (R63). -/
def Prog.cancel (i : Nat) (det : Bool) (job : Nat) (issuer : Option (Nat × Nat × Nat)) : Prog :=
  .look fun s => if s.cancelStatus i = 0 then .acceptCancel i det job issuer else .skip

/-! First faults (R76). -/

/-- The place of an agent in the order of the cancels of one clock (R67): die, core, control contexts before bands. -/
def cancelPlace (k : Nat) : Nat :=
  let u := unitOf k
  k / 2 ^ 12 * 2 ^ 12 + (if u < 64 then 8 + u else u - 64)

/-- Whether a cancel of an agent may be accepted in this clock (R67): none that comes after it in the order has been. -/
def State.cancelTurn (s : State) (k : Nat) : Bool :=
  decide (s.cancelLast.1 < s.clocks) || (s.cancelLast.1 == s.clocks && decide (s.cancelLast.2 ≤ cancelPlace k))

/-- A cancel of an agent takes its place in the order of R67: one that comes before another of its clock counts as of the
clock after that one (log 104). -/
def Prog.takePlace (k : Nat) : Prog :=
  .upd (fun s => { s with
    cancelLast := (if s.cancelTurn k then s.clocks else s.cancelLast.1 + 1, cancelPlace k) })

/-- Record a fault of an agent in the scopes from `i` up to its launch scope that have none; the outermost of them with
autocancel is cancelled, as by the agent (R67). -/
def Prog.recordFault (i tcode : Nat) (tpc : W64) (core k : Nat) (det : Bool) : Prog :=
  .look fun s =>
    let up := (i :: (s.scope i).path).filter (fun j => decide ((s.scope j).level ≤ 1))
    let fresh := up.filter (fun j => (s.scope j).used && (s.scope j).fault.isNone)
    let f : FirstFault := { tcode, tpc, core, time := s.ns }
    .seq (.each fresh (fun j => .scope j (fun e => { e with fault := some f })))
      (match (fresh.filter (fun j => (s.scope j).autocancel)).getLast? with
       | some j => .seq (.takePlace k) (.cancel j det ((s.jobOf j).getD 0) none)
       | none => .skip)

/-! Dependence counters (R287). -/

/-- Release the CWAIT waiters of a counter with its status (R361). -/
def Prog.releaseCwait (d : Nat) : Prog :=
  .upd (fun s =>
    let w := BitVec.ofNat 64 (s.counter d).status.toNat
    { s with
      ops := s.ops.map (fun o =>
        match o.kind with
        | .cwait r c => if c = d then { o with kind := .values [(r, w)] [] 0 } else o
        | _ => o) })

/-- Place an entry in a core's task queue for a launch (R292). -/
def Prog.enqueue (launch core : Nat) (e : Entry) : Prog :=
  .launch launch (fun l => { l with queues := l.queues.put core (l.queues.get core [] ++ [e]) })

/-- What happens to the work bound to a counter that reaches zero (R287): it starts, unless a cancel has reached it. -/
def Prog.startBound : Option Binding → Prog
  | none => .skip
  | some (.launch id off) =>
    .look fun s =>
      match s.launch? id with
      | none => .skip
      | some l =>
        if off || s.gone l then .skip
        else .launch id (fun l => { l with phase := .waiting, startAt := s.t })
  | some (.task id core e off) =>
    .look fun s =>
      if off then .skip
      else if s.inCancelled e.scope then .seq (.count e.scope 0 1 0 0) (.endWork e.scope 1)
      else .enqueue id core e

/-- Decrement a counter and OR a status into its status bits (R215, R287). -/
def Prog.decCounter (d : Nat) (status : BitVec 5) : Prog :=
  .look fun s =>
    let c := s.counter d
    if c.count = 0 then .counter d (fun c => { c with status := c.status ||| status ||| 16 })
    else if c.count = 1 then
      .all [.counter d (fun c => { c with count := 0, status := c.status ||| status, bind := none }),
        .releaseCwait d, .startBound c.bind]
    else .counter d (fun c => { c with count := c.count - 1, status := c.status ||| status })

/-- Decrement the counter of a designator, where it names one. -/
def Prog.decDesignator (designator : Nat) (status : BitVec 5) : Prog :=
  match counterOf designator with
  | some d => .decCounter d status
  | none => .skip

/-- Make the decrements whose stores are all visible (R194), at most `n` of them. -/
def Prog.fireDecs : Nat → Prog
  | 0 => .skip
  | n + 1 =>
    .look fun s =>
      match s.decs.find? (fun d => d.stores.all s.made) with
      | none => .skip
      | some d => .all [.upd (fun s => { s with decs := s.decs.erase d }), .decDesignator d.designator d.status, fireDecs n]

end Sys2Proof.Machine
end

