-- ==== Sys2Proof/Machine/Tasks.lean ====
section
/-!
DEFINITION. Crews and their tasks: participants, the end of a task (02 R42), kills and aborts (03 R69, 13 R302),
landings (R71), retirement, the crew barrier (20 R347) and BJOIN (R350).
-/

namespace Sys2Proof.Machine

/-- The participants of a crew (R38). -/
def Crew.parts (c : Crew) (key : Nat) : List Nat := c.bands ++ (if c.hasCtl then [key] else [])

/-- The crew of an agent. -/
def State.crewOf (s : State) (k : Nat) : Option Crew := s.crew? (s.agent k).crew

/-- The launch of an agent. -/
def State.launchOf (s : State) (k : Nat) : Option Launch := (s.crewOf k).bind (fun c => s.launch? c.launch)

/-- The context of an agent's accesses. -/
def State.ctxOf (s : State) (k : Nat) : Nat := ((s.launchOf k).map Launch.ctx).getD 0

/-- The scope of the crew's current task (R57). -/
def State.taskScope (s : State) (k : Nat) : Option Nat := ((s.crewOf k).bind Crew.task).map Task.scope

/-- The launch scope of an agent's crew, 0 where its entry has been freed. -/
def State.launchHome (s : State) (k : Nat) : Nat := ((s.launchOf k).bind s.home).getD 0

/-- The job of an agent's crew. -/
def State.launchJob (s : State) (k : Nat) : Option Nat := (s.launchOf k).bind s.jobHere

/-- The scope in which a fault of an agent is recorded: its task's, or its launch scope (R76). -/
def State.faultScope (s : State) (k : Nat) : Nat :=
  (s.taskScope k).getD (s.launchHome k)

/-- Whether a participant holds the current task (R69): it has received it and has not ended its part. -/
def State.holds (s : State) (k : Nat) : Bool :=
  let a := s.agent k
  a.received && !a.ended && a.liveMask != 0

/-- The scope in which a failure of an agent's store is recorded (R76): that of the task that it holds at issue. -/
def State.storeScope (s : State) (k : Nat) : Option (Nat × W32) :=
  let i := s.faultScope k
  some (i, (s.scope i).gen)

/-- Record the fault of a store in its own scope, where the entry is still that scope (R76). -/
def Prog.storeFault (r : Req) (code : Nat) : Prog :=
  .look fun s => match r.scope with
    | some (i, g) => .when ((s.scope i).used && (s.scope i).gen == g) (.recordFault i code r.pc r.core r.agent (s.agent r.agent).det)
    | none => .skip

/-- Record a fault of an agent (R76). -/
def Prog.agentFault (k : Nat) (code : Nat) (pc : W64) : Prog :=
  .look fun s => .recordFault (s.faultScope k) code pc (coreOf k) k (s.agent k).det

/-! Runs. -/

/-- The issue port of an agent on its core: a band's port is its slot modulo 4 (R18); the control core is 4; a firmware
partition has its own. -/
def portOf (k : Nat) : Nat :=
  let u := unitOf k
  if coreNo k = 255 then 8 + u else if u < 64 then u % 4 else 4

/-- End the run of an agent and free its port (R46, R47). -/
def Prog.endRun (k : Nat) : Prog :=
  .seq
    (.agent k (fun a => { a with runOpen := false, runPackets := 0, runStalls := 0 }))
    (.look fun s =>
      .seq (.agent k (fun a => { a with lastRunEnd := s.t }))
        (.core (coreOf k) (fun c =>
          if c.ports.find (portOf k) = some k then
            { c with
              ports := c.ports.drop (portOf k)
              lastCtl := if 64 ≤ unitOf k && coreNo k != 255 then unitOf k - 64 else c.lastCtl }
          else c)))

/-! Landings. -/

/-- Where an agent of a crew lands (R71, R205). -/
def State.landingPc (s : State) (k : Nat) : W64 :=
  match s.launchOf k with
  | some l => if (s.agent k).kind = .ctl then l.kernel.control else l.kernel.landing
  | none => 0

/-- Registers whose content is unpredictable; the shape tags stay (R71, log 19). -/
def State.freeRegs (s : State) (a : Agent) : Agent :=
  { a with
    v := a.v.map (fun e => (e.1, match e.2 with
      | .dead => .dead
      | .uni _ => .uni (s.freeWord (3072 + e.1) 0)
      | .aff _ _ => .aff (s.freeWord (3072 + e.1) 0) (s.freeWord (3072 + e.1) 1)
      | .gen _ => .ofLanes (fun l => s.freeWord (3072 + e.1) l)))
    s := (List.range 63).map (fun i => (i + 1, s.free64 (3328 + i)))
    p := (List.range 7).map (fun i => (i, s.freeWord (3456 + i) 0)) }

/-- An agent that has landed: every thread READY at the landing address (R26, R71), tokens zero (R92). Of a task that it had
received its part is over (R42). -/
def Agent.land (a : Agent) (pc : W64) (why : Reason) (now : Nat) : Agent :=
  { a with
    threads := a.threads.map (fun e => (e.1, { pc, restart := pc, st := .ready }))
    k := []
    timers := []
    hmask := 0
    reason := why.code
    failed := []
    ended := a.received
    peeked := []
    taskWait := none
    landing := none
    gbarIn := false
    gbarDest := []
    runOpen := false
    runPackets := 0
    runStalls := 0
    eligibleSince := now
    ageSteps := 0
    lastRunEnd := now }

/-- Whether a commit instruction's result is still to be written (R51, R63), or a scratchpad store to perform (R69): what an
atomic returns is discarded at a landing (R69). -/
def Op.owed (o : Op) : Bool :=
  (match o.kind with
    | .sts _ => true
    | _ => false) || o.commit && match o.kind with
    | .values .. | .atoms .. | .spawn .. | .qpush .. | .push .. | .carve .. => true
    | _ => false

/-- Whether an agent waits for the result of a commit instruction. -/
def State.owes (s : State) (k : Nat) : Bool := s.ops.any (fun o => o.agent == k && o.owed)

/-- Results of an agent that are still to come are discarded, but for those of commit instructions, whose effect is carried
out whole (R51) without a token (R92); stores and atomics that were issued complete, and prefetches fill (R69, R398). The
engine commands of a control context release no token any more (R92). -/
def Prog.discard (k : Nat) : Prog :=
  let untok := fun (e : Nat × List Cmd) => if e.1 = unitOf k - 64 then (e.1, e.2.map (fun c => { c with tok := none })) else e
  .all [
    .upd (fun s => { s with
      ops := (s.ops.filter (fun o => o.agent != k || o.owed)).map (fun o => if o.agent = k then { o with tok := none } else o)
      reqs := s.reqs.filter (fun r => r.agent != k || r.access != .load) }),
    .when (64 ≤ unitOf k && coreNo k != 255) (.core (coreOf k) (fun c => { c with
      copyQ := c.copyQ.map untok
      matQ := c.matQ.map untok })),
    .grantSlots (coreOf k)]

/-- Land an agent now. Registers become unpredictable but for an EXIT landing (R71). -/
def Prog.land (k : Nat) (why : Reason) : Prog :=
  .look fun s =>
    .all [.discard k,
      .endRun k,
      .agent k (fun a => (if why = .exit then a else s.freeRegs a).land (s.landingPc k) why s.t),
      .act .free]

/-! Barriers within a crew. -/

/-- Release the threads of a mask: READY at the instruction after theirs, which has 8 bytes. -/
def Agent.release (a : Agent) (m : W32) : Agent :=
  a.mapThreads m (fun _ t => { t with pc := t.pc + 8, st := .ready })

/-- A participant has arrived at BAR (R347). -/
def Agent.atBar (a : Agent) : Bool := a.liveMask != 0 && a.stMask (· == .bar) == a.liveMask

/-- Complete the crew barrier where every counted participant has arrived (R43, R347). -/
def Prog.checkBar (key : Nat) : Prog :=
  .look fun s =>
    match s.crew? key with
    | none => .skip
    | some c =>
      let ps := (c.parts key).filter (fun k => (s.agent k).liveMask != 0)
      if ps.isEmpty || !ps.all (fun k => (s.agent k).atBar) then .skip
      else .each ps (fun k => .agent k (fun a => { a.release (a.stMask (· == .bar)) with eligibleSince := s.t }))

/-- The threads that wait at a BJOIN. -/
def TState.joining : TState → Option W32
  | .bjoin m => some m
  | _ => none

/-- The threads that a completed BJOIN at a PC releases (R30, R350). -/
def Agent.joined (a : Agent) (pc : W64) : W32 :=
  let waiting := a.threads.filter (fun e => e.2.st.joining.isSome && e.2.pc == pc)
  let here := waiting.foldl (fun m e => m ||| (1#32 <<< e.1)) (0#32)
  if waiting.any (fun e => (a.liveMask &&& e.2.st.joining.getD 0) &&& ~~~here == 0) then here else 0

/-- Complete the BJOINs of an agent whose condition is met (R26, R30). -/
def Agent.checkJoin (a : Agent) : Agent :=
  let pcs := (a.threads.filter (fun e => e.2.st.joining.isSome)).map (fun e => e.2.pc)
  a.release (pcs.foldl (fun m pc => m ||| a.joined pc) 0)

/-! The end of a task. -/

/-- Whether a participant's part of the current task is over (R42). -/
def State.partDone (s : State) (c : Crew) (k : Nat) : Bool :=
  let a := s.agent k
  a.landing.isNone && (a.ended || a.liveMask == 0 || (c.killed && !a.received))

/-- The pending store requests of agents. -/
def State.storesOf (s : State) (ks : List Nat) : List Nat :=
  (s.reqs.filter (fun r => ks.contains r.agent && (r.access == .store || r.access == .atomic) &&
    r.place == .slice)).map Req.id

/-- Free the resources of a crew that leaves its core: band slots, control context, tile-table entries, accumulator
tiles unless they stay (R42, R208, R307). -/
def Prog.freeCrew (key : Nat) (keepAccs : Bool) : Prog :=
  .upd (fun s =>
    match s.crew? key with
    | none => s
    | some c =>
      let core := s.core c.core
      { s with
        agents := s.agents.filter (fun e => e.2.crew != key)
        cores := s.cores.put c.core { core with
          tiles := core.tiles.filter (fun e => !(c.tiles.map Prod.snd).contains e.1)
          accs := if keepAccs then core.accs else core.accs.filter (fun e => !c.accs.contains e.1)
          copyQ := core.copyQ.drop c.ctx
          matQ := core.matQ.drop c.ctx } })

/-- Seal a launch whose crews have all retired, and its unsealed user scopes (R59). -/
def Prog.sealLaunch (id : Nat) : Prog :=
  .look fun s =>
    match s.launch? id with
    | none => .skip
    | some l =>
      if s.crews.any (fun c => c.2.launch == id) then .skip
      else if (s.home l).isNone then .launch id (fun l => { l with phase := .over })
      else
        let users := ((s.scopes.filter (fun e => e.2.used && e.2.level == 0 && e.2.path.contains l.scope)).map Prod.fst)
        .all [.launch id (fun l => { l with phase := .over }),
          .each (l.scope :: users) (fun i => .scope i (fun e => { e with sealed := true })),
          .each users.reverse .settle,
          .settle l.scope]

/-- A crew retires (R42). -/
def Prog.retire (key : Nat) : Prog :=
  .look fun s =>
    match s.crew? key with
    | none => .skip
    | some c =>
      .all [.freeCrew key false, .upd (fun s => { s with crews := s.crews.drop key }), .sealLaunch c.launch]

/-- The records of a die that a replay has still to follow: it follows them in their order (R296, log 31). -/
def Launch.ahead (l : Launch) (die : Nat) : List TraceRec := (l.trace.get die []).drop (l.replayed.get die 0)

/-- Whether a replay holds the end of a crew's task (03 R77): as many tasks of the die have ended as its next CANCEL record
says, so that this one was running then; or the cancel of its scope has reached Bobbin and not yet the core, which kills it. -/
def State.endHeld (s : State) (c : Crew) (t : Task) : Bool :=
  (s.launch? c.launch).any (fun l =>
    let die := coreDie c.core
    l.replay && !c.killed &&
      (((l.ahead die).find? (fun r => r.kind == 7)).any (fun r => decide (r.count.toNat ≤ l.endedOf.get die 0)) ||
        (s.known die t.scope && !s.known (16 + c.core) t.scope)))

/-- The current task of a crew ends (R42, R426). Every participant whose threads have all exited lands with EXIT, the control context
with them (log 111). -/
def Prog.endTask (key : Nat) (c : Crew) (t : Task) : Prog :=
  .look fun s =>
    let ps := c.parts key
    let gone := ps.filter (fun k => (s.agent k).liveMask == 0)
    let st : BitVec 5 := if c.killed then 1 else 0
    .all [
      .each c.dones (fun d => .addDec d st (s.storesOf ps)),
      .each gone (fun k => .land k .exit),
      .each ps (fun k => .agent k (fun a => { a with received := false, ended := false, failed := [] })),
      .when (!c.killed) (.launch c.launch (fun l => { l with
        endedOf := l.endedOf.put (coreDie c.core) (l.endedOf.get (coreDie c.core) 0 + 1) })),
      .crew key (fun c => { c with
        task := none, killed := false, dones := [], asked := ps.any (fun k => (s.agent k).taskWait.isSome) }),
      .endWork t.scope 1]

/-- Whether nothing that a crew has issued is outstanding: no result of a commit instruction, and no engine command (R51,
R206, log 87). -/
def State.idle (s : State) (key : Nat) (c : Crew) : Bool :=
  let core := s.core c.core
  (c.parts key).all (fun k => !s.owes k) && (core.copyQ.get c.ctx []).isEmpty && (core.matQ.get c.ctx []).isEmpty

/-- See whether the crew's task ends, the crew lands or the crew retires (R42), and whether its barrier completes. -/
def Prog.checkCrew (key : Nat) : Prog :=
  .look fun s =>
    match s.crew? key with
    | none => .skip
    | some c =>
      let ps := c.parts key
      let empty := ps.all (fun k => (s.agent k).liveMask == 0 && (s.agent k).landing.isNone)
      .all [
        match c.task with
        | some t => .when (ps.all (s.partDone c) && !s.endHeld c t) (.endTask key c t)
        | none =>
          if !empty then .skip
          else if c.endGiven then .when (s.idle key c) (.retire key)
          else .each ps (fun k => .land k .exit),
        .checkBar key,
        .fireDecs 64]

/-- The crew's task is killed by a cancel (R69): every participant that holds it lands at its next kill point. -/
def Prog.kill (key : Nat) : Prog :=
  .look fun s =>
    match s.crew? key with
    | none => .skip
    | some c =>
      match c.task with
      | none => .skip
      | some t =>
        if c.killed then .skip
        else
          .all [
            .each ((c.parts key).filter s.holds) (fun k => .agent k (fun a => { a with
              landing := some (a.landing.getD .cancelled) })),
            .crew key (fun c => { c with killed := true }),
            .count t.scope 1 0 0 0,
            .checkCrew key]

/-- The task of an agent's crew is aborted (R302): the participants that hold it, and the agent itself, land with FAULT;
the threads of the trapping packet go no further. -/
def Prog.abort (k : Nat) (lanes : W32) (code : Nat) (pc : W64) : Prog :=
  .look fun s =>
    let key := (s.agent k).crew
    match s.crew? key with
    | none => .skip
    | some c =>
      let hit := (c.parts key).filter (fun j => (s.agent j).liveMask != 0 && (j == k || c.task.isNone || s.holds j))
      .all [
        .agent k (fun a => a.mapThreads lanes (fun _ t => { t with st := .held })),
        .agentFault k code pc,
        .each hit (fun j => .agent j (fun a => { a with landing := some (a.landing.getD .fault) })),
        match c.task with
        | some t =>
          .when (!c.killed) (.seq (.crew key (fun c => { c with killed := true })) (.count t.scope 1 0 0 0))
        | none => .skip,
        .checkCrew key]

end Sys2Proof.Machine
end

