-- ==== Sys2Proof/Machine/Ops.lean ====
section
/-!
DEFINITION. The operations that instructions share: packets and their guards (02 R28, 04 R81), runs (R46, R47), tokens
(04 R91), taking a trap (13 R300) and returning from one (20 R365), the scalar-write rule (02 R34), checking mode
(04 R96), and the issue of one instruction (05 R120, 02 R51) around its own effect.
-/

namespace Sys2Proof.Machine

/-- A packet (R28): its agent, its PC, its threads, those whose guard is true, and the agent's non-exited threads. -/
structure Pkt where
  k : Nat
  pc : W64
  lanes : W32
  act : W32
  live : W32
  f : Fields
  kind : AgentKind
  deriving DecidableEq, Repr

/-- The address of the instruction after one (R101). -/
def Pkt.next (p : Pkt) : W64 := p.pc + BitVec.ofNat 64 (4 + 4 * p.f.len.toNat)

/-- Whether a result covers every non-exited thread with a true guard (R86). -/
def Pkt.covers (p : Pkt) : Bool := p.act == p.live

/-- The lowest lane of a mask for which a condition holds. -/
def lowest (m : W32) (f : Nat → Bool) : Option Nat := (lanesOf m).find? f

/-- The least PC of an agent's READY threads (R28). -/
def Agent.minPc (a : Agent) : Option W64 :=
  a.threads.foldl (fun acc e =>
    if e.2.st = .ready then
      (match acc with
       | some pc => if e.2.pc < pc then some e.2.pc else some pc
       | none => some e.2.pc)
    else acc) none

/-- The READY threads at a PC (R28). -/
def Agent.packetAt (a : Agent) (pc : W64) : W32 :=
  a.threads.foldl (fun m e => if e.2.st = .ready && e.2.pc = pc then m ||| (1#32 <<< e.1) else m) 0

/-- The PC whose packet the agent issues. -/
def State.issuePc (s : State) : Option W64 :=
  match s.curPc with
  | some pc => some pc
  | none => (s.agent s.cur).minPc

/-- No other agent's run is open on the agent's port (R46), and the port has issued no packet in this clock (R18, R28). -/
def State.portFree (s : State) (k : Nat) : Bool :=
  let c := s.core (coreOf k)
  (match c.ports.find (portOf k) with
   | none => true
   | some j => j == k) && decide (c.portAt.get (portOf k) 0 ≤ s.t)

/-- Whether an agent stands on a fenced core (R23): no band of such a core issues, so none reads its number (R17, log 79). -/
def State.onFenced (s : State) (k : Nat) : Bool := coreNo k != 255 && (s.core (coreOf k)).fenced

/-- Whether an agent may issue a packet now as far as its run, its STALL count, its landing and its port go (R28, R46 to
R48). Threads that wait at an instruction for their replies make it yield (R303). -/
def State.mayIssue (s : State) (k : Nat) : Bool :=
  let a := s.agent k
  s.powered && a.live && !a.stalled && !s.onFenced k && (a.landing.isNone || a.runOpen) &&
    !(a.runOpen && (decide (a.runPackets ≥ 24) || decide (a.runStalls ≥ 64))) &&
    a.stMask (· == .waiting) == 0 && s.portFree k

/-- Every token of a WAIT mask has count zero (R91). -/
def Agent.waitOk (a : Agent) (f : Fields) : Bool :=
  (List.range 8).all (fun k => !f.wait.getLsbD k || a.tok k == 0)

/-- The SET field would not raise a count to 16 (R91). -/
def Agent.setOk (a : Agent) (f : Fields) : Bool := !f.setEn || decide (a.tok f.setK.toNat < 15)

/-- A token's count goes down by one at a time (R91). -/
def Agent.untok (a : Agent) (k now : Nat) : Agent :=
  let n := a.tok k - 1
  { a with
    k := a.k.put k n
    tokAt := if n = 0 then a.tokAt.put k now else if n = 14 then a.tokAt.put (8 + k) now else a.tokAt }

/-- The packet takes an issue slot of one clock, and waits `n` more (R89). -/
def Prog.stall (k n : Nat) : Prog :=
  .look fun s => .agent k (fun a => { a with
    stalled := true, stallEnd := s.t + Config.clock * (n + 1), eligibleSince := s.t, ageSteps := 0 })

/-- A packet of an agent issues (R28, R46): its run is open and counts it with its STALL clocks, its port is the run's and
issues nothing more in this clock (R18), and the STALL count begins (R89). -/
def Prog.takeSlot (k stall : Nat) : Prog :=
  .look fun s =>
    .all [
      .agent k (fun a => { a with
        runPackets := (if a.runOpen then a.runPackets else 0) + 1
        runStalls := (if a.runOpen then a.runStalls else 0) + stall
        runOpen := true }),
      .core (coreOf k) (fun c => { c with
        ports := c.ports.put (portOf k) k
        portAt := c.portAt.put (portOf k) (s.t + Config.clock) }),
      .stall k stall]

/-- Whether a packet ends its agent's run (R46, R47): by RB, or because no READY thread is left or threads wait for
replies (R303). -/
def State.runOver (s : State) (k : Nat) (rb : Bool) : Bool :=
  rb || (s.agent k).readyMask == 0 || (s.agent k).stMask (· == .waiting) != 0

/-- A packet that has trapped ends its run (R46). Where its agent is to land and the trap has been delivered, the next kill
point is the handler's first run boundary: the handler's run begins at once (R53). -/
def Prog.trapEnd (k : Nat) (lanes : W32) (rb : Bool) : Prog :=
  .look fun s =>
    let a := s.agent k
    let ends := rb || decide (a.runPackets ≥ 24) || decide (a.runStalls ≥ 64)
    if a.landing.isSome && a.hmask == lanes && lanes != 0 && a.readyMask &&& lanes == lanes then
      .when ends (.agent k (fun a => { a with runPackets := 0, runStalls := 0 }))
    else .when (s.runOver k rb) (.endRun k)

/-! Traps. -/

/-- Take a trap (R300): the threads of the packet, the code, the address of the instruction, its bytes (R365) and TADDR. A firmware
partition enters its own vector, with its thread in the frame (R430, log 24). -/
def Prog.trap (k : Nat) (lanes : W32) (code : Nat) (pc len taddr : W64) : Prog :=
  .look fun s =>
    let a := s.agent k
    let frame := fun (a : Agent) => { a with tcode := BitVec.ofNat 8 code, tpc := pc, tlen := len, taddr := taddr }
    if a.kind = .fw then
      .agent k (fun a => { frame a with
        hmask := lanes
        threads := a.threads.map (fun e => (e.1, { e.2 with pc := a.vector, restart := a.vector })) })
    else if a.hmask &&& lanes ≠ 0 then
      .seq (.agent k (fun a => { a with tcode := BitVec.ofNat 8 code })) (.abort k lanes code pc)
    else if a.hmask ≠ 0 then .agent k (fun a => a.mapThreads lanes (fun _ t => { t with st := .held }))
    else
      let h := ((s.launchOf k).map (fun l => l.kernel.handler)).getD 0
      if h = 0 || h.toNat % 4 ≠ 0 then .abort k lanes code pc
      else .agent k (fun a => { (frame a).mapThreads lanes (fun _ t => { t with pc := h, restart := h, st := .ready }) with
        hmask := lanes })

/-- Threads leave the handler: when none is left, the held threads become READY at their instructions (R300). -/
def Agent.leaveHandler (a : Agent) (m : W32) : Agent :=
  let h := a.hmask &&& ~~~m
  let a := { a with hmask := h }
  if h = 0 && a.landing.isNone then a.mapThreads (a.stMask (· == .held)) (fun _ t => { t with st := .ready }) else a

/-- Return threads from the handler to an address (R302, R365). -/
def Agent.eret (a : Agent) (m : W32) (dest : W64) : Agent :=
  (a.mapThreads m (fun _ t => { t with pc := dest, restart := dest })).leaveHandler m

/-! The scalar-write rule (R34). -/

/-- What the rule decides for a packet. -/
inductive Split where
  | go
  | wait
  | trap
  deriving DecidableEq, Repr

/-- Decide a packet that writes an S-register (R34). A thread that waits at GBAR, which the rule's table does not name, counts as
blocked (log 110). -/
def State.split (s : State) (k : Nat) (pc : W64) (lanes : W32) : Split :=
  let a := s.agent k
  let inside := a.hmask != 0 && (lanes &&& ~~~a.hmask) == 0
  let missing := (if inside then a.liveMask &&& a.hmask else a.liveMask) &&& ~~~lanes
  let stopped := fun (l : Nat) => match (a.thread l).st with
    | .parked .. | .held | .waiting => true
    | _ => !inside && a.hmask.getLsbD l
  let behind := fun (l : Nat) => (a.thread l).st == .ready && (a.thread l).pc < pc
  if missing = 0 then .go
  else if (lanesOf missing).any stopped then .wait
  else if (lanesOf missing).any behind then .wait
  else .trap

/-- Whether the rule holds an instruction of a band (R34, R425). -/
def needsFull (k : AgentKind) (i : Instr) (f : Fields) : Bool :=
  k = .band && match i with
    | .taskend _ => true
    | _ => (specOf k i).scalarDest && f.d != 0

/-! The effect of an instruction. -/

/-- What an instruction does once it passes its checks: it does not issue yet and its agent yields; it traps; or it
performs, and the threads of `stay` do not go past it (they park, or wait for replies). Of a packet that traps the threads of
`stay` have parked. -/
inductive Body where
  | wait
  /-- it does not issue in this clock; its agent's run goes on -/
  | hold
  | trap (code : Nat) (taddr : W64)
  /-- it traps, and `q` notes that the trap has reported its cause -/
  | fail (code : Nat) (taddr : W64) (q : Prog) (stay : W32 := 0)
  /-- it does not issue yet and its agent yields; `q` notes that its access has met what it waits for -/
  | late (q : Prog)
  | go (p : Prog) (stay : W32)

/-- What the entry of an instruction says beyond its words: its own ILLEGAL condition (check 11 of R120), the registers
that it reads and writes (R96), its V results with whether they are G (R88), and its effect. -/
structure Meaning where
  illegal : State → Pkt → Bool := fun _ _ => false
  reads : State → Pkt → List Reg := fun _ _ => []
  writes : State → Pkt → List Reg := fun _ _ => []
  dests : State → Pkt → List (Nat × Bool) := fun _ _ => []
  body : State → Pkt → Body

/-- The operand code of a register (R96). -/
def Reg.code : Reg → Nat
  | .v n => n
  | .s n => n
  | .p n => n

/-- A register that holds no state of its own: S0, P7 and the codes 126 and 127. -/
def Reg.fixed : Reg → Bool
  | .v n => decide (n ≥ 126)
  | .s n => n == 0
  | .p n => n == 7

/-- Checking mode (R96): the trap code and the operand code, where a check fails. The status that a GBAR of another thread is to
write is pending as well (21 R381). -/
def State.checking (s : State) (k : Nat) (reads writes : List Reg) : Option (Nat × Nat) :=
  let a := s.agent k
  let soon := fun (r : Reg) => !r.fixed && ((a.early r s.t).isSome || s.pending k r || a.gbarDest.any (fun e => r == .s e.1))
  let lost := fun (r : Reg) => !r.fixed && match r with
    | .v n => a.rawV n == .dead
    | _ => false
  match (reads ++ writes).find? soon with
  | some r => some (3, r.code)
  | none => (reads.find? lost).map (fun r => (4, r.code))

/-- The V-registers that last use marks (R93), where the packet holds every non-exited thread. -/
def Pkt.lastUse (p : Pkt) : List Nat :=
  if p.lanes == p.live then
    (if p.f.luA then [p.f.a.toNat] else []) ++ (if p.f.luB then [p.f.b.toNat] else [])
  else []

/-- An operation in flight of a packet, with the threads that wait at the instruction for its replies and the registers
that last use frees then. -/
def Prog.addHeld (p : Pkt) (kind : OpKind) (lanes : W32) (commit : Bool) (held : W32) (lu : List Nat) : Prog :=
  .upd (fun s => { s with
    ops := s.ops ++ [{
      id := s.nextId
      agent := p.k
      kind
      lanes
      pkt := p.lanes
      tok := if p.f.setEn then some p.f.setK.toNat else none
      covers := lanes == p.live
      commit
      pc := p.pc
      held
      next := p.next
      lu }]
    nextId := s.nextId + 1 })

/-- An operation in flight of a packet. -/
def Prog.addOp (p : Pkt) (kind : OpKind) (lanes : W32) (commit : Bool) : Prog := .addHeld p kind lanes commit 0 []

/-- The threads that issue an instruction advance (R26), region starts and commits move restart points (R49, R51), the
run and the STALL count go on (R46, R89), and the token's count rises (R91). -/
def Prog.advance (p : Pkt) (commit : Bool) (stay : W32) : Prog :=
  let f := p.f
  let on := p.lanes &&& ~~~stay
  .all [
    .agent p.k (fun a =>
      let a := if f.rs then a.mapThreads p.lanes (fun _ t => { t with restart := p.pc }) else a
      let a := a.mapThreads on (fun _ t => { t with
        pc := p.next, restart := if commit then p.next else t.restart })
      if f.setEn then { a with k := a.k.put f.setK.toNat (a.tok f.setK.toNat + 1) } else a),
    .takeSlot p.k f.stall.toNat]

/-- Last use (R93), the release of a fixed-latency token (R90), and the end of the run (R46, R47). -/
def Prog.retirePacket (p : Pkt) (lat : Latency) (dests : List Nat) (stay : W32) : Prog :=
  .all [
    .when (stay == 0) (.agent p.k (fun a =>
      (p.lastUse.filter (fun n => !dests.contains n)).foldl (fun a n => a.putV n .dead) a)),
    .look fun s => match lat with
      | .fixed l => .when p.f.setEn (.agent p.k (fun a => { a with
          timers := a.timers ++ [(p.f.setK.toNat, s.t + Config.clock * l)] }))
      | _ => .skip,
    .act .free,
    .look fun s => .when (s.runOver p.k p.f.rb) (.endRun p.k)]

/-- The packet of an agent's threads at a PC traps: it takes its issue slot, as a packet of its run (R46), and the trap is
taken (R300). -/
def Prog.trapThreads (k : Nat) (lanes : W32) (code : Nat) (pc len taddr : W64) (rb : Bool) : Prog :=
  .all [.takeSlot k 0, .trap k lanes code pc len taddr, .act .free, .trapEnd k lanes rb]

/-- A packet traps, but for those of its threads that have parked. -/
def Prog.trapPacket (p : Pkt) (code : Nat) (taddr : W64) (stay : W32 := 0) : Prog :=
  .trapThreads p.k (p.lanes &&& ~~~stay) code p.pc (BitVec.ofNat 64 (lenBytes p.f.len)) taddr p.f.rb

/-- Whether an instruction crosses its fetch block, or its PC breaks R102. -/
def crosses (pc : W64) (f : Fields) : Bool :=
  pc.toNat % 4 != 0 || decide (pc.toNat % 32 + (4 + 4 * f.len.toNat) > 32)

/-- The packet that an agent issues for an instruction. -/
def State.pkt (s : State) (k : Nat) (pc : W64) (i : Instr) (f : Fields) : Pkt :=
  let a := s.agent k
  let lanes := a.packetAt pc
  let g := s.readP k f.pred.toNat
  let guarded := lanes &&& (if f.pneg then ~~~g else g)
  { k, pc, lanes
    act := match i with
      | .vsel _ => lanes
      | _ => guarded
    live := a.liveMask
    f
    kind := a.kind }

/-- What the checks of R120 before the instruction's own effect decide (R120, R34, R96, R88). -/
inductive Check where
  | pass
  | hold
  | trap (code : Nat) (taddr : W64)
  deriving DecidableEq, Repr

/-- The checks 2 to 13 of R120 in their order, with the scalar-write rule after check 11 (log 17). In the demand of check 13 a
last-use register counts as released, though a thread of the packet may park and keep it (R88, R93, log 113). -/
def State.check (s : State) (i : Instr) (m : Meaning) (p : Pkt) : Check :=
  let a := s.agent p.k
  if crosses p.pc p.f then .trap 2 p.pc
  else match checkWords p.kind a.priv a.n i with
    | some sub => .trap 1 (BitVec.ofNat 64 sub)
    | none =>
      if m.illegal s p then .trap 1 0x0A
      else
        let sp := if needsFull p.kind i p.f then s.split p.k p.pc p.lanes else .go
        if sp = .wait then .hold
        else if sp = .trap then .trap 6 0
        else match (if a.check then s.checking p.k (.p p.f.pred.toNat :: (if p.act = 0 then [] else m.reads s p))
            (if p.act = 0 then [] else m.writes s p) else none) with
          | some (c, n) => .trap c (BitVec.ofNat 64 n)
          | none =>
            if p.act = 0 then .pass
            else
            let d := m.dests s p
            if d != [] && decide (s.demand p.k (p.lastUse.filter (fun n => !(d.map Prod.fst).contains n)) d > a.g) then
              .trap 5 0
            else .pass

/-- What a packet without a true guard leaves to do: its token is released as its result would have been (R90). -/
def Prog.voidPacket (p : Pkt) (lat : Latency) : Prog :=
  match lat with
  | .fixed _ => .skip
  | _ => .when p.f.setEn (.addOp p (.values [] [] 0) 0 false)

/-- A packet performs its instruction. -/
def Prog.performPacket (p : Pkt) (sp : Spec) (dests : List Nat) (q : Prog) (stay : W32) : Prog :=
  .all [.advance p sp.commit stay, q, .retirePacket p sp.lat dests stay]

/-- An agent whose instruction waits yields (R47): the other agents of its port may issue in this clock (09 R204, 12 R294). -/
def Prog.yield (k : Nat) : Prog :=
  .look fun s => .seq (.agent k (fun a => { a with waitedAt := some s.clocks })) (.endRun k)

/-- The issue of an instruction by the agent whose turn it is. Where the agent cannot issue, nothing happens; where the
instruction waits, the agent yields (R47). -/
def Prog.issue (i : Instr) (m : Meaning) : Prog :=
  .look fun s =>
    match opcodeOf i, s.issuePc with
    | some (_, _, f), some pc =>
      let k := s.cur
      let p := s.pkt k pc i f
      let sp := specOf p.kind i
      if p.lanes = 0 || !s.mayIssue k then .skip
      else if !((s.agent k).waitOk f && (s.agent k).setOk f) then .endRun k
      else match s.check i m p with
        | .hold => .skip
        | .trap c ta => .trapPacket p c ta
        | .pass =>
          let d := (m.dests s p).map Prod.fst
          if p.act = 0 then .performPacket p sp d (.voidPacket p sp.lat) 0
          else match m.body s p with
            | .wait => .yield k
            | .hold => .skip
            | .trap c ta => .trapPacket p c ta
            | .fail c ta q stay => .seq q (.trapPacket p c ta stay)
            | .late q => .seq q (.yield k)
            | .go q stay => .performPacket p sp d q stay
    | _, _ => .skip

/-- The meaning of an instruction: its issue around its own effect. -/
def perform (i : Instr) (m : Meaning) (s : State) : Host.Outcome State Fault Refusal := done (.issue i m) s

/-- The operands of an instruction that performs once (R29). -/
def Pkt.regs (p : Pkt) (s : State) : Regs := s.regs p.k

end Sys2Proof.Machine
end

