-- ==== Sys2Proof/Machine/Tile.lean ====
section
/-!
DEFINITION. The tile table (09 R208 to R213) and the scratchpad of a crew (07 R155, R156).
-/

namespace Sys2Proof.Machine

/-- The fields of a tile-table entry (R208). -/
def tState (t : BitVec 128) : Nat := bitsOf t.toNat 111 110
def tCrew (t : BitVec 128) : Nat := bitsOf t.toNat 109 107
def tValid (t : BitVec 128) : Bool := t.getLsbD 106
def tBitmap (t : BitVec 128) : Bool := t.getLsbD 105
def tFmt (t : BitVec 128) : Nat := bitsOf t.toNat 103 100
def tCols (t : BitVec 128) : Nat := bitsOf t.toNat 95 80
def tRows (t : BitVec 128) : Nat := bitsOf t.toNat 79 64
def tBitmapAt (t : BitVec 128) : Nat := bitsOf t.toNat 52 32
def tOffset (t : BitVec 128) : Nat := bitsOf t.toNat 20 0

/-- The bytes of a row of a format (R209). -/
def pitchOf (fmt cols : Nat) : Nat :=
  match fmt with
  | 0 => cols
  | 1 => 4 * cols
  | 2 | 3 => 2 * cols
  | 4 => 34 * cols / 32
  | 5 => 26 * cols / 32
  | 6 => 18 * cols / 32
  | _ => 0

/-- A tile's pitch and its bytes (R209). -/
def tPitch (t : BitVec 128) : Nat := pitchOf (tFmt t) (tCols t)
def tBytes (t : BitVec 128) : Nat := tRows t * tPitch t

/-- A tile's entry with another format: that of weights is the latched one (06 R148). -/
def tAs (t : BitVec 128) (fmt : Nat) : BitVec 128 :=
  (t &&& ~~~(15#128 <<< 100)) ||| (BitVec.ofNat 128 (fmt % 16) <<< 100)

/-- A tile's entry with another state (R212). -/
def tWith (t : BitVec 128) (state : Nat) : BitVec 128 :=
  (t &&& ~~~(3#128 <<< 110)) ||| (BitVec.ofNat 128 state <<< 110)

/-- The table index of a crew's tile, where it has a valid entry. -/
def State.tileIndex (s : State) (key n : Nat) : Option Nat :=
  match s.crew? key with
  | none => none
  | some c =>
    match c.tiles.find n with
    | none => none
    | some i =>
      let t := (s.core c.core).tiles.get i 0
      if tValid t && tCrew t == c.ctx then some i else none

/-- A crew's tile. -/
def State.tile? (s : State) (key n : Nat) : Option (BitVec 128) :=
  match s.crew? key with
  | none => none
  | some c => (s.tileIndex key n).map (fun i => (s.core c.core).tiles.get i 0)

/-- The place of an agent's events among those of one clock on a tile (23 R428): control contexts 0, then the completions of
the engines, 1, then bands in slot order. -/
def tilePlace (k : Nat) : Nat := if unitOf k < 64 then 2 + unitOf k else 0

/-- The events of this clock on a crew's tile, by their places. -/
def State.tileNow (s : State) (key n : Nat) : List Nat :=
  match s.crew? key, s.tileIndex key n with
  | some c, some i =>
    let core := s.core c.core
    if core.tileAt = s.clocks then (core.tileEvents.filter (fun e => e.1 == i)).map Prod.snd else []
  | _, _ => []

/-- Whether an event on a crew's tile may come now (23 R428): none of a later place has come in this clock. -/
def State.tileTurn (s : State) (key n place : Nat) : Bool := (s.tileNow key n).all (fun q => decide (q ≤ place))

/-- An event on a crew's tile comes in this clock. -/
def Prog.noteTile (key n place : Nat) : Prog :=
  .look fun s =>
    match s.crew? key, s.tileIndex key n with
    | some c, some i => .core c.core (fun core => { core with
        tileAt := s.clocks
        tileEvents := (i, place) :: (if core.tileAt = s.clocks then core.tileEvents else []) })
    | _, _ => .skip

/-- Move a crew's tile to a state (R212), as an event of a place in its clock. -/
def Prog.moveTile (key n state place : Nat) : Prog :=
  .seq (.noteTile key n place) (.look fun s =>
    match s.crew? key, s.tileIndex key n with
    | some c, some i => .core c.core (fun core => { core with tiles := core.tiles.put i (tWith (core.tiles.get i 0) state) })
    | _, _ => .skip)

/-- The TADDR of a TILE trap (R213). -/
def tileTaddr (sub n : Nat) : W64 := BitVec.ofNat 64 (sub + 256 * n)

/-- The base of an agent's scratchpad allocation in its core's array, and its size (R156). -/
def State.scratchOf (s : State) (k : Nat) : Nat × Nat :=
  match s.crewOf k with
  | some c => (Space.scratchAt c.core c.scratchBase, c.scratchSize)
  | none => (Space.scratchAt (coreOf k) 0, 0)

end Sys2Proof.Machine
end

