-- ==== Sys2Proof/Machine/Access.lean ====
section
/-!
DEFINITION. Accesses to global memory: the checks of a packet (07 R170), parking (R172), requests by line (R167), the
L1 (R159, R177, 08 R180), what a request reads (R182, R185), and the end of an operation (04 R91, 13 R303, R311).
-/

namespace Sys2Proof.Machine

/-- What the checks of R170 decide for the accesses of a packet. -/
inductive Verdict where
  | wait
  | trap (code : Nat) (taddr : W64)
  /-- the absent lanes park, and the others trap MEM-POISON -/
  | poison (taddr : W64) (absent : List (Part × Nat))
  | go (hits : List (Part × Target)) (absent : List (Part × Nat))

/-- The addresses of the table entries that a walk reads (R163), which may be poisoned (R319). -/
def walkReads (mem : List Host.Cell) (va : Nat) : Nat → Nat → List Nat
  | 0, _ => []
  | level + 1, table =>
    let idx := va / 2 ^ levelShift level % levelEntries level
    let a := table + 8 * idx
    let e := leNat (Memory.reads mem a 8)
    if e % 2 = 0 || level = 0 || e / 4 % 2 = 1 || !nonLeafOk level e then [a]
    else a :: walkReads mem va level (bitsOf e 49 8 * 256)

/-- Whether the walk for an address reads a poisoned entry (R319). -/
def State.walkPoisoned (s : State) (ctx : Nat) (va : W64) : Bool :=
  !s.poison.isEmpty && (s.ctx ctx).hasRoot && canonical va &&
    (walkReads s.mem va.toNat 5 (s.ctx ctx).root).any (fun a => s.poisoned a 8)

/-- Whether a leaf permits an access (R164); host memory takes only the atomics of R342. -/
def permits (acc : Access) (t : Target) (op : Nat) : Bool :=
  match acc with
  | .load | .pref => t.r
  | .store => t.w
  | .atomic => t.r && t.w && (t.place != .host || op == 0 || op == 9 || op == 10)

/-- The pages of the absent accesses, each once. -/
def absentPages (ps : List (Part × Nat)) : List Nat := (ps.map (fun e => pageOf e.1.va)).eraseDups

/-- Room for the fault records of new pages (R172). A packet that faults on several new pages issues only where all its
records find room, and yields otherwise: the spec speaks of one fault (log 84). -/
def State.faultRoom (s : State) (k ctx : Nat) (ps : List (Part × Nat)) : Bool :=
  let fresh := (ps.filter (fun e => (s.openFault (dieOf k) ctx e.1.va).isNone))
  let n := (absentPages fresh).length
  decide (n ≤ (4096 - s.queued (dieOf k)) + (16 - (s.core (coreOf k)).heldRecs.length))

/-- The checks of R170 over the accesses of a packet, in ascending order of lanes. A poisoned table entry (R319) has no
place among them in the spec: it is tested after MISALIGN (log 85). Where lanes are absent they park, and the other lanes, whose
lines are tested then, are the packet that traps (log 84). -/
def State.verdict (s : State) (k ctx align : Nat) (acc : Access) (parts : List Part) : Verdict :=
  let xs := parts.map (fun p => (p, s.xlatCore (coreOf k) ctx p.va))
  match parts.find? (fun p => p.va.toNat % align != 0) with
  | some p => .trap 0x07 p.va
  | none =>
    match parts.find? (fun p => s.walkPoisoned ctx p.va) with
    | some p => .trap 0x0A p.va
    | none =>
      match xs.find? (fun e => e.2 == .access) with
      | some e => .trap 0x09 e.1.va
      | none =>
        let hits := xs.filterMap (fun e => match e.2 with
          | .ok t => some ({ e.1 with addr := t.addr }, t)
          | _ => none)
        match hits.find? (fun e => !permits acc e.2 e.1.op) with
        | some e => .trap 0x09 e.1.va
        | none =>
          let absent := xs.filterMap (fun e => match e.2 with
            | .absent l => some (e.1, l)
            | _ => none)
          if !s.faultRoom k ctx absent then .wait
          else match hits.find? (fun e => acc != .store && e.2.place == .slice && s.poisoned e.1.addr e.1.len) with
            | some e => if absent = [] then .trap 0x0A e.1.va else .poison e.1.va absent
            | none => .go hits absent

/-- The code of an access in a fault record (R172). -/
def Access.code : Access → Nat
  | .load | .pref => 0
  | .store => 1
  | .atomic => 2

/-- Park the threads of a mask on the page of an address, each with its own address (R170, R172). -/
def Prog.park (k ctx : Nat) (va : W64) (own : Nat → W64) (access level : Nat) (lanes : W32) : Prog :=
  .look fun s =>
    let die := dieOf k
    let serial := s.faultSerialFor die ctx va
    let a := s.agent k
    let isCtl := a.kind != .band
    .all [
      .fault die ctx va (coreOf k) (coreNo k) (if isCtl then 1 else 0) access (if isCtl then unitOf k - 64 else unitOf k)
        level lanes,
      .agent k (fun a => a.mapThreads lanes (fun l t => { t with st := .parked die serial (own l) }))]

/-- Park the lanes of absent accesses, page by page (R172): `all` are the threads to park where the access is one of the
whole packet. -/
def Prog.parkLanes (k ctx : Nat) (acc : Access) (absent : List (Part × Nat)) (all : Option W32) : Prog :=
  .each (absentPages absent) (fun page =>
    let here := absent.filter (fun e => pageOf e.1.va == page)
    match here.head? with
    | none => .skip
    | some (p, l) =>
      let own := fun (i : Nat) => match here.find? (fun e => e.1.lane == i) with
        | some e => e.1.va
        | none => p.va
      .park k ctx p.va own acc.code l (all.getD (maskOf (fun i => here.any (fun e => e.1.lane == i)))))

/-! Requests. -/

/-- The accesses that fall in one line of one place. -/
structure LineGroup where
  t : Target
  line : Nat
  parts : List Part

/-- The accesses of a packet by line (R167). Where they reach a line through pages of different leases, the one request takes the
lowest lane's page (log 116). -/
def lineGroups : List (Part × Target) → List LineGroup
  | [] => []
  | (p, t) :: r =>
    let gs := lineGroups r
    let here := fun (g : LineGroup) => g.t.place == t.place && g.line == lineOf p.addr
    match gs.find? here with
    | some g => { g with t, parts := p :: g.parts } :: gs.filter (fun g => !here g)
    | none => { t, line := lineOf p.addr, parts := [p] } :: gs

/-- A core's hold of a line, where its lease has not ended (R180). -/
def State.l1At (s : State) (core line : Nat) : Option L1Line :=
  (s.core core).l1.find? (fun l => l.line == line && decide (s.ns < l.leaseEnd))

/-- The sectors of a line that accesses touch (R154, R167). -/
def partSectors (ps : List Part) : BitVec 4 :=
  ps.foldl (fun m p => (List.range 4).foldl (fun (m : BitVec 4) i =>
    if p.addr % 128 < 32 * i + 32 && 32 * i < p.addr % 128 + p.len then m ||| (1#4 <<< i) else m) m) 0

/-- The sectors that a request carries: a prefetch asks for its whole line (R398). -/
def Req.sectors (r : Req) : BitVec 4 := if r.access = .pref then 15 else partSectors r.parts

/-- Whether a load may hit a line of its core's L1 now (R154, R165, R180, R183): its page has a lease, its sectors are
valid, and its instant comes before the lease end. -/
def State.hits (s : State) (r : Req) : Bool :=
  !r.noL1 && r.lease != 0 && match s.l1At r.core r.line with
    | none => false
    | some l =>
      let t := max s.ns (s.agent r.agent).lastInst
      r.sectors &&& ~~~l.sectors == 0 &&
        decide ((if homeDie (128 * r.line) = coreDie r.core then t else t + 2) < l.leaseEnd)

/-- The ways that L1 may allocate (R155, R158): those above the carve-out, and above the one that a CARVE under way asks. -/
def Core.l1Ways (c : Core) : Nat × Nat :=
  let lo := match c.carving with
    | some v => max c.w v.target
    | none => c.w
  (lo, 16 - lo)

/-- Lines of a way of the SRAM array (R154, R155): 256 KiB of 128 B. -/
def wayLines : Nat := 2048

/-- L1 takes sectors of a line (R154, R158, R159, R180): a line that it holds keeps its way, its count and its sectors; a
new one takes a way, freely chosen among those that may be allocated, and where that way is full a line, freely chosen,
leaves it (log 80). -/
def Core.fill (c : Core) (free : Nat → Nat) (l : L1Line) : Core :=
  match c.l1.find? (fun x => x.line == l.line) with
  | some x => { c with
      l1 := { l with
        leaseEnd := max l.leaseEnd x.leaseEnd
        way := x.way
        sectors := l.sectors ||| x.sectors
        count := if l.count = 0 then x.count else l.count
        pref := l.pref || x.pref
        touched := if l.pref then l.touched else x.touched } :: c.l1.filter (fun x => x.line != l.line) }
  | none =>
    let way := c.l1Ways.1 + free 0 % c.l1Ways.2
    let here := c.l1.filter (fun x => x.way == way)
    let out := (here[free 1 % here.length]?).map L1Line.line
    { c with
      l1 := { l with way } ::
        (if here.length < wayLines then c.l1 else c.l1.filter (fun x => some x.line != out)) }

/-- A load of a packet hits a line that has a read count (R159). -/
def Prog.countHit (core line n : Nat) : Prog :=
  .core core (fun c => { c with
    l1 := c.l1.filterMap (fun l =>
      if l.line ≠ line then some l
      else if n ≠ 0 then some { l with count := n }
      else if l.count = 0 then some l
      else if l.count = 1 then none
      else some { l with count := l.count - 1 }) })

/-- A demand access meets a line that PREF filled or is filling (R177); a store clears a read count (R159). -/
def Prog.demandTouch (core line : Nat) (store : Bool) : Prog :=
  .look fun s =>
    let held := (s.l1At core line).any (fun l => l.pref && !l.touched)
    let isPending := fun (r : Req) => r.core == core && r.line == line && r.access == .pref && !r.touched
    let pending := !held && s.reqs.any isPending
    .all [
      .core core (fun c => { c with
        prefUsed := if held || pending then c.prefUsed + 1 else c.prefUsed
        prefEarly := if held then c.prefEarly + 1 else c.prefEarly
        prefLate := if pending then c.prefLate + 1 else c.prefLate
        l1 := c.l1.map (fun l =>
          if l.line = line then { l with touched := true, count := if store then 0 else l.count } else l) }),
      .when pending (.upd (fun s => { s with
        reqs := s.reqs.map (fun r => if isPending r then { r with touched := true } else r) }))]

/-- Whether an access reaches the L1 (R165): a store to local memory, or a load on a page with a lease that may use it. -/
def touchesL1 (acc : Access) (noL1 : Bool) (t : Target) : Bool :=
  t.place == .slice && match acc with
    | .pref => false
    | .load => t.lease != 0 && !noL1
    | _ => true

/-- Put a request in flight (R167, R168). A load that the L1 serves takes no miss slot; any other takes one, or waits for
one; a prefetch that finds none is dropped. -/
def State.putReq (s : State) (r : Req) : State :=
  let r := { r with id := s.nextId, issued := s.t, sentAt := s.t }
  let add := fun (r : Req) => { s with reqs := s.reqs ++ [r], nextId := s.nextId + 1 }
  if r.access = .load && s.hits r then add r
  else match s.slotFor r.agent with
    | .none => if r.access = .pref then s else add { r with stage := .queued }
    | x =>
      let s := if r.access = .pref then
          { s with cores := s.cores.put r.core { s.core r.core with prefIssued := (s.core r.core).prefIssued + 1 } }
        else s
      { s with reqs := s.reqs ++ [{ r with slot := x }], nextId := s.nextId + 1 }

/-- Send the requests of a packet's accesses for the operation that is issued with them (its number is the next one); of the
lines of `seen` the packet has counted as a reader already (R159). -/
def Prog.send (k : Nat) (pc : W64) (acc : Access) (noL1 : Bool) (count : Nat) (hits : List (Part × Target)) (op : Nat)
    (seen : List Nat := []) : Prog :=
  .each (lineGroups hits) (fun g =>
    .seq
      (.when (touchesL1 acc noL1 g.t) (.demandTouch (coreOf k) g.line (acc == .store || acc == .atomic)))
      (.upd (fun s => s.putReq {
          id := 0
          op
          agent := k
          core := coreOf k
          place := g.t.place
          access := acc
          line := g.line
          parts := g.parts
          lease := g.t.lease
          noL1
          scope := if acc = .store then s.storeScope k else none
          launch := (s.crewOf k).map Crew.launch
          counted := seen.contains g.line
          pc
          count := if g.t.lease = 0 then 0 else count })))

/-- Whether any access goes to host or peer memory. -/
def anyFar (hits : List (Part × Target)) : Bool := hits.any (fun e => e.2.place != .slice)

/-- The first absent access of each lane: a thread parks on one page. -/
def firstAbsent : List (Part × Nat) → List (Part × Nat)
  | [] => []
  | e :: r => e :: (firstAbsent r).filter (fun x => x.1.lane != e.1.lane)

/-- What an instruction does with its accesses once its checks are passed: absent lanes park, requests are sent, the
TLB takes the leaves; the threads of a remote or host load or atomic wait at the instruction (R303, R311). `always`
makes them wait for any page; `whole` makes the packet's threads share one access. -/
def accessBody (p : Pkt) (ctx : Nat) (acc : Access) (kind : OpKind) (commit noL1 : Bool) (count : Nat)
    (hits : List (Part × Target)) (absent : List (Part × Nat)) (always whole : Bool) (seen : List Nat := []) : Body :=
  let absent := firstAbsent absent
  let parked := if absent = [] then 0 else if whole then p.lanes else partLanes (absent.map Prod.fst)
  let hits := hits.filter (fun e => !(whole && absent != []) && !parked.getLsbD e.1.lane)
  let go := p.act &&& ~~~parked
  let kind := if go = 0 then .values [] [] 0 else kind
  let waits := go != 0 && (always || ((acc == .load || acc == .atomic) && anyFar hits))
  let held := if waits then p.lanes &&& ~~~parked else 0
  let dests := kind.dests
  let lu := if waits && parked == 0 then p.lastUse.filter (fun n => !dests.contains (.v n)) else []
  .go (.all [
      .each (hits.map (fun e => e.1.va)) (fun va => .fillTlb (coreOf p.k) ctx va),
      .parkLanes p.k ctx acc absent (if whole then some p.lanes else none),
      .look fun s =>
        .seq (.addHeld p kind go commit held lu)
          (.when (go != 0) (.send p.k p.pc acc noL1 count hits s.nextId seen)),
      .agent p.k (fun a => a.mapThreads held (fun _ t => { t with st := .waiting }))])
    (parked ||| held)

/-- The lanes of absent accesses park, and the other threads of the packet trap MEM-POISON (R170); an access of the whole packet
only parks. -/
def poisonBody (p : Pkt) (ctx : Nat) (acc : Access) (va : W64) (absent : List (Part × Nat)) (whole : Bool) : Body :=
  let absent := firstAbsent absent
  if whole then .go (.seq (.parkLanes p.k ctx acc absent (some p.lanes)) (.addOp p (.values [] [] 0) 0 false)) p.lanes
  else .fail 0x0A va (.parkLanes p.k ctx acc absent none) (partLanes (absent.map Prod.fst))

/-- What precedes an instruction that performs. -/
def Body.after (b : Body) (q : Prog) : Body :=
  match b with
  | .go r stay => .go (.seq q r) stay
  | b => b

/-! What host or peer memory has answered to an instruction before it performs (R303). -/

/-- What has been answered for an access. -/
def State.peekAt (s : State) (k : Nat) (q : Part) : Option (List Byte) :=
  ((s.agent k).peeked.find? (fun e => e.1 == q.lane && e.2.1 == q.va)).map (fun e => e.2.2)

/-- The accesses of host or peer memory for which nothing has been answered. -/
def State.unpeeked (s : State) (k : Nat) (hits : List (Part × Target)) : List (Part × Target) :=
  hits.filter (fun e => e.2.place != .slice && (s.peekAt k e.1).isNone)

/-- The instruction performs, or traps: the answers to its threads have served. -/
def Prog.forget (p : Pkt) : Prog :=
  .agent p.k (fun a => { a with peeked := a.peeked.filter (fun e => !p.lanes.getLsbD e.1) })

/-! What a request reads. -/

/-- The bytes that an agent's own pending stores give an address, the latest in program order before operation `op`
(R185). -/
def State.forwarded (s : State) (k op line a : Nat) : Option Byte :=
  let own := s.reqs.filter (fun r =>
    r.agent == k && r.access == .store && r.place == .slice && r.line == line && decide (r.op < op))
  (own.flatMap Req.parts).foldl (fun acc p =>
    if p.addr ≤ a && a < p.addr + p.len then some (p.data.getD (a - p.addr) 0) else acc) none

/-- Whether a store gives bytes to a load of its line (R185). -/
def Req.forwardsTo (x : Req) (parts : List Part) : Bool :=
  parts.any (fun p => x.parts.any (fun q => decide (p.addr < q.addr + q.len) && decide (q.addr < p.addr + p.len)))

/-- The bytes of a part as an agent's load reads them now (R182, R185). -/
def State.readPart (s : State) (r : Req) (p : Part) : List Byte :=
  (List.range p.len).map (fun i =>
    (s.forwarded r.agent r.op r.line (p.addr + i)).getD (Memory.read s.mem (p.addr + i)))

/-- The bytes of a size code (R384, R413). -/
def sizeBytes (size : Nat) : Nat :=
  if size ≤ 1 then 1 else if size ≤ 3 then 2 else if size = 4 then 4 else 4 * sizeRegs size

/-- An atomic's new word (R340) and its flags. -/
def atomNew (op : Nat) (old v cmp : W32) : W32 × BitVec 5 :=
  match op with
  | 0 => (old + v, 0)
  | 1 => (old - v, 0)
  | 2 => (if v.slt old then v else old, 0)
  | 3 => (if v.ult old then v else old, 0)
  | 4 => (if old.slt v then v else old, 0)
  | 5 => (if old.ult v then v else old, 0)
  | 6 => (old &&& v, 0)
  | 7 => (old ||| v, 0)
  | 8 => (old ^^^ v, 0)
  | 9 => (v, 0)
  | 10 => (if old = cmp then v else old, 0)
  | _ =>
    let r := fpAdd Fmt.f32 rneMode 0 old.toNat v.toNat
    (BitVec.ofNat 32 r.1, r.2)

end Sys2Proof.Machine
end

