-- ==== Sys2Proof/Machine/Vector.lean ====
section
/-!
DEFINITION. The frame of the vector instructions of domain 01 (and of the ray and reservoir arithmetic of domain 10):
what a packet reads, what it computes, and how the results are written (04 R86 to R90).
-/

namespace Sys2Proof.Machine

/-- What a vector instruction sees: its fields, its packet, the rounding seed (R84) and the registers. -/
structure VIn where
  f : Fields
  lanes : W32
  act : W32
  live : W32
  seed : W32
  r : Regs

/-- What a vector instruction computes: V results with the shape that R86 gives a covering write, predicate results for
the lanes with a true guard, and flags. -/
structure VOut where
  v : List (Nat × VReg) := []
  p : List (Nat × W32) := []
  flags : BitVec 5 := 0

namespace VIn

/-- Operand A. -/
def a (x : VIn) : VReg := x.r.v x.f.a.toNat

/-- Operand B: a V-register, the low word of an S-register (R82), or the immediate of a 96-bit form (R108). -/
def b (x : VIn) : VReg := if x.f.bs then .uni ((x.r.s x.f.b.toNat).setWidth 32) else x.r.v x.f.b.toNat

/-- Operand B of an instruction of R108. -/
def bImm (x : VIn) : VReg := if x.f.len = 2#2 then .uni x.f.imm32 else x.b

/-- Operand C of layout C. -/
def c (x : VIn) : VReg := if x.f.cs then .uni ((x.r.s x.f.cReg).setWidth 32) else x.r.v x.f.cReg

/-- The destination. -/
def d (x : VIn) : Nat := x.f.d.toNat

/-- The write covers every non-exited thread with a true guard (R86). -/
def covers (x : VIn) : Bool := x.act == x.live

end VIn

/-- The registers that an instruction's operand fields read, but for D (R96). -/
def specReads (sp : Spec) (f : Fields) : List Reg :=
  let role := fun (r : Role) (code : Nat) (sel : Bool) => match r with
    | .vsrc => [Reg.v code]
    | .group n => (List.range n).map (fun i => Reg.v (code + i))
    | .vOrS => if sel then [Reg.s code] else [Reg.v code]
    | .s | .sIn _ _ => [Reg.s code]
    | _ => []
  role sp.a f.a.toNat false ++
    (if sp.lay = .immB && f.len = 2#2 then [] else role sp.b f.b.toNat f.bs) ++
    (if sp.lay = .c then role sp.c f.cReg f.cs else [])

/-- What the packet of an agent sees. -/
def State.vin (s : State) (p : Pkt) : VIn :=
  { f := p.f, lanes := p.lanes, act := p.act, live := p.live, seed := (s.agent p.k).seed, r := s.regs p.k }

/-- Whether each V result is G after the write (R86 to R88). -/
def VOut.dests (o : VOut) (covers : Bool) : List (Nat × Bool) :=
  o.v.map (fun e => (e.1, !covers || e.2.norm.general))

/-- The registers that a result writes. -/
def VOut.regs (o : VOut) : List Reg := o.v.map (fun e => .v e.1) ++ o.p.map (fun e => .p e.1)

/-- Write fixed-latency results (R87, R89, R133). -/
def VOut.write (o : VOut) (s : State) (lat : Nat) (p : Pkt) : Prog :=
  .seq (.clash p.k o.regs)
    (.agent p.k (fun a =>
      let a' := o.v.foldl (fun a e => s.fixV lat e.1 ((a.rawV e.1).merge e.2 p.act p.covers) a) a
      let a' := o.p.foldl (fun a e => s.fixP lat e.1 e.2 p.act a) a'
      a'.dueFlags s.t lat o.flags))

/-- A vector instruction of fixed latency. -/
def vecMeaning (i : Fields → Instr) (lat : Nat) (g : VIn → VOut) : Meaning where
  reads := fun _ p => specReads (specOf .band (i p.f)) p.f
  writes := fun s p => (g (s.vin p)).regs
  dests := fun s p => (g (s.vin p)).dests p.covers
  body := fun s p => .go ((g (s.vin p)).write s lat p) 0

/-- A vector instruction of variable latency: the sources are read at issue, the result is written later (R90). -/
def vecLate (i : Fields → Instr) (g : VIn → VOut) : Meaning where
  reads := fun _ p => specReads (specOf .band (i p.f)) p.f
  writes := fun s p => (g (s.vin p)).regs
  dests := fun s p => (g (s.vin p)).dests p.covers
  body := fun s p =>
    let o := g (s.vin p)
    .go (.addOp p (.values [] o.v o.flags) p.act false) 0

end Sys2Proof.Machine
end

