-- ==== Sys2Proof/Machine/Rays.lean ====
section
/-!
DEFINITION. The arithmetic of rays (10 R240 to R251): the box test of RTBOX, the triangle test of RTTRI, the step of
RTSTEP and the acceptance of RTHIT, each on the words of one lane.
-/

namespace Sys2Proof.Machine

/-- An F32 word as a value. -/
def f32 (w : W32) : FVal := Fmt.f32.decode w.toNat

/-- Whether a value is finite. -/
def FVal.finite : FVal → Bool
  | .fin .. => true
  | _ => false

/-- Whether a value is a zero. -/
def FVal.isZero : FVal → Bool
  | .fin _ m _ => m == 0
  | _ => false

/-- A value as an exact dyadic number; an infinity or NaN counts as zero. -/
def FVal.dy : FVal → Int × Int
  | .fin n m e => (sgn n m, e)
  | _ => (0, 0)

/-- Round an exact dyadic to F32 (modes of R134: 0 RN, 2 RUP, 3 RDN), as a value. -/
def roundF (mode : Nat) (x : Int × Int) : FVal := Fmt.f32.decode (roundDy Fmt.f32 mode 0 false x).1

/-- Exact dyadic arithmetic. -/
def dySum (x y : Int × Int) : Int × Int := dyAdd x.1 x.2 y.1 y.2
def dyNeg (x : Int × Int) : Int × Int := (-x.1, x.2)
def dySub (x y : Int × Int) : Int × Int := dySum x (dyNeg y)
def dyMul (x y : Int × Int) : Int × Int := (x.1 * y.1, x.2 + y.2)

/-- The lesser and the greater of two values that are no NaN. -/
def FVal.lesser (a b : FVal) : FVal := if cmpVals b a = .lt then b else a
def FVal.greater (a b : FVal) : FVal := if cmpVals a b = .lt then b else a

/-- a ≤ b for values that are no NaN. -/
def FVal.le (a b : FVal) : Bool := cmpVals a b != .gt

/-- The exact product of a value that may be infinite with another, where 0 × ±∞ is taken as 0 (R246). -/
def FVal.times (a b : FVal) : FVal :=
  match a, b with
  | .fin n m e, .fin n' m' e' => .fin (n != n') (m * m') (e + e')
  | .fin n m _, .inf n' | .inf n', .fin n m _ => if m = 0 then .fin false 0 0 else .inf (n != n')
  | .inf n, .inf n' => .inf (n != n')
  | _, _ => .nan false

/-- The exact difference of a value that may be infinite and a finite one. -/
def FVal.less (a b : FVal) : FVal :=
  match a with
  | .fin .. =>
    let d := dySub a.dy b.dy
    .fin (d.1 < 0) d.1.natAbs d.2
  | x => x

/-- Round a value that may be infinite to F32. -/
def FVal.rounded (mode : Nat) : FVal → FVal
  | .fin n m e => roundF mode (sgn n m, e)
  | x => x

/-- A byte of a node. -/
def nodeByte (node : List Byte) (i : Nat) : Nat := (node.getD i 0).toNat

/-- A little-endian word of a node or record. -/
def nodeWord (node : List Byte) (i : Nat) : W32 := BitVec.ofNat 32 (leNat ((node.drop i).take 4))

/-- The test of one axis of one child (R246): its near and far bounds, or none where the child misses. -/
def boxAxis (node : List Byte) (ray : Nat → W32) (c a : Nat) : Option (FVal × FVal) :=
  let o := f32 (nodeWord node (4 * a))
  let e : Int := (nodeByte node (12 + a) : Int) - 127
  let qlo := nodeByte node (24 + 6 * c + a)
  let qhi := nodeByte node (27 + 6 * c + a)
  let org := f32 (ray a)
  let dw := ray (3 + a)
  let zero := dw.toNat / 2 ^ 23 % 256 == 0
  if qlo > qhi then none
  else
    let lo := roundF 3 (dySum o.dy (qlo, e))
    let hi := roundF 2 (dySum o.dy (qhi, e))
    if zero then (if lo.le org && org.le hi then some (.inf true, .inf false) else none)
    else
      let inv := Fmt.f32.decode (fpDiv Fmt.f32 0 0 0x3F800000 dw.toNat).1
      let t1 := (lo.less org).times inv
      let t2 := (hi.less org).times inv
      some ((t1.lesser t2).rounded 3, (t1.greater t2).rounded 2)

/-- Whether a ray and a node hold only finite fields (R246). -/
def boxFinite (node : List Byte) (ray : Nat → W32) : Bool :=
  (List.range 8).all (fun i => (f32 (ray i)).finite) && (List.range 3).all (fun a => (f32 (nodeWord node (4 * a))).finite)

/-- Whether a child is hit (R246). -/
def boxHit (node : List Byte) (ray : Nat → W32) (c : Nat) : Bool :=
  (nodeByte node 15).testBit c && boxFinite node ray &&
    match boxAxis node ray c 0, boxAxis node ray c 1, boxAxis node ray c 2 with
    | some x, some y, some z =>
      let near := (x.1.greater y.1).greater z.1
      let far := (x.2.lesser y.2).lesser z.2
      near.le far && (f32 (ray 6)).le far && near.le (f32 (ray 7))
    | _, _, _ => false

/-- Reverse order (R243). -/
def boxRev (node : List Byte) (ray : Nat → W32) : Bool :=
  let axis := nodeByte node 48 % 4
  axis != 3 && (ray (3 + axis)).getLsbD 31

/-- ACTION of word 15 (R240). -/
def rayAction (w : W32) : Nat := w.toNat / 256 % 4

/-- The address of a ray's node (R241). -/
def nodeAddr (base : W64) (ray : Nat → W32) : W64 := base + 64 * (ray 8).zeroExtend 64

/-- The seven words of RTBOX (R245). For a ray that is DONE the node is not read, and what word 0 holds beside its mask
is not stated: `open_` stands for it (log 27). -/
def boxWords (node : List Byte) (ray : Nat → W32) (open_ : W32) : List W32 :=
  if rayAction (ray 15) = 3 then [open_ &&& 0xFFFF1FF0, 0, 0, ray 8, ray 9, ray 10, ray 15]
  else
    let mask := (List.range 4).foldl (fun m c => if boxHit node ray c then m + 2 ^ c else m) 0
    let v := nodeByte node 15
    let counts := nodeByte node 49 + 256 * nodeByte node 50
    [BitVec.ofNat 32 (mask + 16 * (v / 16) + 256 * (v % 16) + (if boxRev node ray then 4096 else 0) + 65536 * counts),
      nodeWord node 20, nodeWord node 16, ray 8, ray 9, ray 10, ray 15]

/-! RTSTEP (R247). -/

/-- What RTSTEP writes: ray words 8, 9, 10 and 15, and the leaf word. -/
structure StepOut where
  node : W32
  trailLo : W32
  trailHi : W32
  w15 : W32
  leaf : W32
  deriving DecidableEq, Repr

/-- The trail with position `p` at level `d`. -/
def setTrail (t d p : Nat) : Nat := if d ≥ 32 then t else t - 4 ^ d * (t / 4 ^ d % 4) + 4 ^ d * p

/-- Word 15 from depth, COUNT, FRESH, HIT and ACTION. -/
def rayW15 (depth count : Nat) (fresh hit : Bool) (action : Nat) : W32 :=
  BitVec.ofNat 32 (depth % 256 + 256 * action + (if hit then 1024 else 0) + (if fresh then 2048 else 0) + 4096 * count)

/-- RTSTEP on one lane (R247). A level beyond 31 lies outside the trail; ASCEND at depth 0 wraps the depth's 8 bits (log 117). -/
def rayStep (s : Nat → W32) : StepOut :=
  let w := (s 6).toNat
  let d := w % 256
  let t := (s 4).toNat + 2 ^ 32 * (s 5).toNat
  let hit := (s 6).getLsbD 10
  let sum := (s 0).toNat
  if w / 256 % 4 = 3 then { node := s 3, trailLo := s 4, trailHi := s 5, w15 := s 6, leaf := 0 }
  else
    let start := if (s 6).getLsbD 11 then 0 else (if d ≥ 32 then 0 else t / 4 ^ d % 4) + 1
    let child := fun (p : Nat) => if sum.testBit 12 then 3 - p else p
    let isLeaf := fun (c : Nat) => sum.testBit (4 + c)
    let count := fun (c : Nat) => sum / 2 ^ (16 + 4 * c) % 16
    let good := fun (p : Nat) => decide (start ≤ p) && sum.testBit (child p) && !(isLeaf (child p) && count (child p) == 0)
    let put := fun (n : W32) (t : Nat) (w15 : W32) (leaf : W32) =>
      ({ node := n, trailLo := BitVec.ofNat 32 t, trailHi := BitVec.ofNat 32 (t / 2 ^ 32), w15, leaf } : StepOut)
    match (List.range 4).find? good with
    | some p =>
      let c := child p
      if isLeaf c then
        put (s 3) (setTrail t d p) (rayW15 d (count c) false hit 1) (s 1 + BitVec.ofNat 32 (16 * c))
      else if d = 31 then put (s 3) t (rayW15 32 0 false hit 3) 0
      else put (s 1 + BitVec.ofNat 32 c) (setTrail t d p) (rayW15 (d + 1) 0 true hit 0) 0
    | none =>
      if s 2 = 0xFFFFFFFF then put (s 3) t (rayW15 d 0 false hit 3) 0
      else put (s 2) t (rayW15 (d + 255) 0 false hit 2) 0

/-! RTTRI (R249, R250). -/

/-- RN of a signed rational: `x / y`. An exact zero is +0, whatever the sign of `y` (log 118). -/
def rnQuot (x y : Int × Int) : W32 :=
  if x.1 = 0 then 0
  else BitVec.ofNat 32 (roundTo Fmt.f32 0 0 k32 ((x.1 < 0) != (y.1 < 0)) (.rat x.1.natAbs y.1.natAbs (x.2 - y.2))).1

/-- The edge from `p` to `q` is owned (R250). -/
def ownedEdge (p q : (Int × Int) × (Int × Int)) : Bool :=
  let dy := dySub q.2 p.2
  decide (dy.1 > 0) || (dy.1 == 0 && decide ((dySub q.1 p.1).1 < 0))

/-- The sign of an edge value after ownership, given σ. -/
def edgeSign (x : Int) (owned : Bool) (sigma : Int) : Int := if x ≠ 0 then x.sign else if owned then sigma else -sigma

/-- What the triangle test decides: a miss; a hit with t, u, v, where t is none if the spec does not state it; or nothing
that the spec states. -/
inductive TriOut where
  | miss
  | hit (t : Option W32) (u v : W32)
  | unstated
  deriving DecidableEq, Repr

/-- The triangle test on finite inputs (R250). -/
def triTest (recd : List Byte) (ray : Nat → W32) (cull : Nat) : TriOut :=
  let mag := fun (a : Nat) => (ray (3 + a)).toNat % 2 ^ 31
  let kz := if mag 0 ≥ mag 1 && mag 0 ≥ mag 2 then 0 else if mag 1 ≥ mag 2 then 1 else 2
  let k1 := (kz + 1) % 3
  let k2 := (k1 + 1) % 3
  let swap := (ray (3 + kz)).getLsbD 31
  let kx := if swap then k2 else k1
  let ky := if swap then k1 else k2
  let dz := (ray (3 + kz)).toNat
  let sx := (fpDiv Fmt.f32 0 0 (ray (3 + kx)).toNat dz).1
  let sy := (fpDiv Fmt.f32 0 0 (ray (3 + ky)).toNat dz).1
  let sz := (fpDiv Fmt.f32 0 0 0x3F800000 dz).1
  let neg := fun (x : Nat) => (BitVec.ofNat 32 x ^^^ 0x80000000).toNat
  let q := fun (v a : Nat) => (fpSub Fmt.f32 0 0 (nodeWord recd (12 * v + 4 * a)).toNat (ray a).toNat).1
  let px := fun (v : Nat) => Fmt.f32.decode (fpFma Fmt.f32 0 0 (neg sx) (q v kz) (q v kx)).1
  let py := fun (v : Nat) => Fmt.f32.decode (fpFma Fmt.f32 0 0 (neg sy) (q v kz) (q v ky)).1
  let pz := fun (v : Nat) => Fmt.f32.decode (fpMul Fmt.f32 0 0 sz (q v kz)).1
  let plane := (List.range 3).flatMap (fun v => [px v, py v])
  let flags := (nodeWord recd 44).toNat
  if flags % 2 = 1 then .miss
  else if !plane.all FVal.finite then .unstated
  else
    let x := fun v => (px v).dy
    let y := fun v => (py v).dy
    let z := fun v => (pz v).dy
    let cross := fun (i j : Nat) => dySub (dyMul (x i) (y j)) (dyMul (y i) (x j))
    let u := cross 2 1
    let v := cross 0 2
    let w := cross 1 0
    let own := fun (i j : Nat) => ownedEdge (x i, y i) (x j, y j)
    let sigma := if u.1 ≠ 0 then u.1.sign else if v.1 ≠ 0 then v.1.sign else w.1.sign
    let su := edgeSign u.1 (own 1 2) sigma
    let sv := edgeSign v.1 (own 2 0) sigma
    let sw := edgeSign w.1 (own 0 1) sigma
    let det := dySum (dySum u v) w
    let culled := flags / 2 % 2 == 0 && ((cull % 2 == 1 && decide (det.1 < 0)) || (cull / 2 % 2 == 1 && decide (det.1 > 0)))
    if sigma = 0 || su ≠ sv || sv ≠ sw || det.1 = 0 || culled then .miss
    else
      let t := dySum (dySum (dyMul u (z 0)) (dyMul v (z 1))) (dyMul w (z 2))
      .hit (if (List.range 3).all (fun i => (pz i).finite) then some (rnQuot t det) else none) (rnQuot v det) (rnQuot w det)

/-- Whether RTTRI's inputs are finite and the direction is not zero (R250). -/
def triInputs (recd : List Byte) (ray : Nat → W32) : Bool :=
  (List.range 6).all (fun i => (f32 (ray i)).finite) && (List.range 9).all (fun i => (f32 (nodeWord recd (4 * i))).finite) &&
    !((List.range 3).all (fun a => (f32 (ray (3 + a))).isZero))

/-- The five words of RTTRI (R249): where an intermediate that they need overflows, t, or t, u and v, are not stated; `open_`
stands for them (log 28). -/
def triWords (recd : List Byte) (ray : Nat → W32) (cull : Nat) (open_ : Nat → W32) : List W32 :=
  let tail := [nodeWord recd 36, nodeWord recd 40]
  let nan : List W32 := [0x7FC00000, 0, 0]
  if !triInputs recd ray then nan ++ tail
  else match triTest recd ray cull with
    | .miss => nan ++ tail
    | .hit t u v => [t.getD (open_ 0), u, v] ++ tail
    | .unstated => [open_ 0, open_ 1, open_ 2] ++ tail

/-! RTHIT (R251). -/

/-- Whether RTHIT accepts a candidate: t, tmin, tmax and the keys. -/
def hitAccepts (t tmin tmax : W32) (key cur : Nat) : Bool :=
  let c := cmpVals (f32 t) (f32 tmax)
  !(f32 t).isNan && !(f32 tmin).isNan && !(f32 tmax).isNan && (f32 tmin).le (f32 t) &&
    (c == .lt || (c == .eq && decide (key < cur)))

end Sys2Proof.Machine
end

