-- ==== Sys2Proof/Machine/Reservoir.lean ====
section
/-!
DEFINITION. Random draws and reservoir records in registers: RNG (11 R259, R261), RSVUPD (R264), RSVMRG (R265) and
RSVNRM (R266, R258).
-/

namespace Sys2Proof.Machine

/-- A reservoir record: its eight words (R256). -/
structure Rsv where
  ref0 : W32
  ref1 : W32
  phat : W32
  wsum : W32
  w : W32
  mf : W32
  ctr : W32
  key : W32
  deriving DecidableEq, Repr

namespace Rsv

/-- A record from eight words. -/
def ofWords (g : Nat → W32) : Rsv := ⟨g 0, g 1, g 2, g 3, g 4, g 5, g 6, g 7⟩

/-- The words of a record. -/
def words (r : Rsv) : List W32 := [r.ref0, r.ref1, r.phat, r.wsum, r.w, r.mf, r.ctr, r.key]

/-- M (R256). -/
def m (r : Rsv) : Nat := r.mf.toNat % 2 ^ 16

/-- NULL (R257). -/
def isNull (r : Rsv) : Bool := r.mf.getLsbD 16

/-- NORM (R257). -/
def isNorm (r : Rsv) : Bool := r.mf.getLsbD 17

/-- Word 5 from AGE, NORM, NULL and M; the reserved bits are written as zero (R257). -/
def setMf (r : Rsv) (norm null : Bool) (m : Nat) : Rsv :=
  { r with
    mf := (r.mf &&& 0xFF000000) ||| BitVec.ofNat 32 (m + (if null then 2 ^ 16 else 0) + (if norm then 2 ^ 17 else 0)) }

end Rsv

/-- A draw's selection value u24 (R259). -/
def u24 (key ctr : W32) : Nat := (mix key ctr).toNat / 2 ^ 8

/-- u24 · 2^−24 as F32, exact (R259). -/
def unitF32 (u : Nat) : W32 := BitVec.ofNat 32 (roundTo Fmt.f32 0 0 k32 false (.rat u 1 (-24))).1

/-- NaN, infinite or below −0 (R264). -/
def badWeight (x : W32) : Bool :=
  match Fmt.f32.decode x.toNat with
  | .nan _ | .inf _ => true
  | .fin n m _ => n && m != 0

/-- RN.F32 of a sum, product or quotient of F32 words. -/
def rnSum (a b : W32) : W32 × BitVec 5 :=
  let r := fpAdd Fmt.f32 0 0 a.toNat b.toNat
  (BitVec.ofNat 32 r.1, r.2)
def rnSub (a b : W32) : W32 × BitVec 5 :=
  let r := fpSub Fmt.f32 0 0 a.toNat b.toNat
  (BitVec.ofNat 32 r.1, r.2)
def rnMul (a b : W32) : W32 × BitVec 5 :=
  let r := fpMul Fmt.f32 0 0 a.toNat b.toNat
  (BitVec.ofNat 32 r.1, r.2)
def rnDiv (a b : W32) : W32 × BitVec 5 :=
  let r := fpDiv Fmt.f32 0 0 a.toNat b.toNat
  (BitVec.ofNat 32 r.1, r.2)

/-- A natural number below 2^24 as F32, exact. -/
def natF32 (n : Nat) : W32 := BitVec.ofNat 32 (roundTo Fmt.f32 0 0 k32 false (.rat n 1 0)).1

/-- u24 × s < w × 2^24, exactly (R259). -/
def selects (u : Nat) (s w : W32) : Bool :=
  match Fmt.f32.decode s.toNat, Fmt.f32.decode w.toNat with
  | .fin n m e, .fin n' m' e' => (dyAdd (sgn n (u * m)) e (-(sgn n' m')) (e' + 24)).1 < 0
  | _, _ => false

/-- Whether an F32 word is a number above zero. -/
def positive (x : W32) : Bool :=
  match Fmt.f32.decode x.toNat with
  | .fin n m _ => !n && m != 0
  | .inf n => !n
  | .nan _ => false

/-- +∞ and the largest finite F32. -/
def infF32 : W32 := 0x7F800000
def maxF32 : W32 := 0x7F7FFFFF

/-- Whether a candidate of weight `w` is selected (R259, R264). -/
def Rsv.takes (r : Rsv) (w : W32) : Bool :=
  let w := if w = 0x80000000 then 0 else w
  let sum := rnSum r.wsum w
  let s := if sum.1 = infF32 then maxF32 else sum.1
  let sv := Fmt.f32.decode s.toNat
  !(sv.isNan || sv == .inf true) && positive w && selects (u24 r.key r.ctr) s w

/-- Offer a candidate of weight `w` and target `p` that counts `dm` samples (R264): the draw, the sum, the selection. -/
def Rsv.offer (r : Rsv) (ref0 ref1 w p : W32) (dm cap : Nat) (fl : BitVec 5) : Rsv × BitVec 5 :=
  let w := if w = 0x80000000 then 0 else w
  let sum := rnSum r.wsum w
  let big := sum.1 == infF32
  let s := if big then maxF32 else sum.1
  let fl := fl ||| sum.2 ||| (if big then flagOverflow ||| flagInexact else 0)
  let sv := Fmt.f32.decode s.toNat
  let dead := sv.isNan || sv == .inf true
  let fl := if dead then fl ||| flagInvalid else fl
  let take := r.takes w
  let r1 := { r with
    wsum := s, ctr := r.ctr + 1
    ref0 := if take then ref0 else r.ref0
    ref1 := if take then ref1 else r.ref1
    phat := if take then p else r.phat }
  (r1.setMf false (r.isNull && !take) (min (min (r.m + dm) cap) 65535), fl)

/-- RSVUPD on one lane (R264). -/
def Rsv.update (r : Rsv) (ref0 ref1 w p : W32) (cap : Nat) : Rsv × BitVec 5 :=
  let bad := badWeight w || badWeight p
  r.offer ref0 ref1 (if bad then 0 else w) p 1 cap (if bad then flagInvalid else 0)

/-- The weight with which RSVMRG offers a source record (R265). -/
def mergeWeight (src : Rsv) (p : W32) : W32 × BitVec 5 :=
  if src.isNull then (0, 0)
  else if !src.isNorm || badWeight p || badWeight src.w then (0, flagInvalid)
  else
    let w1 := rnMul p src.w
    if w1.1 = infF32 then (0, w1.2 ||| flagOverflow ||| flagInvalid)
    else
      let w := rnMul w1.1 (natF32 src.m)
      if w.1 = infF32 then (0, w1.2 ||| w.2 ||| flagOverflow ||| flagInvalid) else (w.1, w1.2 ||| w.2)

/-- RSVMRG on one lane (R265). -/
def Rsv.mergeRec (r src : Rsv) (p : W32) (cap : Nat) : Rsv × BitVec 5 :=
  let w := mergeWeight src p
  r.offer src.ref0 src.ref1 w.1 p src.m cap w.2

/-- Whether an F32 word is ±0. -/
def zeroF32 (x : W32) : Bool := x &&& 0x7FFFFFFF == 0

/-- RSVNRM on one lane (R266, R258). -/
def Rsv.normalise (r : Rsv) : Rsv × BitVec 5 :=
  if r.isNull || zeroF32 r.wsum || zeroF32 r.phat || r.m == 0 then
    (({ r with
      ref0 := 0xFFFFFFFF, ref1 := 0xFFFFFFFF, phat := 0, w := 0 }).setMf true true r.m, 0)
  else
    let d := rnMul (natF32 r.m) r.phat
    let w := rnDiv r.wsum d.1
    let nan := (Fmt.f32.decode r.wsum.toNat).isNan || (Fmt.f32.decode r.phat.toNat).isNan
    (({ r with
      w := if nan then 0x7FC00000 else w.1 }).setMf true false r.m,
      d.2 ||| w.2 ||| (if nan then flagInvalid else 0))

/-- The record in a lane of eight registers. -/
def recordAt (r : Regs) (d l : Nat) : Rsv := Rsv.ofWords (fun i => (r.v (d + i)).lane l)

/-- The result of an instruction that rewrites the record in D: U only where every source is U (R407). -/
def rsvOut (x : VIn) (srcs : List VReg) (g : Nat → Rsv × BitVec 5) : VOut :=
  let rec_ := (List.range 8).map (fun i => x.r.v (x.d + i))
  let lane := fun l => if x.act.getLsbD l || (rec_ ++ srcs).all VReg.uniform then some (g l) else none
  let cols := (List.range 32).map lane
  let word := fun (i l : Nat) => match cols.getD l none with
    | some y => y.1.words.getD i 0
    | none => 0
  { v := (List.range 8).map (fun i => (x.d + i, perLane (rec_ ++ srcs) (word i)))
    flags := laneFlags x.act (fun l => match cols.getD l none with
      | some y => y.2
      | none => 0) }

/-- Mcap (R262). -/
def mcapOf (f : Fields) : Nat := f.imm24 % 2 ^ 16

/-- RSVUPD (R264). -/
def rsvupdOut (x : VIn) : VOut :=
  let c := fun i => x.r.v (x.f.a.toNat + i)
  rsvOut x ((List.range 4).map c) (fun l =>
    (recordAt x.r x.d l).update ((c 0).lane l) ((c 1).lane l) ((c 2).lane l) ((c 3).lane l) (mcapOf x.f))

/-- RSVMRG (R265). -/
def rsvmrgOut (x : VIn) : VOut :=
  let c := fun i => x.r.v (x.f.a.toNat + i)
  rsvOut x (x.b :: (List.range 8).map c) (fun l =>
    (recordAt x.r x.d l).mergeRec (recordAt x.r x.f.a.toNat l) (x.b.lane l) (mcapOf x.f))

/-- RSVNRM (R266). -/
def rsvnrmOut (x : VIn) : VOut := rsvOut x [] (fun l => (recordAt x.r x.d l).normalise)

/-- A counter register one further; it keeps its shape (R261). -/
def VReg.bump : VReg → VReg
  | .dead => .uni 1
  | .uni v => .uni (v + 1)
  | .aff b st => .aff (b + 1) st
  | .gen ls => .gen (ls.map (· + 1))

/-- RNG and RNG.U (R261). -/
def rngOut (x : VIn) : VOut :=
  let c := x.a
  let key := x.r.v (x.f.a.toNat + 1)
  let draw := fun l =>
    if x.f.mb 0 then unitF32 (u24 (key.lane l) (c.lane l)) else mix (key.lane l) (c.lane l)
  { v := [(x.d, perLane [c, key] draw), (x.f.a.toNat, c.bump)] }

/-- A record instruction reads its record group too (R262). -/
def rsvMeaning (i : Fields → Instr) (g : VIn → VOut) : Meaning :=
  { vecMeaning i 10 g with
    reads := fun _ p => (List.range 8).map (fun j => Reg.v (p.f.d.toNat + j)) ++
      specReads (specOf .band (i p.f)) p.f }

def execRng (f : Fields) (s : State) : Host.Outcome State Fault Refusal := perform (.rng f) (vecMeaning .rng 8 rngOut) s
def execRngU (f : Fields) (s : State) : Host.Outcome State Fault Refusal :=
  perform (.rngU f) (vecMeaning .rngU 8 rngOut) s
def execRsvupd (f : Fields) (s : State) : Host.Outcome State Fault Refusal :=
  perform (.rsvupd f) (rsvMeaning .rsvupd rsvupdOut) s
def execRsvmrg (f : Fields) (s : State) : Host.Outcome State Fault Refusal :=
  perform (.rsvmrg f) (rsvMeaning .rsvmrg rsvmrgOut) s
def execRsvnrm (f : Fields) (s : State) : Host.Outcome State Fault Refusal :=
  perform (.rsvnrm f) (rsvMeaning .rsvnrm rsvnrmOut) s

end Sys2Proof.Machine
end

