-- ==== Sys2Proof/Machine/Lights.lean ====
section
/-!
DEFINITION. The arithmetic of light trees (11 R268, R269): the step of a walker over a node and its children.
-/

namespace Sys2Proof.Machine

/-- The walker and the position of a lane. -/
structure Walker where
  node : W32
  pdf : W32
  ctr : W32
  key : W32
  light : W32
  x : W32
  y : W32
  z : W32
  deriving DecidableEq, Repr

/-- The words of a walker, and the walker of words. -/
def Walker.words (q : Walker) : List W32 := [q.node, q.pdf, q.ctr, q.key, q.light, q.x, q.y, q.z]
def Walker.ofWords (w : List W32) : Walker :=
  ⟨w.getD 0 0, w.getD 1 0, w.getD 2 0, w.getD 3 0, w.getD 4 0, w.getD 5 0, w.getD 6 0, w.getD 7 0⟩

/-- A light-tree node (R268). -/
structure LightNode where
  x : W32
  y : W32
  z : W32
  radius : W32
  power : W32
  index : W32
  leaf : Bool
  deriving DecidableEq, Repr

/-- A node from its bytes (R268). -/
def lightNode (bs : List Byte) : LightNode :=
  let w := fun (i : Nat) => nodeWord bs (4 * i)
  ⟨w 0, w 1, w 2, w 3, w 4, w 5, (w 6).getLsbD 0⟩

/-- The importance of a child and its flags (R269). -/
def importance (c : LightNode) (q : Walker) : W32 × BitVec 5 :=
  let dx := rnSub c.x q.x
  let dy := rnSub c.y q.y
  let dz := rnSub c.z q.z
  let xx := rnMul dx.1 dx.1
  let yy := rnMul dy.1 dy.1
  let zz := rnMul dz.1 dz.1
  let xy := rnSum xx.1 yy.1
  let d2 := rnSum xy.1 zz.1
  let r2 := rnMul c.radius c.radius
  let fl := dx.2 ||| dy.2 ||| dz.2 ||| xx.2 ||| yy.2 ||| zz.2 ||| xy.2 ||| d2.2 ||| r2.2
  let nan := [c.x, c.y, c.z, q.x, q.y, q.z, dx.1, dy.1, dz.1, xx.1, yy.1, zz.1, xy.1, d2.1, r2.1, c.power, c.radius].any
    (fun w => (f32 w).isNan)
  let bad := nan || badWeight c.power || !(f32 c.radius).finite
  if bad then (0, fl ||| flagInvalid)
  else
    let m := if (f32 d2.1).le (f32 r2.1) then r2.1 else d2.1
    if zeroF32 m then (if positive c.power then maxF32 else 0, fl)
    else
      let i := rnDiv c.power m
      (if i.1 = infF32 then maxF32 else i.1, fl ||| i.2)

/-- The choice between two children (R269): the walker and the flags. -/
def walkChoose (q : Walker) (base : W32) (l r : LightNode) : Walker × BitVec 5 :=
  let il := importance l q
  let ir := importance r q
  let u := u24 (q.key ^^^ 0x80000000) q.ctr
  let t := dySum (f32 il.1).dy (f32 ir.1).dy
  let left := if t.1 = 0 then decide (u < 2 ^ 23)
    else (dySub ((u : Int) * t.1, t.2) (dyMul (f32 il.1).dy (1, 24))).1 < 0
  let chosen := if left then il.1 else ir.1
  let quot := roundTo Fmt.f32 0 0 k32 false
    (.rat (f32 chosen).dy.1.natAbs t.1.natAbs ((f32 chosen).dy.2 - t.2))
  let qv : W32 × BitVec 5 := if t.1 = 0 then (0x3F000000, 0) else (BitVec.ofNat 32 quot.1, quot.2)
  let pdf := rnMul q.pdf qv.1
  let c := if left then l else r
  ({ q with
    node := if left then base else base + 1
    pdf := pdf.1
    ctr := q.ctr + 1
    light := if c.leaf then c.index else q.light }, il.2 ||| ir.2 ||| qv.2 ||| pdf.2)

/-- The step of a walker whose node and pair of children have been read (R269): a walk that has ended stays. -/
def walkStep (q : Walker) (node pair : List Byte) : Walker × BitVec 5 :=
  let n := lightNode node
  if q.light ≠ 0xFFFFFFFF then (q, 0)
  else if n.leaf then ({ q with light := n.index }, 0)
  else walkChoose q n.index (lightNode pair) (lightNode (pair.drop 32))

/-- The address of a light-tree node. -/
def lightAddr (base : W64) (i : W32) : W64 := base + 32 * i.zeroExtend 64

/-- The walker of a lane. -/
def walkerOf (r : Regs) (f : Fields) (l : Nat) : Walker :=
  let w := fun (i : Nat) => (r.v (f.d.toNat + i)).lane l
  let q := fun (i : Nat) => (r.v (f.a.toNat + i)).lane l
  ⟨w 0, w 1, w 2, w 3, w 4, q 0, q 1, q 2⟩

/-- Whether every source of LTWALK is U. -/
def walkUniform (r : Regs) (f : Fields) : Bool :=
  (List.range 5).all (fun i => (r.v (f.d.toNat + i)).uniform) && (List.range 3).all (fun i => (r.v (f.a.toNat + i)).uniform)

end Sys2Proof.Machine
end

