-- ==== Sys2Proof/Machine/Monitors.lean ====
section
/-!
DEFINITION. The monitors (14 R322) and the value that a MONITOR selection names (R323).
-/

namespace Sys2Proof.Machine

/-- The bin of a sample (R322). -/
def monitorBin (v : Nat) : Nat := if v = 0 then 0 else min 15 v.log2

/-- Take a sample; counts and bins saturate (R322). -/
def Monitor.sample (m : Monitor) (v : Nat) : Monitor :=
  let v := min v 0xFFFFFFFF
  let b := monitorBin v
  { least := if m.count = 0 then v else min m.least v
    greatest := max m.greatest v
    count := min 0xFFFFFFFF (m.count + 1)
    bins := m.bins.put b (min 0xFFFF (m.bins.get b 0 + 1)) }

/-- Sample a quantity of a core. -/
def Prog.sampleCore (core q v : Nat) : Prog :=
  .core core (fun c => { c with monitors := c.monitors.put q ((c.monitors.get q {}).sample v) })

/-- Sample a quantity of a die. -/
def Prog.sampleDie (die q v : Nat) : Prog :=
  .upd (fun s => { s with
    dieMonitors := s.dieMonitors.put (8 * die + q) ((s.dieMonitors.get (8 * die + q) {}).sample v) })

/-- The value of a field of a monitor (R323). -/
def Monitor.field (m : Monitor) (n : Nat) : W64 :=
  if n = 0 then BitVec.ofNat 64 m.least
  else if n = 1 then BitVec.ofNat 64 m.greatest
  else if n = 2 then BitVec.ofNat 64 m.count
  else if n = 3 then 0
  else
    let j := n - 4
    BitVec.ofNat 64 ((List.range 4).foldl (fun acc i => acc + 2 ^ (16 * i) * m.bins.get (4 * j + i) 0) 0)

/-- The monitor value of a selection, for an agent's core (R323). -/
def State.monSel (s : State) (k : Nat) (sel : BitVec 6) : W64 :=
  let q := sel.toNat / 8
  let m := if q = 2 || q = 4 then s.dieMonitors.get (8 * dieOf k + q) {} else (s.core (coreOf k)).monitors.get q {}
  if q = 7 then 0 else m.field (sel.toNat % 8)

end Sys2Proof.Machine
end

