-- ==== Sys2Proof/Machine/SaveArea.lean ====
section
/-!
DEFINITION. The save area of a pre-empted crew (13 R305): its header, its records, the saved engine commands, the register
block images (04 R100) and the scratchpad image. The agents of a saved crew stand beside it (log 46): a result that
returns to one of them is written into the area at once (13 R304).
-/

namespace Sys2Proof.Machine

/-- Whether a key is that of an agent of a saved crew. -/
def isSaved (k : Nat) : Bool := decide (2 ^ 24 ≤ k)

/-- The key under which an agent stands while its crew is saved. -/
def savedKey (n k : Nat) : Nat := n * 2 ^ 24 + k

/-- Bytes up to a length. -/
def padTo (n : Nat) (bs : List Byte) : List Byte := bs ++ List.replicate (n - bs.length) 0

/-- A length rounded up to 128 B. -/
def up128 (n : Nat) : Nat := (n + 127) / 128 * 128

/-! Register block images (R100). -/

/-- The code of a shape tag (R85, R100). -/
def VReg.tag : VReg → Nat
  | .dead => 0
  | .uni _ => 1
  | .aff _ _ => 2
  | .gen _ => 3

/-- The compact word of a U or A register. -/
def VReg.compact : VReg → List Byte
  | .uni v => leBytes 8 v.toNat
  | .aff b st => leBytes 4 b.toNat ++ leBytes 4 st.toNat
  | _ => []

/-- The general slot of a G register. -/
def VReg.slotBytes : VReg → List Byte
  | .gen ls => (List.range 32).flatMap (fun l => leBytes 4 ((ls.getD l 0).toNat))
  | _ => []

/-- The image of a band's V-registers (R100). -/
def imageBytes (a : Agent) : List Byte :=
  let rs := (List.range a.n).map (fun i => a.v.get i .dead)
  let g := (rs.filter (fun r => r.tag == 3)).length
  let c := (rs.filter (fun r => r.tag == 1 || r.tag == 2)).length
  let tags := ((List.range rs.length).zip rs).foldl (fun n e => n + e.2.tag * 4 ^ e.1) 0
  leBytes 2 1 ++ leBytes 1 a.n ++ leBytes 1 a.g ++ leBytes 1 g ++ leBytes 1 c ++ leBytes 2 0 ++
    leBytes 4 (96 + 8 * c + 128 * g) ++ List.replicate 52 0 ++ leBytes 32 tags ++ rs.flatMap VReg.compact ++ rs.flatMap VReg.slotBytes

/-- What is left to read of an image: its compact words, its general slots. -/
structure ImageRest where
  words : List Byte
  slots : List Byte
  regs : Tbl VReg
  deriving DecidableEq, Repr

/-- The V-registers of an image (R100): every tag and value. -/
def imageRegs (b : List Byte) : Tbl VReg :=
  let tags := leNat ((b.drop 64).take 32)
  let c := leNat ((b.drop 5).take 1)
  let num := fun (o : Nat) (bs : List Byte) => BitVec.ofNat 32 (leNat ((bs.drop o).take 4))
  ((List.range 126).foldl (fun (x : ImageRest) i => match tags / 4 ^ i % 4 with
    | 1 => { x with words := x.words.drop 8, regs := x.regs.put i (.uni (num 0 x.words)) }
    | 2 => { x with words := x.words.drop 8, regs := x.regs.put i (.aff (num 0 x.words) (num 4 x.words)) }
    | 3 => { x with
        slots := x.slots.drop 128
        regs := x.regs.put i (.gen ((List.range 32).map (fun l => num (4 * l) x.slots))) }
    | _ => x) { words := (b.drop 96).take (8 * c), slots := b.drop (96 + 8 * c), regs := [] }).regs

/-! Records (R305). -/

/-- The mask of an agent's parked threads. -/
def Agent.parkedMask (a : Agent) : W32 :=
  a.stMask (fun t => match t with
    | .parked .. => true
    | _ => false)

/-- S1 to S63. -/
def scalarBytes (a : Agent) : List Byte := (List.range 63).flatMap (fun i => leBytes 8 (a.s.get (i + 1) 0).toNat)

/-- A band record (R305). -/
def bandRecord (a : Agent) : List Byte :=
  padTo 1024
    ((List.range 32).flatMap (fun l => leBytes 8 (a.thread l).restart.toNat) ++ leBytes 4 (~~~a.liveMask).toNat ++
      leBytes 4 a.parkedMask.toNat ++ leBytes 4 a.hmask.toNat ++ leBytes 4 a.tcode.toNat ++ leBytes 8 a.tpc.toNat ++
      leBytes 8 a.taddr.toNat ++ leBytes 4 a.flags.toNat ++ leBytes 4 a.status.toNat ++ leBytes 4 a.seed.toNat ++
      leBytes 4 (a.check.toNat + 2 * a.det.toNat + 256 * a.monitor.toNat) ++
      (List.range 7).flatMap (fun i => leBytes 4 (a.p.get i 0).toNat) ++ leBytes 4 0 ++ scalarBytes a)

/-- A control-context record (R305). -/
def ctlRecord (a : Agent) : List Byte :=
  let exited := a.liveMask == 0
  let preds := (List.range 7).foldl (fun n i => n + (if (a.p.get i 0).getLsbD 0 then 2 ^ i else 0)) 0
  padTo 1024
    (leBytes 8 (a.thread 0).restart.toNat ++
      leBytes 1 (exited.toNat + 2 * (a.hmask != 0).toNat + 4 * (a.parkedMask != 0).toNat) ++ leBytes 1 preds ++
      leBytes 1 a.mqprio ++ leBytes 1 (a.bound.getD 0xFF) ++ leBytes 4 0 ++ leBytes 4 a.tcode.toNat ++ leBytes 4 0 ++
      leBytes 8 a.tpc.toNat ++ leBytes 8 a.taddr.toNat ++ leBytes 4 a.flags.toNat ++ leBytes 4 a.status.toNat ++
      leBytes 16 0 ++ scalarBytes a)

/-- The fields that a record of either kind gives back to an agent: all but its threads. -/
def Agent.withRecord (a : Agent) (tcode tpc taddr flags status : Nat) (ss : List Byte) (p : Tbl W32) : Agent :=
  { a with
    tcode := BitVec.ofNat 8 tcode
    tpc := BitVec.ofNat 64 tpc
    taddr := BitVec.ofNat 64 taddr
    flags := BitVec.ofNat 5 flags
    reason := BitVec.ofNat 8 status
    nullcall := status / 2 ^ 8 % 2 == 1
    det := status / 2 ^ 9 % 2 == 1
    check := status / 2 ^ 10 % 2 == 1
    s := (List.range 63).map (fun i => (i + 1, BitVec.ofNat 64 (leNat ((ss.drop (8 * i)).take 8))))
    p }

/-- A thread as a record gives it back (R306): exited, or READY at its restart point. -/
def Thread.restored (t : Thread) (exited : Bool) (restart : W64) : Thread :=
  if exited then { t with restart, st := .exited } else { pc := restart, restart, st := .ready }

/-- A band as its record and its image give it back (R306). -/
def restoredBand (a : Agent) (rec img : List Byte) : Agent :=
  let n := fun (o k : Nat) => leNat ((rec.drop o).take k)
  let exited := BitVec.ofNat 32 (n 256 4)
  let m := n 300 4
  let b := a.withRecord (n 268 4) (n 272 8) (n 280 8) (n 288 4) (n 292 4) (rec.drop 336)
    ((List.range 7).map (fun i => (i, BitVec.ofNat 32 (n (304 + 4 * i) 4))))
  { b with
    threads := (List.range 32).map (fun l =>
      (l, (a.thread l).restored (exited.getLsbD l) (BitVec.ofNat 64 (n (8 * l) 8))))
    hmask := BitVec.ofNat 32 (n 264 4)
    seed := BitVec.ofNat 32 (n 296 4)
    check := m % 2 == 1
    det := m / 2 % 2 == 1
    monitor := BitVec.ofNat 6 (m / 256)
    v := imageRegs img }

/-- A control context as its record gives it back (R306). -/
def restoredCtl (a : Agent) (rec : List Byte) : Agent :=
  let n := fun (o k : Nat) => leNat ((rec.drop o).take k)
  let b := a.withRecord (n 16 4) (n 24 8) (n 32 8) (n 40 4) (n 44 4) (rec.drop 64)
    ((List.range 7).map (fun i => (i, BitVec.ofNat 32 (n 9 1 / 2 ^ i % 2))))
  { b with
    threads := a.threads.map (fun e =>
      (e.1, e.2.restored (n 8 1 % 2 == 1) (BitVec.ofNat 64 (n 0 8))))
    hmask := BitVec.ofNat 32 (n 8 1 / 2 % 2)
    mqprio := n 10 1
    bound := if n 11 1 = 0xFF then none else some (n 11 1) }

/-! Saved engine commands (R305). -/

/-- The instruction of a command. -/
def Cmd.instr (c : Cmd) : Instr :=
  match c.kind with
  | .copy => .copy c.f
  | .ccopy => .ccopy c.f
  | .halo => .halo c.f
  | .resample => .resample c.f
  | .mwload => .mwload c.f
  | .mmul => .mmul c.f
  | .mdrain => .mdrain c.f
  | .mzero auto => if auto then .mzeroAuto c.f else .mzero c.f

/-- The 128 bytes of a saved command (R305). -/
def Cmd.bytes (c : Cmd) : List Byte :=
  padTo 128 (padTo 112 (padTo 16 (encode c.instr) ++ (c.regs.take 12).flatMap (fun w => leBytes 8 w.toNat)) ++ leBytes 8 c.done)

/-! The area. -/

/-- The crew header (R305). -/
def crewHeader (c : Crew) (key : Nat) : List Byte :=
  let t := match c.task with
    | some t => BitVec.ofNat 64 (t.kind + 2 ^ 16 * t.scope) :: t.payload ++ [t.seq]
    | none => [0, 0, 0, 0, 0, 0]
  padTo 256
    (leBytes 2 1 ++ leBytes 1 c.bands.length ++ leBytes 1 (unitOf key - 64) ++ leBytes 2 (c.core % 128) ++
      leBytes 2 c.cmds.length ++ leBytes 4 c.scratchSize ++
      leBytes 1 (c.task.isSome.toNat + 2 * c.droppedTask.toNat + 4 * c.reclaimed.toNat) ++ leBytes 3 0 ++
      t.flatMap (fun w => leBytes 8 w.toNat))

/-- What stands before the tile entries: the header and the records. -/
def State.areaHead (s : State) (c : Crew) (key : Nat) : List Byte :=
  crewHeader c key ++ ctlRecord (s.agent key) ++ c.bands.flatMap (fun k => bandRecord (s.agent k))

/-- What stands between the tile entries and the scratchpad image. -/
def State.areaTail (s : State) (c : Crew) : List Byte :=
  c.cmds.flatMap Cmd.bytes ++
    c.bands.flatMap (fun k =>
      let b := imageBytes (s.agent k)
      padTo (up128 b.length) b)

/-- The tile entries T0 to T63 of a crew (R305). -/
def State.areaTiles (s : State) (c : Crew) : List Byte :=
  (List.range 64).flatMap (fun t => leBytes 16 (match c.tiles.find t with
    | some i => ((s.core c.core).tiles.get i 0).toNat
    | none => 0))

/-- The bytes that a crew's save area takes (R305). -/
def State.areaSize (s : State) (c : Crew) : Nat := 2304 + 1024 * c.bands.length + (s.areaTail c).length + c.scratchSize

/-- Move bytes within memory, poisoned sectors with them. -/
def Prog.moveBytes (src dst n : Nat) : Prog :=
  .look fun s =>
    let bad := (s.poison.filter (fun x => decide (src ≤ 32 * x) && decide (32 * x < src + n))).map (fun x => (32 * x - src + dst) / 32)
    if n = 0 then .skip
    else .seq (.bytes dst (s.readBytes src n))
      (.upd (fun s => { s with
        poison := bad ++ s.poison.filter (fun x => !(decide (dst ≤ 32 * x) && decide (32 * x < dst + n))) }))

/-- Write a saved crew's area again, where a result has come back to one of its agents, or its task or commands have been
dropped (R304, 03 R75, 21 R382). -/
def Prog.saveAgain (key : Nat) : Prog :=
  .look fun s =>
    match s.crew? key with
    | none => .skip
    | some c =>
      match c.saved with
      | none => .skip
      | some area =>
        let at_ := area + 2304 + 1024 * c.bands.length
        let tail := s.areaTail c
        let pad := at_ + tail.length
        .all [
          .when (pad != c.padImage) (.moveBytes c.padImage pad c.scratchSize),
          .bytes area (s.areaHead c key),
          .bytes at_ tail,
          .crew key (fun c => { c with padImage := pad })]

/-- Write the area of an agent's crew again, where the crew is saved. -/
def Prog.lateResult (k : Nat) : Prog := if isSaved k then .look fun s => .saveAgain (s.agent k).crew else .skip

end Sys2Proof.Machine
end

