-- ==== Sys2Proof/Machine/Complete.lean ====
section
/-!
DEFINITION. The end of operations in flight: writing replies to registers (04 R87, R91), the settlement of threads that
waited at their instruction (13 R303, R311, 20 R354), the release of tokens, and the conditions of fences (08 R189).
-/

namespace Sys2Proof.Machine

/-- Write what the lanes of one request store, at one instant: of bytes written by several lanes the later part's
stand, and poison is treated by the whole request: bytes of a poisoned sector that it covers in part are discarded, and logged (R320,
R420). -/
def Prog.storeParts (ps : List (Nat × List Byte)) : Prog :=
  .look fun s =>
    if s.poison.isEmpty then .each ps (fun e => .bytes e.1 e.2)
    else
      let cells := ps.flatMap (fun e => ((List.range e.2.length).map (fun i => e.1 + i)).zip e.2)
      let full := fun (sec : Nat) => (List.range 32).all (fun i => cells.any (fun c => c.1 == 32 * sec + i))
      let bad := fun (a : Nat) => s.poison.contains (a / 32) && !full (a / 32)
      .all [
        .each cells (fun c => .when (!bad c.1) (.bytes c.1 [c.2])),
        .logDiscards ((cells.filter (fun c => bad c.1)).map (fun c => c.1 / 32)),
        .upd (fun s => { s with poison := s.poison.filter (fun sec => !full sec) })]

/-- The bytes that replies hold for a lane, piece by piece. -/
def laneBytes (rs : List Req) (l : Nat) : List Byte :=
  let ps := (rs.flatMap Req.filled).filter (fun e => e.1.lane == l)
  (List.range 4).flatMap (fun i => (ps.filter (fun e => e.1.piece == i)).flatMap Prod.snd)

/-- Write the lanes of a reply of a load or an atomic (R91, R341, R384, R413). -/
def State.writeReply (s : State) (o : Op) (r : Req) (a : Agent) : Agent :=
  let act := partLanes r.parts
  match o.kind with
  | .load d size =>
    (List.range (sizeRegs size)).foldl (fun a i =>
      s.lateV (d + i) (.ofLanes (fun l => replyWord r l (fun bs => (loadWords size bs).getD i 0))) act false
        (o.clash.contains (.v (d + i))) a) a
  | .sload d size => s.lateS d (sloadWord size (r.got.flatten)) (o.clash.contains (.s d)) a
  | .atomic d op =>
    let old := fun l => replyWord r l (fun bs => BitVec.ofNat 32 (leNat bs))
    let flags := r.filled.foldl (fun acc e =>
      acc ||| (atomNew op (BitVec.ofNat 32 (leNat e.2)) (BitVec.ofNat 32 (leNat e.1.data)) e.1.cmp).2) (0#5)
    (s.lateV d (.ofLanes old) act false (o.clash.contains (.v d)) a).addFlags flags
  | _ => a

/-- The lanes of an operation whose accesses failed (R303, R311): all its threads where it has one access. -/
def failedLanes (o : Op) (rs : List Req) : W32 :=
  match o.kind with
  | .sload _ _ | .peek true => if rs.any Req.failed then o.held else 0
  | _ => partLanes ((rs.filter Req.failed).flatMap Req.parts)

/-- The trap of a failed request (R170, R298, R303, R311). -/
def failCode (r : Req) : Nat :=
  if r.bad then 0x0A else if r.place = .host then 0x09 else if r.timeout then 0x0C else 0x0B

/-- The lowest failed part of an operation, with its trap code. -/
def firstFailed (rs : List Req) : Option (Nat × W64) :=
  let ps := (rs.filter Req.failed).flatMap (fun r => r.parts.map (fun p => (p, failCode r)))
  let low := ps.foldl (fun (acc : Option (Part × Nat)) e => match acc with
    | some x => if e.1.lane < x.1.lane then some e else acc
    | none => some e) none
  low.map (fun e => (e.2, e.1.va))

/-- Write V results of one word for each lane: U where every source is U (R86). -/
def State.writeWords (s : State) (o : Op) (d n : Nat) (act : W32) (uniform covers : Bool) (g : Nat → List W32) (a : Agent) :
    Agent :=
  let low := (lowest act (fun _ => true)).getD 0
  (List.range n).foldl (fun a i =>
    let x := if uniform then VReg.uni ((g low).getD i 0) else .ofLanes (fun l => (g l).getD i 0)
    s.lateV (d + i) x act covers (o.clash.contains (.v (d + i))) a) a

/-- The ray words that an operation read for a lane. -/
def rayOf (rays : List (List W32)) (l i : Nat) : W32 := (rays.getD l []).getD i 0

/-- The results that an operation writes once its last reply has arrived: none where its threads have gone on and a line that
it was to read is poisoned (R170). -/
def State.lastResults (s : State) (o : Op) (rs : List Req) (good : W32) (a : Agent) : Agent :=
  if o.held = 0 && rs.any Req.failed then a
  else match o.kind with
  | .rtbox d rays uniform =>
    s.writeWords o d 7 good uniform (o.covers && good == o.lanes)
      (fun l => boxWords (laneBytes rs l) (rayOf rays l) (s.freeWord 5000 l)) a
  | .rttri d cull rays uniform =>
    s.writeWords o d 5 good uniform (o.covers && good == o.lanes)
      (fun l => triWords (laneBytes rs l) (rayOf rays l) cull (fun i => s.freeWord (5001 + i) l)) a
  | .walk d src nodes uniform =>
    let out := fun (l : Nat) => walkStep (.ofWords (src.getD l [])) (nodes.getD l []) (laneBytes rs l)
    (s.writeWords o d 5 good uniform (o.covers && good == o.lanes) (fun l => (out l).1.words) a).addFlags
      (laneFlags good (fun l => (out l).2))
  | _ => (rs.filter (fun r => !r.failed)).foldl (fun a r => s.writeReply o r a) a

/-- The code address that a lane's record holds (R255). -/
def recordOf (rs : List Req) (l : Nat) : W64 := BitVec.ofNat 64 (leNat (laneBytes rs l))

/-- CALLT once its records are read (R354): links, targets and skips. -/
def Op.calltDone (o : Op) (rs : List Req) (good calling skipping : W32) (d : Nat) (a : Agent) : Agent :=
  let ret := o.pc + 8
  let calls := calling &&& good
  let skips := skipping ||| (calls &&& maskOf (fun l => recordOf rs l == 0))
  let act := (calling ||| skipping) &&& good
  let a := if a.kind = .band then
      let put := fun (n : Nat) (w : W32) (a : Agent) =>
        a.putV n ((a.rawV n).merge (.uni w) act (o.covers && good == o.held))
      put (d + 1) (ret.extractLsb' 32 32) (put d (ret.extractLsb' 0 32) a)
    else a.putS d ret
  let a := a.mapThreads good (fun l t => { t with
    st := .ready
    pc := if (calls &&& ~~~skips).getLsbD l then recordOf rs l else ret })
  { a with nullcall := a.nullcall || skips &&& good != 0 }

/-- Whether an agent's crew has been pre-empted: it is saved, or has stopped and waits for its engines (13 R304). -/
def State.away (s : State) (k : Nat) : Bool := isSaved k || (s.crewOf k).any (fun c => c.stopping.isSome)

/-- The bytes of the instruction of an operation. -/
def Op.len (o : Op) : W64 := o.next - o.pc

/-- The threads that waited at an instruction go on, or trap (R303, R311, R354). A failure that reaches a pre-empted crew is
discarded, and its threads re-issue the access (13 R308); a timeout is delivered to the saved frame (log 47). -/
def Prog.settleHeld (o : Op) (rs : List Req) : Prog :=
  let failed := failedLanes o rs &&& o.held
  let good := o.held &&& ~~~failed
  let trap := fun (m : W32) (code : Nat) (ta : W64) =>
    .look fun s => if s.away o.agent && code != 0x0C then .skip else Prog.trap o.agent m code o.pc o.len ta
  let misfit := match o.kind with
    | .callt _ calling _ => (lanesOf (calling &&& good)).any (fun l => (recordOf rs l).toNat % 4 != 0)
    | _ => false
  if misfit then .seq (.agent o.agent (fun a => a.mapThreads o.held (fun _ t => { t with st := .ready })))
    (trap o.held 0x02 o.pc)
  else
    .all [
      .agent o.agent (fun a => match o.kind with
        | .callt d calling skipping => o.calltDone rs good calling skipping d a
        | .peek _ =>
          let a := a.mapThreads good (fun _ t => { t with st := .ready })
          { a with peeked := (rs.flatMap Req.filled).map (fun e => (e.1.lane, e.1.va, e.2)) ++ a.peeked }
        | _ => a.mapThreads good (fun _ t => { t with
            st := .ready, pc := o.next, restart := if o.commit then o.next else t.restart })),
      .when (failed == 0) (.agent o.agent (fun a => o.lu.foldl (fun a n => a.putV n .dead) a)),
      match firstFailed rs with
      | some (code, va) =>
        .seq (.agent o.agent (fun a => { a.mapThreads failed (fun _ t => { t with st := .ready }) with
          peeked := a.peeked.filter (fun e => !failed.getLsbD e.1) })) (trap failed code va)
      | none => .skip]

/-- The threads of an agent wait at no instruction any more: what they waited for comes without effect, and releases its
token. -/
def Prog.unwait (k : Nat) : Prog :=
  .look fun s => .when ((s.agent k).stMask (· == .waiting) != 0) (.seq
    (.agent k (fun a => { (match a.taskWait with
      | some w => a.untok w.tok s.t
      | none => a) with taskWait := none }))
    (.upd (fun s => { s with
      ops := s.ops.map (fun o => if o.agent = k && o.held != 0 then { o with held := 0, kind := .values [] [] 0 } else o) })))

/-- The threads of an operation's packet, which have gone on, trap at its instruction (R170, R300): they stand there again, but
after a commit instruction, whose accesses to other lines may have performed (log 86). -/
def Prog.trapBack (o : Op) (code : Nat) (taddr : W64) : Prog :=
  .look fun s =>
    let m := o.pkt &&& (s.agent o.agent).liveMask
    .when (m != 0 && !s.away o.agent) (.all [
      .unwait o.agent,
      .when (!o.commit) (.agent o.agent (fun a => a.mapThreads m (fun _ t => { t with pc := o.pc }))),
      .trap o.agent m code o.pc o.len taddr])

/-- The trap of an operation whose threads have gone on, where a line that it read was found poisoned (R170). -/
def Prog.trapLate (o : Op) (rs : List Req) : Prog :=
  match firstFailed rs with
  | some (code, va) => .trapBack o code va
  | none => .skip

/-- Whether an operation still waits for a request: a store or atomic request counts for a store until it has its V. -/
def Req.awaited (r : Req) : Bool :=
  if r.access = .store then r.unserved else r.stage != .answered

/-- An operation with no request left to wait for ends: its last results are written, its threads settle, its token is
released (R91). -/
def Prog.finishOp (id : Nat) : Prog :=
  .look fun s =>
    match s.op? id with
    | none => .skip
    | some o =>
      let rs := s.reqs.filter (fun r => r.op == id)
      if rs.any Req.awaited then .skip
      else
        let good := o.lanes &&& ~~~failedLanes o rs
        .all [
          .upd (fun s => { s with
            ops := s.ops.filter (fun x => x.id != id)
            reqs := s.reqs.filter (fun r => r.op != id || (r.access == .store && !r.failed)) }),
          .agent o.agent (fun a =>
            let a := s.lastResults o rs good a
            let a := match o.tok with
              | some k => a.untok k s.t
              | none => a
            { a with eligibleSince := if o.held = 0 then a.eligibleSince else s.t }),
          if o.held != 0 then .settleHeld o rs else .trapLate o rs,
          .lateResult o.agent,
          .act .free]

/-- The latency of a load is sampled (R322). -/
def Prog.sampleLoad (r : Req) : Prog :=
  .look fun s => .when (r.access == .load && usesSlots r.agent && !r.timeout) (.sampleCore r.core 0 ((s.t - r.issued) / Config.tick))

/-- A request is answered, and a load gives a sample (R322); with the last of its operation the results of all its lanes are
written (R91), since a line that is still to be read may be poisoned (R170). -/
def Prog.answer (id : Nat) (f : Req → Req) : Prog :=
  .look fun s =>
    match s.req? id with
    | none => .skip
    | some r =>
      let r := f { r with stage := .answered }
      match s.op? r.op with
      | none => .all [.sampleLoad r, .dropReq id, .grantSlots r.core]
      | some _ =>
        .all [
          .sampleLoad r,
          .req id (fun _ => r),
          .grantSlots r.core,
          .finishOp r.op]

/-! Reads at one instant (log 11). -/

/-- Whether an agent's next load may take its instant now: its earlier loads have theirs, none of them later than now, its
earlier atomics have performed, and a store that served an earlier load has its V (R182, R183, R186). -/
def State.loadsDone (s : State) (k : Nat) : Bool :=
  decide ((s.agent k).lastInst ≤ s.ns) && s.reqs.all (fun r => r.agent != k || r.place != .slice || match r.access with
    | .load => !r.unserved
    | .atomic => r.stage == .visible || r.stage == .answered
    | .store => !(r.fwd && r.unserved)
    | _ => true)

/-- Whether a packet that reads targets now meets a prefetch of one of their lines that is still to come (R177): it waits for the
fill. -/
def State.fillAwaited (s : State) (k : Nat) (hits : List (Part × Target)) : Bool :=
  (lineGroups hits).any (fun g => touchesL1 .load false g.t &&
    s.reqs.any (fun x => x.core == coreOf k && x.line == g.line && x.access == .pref))

/-- The packet touches the lines of its targets (R177). -/
def Prog.touchLines (k : Nat) (hits : List (Part × Target)) : Prog :=
  .each ((lineGroups hits).filter (fun g => touchesL1 .load false g.t)) (fun g => .demandTouch (coreOf k) g.line false)

/-- Whether a target may be read now: no engine owns its line (R195). -/
def State.readable (s : State) (t : Target) : Bool := t.place != .slice || (s.lineRec (lineOf t.addr)).owners.isEmpty

/-- The bytes of local memory that an agent reads at a target now (R182, R185). -/
def State.readOwn (s : State) (k : Nat) (t : Target) (n : Nat) : List Byte :=
  (List.range n).map (fun i => (s.forwarded k s.nextId (lineOf t.addr) (t.addr + i)).getD (Memory.read s.mem (t.addr + i)))

/-- The bytes that an instruction reads for an access: of host or peer memory, what it has answered (R303). -/
def State.readHit (s : State) (k : Nat) (e : Part × Target) : List Byte :=
  if e.2.place = .slice then s.readOwn k { e.2 with addr := e.1.addr } e.1.len else (s.peekAt k e.1).getD []

/-- The lease end that a fetch of a line receives now: cut to the V of a pending store (R180, R181). -/
def State.leaseFor (s : State) (line lease : Nat) : Nat :=
  (s.reqs.filter (fun r => r.place == .slice && r.line == line && r.stage == .arrived && decide (r.v > s.ns))).foldl
    (fun e r => min e r.v) (s.ns + lease)

/-- A packet reads sectors of a line now, on a page with a lease: a hit of the core's L1 counts (R159); else the slice
records the lease and the L1 takes the sectors (R180). -/
def Prog.takeLine (core line lease : Nat) (sectors : BitVec 4) : Prog :=
  .look fun s =>
    if lease = 0 then .skip
    else if (s.l1At core line).any (fun l => sectors &&& ~~~l.sectors == 0) then .countHit core line 0
    else
      let e := s.leaseFor line lease
      .seq (.line line (fun r => { r with leaseEnd := max r.leaseEnd e }))
        (.core core (fun c => ({ c with l1 := c.l1.filter (fun l => l.line != line || decide (s.ns < l.leaseEnd)) }).fill
          (fun i => Config.freeNat s.freeCtr (4098 + i) line) { line, leaseEnd := e, sectors }))

/-- The V of an agent's own stores from which a load of operation `op` is served (R182, R185): the latest of those that have
one. -/
def State.forwardV (s : State) (k op line : Nat) (parts : List Part) : Nat :=
  (s.reqs.filter (fun x => x.agent == k && x.access == .store && x.line == line && decide (x.op < op) && x.stage == .arrived &&
    x.forwardsTo parts)).foldl (fun m x => max m x.v) 0

/-- The instant that an agent's load takes (R182, R183): now, and no earlier than the V of its own store that serves it. -/
def Prog.loadInstant (k op line : Nat) (parts : List Part) : Prog :=
  .look fun s =>
    .seq (.agent k (fun a => { a with lastInst := max (max a.lastInst s.ns) (s.forwardV k op line parts) }))
      (.upd (fun s => { s with
        reqs := s.reqs.map (fun x =>
          if x.agent = k && x.access == .store && x.line = line && x.op < op && x.unserved && x.forwardsTo parts then
            { x with fwd := true }
          else x) }))

/-- The marks that a read at one instant leaves: the TLB, the lines, the samples, the instants (R166, R180, R182, R183, R322). -/
def Prog.readMarks (k ctx : Nat) (hits : List (Part × Target)) : Prog :=
  .look fun s => .all [
    .each (hits.map (fun e => e.1.va)) (fun va => .fillTlb (coreOf k) ctx va),
    .touchLines k hits,
    .each ((lineGroups hits).filter (fun g => g.t.place == .slice)) (fun g => .all [
      .takeLine (coreOf k) g.line g.t.lease (partSectors g.parts),
      .sampleCore (coreOf k) 0 0,
      .loadInstant k s.nextId g.line g.parts])]

/-! Fences (R189): for what an agent issued before operation `op`. -/

/-- Whether the queue and scope accesses of an agent's instructions before operation `op` have been made (21 R376); `far` those of
other modules too. -/
def State.pushesDone (s : State) (k op : Nat) (far : Bool) : Bool :=
  s.ops.all (fun o => o.agent != k || decide (o.id ≥ op) || match o.kind with
    | .qpush .. | .spawn .. => false
    | .push .. => !far
    | _ => true)

/-- FENCE.CREW's condition. -/
def State.crewFence (s : State) (k op : Nat) : Bool :=
  s.padDone k op && s.reqs.all (fun r => r.agent != k || decide (r.op ≥ op) || r.place != .slice || match r.access with
    | .load => r.stage == .answered
    | .pref => true
    | _ => !r.unserved)

/-- FENCE.DEV's condition; of a control context it covers scope and queue accesses (21 R376). -/
def State.devFence (s : State) (k op : Nat) : Bool :=
  s.crewFence k op && decide ((s.agent k).fenceAt ≤ s.ns) && ((s.agent k).kind != .ctl || s.pushesDone k op false)

/-- FENCE.SYS's condition. -/
def State.sysFence (s : State) (k op : Nat) : Bool :=
  s.devFence k op && ((s.agent k).kind != .ctl || s.pushesDone k op true) &&
    s.reqs.all (fun r => r.agent != k || decide (r.op ≥ op) || r.place == .slice || r.stage == .answered)

end Sys2Proof.Machine
end

