-- ==== Sys2Proof/Machine/Dx.lean ====
section
/-!
DEFINITION. The dual-exponent block formats (06 R145 to R147): the layout of a block, exact decoding and the encoder.
-/

namespace Sys2Proof.Machine

/-- Magnitude bits of a block format: 0 DX8, 1 DX6, 2 DX4 (R145, R362). -/
def dxM (fmt : Nat) : Nat := if fmt = 0 then 6 else if fmt = 1 then 4 else 2

/-- Bytes of a block (R145). -/
def dxBytes (fmt : Nat) : Nat := if fmt = 0 then 34 else if fmt = 1 then 26 else 18

/-- The exponent of the element step at scale E (R147): u(E) = 2^(E − 126 − m). -/
def dxStep (m E : Nat) : Int := (E : Int) - 126 - m

/-- Element i of a block given as a number (R145, R146). -/
def dxElem (fmt block i : Nat) : FVal :=
  let m := dxM fmt
  let el := block / 2 ^ (16 + i * (m + 2)) % 2 ^ (m + 2)
  let E := if el / 2 ^ (m + 1) = 1 then block / 2 ^ 8 % 256 else block % 256
  if E = 0xFF then .nan false
  else .fin (el / 2 ^ m % 2 == 1) (el % 2 ^ m) (dxStep m E)

/-- The magnitude of a value that is not NaN as m · 2^e; an infinity counts as 2^128 (R147). -/
def dxMag : FVal → Nat × Int
  | .fin _ m e => (m, e)
  | .inf _ => (1, 128)
  | .nan _ => (0, 0)

/-- The exponent of the last significand bit of a magnitude held in F32 (R147). -/
def f32Lsb (m : Nat) (e : Int) : Int := max ((m.log2 : Int) + e) (-126) - 23

/-- RND(|v| / 2^q) of R147: the multiple, and whether it is exact. `drain` selects 32 discarded bits (R153). -/
def dxRnd (mode : Nat) (seed : W32) (drain : Bool) (x : Nat × Int) (q : Int) : Nat × Bool :=
  roundStep mode seed (if drain then 32 else min (q - f32Lsb x.1 x.2).toNat 32) false (.rat x.1 1 x.2) q

/-- The larger of two magnitudes. -/
def magMax (a b : Nat × Int) : Nat × Int :=
  if (dyAdd a.1 a.2 (-(b.1 : Int)) b.2).1 < 0 then b else a

/-- The two scales of a block (R147): E1 before the NaN mark, and E0. -/
def dxScales (fmt mode : Nat) (seed : W32) (drain : Bool) (shift : Nat) (v : List FVal) : Nat × Nat :=
  let m := dxM fmt
  let L := ((v.filter (fun x => !x.isNan)).map dxMag).foldl magMax (0, 0)
  let E1 : Int :=
    if L.1 = 0 then 1
    else
      let E : Int := (L.1.log2 : Int) + L.2 + 127
      let up := (dxRnd mode seed drain L (E - 126 - m)).1 ≥ 2 ^ m
      min (max (if up then E + 1 else E) 1) 254
  let E1 := E1.toNat
  (E1, if v.any FVal.isNan then E1 else max (E1 - shift) 1)

/-- One element of a block (R147): selector, sign and magnitude as bits, and the flags. -/
def dxEncodeElem (fmt mode : Nat) (seed : W32) (drain nanblk : Bool) (E1 E0 : Nat) (v : FVal) : Nat × BitVec 5 :=
  let m := dxM fmt
  let top := 2 ^ m - 1
  let word := fun (sel neg : Bool) (mag : Nat) =>
    (if sel then 2 ^ (m + 1) else 0) + (if neg then 2 ^ m else 0) + mag
  match v with
  | .nan _ => (word true false 0, 0)
  | .inf n => (word (!nanblk) n top, flagOverflow ||| flagInexact)
  | .fin n mg e =>
    let r0 := dxRnd mode seed drain (mg, e) (dxStep m E0)
    let sel := !(nanblk || r0.1 ≤ top)
    let r := if sel then dxRnd mode seed drain (mg, e) (dxStep m E1) else r0
    (word sel n (min r.1 top),
      if r.1 > top then flagOverflow ||| flagInexact else if r.2 then 0 else flagInexact)

/-- Pack elements of `w` bits from bit 0 upwards. -/
def packBits (w : Nat) : List Nat → Nat
  | [] => 0
  | x :: r => x + 2 ^ w * packBits w r

/-- Encode 32 values as a block (R147): the block as a number, and the flags. `shift` is s. -/
def dxEncode (fmt mode : Nat) (seed : W32) (drain : Bool) (shift : Nat) (v : List FVal) : Nat × BitVec 5 :=
  let nanblk := v.any FVal.isNan
  let E := dxScales fmt mode seed drain shift v
  let l := v.map (dxEncodeElem fmt mode seed drain nanblk E.1 E.2)
  let header := (if nanblk then 0xFF else E.1) * 256 + E.2
  (header + 2 ^ 16 * packBits (dxM fmt + 2) (l.map Prod.fst),
    l.foldl (fun acc x => acc ||| x.2) (if v.any FVal.snan then flagInvalid else 0))

end Sys2Proof.Machine
end

