-- ==== Sys2Proof/Machine/TileIns.lean ====
section
/-!
DEFINITION. The tiles that engine commands hold (09 R211), and TMARK and TSTAT (23 R427 to R429).
-/

namespace Sys2Proof.Machine

/-- The tiles that a command names, as source, destination or weights (R211). -/
def Cmd.tiles (c : Cmd) : List Nat :=
  match c.kind with
  | .copy => (if c.f.mb 0 then [c.f.x 57 52] else []) ++ (if c.f.mb 1 then [c.f.x 51 46] else [])
  | .ccopy => if c.f.mb 0 then [c.f.x 57 52] else []
  | .mwload => [bitsOf c.f.imm24 5 0]
  | .mdrain => [bitsOf c.f.imm24 5 0]
  | .mmul => c.f.x 57 52 :: (match c.weights with
    | some n => [n]
    | none => [])
  | _ => []

/-- The tile that a command fills (R212). -/
def Cmd.fills (c : Cmd) : List Nat :=
  match c.kind with
  | .copy => if c.f.mb 1 then [c.f.x 51 46] else []
  | .mdrain => [bitsOf c.f.imm24 5 0]
  | _ => []

/-- The commands of a crew's queues, copies before matrix commands (R207, R305). -/
def State.cmdsOf (s : State) (key : Nat) : List Cmd :=
  match s.crew? key with
  | none => []
  | some c => (s.core c.core).copyQ.get c.ctx [] ++ (s.core c.core).matQ.get c.ctx []

/-- Whether a crew's tile is held (R211). -/
def State.tileHeld (s : State) (key n : Nat) : Bool :=
  let a := s.agent key
  (s.cmdsOf key).any (fun c => c.tiles.contains n) || a.bound == some n || a.loaded == some n

/-- TMARK (R427): it waits until the issuer's earlier scratchpad accesses have performed; in a clock in which the tile has
met an event of a later place it does not issue (R428). -/
def tmarkMeaning : Meaning where
  body := fun s p =>
    let key := (s.agent p.k).crew
    let n := p.f.d.toNat
    let place := tilePlace p.k
    let fin := fun (st : Nat) => Body.go (.seq (.moveTile key n st place) (.addOp p (.values [] [] 0) p.act true)) 0
    let bad := Body.fail 0x0E (tileTaddr 2 n) (.noteTile key n place)
    match s.tile? key n with
    | none => .trap 0x0E (tileTaddr 3 n)
    | some t =>
      if !s.padDone p.k s.nextId then .wait
      else if !s.tileTurn key n place then .hold
      else if p.f.mb 0 then (if tState t ≠ 0 then bad else fin 2)
      else if tState t ≠ 2 || s.tileHeld key n then bad
      else fin 0

/-- TSTAT (R429): an entry that is not valid for the crew reads as zero. It reads a tile before the transitions of its
clock. -/
def tstatMeaning : Meaning where
  writes := fun _ p => [.s p.f.d.toNat]
  body := fun s p =>
    let w := match s.tile? (s.agent p.k).crew p.f.mod.toNat with
      | some t => t.extractLsb' 64 64
      | none => 0
    if s.tileNow (s.agent p.k).crew p.f.mod.toNat != [] then .hold
    else .go (.addOp p (.values [(p.f.d.toNat, w)] [] 0) p.act false) 0

/-- TMARK.READY (R427). -/
def execTmarkReady (f : Fields) (s : State) : Host.Outcome State Fault Refusal := perform (.tmarkReady f) tmarkMeaning s

/-- TMARK.EMPTY (R427). -/
def execTmarkEmpty (f : Fields) (s : State) : Host.Outcome State Fault Refusal := perform (.tmarkEmpty f) tmarkMeaning s

/-- TSTAT (R429). -/
def execTstat (f : Fields) (s : State) : Host.Outcome State Fault Refusal := perform (.tstat f) tstatMeaning s

end Sys2Proof.Machine
end

