-- ==== Sys2Proof/Machine/EngineOps.lean ====
section
/-!
DEFINITION. What the engine commands share: the scope of a command (09 R206), its counter (R214), its place in a queue
(R207), the ownership of destination lines (08 R195), the arbitration of the matrix engine (R225, R226) and the end of
a command (R215).
-/

namespace Sys2Proof.Machine

/-- The key of a core's control context. -/
def ctxKey (core cx : Nat) : Nat := agentAt core (64 + cx)

/-- The key under which the engines' own stores of a control context are kept. -/
def engineKey (core cx : Nat) : Nat := agentAt core (128 + cx)

/-- A designator that names no counter and is not zero (R214). -/
def badDesignator (w : Nat) : Bool := decide (w < 2 ^ 15) && w != 0

/-- Where a command stands with its scope at issue (R206). -/
inductive CmdScope where
  | refused
  | dropped (i : Nat)
  | queued (i : Nat)
  deriving DecidableEq, Repr

/-- Whether a command of a scope is dropped at issue (R206): the scope lies in a cancelled subtree. In a replay a cancel takes
effect where it has reached the core (03 R77): what a task recorded as ended issues before is queued (32 R460). -/
def State.cmdDropped (s : State) (k i : Nat) : Bool :=
  s.inCancelled i && (!(s.launchOf k).any Launch.replay || s.known (16 + coreOf k) i)

/-- The scope of a command whose SCOPE field names an S-register, S0 for the current task's (R206). A live handle of a CLOSED
scope of the job, for which the rule's table has no row, is refused with ENGINE 0x07 as well (log 105). -/
def State.cmdScope (s : State) (k reg : Nat) : CmdScope :=
  let judge := fun (i : Nat) =>
    if s.cmdDropped k i then CmdScope.dropped i else if (s.scope i).state = .closed then .refused else .queued i
  if reg = 0 then
    match s.taskScope k with
    | some i => judge i
    | none => .refused
  else
    let h := s.readS k reg
    if s.foreign h || s.stale h || s.jobOf (hIndex h) != s.launchJob k then .refused
    else judge (hIndex h)

/-- The queue of a control context that takes a kind of command (R207, R403). -/
def CmdKind.isMatrix : CmdKind → Bool
  | .mwload | .mmul | .mdrain | .mzero _ => true
  | _ => false

/-- A queue of a control context. -/
def Core.queue (c : Core) (matrix : Bool) (cx : Nat) : List Cmd := if matrix then c.matQ.get cx [] else c.copyQ.get cx []

/-- Put a queue in place of a control context's. -/
def Core.setQueue (c : Core) (matrix : Bool) (cx : Nat) (q : List Cmd) : Core :=
  if matrix then { c with matQ := c.matQ.put cx q } else { c with copyQ := c.copyQ.put cx q }

/-- Change a command of a core. -/
def Prog.cmd (core : Nat) (matrix : Bool) (cx id : Nat) (f : Cmd → Cmd) : Prog :=
  .core core (fun c => c.setQueue matrix cx ((c.queue matrix cx).map (fun x => if x.id = id then f x else x)))

/-- The issue of a command whose own checks are passed (R206, R207): its scope, the states of its tiles, room in its
queue; then `q` takes the tiles and lines. -/
def issueCmd (s : State) (p : Pkt) (kind : CmdKind) (cnt scopeReg : Nat) (regs : List W64) (ready : Bool) (q : Nat → Prog) : Body :=
  let core := coreOf p.k
  let cx := unitOf p.k - 64
  let m := kind.isMatrix
  match s.cmdScope p.k scopeReg with
  | .refused => .trap 0x11 0x07
  | .dropped i =>
    .go (.all [
      .count i 0 0 (if m then 0 else match kind with
        | .resample => 0
        | _ => 1) (if m then 1 else 0),
      .addDec cnt 1 [],
      .addOp p (.values [] [] 0) p.act true,
      .fireDecs 64]) 0
  | .queued i =>
    let old := (s.core core).queue m cx
    let c : Cmd :=
      { id := s.nextId
        kind
        pc := p.pc
        f := p.f
        regs
        scope := i
        cnt
        tok := if p.f.setEn then some p.f.setK.toNat else none
        issued := s.t
        headSince := s.t
        maxV := (s.agent p.k).lastV
        weights := (s.agent p.k).bound }
    if !c.tiles.all (fun n => s.tileTurn (s.agent p.k).crew n 0) then .hold
    else if !ready || old.length ≥ 16 then .wait
    else
      .go (.all [
        .upd (fun s => { s with nextId := s.nextId + 1 }),
        .core core (fun x => x.setQueue m cx (old ++ [c])),
        .addWork i 1,
        q c.id]) 0

/-! Ownership of lines (R195). -/

/-- A command of a control context takes a line, after those that hold it already, but before later commands of its own
context, which wait for it (R207). -/
def Prog.own (core cx id line : Nat) : Prog :=
  .look fun s =>
    let later := ((((s.core core).queue false cx).map Cmd.id).dropWhile (· != id)).drop 1
    .line line (fun r =>
      if r.owners.contains id then r
      else
        let first := r.owners.takeWhile (fun o => !later.contains o)
        { r with owners := first ++ id :: r.owners.drop first.length })

/-- A command gives up the lines of a list. -/
def Prog.disown (id : Nat) (lines : List Nat) : Prog :=
  .each lines (fun l => .line l (fun r => { r with owners := r.owners.filter (· != id) }))

/-- A command gives up every line: an access that it held, if any had reached the line, goes on at once (R69, R195). -/
def Prog.disownAll (id : Nat) : Prog :=
  .upd (fun s => { s with
    reqs := s.reqs.map (fun r =>
      if r.op ≠ id && (s.lineRec r.line).owners.head? == some id && r.stage == .sent && r.place == .slice && Config.freeBit s.freeCtr 9400 r.id then
        { r with notBefore := max r.notBefore 1 }
      else r)
    lines := s.lines.map (fun e => (e.1, { e.2 with owners := e.2.owners.filter (· != id) })) })

/-- The blocks of code that stores of a launch touch (05 R103): ranges of memory, each with its length. -/
def Prog.noteStored (launch : Option Nat) (ranges : List (Nat × Nat)) : Prog :=
  match launch with
    | none => .skip
    | some id =>
      let blocks := (ranges.flatMap (fun p => (List.range (p.2 / 32 + 2)).filterMap (fun i =>
        let b := p.1 / 32 + i
        if 32 * b < p.1 + p.2 then some b else none))).eraseDups
      .launch id (fun l => { l with selfStored := (blocks ++ l.selfStored).eraseDups })

/-- A command's writes of lines have their V: it gives the lines up. A load or a copy's fetch that had reached such a line
waits for that V (R195); whether a load that was sent had reached it is free. -/
def Prog.disownWritten (id : Nat) (lines : List Nat) : Prog :=
  .seq
    (.upd (fun s =>
      let v := fun (line : Nat) => (s.reqs.filter (fun x => x.op == id && x.line == line)).foldl (fun m x => max m x.v) 0
      { s with
        reqs := s.reqs.map (fun r =>
          if r.op ≠ id && lines.contains r.line && r.stage == .sent && r.place == .slice && Config.freeBit s.freeCtr 9400 r.id then
            { r with notBefore := max r.notBefore (v r.line) }
          else r)
        cores := s.cores.map (fun e => (e.1, { e.2 with
          copyQ := e.2.copyQ.map (fun q => (q.1, q.2.map (fun c => { c with
            met := c.met.map (fun m => if m.2.1 = id && lines.contains m.1 then (m.1, id, v m.1) else m) }))) })) }))
    (.disown id lines)

/-- Whether a command may read or write a line now: it is unowned, or the command is the first of its owners. -/
def State.mine (s : State) (id line : Nat) : Bool :=
  match (s.lineRec line).owners with
  | [] => true
  | o :: _ => o == id

/-- Whether a command stands in the queue of a core's copy engine. -/
def State.engineHas (s : State) (core id : Nat) : Bool :=
  (List.range 8).any (fun cx => ((s.core core).queue false cx).any (fun c => c.id == id))

/-- Whether a copy may read a line now (R195): no command of another agent, which another core's copy engine is, owns it
first, or the one that held this fetch up has written it and its V has come (log 103). -/
def State.opened (s : State) (core : Nat) (c : Cmd) (line : Nat) : Bool :=
  let owners := (s.lineRec line).owners
  match c.met.find line with
  | some (m, v) => !owners.contains m && decide (v ≤ s.ns)
  | none => owners.head?.all (s.engineHas core)

/-- The fetches of a command stand at lines that others own (R195): each waits for the command that owns its line now. -/
def Prog.meet (core cx id : Nat) (lines : List Nat) : Prog :=
  .look fun s => .cmd core false cx id (fun x => { x with
    met := lines.foldl (fun m l => if (m.find l).isSome then m else m.put l ((s.lineRec l).owners.headD 0, 0)) x.met })

/-- From when a write with a visibility time counts as visible at DEV scope for an engine of a die (R189). -/
def devTime (die line v : Nat) : Nat := if homeDie (128 * line) = die then v else v + 2

/-! The end of a command. -/

/-- The next command of a queue stands at its head from now on (R225). -/
def Core.popQueue (c : Core) (matrix : Bool) (cx id now : Nat) : Core :=
  let q := (c.queue matrix cx).filter (fun x => x.id != id)
  c.setQueue matrix cx (match q with
    | x :: r => { x with headSince := if (c.queue matrix cx).head?.map Cmd.id = some id then now else x.headSince } :: r
    | [] => [])

/-- Whether a command may end now as far as its tiles go: no event of a band has come on one of them in this clock (23 R428). -/
def State.tilesTurn (s : State) (key : Nat) (c : Cmd) : Bool := c.tiles.all (fun n => s.tileTurn key n 1)

/-- A command leaves its queue (R207, R215): its tiles are held no longer (R211), its lines are given up, its token is released,
its counter is decremented with its status, and its scope's count drops. -/
def Prog.endCmd (core cx : Nat) (c : Cmd) : Prog :=
  let k := ctxKey core cx
  .all [
    .look fun s =>
      if c.kind.isMatrix then
        (match c.first with
         | some t => .sampleCore core 3 ((s.t - t) / Config.clock)
         | none => .skip)
      else .when (c.kind != .resample) (.sampleCore core 1 ((s.t - c.issued) / Config.tick)),
    .disownAll c.id,
    .each c.tiles (fun n => .noteTile k n 1),
    .look fun s => .core core (fun x => x.popQueue c.kind.isMatrix cx c.id s.t),
    (match c.tok with
     | some t => .look fun s => .agent k (fun a => a.untok t s.t)
     | none => .skip),
    .look fun s => .addDec c.cnt c.status ((s.reqs.filter (fun r => r.op == c.id)).map Req.id),
    .endWork c.scope 1,
    .checkCrew k]

/-- The weight tile that a control context has bound, once commands have left its queue: that of the latest MWLOAD still
queued, or of the latest performed (R69, R228). -/
def Prog.rebind (core cx : Nat) : Prog :=
  .look fun s =>
    let last := (((s.core core).queue true cx).filter (fun c => c.kind == .mwload)).getLast?
    .agent (ctxKey core cx) (fun a => { a with bound := match last with
      | some c => some (bitsOf c.f.imm24 5 0)
      | none => a.loaded })

/-! The bytes of a tile. -/

/-- A byte of scratchpad as an engine reads it: a poisoned sector gives a free value (R319). -/
def State.padByte (s : State) (a : Nat) : Byte :=
  if s.poisoned a 1 then (s.freeWord (9000 + a) 0).extractLsb' 0 8 else Memory.read s.mem a

/-- The number of `n` bytes of scratchpad. -/
def State.padNat (s : State) (a n : Nat) : Nat := leNat ((List.range n).map (fun i => s.padByte (a + i)))

/-- The bytes of one element of a format without blocks (R209). -/
def elemBytes (fmt : Nat) : Nat := if fmt = 1 then 4 else if fmt = 0 then 1 else 2

/-- Element `j` of a row of a tile format whose bytes `num` reads (R145, R209); a RAW tile has no elements. -/
def rowElem (fmt : Nat) (num : Nat → Nat → Nat) (j : Nat) : FVal :=
  match fmt with
  | 1 => Fmt.f32.decode (num (4 * j) 4)
  | 2 => Fmt.f16.decode (num (2 * j) 2)
  | 3 => Fmt.bf16.decode (num (2 * j) 2)
  | 0 => .fin false 0 0
  | fmt =>
    let n := dxBytes (fmt - 4)
    dxElem (fmt - 4) (num (n * (j / 32)) n) (j % 32)

/-- Element (i, j) of a tile whose crew's scratchpad begins at `base`. -/
def State.tileElem (s : State) (base : Nat) (t : BitVec 128) (i j : Nat) : FVal :=
  rowElem (tFmt t) (fun a n => s.padNat (base + tOffset t + i * tPitch t + a) n) j

/-- The bytes of row `i` of a tile. -/
def State.tileRow (s : State) (base : Nat) (t : BitVec 128) (i : Nat) : List Byte :=
  (List.range (tPitch t)).map (fun a => s.padByte (base + tOffset t + i * tPitch t + a))

/-- Element (i, j) of the weights in the array. -/
def Latch.elem (l : Latch) (i j : Nat) : FVal :=
  rowElem l.fmt (fun a n => leNat (((l.rows.getD (i - l.row) []).drop a).take n)) j

/-- Whether the bitmap of a tile overlaps the tile's bytes (R210). -/
def bitmapMeets (t : BitVec 128) : Bool :=
  decide (tBitmapAt t < tOffset t + tBytes t) && decide (tOffset t < tBitmapAt t + (tRows t / 8 * (tCols t / 8) + 7) / 8)

/-- Whether the bitmap of a tile marks the block of element (i, j) as zero (R210); a bit of a bitmap that overlaps the
tile's bytes is free. -/
def State.blockSkipped (s : State) (base : Nat) (t : BitVec 128) (i j : Nat) : Bool :=
  let b := i / 8 * (tCols t / 8) + j / 8
  tBitmap t && (if bitmapMeets t then s.freeBit (11000 + b) else (s.padByte (base + tBitmapAt t + b / 8)).getLsbD (b % 8))

/-- The scratchpad of a crew in its core's array (R156). -/
def State.padBase (s : State) (key : Nat) : Nat := (s.scratchOf key).1

/-! Arbitration of the matrix engine. -/

/-- The effective priority at a clock of a command at the head of a control context's queue (R225). -/
def State.cmdPrio (s : State) (core clock cx : Nat) (c : Cmd) : Nat :=
  (s.agent (ctxKey core cx)).mqprio - min c.ageSteps ((Config.clock * clock - c.headSince) / (32 * Config.usec))

/-- The heads of a core's matrix queues that stood there by a clock, with their contexts. A crew that has stopped for a
pre-emption starts none (13 R304). -/
def State.matHeads (s : State) (core clock : Nat) : List (Nat × Cmd) :=
  (List.range 8).filterMap (fun cx => match (s.core core).queue true cx with
    | c :: _ =>
      let stopped := (s.crew? (ctxKey core cx)).any (fun x => x.stopping.any (fun t => decide (t < Config.clock * clock)))
      if c.headSince ≤ Config.clock * clock && !stopped then some (cx, c) else none
    | [] => none)

/-- Whether one head comes before another (R226): priority, then the longer wait, then the lower context. -/
def State.headBefore (s : State) (core clock : Nat) (x y : Nat × Cmd) : Bool :=
  let px := s.cmdPrio core clock x.1 x.2
  let py := s.cmdPrio core clock y.1 y.2
  px < py || (px == py && (x.2.headSince < y.2.headSince || (x.2.headSince == y.2.headSince && x.1 < y.1)))

/-- The command that the matrix engine runs from a clock on (R226): the running MMUL goes on unless a waiting head has a
strictly lower priority number. -/
def State.matChoice (s : State) (core clock : Nat) : Option (Nat × Cmd) :=
  let heads := s.matHeads core clock
  let best := heads.foldl (fun (acc : Option (Nat × Cmd)) h => match acc with
    | some b => if s.headBefore core clock h b then some h else acc
    | none => some h) none
  match (s.core core).running with
  | none => best
  | some cx =>
    match heads.find? (fun h => h.1 == cx), best with
    | some r, some b => if s.cmdPrio core clock b.1 b.2 < s.cmdPrio core clock r.1 r.2 then some b else some r
    | _, b => b

/-- The clock of the matrix engine's latest arbitration (R226): it was idle, and a command stood at the head of a queue. -/
def State.matFrom (s : State) (core : Nat) : Option Nat :=
  let heads := (List.range 8).filterMap (fun cx => ((s.core core).queue true cx).head?)
  (heads.foldl (fun (acc : Option Nat) c =>
    let n := (c.headSince + Config.clock - 1) / Config.clock
    some (match acc with
      | some m => min m n
      | none => n)) none).map (max (s.core core).matIdle)

/-- What the matrix engine is on now (R226): the clock of its latest arbitration, the control context, the command. -/
def State.matNow (s : State) (core : Nat) : Option (Nat × Nat × Cmd) :=
  match s.matFrom core with
  | some b => if b ≤ s.clocks then (s.matChoice core b).map (fun h => (b, h.1, h.2)) else none
  | none => none

/-- The matrix command of a kind that may end a piece of work of `clocks` now: the engine chose it when it was last idle
(R226, R230). -/
def State.matReady (s : State) (core : Nat) (kind : CmdKind → Bool) (clocks : Nat → Cmd → Nat) : Option (Nat × Cmd) :=
  match s.matNow core with
  | some (b, cx, c) => if kind c.kind && decide (b + clocks cx c ≤ s.clocks) then some (cx, c) else none
  | none => none

/-- Whether a k-step that begins at a clock is a start of the array (R236). -/
def Core.isStart (c : Core) (clock : Nat) : Bool :=
  match c.lastStream with
  | none => true
  | some t => decide (t + 64 ≤ clock)

/-- The command that the matrix engine runs now; an MMUL whose start waits for its grant does not run (R225, R236). -/
def State.matRuns (s : State) (core : Nat) : Option (Nat × Cmd) :=
  match s.matNow core with
  | some (b, cx, c) =>
    if c.kind = .mmul && (s.core core).isStart b && (s.core core).grantedAt.isNone then none else some (cx, c)
  | none => none

/-- Whether a command has overtaken the MMUL that ran before it (R226). -/
def State.overtakes (s : State) (core cx : Nat) (c : Cmd) : Bool := c.overtook || (s.core core).running.any (· != cx)

/-- The engine's choice overtakes the MMUL that ran (R226): from that arbitration on the MMUL waits at its head again, with
the priority and the waiting time that it had. -/
def Prog.overtake (core : Nat) : Prog :=
  .look fun s => match (s.core core).running, s.matNow core with
    | some old, some (b, cx, c) =>
      if old = cx then .skip
      else .all [
        .core core (fun x => { x.setQueue true old ((x.queue true old).map (fun m =>
          if m.started then { m with headSince := Config.clock * b - (m.begun - m.headSince), started := false } else m)) with
          running := none }),
        .cmd core true cx c.id (fun x => { x with overtook := true })]
    | _, _ => .skip

end Sys2Proof.Machine
end

