-- ==== Sys2Proof/Machine/Sram.lean ====
section
/-!
DEFINITION. The private SRAM of a firmware core (15 R324, R325): the image slots and the state block of each partition, the
measurement log, and what each partition reaches of it (log 14, log 42).
-/

namespace Sys2Proof.Machine

/-- The slot from which a partition runs: during PROBATION the new image's (R332). -/
def Partition.running (p : Partition) : Nat := if p.phase = .probation then 1 - p.slot else p.slot

/-- What an image slot of a partition holds. -/
def Partition.image (p : Partition) (slot : Nat) : List Byte := p.images.get slot []

/-- Whether a partition reaches a range of its die's SRAM (R324): its memory region, which is the slot from which it runs;
its state block, which it writes until SWITCH; the management partition reads the log (log 14). -/
def State.sramOpen (s : State) (die part a n : Nat) (write : Bool) : Bool :=
  let p := s.part die part
  let inside := fun (lo size : Nat) => decide (lo ≤ a) && decide (a + n ≤ lo + size)
  inside (slotOff part p.running) (2 ^ 21) || (inside (blockOff part) (2 ^ 20) && !(write && p.phase == .probation)) ||
    (part == 0 && !write && inside logOff (2 ^ 19))

/-- A byte of the measurement log as it stands in SRAM (R335): entry n at place n mod 4,096. -/
def FwCore.logByte (f : FwCore) (o : Nat) : Byte :=
  ((f.entries.find? (fun e => e.index % 4096 == o / 128)).map (fun e => (logBytes e).getD (o % 128) 0)).getD 0

/-- A byte of a die's SRAM. -/
def State.sramByte (s : State) (die a : Nat) : Byte :=
  if a < blockOff 0 then ((s.part die (a / 2 ^ 22)).image (a / 2 ^ 21 % 2)).getD (a % 2 ^ 21) 0
  else if a < logOff then (s.part die (a / 2 ^ 20 - 12)).block.getD (a % 2 ^ 20) 0
  else (s.fw die).logByte (a - logOff)

/-- Bytes of a die's SRAM. -/
def State.sramRead (s : State) (die a n : Nat) : List Byte := (List.range n).map (fun i => s.sramByte die (a + i))

/-- Store bytes within a slot or a state block. -/
def Prog.sramStore (die a : Nat) (bs : List Byte) : Prog :=
  if a < blockOff 0 then .part die (a / 2 ^ 22) (fun p => { p with
    images := p.images.put (a / 2 ^ 21 % 2) (listWrite (p.image (a / 2 ^ 21 % 2)) (a % 2 ^ 21) bs) })
  else .part die (a / 2 ^ 20 - 12) (fun p => { p with block := listWrite p.block (a % 2 ^ 20) bs })

end Sys2Proof.Machine
end

