-- ==== Sys2Proof/Machine/VecMem.lean ====
section
/-!
DEFINITION. The memory instructions: LD, LDRC (21 R384 to R386), ST (22 R419, R420), ATOM (20 R339 to R345), PREF
(22 R397, R398), RSVLD, RSVST (11 R263), SLD and SST (22 R413, R414).
-/

namespace Sys2Proof.Machine

/-- The address of a lane (R109). -/
def laneAddr (f : Fields) (r : Regs) (l : Nat) : W64 :=
  r.s f.b.toNat + (((r.v f.a.toNat).lane l).zeroExtend 64 <<< f.m 5 4) + f.sx24

/-- The loads or the stores of the lanes with a true guard: `len` bytes each, `data` the bytes stored. -/
def laneParts (p : Pkt) (r : Regs) (len : Nat) (data : Nat → List Byte) : List Part :=
  (lanesOf p.act).map (fun l =>
    { lane := l, piece := 0, addr := 0, va := laneAddr p.f r l, len, data := data l })

/-- Carry out the accesses of a packet after the checks of R170. Where its agent would find no miss slot, it yields at the
instruction (R168). -/
def State.access (s : State) (p : Pkt) (align : Nat) (acc : Access) (kind : OpKind) (commit noL1 : Bool) (count : Nat)
    (parts : List Part) (always whole : Bool) : Body :=
  let ctx := s.ctxOf p.k
  if s.slotFor p.k = .none then .wait
  else match s.verdict p.k ctx align acc parts with
  | .wait => .wait
  | .trap code ta => .trap code ta
  | .poison va absent => poisonBody p ctx acc va absent whole
  | .go hits absent => accessBody p ctx acc kind commit noL1 count hits absent always whole

/-- The G results of a group of registers. -/
def groupDests (d n : Nat) : List (Nat × Bool) := (List.range n).map (fun i => (d + i, true))

/-- The registers of a group. -/
def groupRegs (d n : Nat) : List Reg := (List.range n).map (fun i => .v (d + i))

/-- The registers that give an address (R109). -/
def addrRegs (f : Fields) : List Reg := [.v f.a.toNat, .s f.b.toNat]

/-- A load of size code `size` into the group at D, with an expected read count (R384, R386, R263). -/
def loadMeaning (size : Fields → Nat) (count : Fields → Nat) : Meaning where
  reads := fun _ p => addrRegs p.f
  writes := fun _ p => groupRegs p.f.d.toNat (sizeRegs (size p.f))
  dests := fun _ p => groupDests p.f.d.toNat (sizeRegs (size p.f))
  body := fun s p =>
    let n := sizeBytes (size p.f)
    s.access p n .load (.load p.f.d.toNat (size p.f)) false (size p.f != 7 && p.f.mb 3) (count p.f)
      (laneParts p (s.regs p.k) n (fun _ => [])) false false

/-- The bytes that a lane stores from a group of registers (R419). -/
def storeBytesOf (r : Regs) (d size l : Nat) : List Byte :=
  let n := sizeBytes size
  ((List.range (sizeRegs size)).flatMap (fun i => leBytes 4 ((r.v (d + i)).lane l).toNat)).take n

/-- A store of size code `size` from the group at D (R419, R420, R263). -/
def storeMeaning (size : Fields → Nat) : Meaning where
  reads := fun _ p => groupRegs p.f.d.toNat (sizeRegs (size p.f)) ++ addrRegs p.f
  body := fun s p =>
    let r := s.regs p.k
    let n := sizeBytes (size p.f)
    s.access p n .store .store false false 0 (laneParts p r n (storeBytesOf r p.f.d.toNat (size p.f))) false false

/-- The data and the compare value of a lane's atomic (R339). -/
def atomData (f : Fields) (r : Regs) (l : Nat) : W32 × W32 :=
  let cas := f.m 3 0 == 10
  if f.len = 2#2 && f.cs then
    let w := r.s f.cReg
    if cas then (w.extractLsb' 32 32, w.extractLsb' 0 32) else (w.extractLsb' 0 32, 0)
  else
    let k := if f.len = 2#2 then f.cReg else f.d.toNat
    if cas then ((r.v (k + 1)).lane l, (r.v k).lane l) else ((r.v k).lane l, 0)

/-- The registers that hold an atomic's data (R339). -/
def atomRegs (f : Fields) : List Reg :=
  if f.len = 2#2 && f.cs then [.s f.cReg]
  else
    let k := if f.len = 2#2 then f.cReg else f.d.toNat
    if f.m 3 0 = 10 then [.v k, .v (k + 1)] else [.v k]

/-- The atomics of the lanes with a true guard. -/
def atomParts (p : Pkt) (r : Regs) : List Part :=
  (lanesOf p.act).map (fun l =>
    let d := atomData p.f r l
    { lane := l, piece := 0, addr := 0, va := laneAddr p.f r l, len := 4, data := leBytes 4 d.1.toNat, op := p.f.m 3 0,
      cmp := d.2 })

/-- A float addition under deterministic mode (R297, R344): the lowest guarded lane's address. -/
def detAtomic (s : State) (p : Pkt) (parts : List Part) : Option W64 :=
  if p.f.m 3 0 = 11 && (s.agent p.k).det then parts.head?.map Part.va else none

/-- ATOM (R339 to R345). -/
def atomMeaning : Meaning where
  reads := fun _ p => atomRegs p.f ++ addrRegs p.f
  writes := fun _ p => groupRegs p.f.d.toNat 1
  dests := fun _ p => groupDests p.f.d.toNat 1
  body := fun s p =>
    let parts := atomParts p (s.regs p.k)
    match detAtomic s p parts with
    | some a => .trap 0x0F a
    | none => s.access p 4 .atomic (.atomic p.f.d.toNat (p.f.m 3 0)) true false 0 parts false false

/-- The lines that PREF fetches (R398): of permitted pages of device memory or Pewter with a lease, that L1 does not
hold and that are not poisoned. -/
def State.prefHits (s : State) (p : Pkt) (ctx : Nat) : List (Part × Target) :=
  (laneParts p (s.regs p.k) 1 (fun _ => [])).filterMap (fun q =>
    if s.walkPoisoned ctx q.va then none
    else match s.xlatCore (coreOf p.k) ctx q.va with
      | .ok t =>
        if t.place == .slice && t.lease != 0 && t.r && !s.poisoned (128 * lineOf t.addr) 128 &&
            !(s.l1At (coreOf p.k) (lineOf t.addr)).any (fun l => l.sectors == 15) then
          some ({ q with addr := t.addr }, t)
        else none
      | _ => none)

/-- PREF (R397, R398). -/
def prefMeaning : Meaning where
  reads := fun _ p => addrRegs p.f
  body := fun s p =>
    let ctx := s.ctxOf p.k
    let hits := s.prefHits p ctx
    .go (.seq (.each (hits.map (fun e => e.1.va)) (fun va => .fillTlb (coreOf p.k) ctx va))
      (.look fun s =>
        .seq (.addOp p (if hits.isEmpty then .values [] [] 0 else .pref) p.act false)
          (.send p.k p.pc .pref false 0 hits s.nextId))) 0

/-! Scalar accesses (R413, R414). -/

/-- The bytes of SLD and SST. -/
def sBytes (size : Nat) : Nat := if size ≤ 1 then 1 else if size ≤ 3 then 2 else if size ≤ 5 then 4 else 8

/-- The address of SLD and SST. -/
def scalarAddr (f : Fields) (a : W64) : W64 := a + f.imm32.signExtend 64

/-- A firmware partition reaches its part of its die's private SRAM (R324, R325, log 14): the trap of an access, if any. -/
def State.fwAccess (s : State) (k : Nat) (a : W64) (n : Nat) (write : Bool) : Option (Nat × W64) :=
  if a.toNat % n ≠ 0 then some (0x07, a)
  else if !s.sramOpen (dieOf k) (unitOf k) a.toNat n write then some (0x09, a) else none

/-- SLD (R413, R414). -/
def sldMeaning : Meaning where
  reads := fun _ p => [.s p.f.a.toNat]
  writes := fun _ p => [.s p.f.d.toNat]
  body := fun s p =>
    let n := sBytes (p.f.m 2 0)
    let a := scalarAddr p.f (s.readS p.k p.f.a.toNat)
    if p.kind = .fw then
      match s.fwAccess p.k a n false with
      | some (c, ta) => .trap c ta
      | none =>
        let bs := s.sramRead (dieOf p.k) a.toNat n
        .go (.addOp p (.values [(p.f.d.toNat, sloadWord (p.f.m 2 0) bs)] [] 0) p.act false) 0
    else
      s.access p n .load (.sload p.f.d.toNat (p.f.m 2 0)) false (p.f.mb 3) 0
        [{ lane := 0, piece := 0, addr := 0, va := a, len := n }] false true

/-- SST (R413, R414). -/
def sstMeaning : Meaning where
  reads := fun _ p => [.s p.f.a.toNat, .s p.f.b.toNat]
  body := fun s p =>
    let n := sBytes (p.f.m 2 0)
    let a := scalarAddr p.f (s.readS p.k p.f.a.toNat)
    let data := leBytes n (s.readS p.k p.f.b.toNat).toNat
    if p.kind = .fw then
      match s.fwAccess p.k a n true with
      | some (c, ta) => .trap c ta
      | none =>
        .go (.seq (.sramStore (dieOf p.k) a.toNat data) (.addOp p (.values [] [] 0) p.act false)) 0
    else
      s.access p n .store .store false false 0
        [{ lane := 0, piece := 0, addr := 0, va := a, len := n, data }] false true

/-- LD (R384, R385). -/
def execLd (f : Fields) (s : State) : Host.Outcome State Fault Refusal :=
  perform (.ld f) (loadMeaning (fun f => f.m 2 0) (fun _ => 0)) s

/-- LDRC (R386). -/
def execLdrc (f : Fields) (s : State) : Host.Outcome State Fault Refusal :=
  perform (.ldrc f) (loadMeaning (fun f => f.m 2 0) (fun f => f.cReg % 16)) s

/-- RSVLD (R263). -/
def execRsvld (f : Fields) (s : State) : Host.Outcome State Fault Refusal :=
  perform (.rsvld f) (loadMeaning (fun _ => 7) (fun _ => 0)) s

/-- ST (R419, R420). -/
def execSt (f : Fields) (s : State) : Host.Outcome State Fault Refusal :=
  perform (.st f) (storeMeaning (fun f => f.m 2 0)) s

/-- RSVST (R263). -/
def execRsvst (f : Fields) (s : State) : Host.Outcome State Fault Refusal :=
  perform (.rsvst f) (storeMeaning (fun _ => 7)) s

/-- ATOM (R339 to R345). -/
def execAtom (f : Fields) (s : State) : Host.Outcome State Fault Refusal := perform (.atom f) atomMeaning s

/-- PREF (R398). -/
def execPref (f : Fields) (s : State) : Host.Outcome State Fault Refusal := perform (.pref f) prefMeaning s

/-- SLD (R414). -/
def execSld (f : Fields) (s : State) : Host.Outcome State Fault Refusal := perform (.sld f) sldMeaning s

/-- SST (R414). -/
def execSst (f : Fields) (s : State) : Host.Outcome State Fault Refusal := perform (.sst f) sstMeaning s

end Sys2Proof.Machine
end

