-- ==== Sys2Proof/Machine/Task.lean ====
section
/-!
DEFINITION. Tasks: TASKGET (23 R423, R424, 02 R39 to R41), TASKEND (R425, R426) and SPAWN (22 R416, R417).
-/

namespace Sys2Proof.Machine

/-- A task record (R40): the kind word and the payload. -/
def Task.record (t : Task) : List W64 := BitVec.ofNat 64 (t.kind + 2 ^ 16 * t.scope) :: t.payload

/-- The END record of a launch (R40). -/
def endRecord (scope : Nat) : List W64 := [BitVec.ofNat 64 (2 ^ 16 * scope), 0, 0, 0, 0]

/-- Deliver a record to a waiting participant (R39, R423): its registers, its token, its threads at the instruction after
TASKGET, with the exited ones (R26). One that is to land receives nothing: its landing code asks anew (R302, R424). -/
def Prog.deliver (k : Nat) (rec : List W64) (isEnd : Bool) : Prog :=
  .look fun s =>
    match (s.agent k).taskWait with
    | none => .skip
    | some w =>
      .when (s.agent k).landing.isNone (.seq
        (.agent k (fun a =>
          let pc := match a.threads.find? (fun e => e.2.st == .waiting) with
            | some e => e.2.pc + 8
            | none => 0
          let a := (List.range 5).foldl (fun a i => s.fixS 0 (w.dest + i) (rec.getD i 0) a) a
          let a := a.untok w.tok s.t
          { a with
            threads := a.threads.map (fun e =>
              if e.2.st = .waiting ∨ e.2.st = .exited then (e.1, { pc, restart := pc, st := .ready }) else e)
            taskWait := none
            reason := 0
            received := !isEnd
            ended := false
            endSeen := isEnd || a.endSeen
            eligibleSince := s.t }))
        (.act .free))

/-- Serve a waiting participant at once, where its crew has a record for it (R39, R41, R424). -/
def Prog.serve (k : Nat) : Prog :=
  .look fun s =>
    let a := s.agent k
    match s.crewOf k with
    | none => .skip
    | some c =>
      if c.endGiven then .deliver k (endRecord (((s.launchOf k).map Launch.scope).getD 0)) true
      else match c.task with
        | some t => .when (!a.received && !a.ended && !c.killed) (.deliver k t.record false)
        | none => .skip

/-- TASKGET (R423, R424): the threads wait at the instruction until the record is delivered. -/
def taskgetMeaning : Meaning where
  writes := fun _ p => (List.range 5).map (fun i => .s (p.f.d.toNat + i))
  body := fun s p =>
    .go (.all [
      .clash p.k ((List.range 5).map (fun i => .s (p.f.d.toNat + i))),
      .agent p.k (fun a =>
        { a.mapThreads p.lanes (fun _ t => { t with st := .waiting }) with
          taskWait := some { dest := p.f.d.toNat, tok := p.f.setK.toNat } }),
      .crew (s.agent p.k).crew (fun c => { c with asked := c.asked || c.task.isNone }),
      .serve p.k]) p.lanes

/-- TASKEND (R425, R426). -/
def taskendMeaning : Meaning where
  illegal := fun s p =>
    let w := (s.readS p.k p.f.a.toNat).toNat
    decide (w ≥ 2 ^ 16) || (decide (w < 2 ^ 15) && w != 0) || (((s.crewOf p.k).bind Crew.task).isNone) ||
      (s.agent p.k).ended
  reads := fun _ p => [.s p.f.a.toNat]
  body := fun s p =>
    let w := (s.readS p.k p.f.a.toNat).toNat
    let key := (s.agent p.k).crew
    .go (.all [
      .agent p.k (fun a => { a with ended := true }),
      .when ((counterOf w).isSome) (.crew key (fun c => { c with dones := c.dones ++ [w] })),
      .addOp p (.values [] [] 0) p.act false,
      .checkCrew key]) 0

/-! SPAWN. -/

/-- Whether an agent holds a task (R417). -/
def State.holdsTask (s : State) (k : Nat) : Bool := (s.agent k).received && ((s.crewOf k).bind Crew.task).isSome

/-- SPAWN (R416): what it places is kept until it performs; whether its issuer holds a task, and which scope S0 names, is
decided then (R417). -/
def spawnMeaning : Meaning where
  reads := fun _ p => (List.range 4).map (fun i => .s (p.f.a.toNat + i)) ++ [.s p.f.b.toNat] ++
    (if p.f.cs then [.s p.f.cReg] else [])
  writes := fun _ p => [.s p.f.d.toNat]
  body := fun s p =>
    let r := s.regs p.k
    let d := p.f.d.toNat
    let w := if p.f.cs then (r.s p.f.cReg).toNat % 2 ^ 16 else 0
    if w < 2 ^ 15 && w ≠ 0 then .trap 0x11 0x01
    else
      let handle := if p.f.b = 0#7 then none else some (r.s p.f.b.toNat)
      let body := (List.range 4).map (fun i => r.s (p.f.a.toNat + i))
      .go (.addOp p (.spawn d handle body (counterOf w)) p.act true) 0

/-- The queue entries of a die in use: those in its cores' queues and those bound to counters (R292). -/
def State.entriesOf (s : State) (die : Nat) : Nat :=
  (s.launches.foldl (fun n e => n + ((e.2.queues.filter (fun q => coreDie q.1 == die)).map (fun q => q.2.length)).sum) 0) +
    (s.counters.filter (fun e => match e.2.bind with
      | some (.task _ core _ _) => coreDie core == die
      | _ => false)).length

/-- Whether a scope takes spawned work of a launch (R417): its launch scope or a user scope of it, open to more work. -/
def State.spawnScope (s : State) (h : W64) (launch : Nat) : Bool :=
  let i := hIndex h
  let e := s.scope i
  !s.foreign h && !s.stale h && !e.sealed && e.state != .closed && decide (e.level ≤ 1) && s.within i launch

/-- The status of a SPAWN (R417). -/
def State.spawnStatus (s : State) (l : Launch) (core : Nat) (h : W64) (bind : Option Nat) : Nat :=
  if !s.spawnScope h ((s.home l).getD 0) then 5
  else if s.inCancelled (hIndex h) then 2
  else match bind with
    | some c =>
      if ((s.counter c).bind).isSome then 4
      else if s.entriesOf (coreDie core) ≥ 65536 then 3
      else if (s.counter c).count > 0 then 1
      else 0
    | none => if s.entriesOf (coreDie core) ≥ 65536 then 3 else 0

/-- The effect of a SPAWN with its status (R417). -/
def Prog.spawnEffect (id : Nat) (core : Nat) (h : W64) (body : List W64) (bind : Option Nat) (status : Nat) : Prog :=
  let i := hIndex h
  let e : Entry := { scope := i, body, own := status == 0 }
  match status with
  | 0 => .seq (.addWork i 1) (.enqueue id core e)
  | 1 => .seq (.addWork i 1) (.counter (bind.getD 0) (fun c => { c with bind := some (.task id core e false) }))
  | 2 => .count i 0 1 0 0
  | _ => .skip

/-- TASKGET (R423). -/
def execTaskget (f : Fields) (s : State) : Host.Outcome State Fault Refusal := perform (.taskget f) taskgetMeaning s

/-- TASKEND (R426). -/
def execTaskend (f : Fields) (s : State) : Host.Outcome State Fault Refusal := perform (.taskend f) taskendMeaning s

/-- SPAWN (R417). -/
def execSpawn (f : Fields) (s : State) : Host.Outcome State Fault Refusal := perform (.spawn f) spawnMeaning s

end Sys2Proof.Machine
end

