-- ==== Sys2Proof/Machine/Bobbin.lean ====
section
/-!
DEFINITION. Bobbin: the dispense order (12 R291), the split and the sources of tasks (R290, R292), sequence numbers
(R293), traces and replay (R296, R464, 03 R77), admission of crews (R290, 02 R36, R37), the end of a launch (02 R41) and
GBAR (21 R381, R382).
-/

namespace Sys2Proof.Machine

/-! The dispense order. -/

/-- The number of coordinates of a launch (R288). -/
def Launch.count (l : Launch) : Nat := l.dimX * l.dimY * l.dimZ

/-- Position k of a block in the MORTON order: its x and y (R291). -/
def mortonBlock (k : Nat) : Nat × Nat :=
  (k % 2 + 2 * (k / 4 % 2) + 4 * (k / 16 % 2), k / 2 % 2 + 2 * (k / 8 % 2) + 4 * (k / 32 % 2))

/-- The coordinate at a position of the dispense order (R291). -/
def Launch.coord (l : Launch) (pos : Nat) : Nat × Nat × Nat :=
  let plane := l.dimX * l.dimY
  let z := pos / plane
  let p := pos % plane
  if !l.morton then (p % l.dimX, p / l.dimX, z)
  else
    let j := p / (8 * l.dimX)
    let r := p - 8 * l.dimX * j
    let h := min 8 (l.dimY - 8 * j)
    let i := r / (8 * h)
    let q := r - 8 * h * i
    let w := min 8 (l.dimX - 8 * i)
    let inside := ((List.range 64).map mortonBlock).filter (fun e => decide (e.1 < w) && decide (e.2 < h))
    let e := inside.getD q (0, 0)
    (8 * i + e.1, 8 * j + e.2, z)

/-- The die that owns a position of a MAP launch (R276, R290). -/
def Launch.owner (l : Launch) (pos : Nat) : Nat :=
  let c := l.coord pos
  let j := c.2.1 / 16 * ((l.dimX + 15) / 16) + c.1 / 16
  if (l.mapBits.getD (j / 8) 0).getLsbD (j % 8) then 1 else 0

/-- The first position from `p` on, in at most `n` steps, that a die dispenses. -/
def Launch.nextOwned (l : Launch) (die : Nat) : Nat → Nat → Nat
  | 0, p => p
  | n + 1, p => if !l.map || l.owner p = die then p else nextOwned l die n (p + 1)

/-- A range of positions without those at its head that the die does not dispense. -/
def Launch.trim (l : Launch) (die : Nat) (r : Nat × Nat) : Nat × Nat := (l.nextOwned die (r.2 - r.1) r.1, r.2)

/-- The end of a chunk of C positions that begins at `p` (R291). -/
def Launch.chunkEnd (l : Launch) (die : Nat) (hi : Nat) : Nat → Nat → Nat
  | 0, p => p
  | n + 1, p =>
    let q := l.nextOwned die (hi - p) p
    if q ≥ hi then hi else chunkEnd l die hi n (q + 1)

/-- The coordinates of a range that a die dispenses. -/
def Launch.owned (l : Launch) (die : Nat) (r : Nat × Nat) : Nat :=
  if l.map then ((List.range (r.2 - r.1)).filter (fun i => l.owner (r.1 + i) == die)).length else r.2 - r.1

/-- The range of a die that is not yet given to a core. -/
def Launch.range (l : Launch) (die : Nat) : Nat × Nat := l.trim die (l.ranges.get die (0, 0))

/-- The rest of a core's chunk. -/
def Launch.chunkOf (l : Launch) (core : Nat) : Nat × Nat := l.trim (coreDie core) (l.chunks.get core (0, 0))

/-- Coordinates not yet handed out (R69). -/
def Launch.undispensed (l : Launch) : Nat :=
  if !l.split then l.count
  else l.owned 0 (l.range 0) + l.owned 1 (l.range 1) + (l.chunks.map (fun c => l.owned (coreDie c.1) c.2)).sum

/-! Traces (R296, R464). -/

/-- Whether a die records a launch's trace. -/
def Launch.records (l : Launch) (die : Nat) : Bool := l.det && !l.replay && !l.traceOff.contains die

/-- The address of a die's half of a trace. -/
def Launch.traceBase (l : Launch) (die : Nat) : W64 := l.traceAddr + BitVec.ofNat 64 (die * l.traceCap * 32)

/-- Whether a die may hand out work of a launch: its next trace record can be written. -/
inductive Gate where
  | go
  | absent (va : W64) (level : Nat)
  | fail
  | wait
  deriving DecidableEq, Repr

/-- Look at the page of a die's next trace record (R464). -/
def State.gate (s : State) (l : Launch) (die : Nat) : Gate :=
  if !l.records die then .go
  else if (l.traceWait.find die).isSome || (l.traceHeld.get die []) != [] then .wait
  else
    let n := l.traced.get die 0
    let va := l.traceBase die + BitVec.ofNat 64 (32 * (min n (l.traceCap - 1)))
    match s.reach l.ctx true va 32 with
    | .ok | .hold => .go
    | .absent a level => .absent a level
    | .fail => .fail

/-- The bytes of a trace record (R296). -/
def TraceRec.bytes (r : TraceRec) (die : Nat) : List Byte :=
  leBytes 1 r.kind ++ leBytes 1 die ++ leBytes 2 r.ord ++ leBytes 4 (if r.incomplete then 1 else 0) ++
    leBytes 8 r.seq.toNat ++ leBytes 8 r.count.toNat ++ leBytes 8 r.handed.toNat

/-- Write a trace record, or mark the last one INCOMPLETE and stop where the half is full (R464). -/
def Prog.putTrace (id die : Nat) (r : TraceRec) : Prog :=
  .look fun s =>
    match s.launch? id with
    | none => .skip
    | some l =>
      if !l.records die then .skip
      else
        let n := l.traced.get die 0
        if n < l.traceCap then
          .seq (.dieStore (dieKey die 3) l.ctx (l.traceBase die + BitVec.ofNat 64 (32 * n)) (r.bytes die))
            (.launch id (fun l => { l with traced := l.traced.put die (n + 1) }))
        else
          .seq (.dieStore (dieKey die 3) l.ctx (l.traceBase die + BitVec.ofNat 64 (32 * (l.traceCap - 1) + 4)) (leBytes 4 1))
            (.launch id (fun l => { l with traceOff := l.traceOff ++ [die] }))

/-- The page of a launch's next trace record is absent: firmware is asked (R464). -/
def Prog.traceAbsent (id die ctx : Nat) (va : W64) (level : Nat) : Prog :=
  .look fun s => .seq (.dieFault die ctx va 1 level)
    (.launch id (fun l => { l with traceWait := l.traceWait.put die (s.faultSerialFor die ctx va) }))

/-- A die stops recording, for its page refuses the record: ACCESS is recorded in the launch scope (R464). -/
def Prog.traceFail (id die : Nat) : Prog :=
  .look fun s =>
    match s.launch? id with
    | none => .skip
    | some l =>
      .seq (.launch id (fun l => { l with traceOff := l.traceOff ++ [die], traceHeld := l.traceHeld.drop die }))
        (.recordFault ((s.home l).getD 0) 0x09 0 (128 * die + 127) (dieKey die 3) l.det)

/-- Go on with `q` where a die's trace allows it (R464): an absent page is asked for; a page that refuses the record ends
the recording, which the launch scope records. -/
def Prog.gated (id die : Nat) (q : Prog) : Prog :=
  .look fun s =>
    match s.launch? id with
    | none => q
    | some l =>
      match s.gate l die with
      | .go => q
      | .wait => .skip
      | .absent va level => .traceAbsent id die l.ctx va level
      | .fail => .seq (.traceFail id die) q

/-- A trace record is due (R464): it is written, or held where its page is absent. -/
def Prog.traceRec (id die : Nat) (r : TraceRec) : Prog :=
  .look fun s =>
    match s.launch? id with
    | none => .skip
    | some l =>
      let hold := Prog.launch id (fun l => { l with traceHeld := l.traceHeld.put die (l.traceHeld.get die [] ++ [r]) })
      match s.gate l die with
      | .go => .putTrace id die r
      | .wait => hold
      | .absent va level => .seq hold (.traceAbsent id die l.ctx va level)
      | .fail => .traceFail id die

/-- Write the records of a die that are held, as far as their pages are there (R464). -/
def Prog.traceFlush (id die : Nat) : Nat → Prog
  | 0 => .skip
  | n + 1 =>
    .look fun s =>
      match s.launch? id with
      | none => .skip
      | some l =>
        match l.traceHeld.get die [] with
        | [] => .skip
        | r :: rest =>
          match s.gate { l with traceHeld := [] } die with
          | .go => .all [.launch id (fun l => { l with traceHeld := l.traceHeld.put die rest }), .putTrace id die r, traceFlush id die n]
          | .wait => .skip
          | .absent va level => .traceAbsent id die l.ctx va level
          | .fail => .traceFail id die

/-- A record of a crew's work. -/
def crewRec (kind ord : Nat) (seq count : W64) : TraceRec := { kind, ord, incomplete := false, seq, count, handed := 0 }

/-! Replay. -/

/-- What a record is of: a crew's tasks (0), its SPAWNs (1), its QPUSHes (2), or something else. -/
def TraceRec.cls (r : TraceRec) : Nat :=
  if 1 ≤ r.kind ∧ r.kind ≤ 4 then 0 else if r.kind = 5 then 1 else if r.kind = 6 then 2 else 3

/-- The next record of a die, where it is of a crew and of a class. -/
def Launch.nextRec (l : Launch) (die cls ord : Nat) : Option TraceRec :=
  (l.ahead die).head?.filter (fun r => r.ord == ord && r.cls == cls)

/-- Whether a replay has still to follow a record of a crew and of a class. -/
def Launch.moreRecs (l : Launch) (die cls ord : Nat) : Bool := (l.ahead die).any (fun r => r.ord == ord && r.cls == cls)

/-- Whether a replay may hand out one more task of a die before the next cancel of its trace takes effect (03 R77). -/
def Launch.mayHand (l : Launch) (die : Nat) : Bool :=
  !l.replay || match (l.ahead die).find? (fun r => r.kind == 7) with
    | some r => decide (l.handed.get die 0 < r.handed.toNat)
    | none => true

/-- A replay has followed the next record of a die. -/
def Launch.follow (l : Launch) (die : Nat) : Launch := { l with replayed := l.replayed.put die (l.replayed.get die 0 + 1) }

/-- A replay has followed a record of a die. -/
def Prog.consume (id die : Nat) : Prog := .launch id (fun l => l.follow die)

/-- The crews of a die that a trace records (R296). -/
def Launch.recorded (l : Launch) (die : Nat) : Nat :=
  (l.trace.get die []).foldl (fun n r => if r.ord = 0xFFFF then n else max n (r.ord + 1)) 0

/-! Sources of tasks (R292). -/

/-- What a crew receives. -/
inductive Source where
  | none
  | entry (victim : Nat)
  | position
  | chunk
  | cede
  | ceded (die : Nat)
  | finish
  deriving DecidableEq, Repr

/-- The entries of a core's queue for a launch. -/
def Launch.queue (l : Launch) (core : Nat) : List Entry := l.queues.get core []

/-- The core that a thief takes from (R292): not one from which a lower core has stolen in this clock. -/
def Launch.victim (l : Launch) (core now : Nat) : Option Nat :=
  let gone := fun (v : Nat) => l.stolen.any (fun e => e.1 == now && e.2.2 == v && decide (e.2.1 < core))
  (l.queues.filter (fun q => coreDie q.1 == coreDie core && q.1 != core && !q.2.isEmpty && !gone q.1)).foldl
    (fun (acc : Option (Nat × Nat)) q => match acc with
      | some a => if q.2.length > a.2 then some (q.1, q.2.length) else acc
      | none => some (q.1, q.2.length)) none |>.map Prod.fst

/-- Whether every queue of a die is empty (R292). -/
def Launch.idle (l : Launch) (die : Nat) : Bool :=
  decide ((l.range die).1 ≥ (l.range die).2) && l.queues.all (fun q => coreDie q.1 != die || q.2.isEmpty)

/-- What remains for a die to cede (R292). -/
def Launch.remains (l : Launch) (die : Nat) : Nat := (l.range die).2 - (l.range die).1

/-- Tasks of a launch bound to counters: one that a cancel has detached starts no more (03 R69). -/
def State.boundTasks (s : State) (id : Nat) : Bool :=
  s.counters.any (fun e => match e.2.bind with
    | some (.task j _ _ off) => j == id && !off
    | _ => false)

/-- Every crew of a launch waits in TASKGET, or has received END (R41). -/
def State.allWait (s : State) (id : Nat) : Bool :=
  s.crews.all (fun e => e.2.launch != id || e.2.endGiven || (e.2.asked && e.2.task.isNone))

/-- END is due (R41). -/
def State.endDue (s : State) (id : Nat) (l : Launch) : Bool :=
  s.past l ||
    (l.split && l.undispensed == 0 && l.queues.all (fun q => q.2.isEmpty) && !s.boundTasks id && s.allWait id)

/-- Whether a cancel of a launch has reached Bobbin of a die: that die takes no more of its coordinates (03 R69). -/
def State.reached (s : State) (die : Nat) (l : Launch) : Bool := (s.home l).any (s.known die)

/-- Whether a crew on a lower core of a die, which has asked and has no source of its own, chooses a victim in this clock: it goes
before a higher core that chooses the same (R292). -/
def State.lowerThief (s : State) (id : Nat) (l : Launch) (core v : Nat) : Bool :=
  s.crews.any (fun e =>
    let i := e.2.core
    e.2.launch == id && coreDie i == coreDie core && decide (i < core) && e.2.asked && e.2.task.isNone && !e.2.endGiven &&
      !(s.core i).fenced && (l.queue i).isEmpty && decide ((l.chunkOf i).2 ≤ (l.chunkOf i).1) && l.victim i s.t == some v)

/-- The source that serves a crew's request (R292). -/
def State.source (s : State) (id : Nat) (l : Launch) (core : Nat) : Source :=
  let die := coreDie core
  let c := l.chunkOf core
  let r := l.range die
  let o := l.range (1 - die)
  if !(l.queue core).isEmpty then .entry core
  else if c.1 < c.2 then .position
  else if r.1 < r.2 then .chunk
  else match l.victim core s.t with
    | some v => if l.stolen.any (fun e => e.1 == s.t && e.2.2 == v) || s.lowerThief id l core v then .none else .entry v
    | none =>
      if l.split && !l.map && l.idle die && decide (o.2 - o.1 > 2 * l.chunk) && !s.reached die l then .cede
      else if s.endDue id l then .finish else .none

/-- A queue of a die whose oldest entry a cancel has met: a request removes it, and leaves no record (R69). -/
def State.doomed (s : State) (l : Launch) (die : Nat) : Option Nat :=
  (l.queues.find? (fun q => coreDie q.1 == die && match q.2 with
    | e :: _ => s.known die e.scope
    | [] => false)).map Prod.fst

/-- Whether the next record of a die is a CEDE that a replay can follow: the other die has used its range up. -/
def Launch.cedeDue (l : Launch) (die : Nat) : Bool :=
  (l.ahead die).head?.any (fun r => r.kind == 8) && decide ((l.range (1 - die)).2 ≤ (l.range (1 - die)).1)

/-- Whether a crew of a replay is to take an entry before the next position of its chunk (R292): its own SPAWN has placed the
entry at the head of its queue, and its next record says so. -/
def Launch.entryFirst (l : Launch) (die core ord : Nat) : Bool :=
  (l.queue core).head?.any Entry.own &&
    ((l.ahead die).find? (fun r => r.ord == ord && r.cls == 0)).any (fun r => r.kind == 2)

/-- The source that a replay prescribes (R296, log 31). -/
def State.replaySource (s : State) (id : Nat) (l : Launch) (core ord : Nat) : Source :=
  let die := coreDie core
  let c := l.chunkOf core
  let pos := if l.mayHand die then Source.position else .none
  let entry := fun (v : Nat) => if !(l.queue v).isEmpty && l.mayHand die then Source.entry v else .none
  if let some v := s.doomed l die then .entry v
  else if l.cedeDue 0 && !s.reached 1 l then .ceded 0
  else if l.cedeDue 1 && !s.reached 0 l then .ceded 1
  else match l.nextRec die 0 ord with
  | none => if c.1 < c.2 then (if l.entryFirst die core ord then .none else pos) else if l.moreRecs die 0 ord then .none else .finish
  | some r =>
    if r.kind = 2 && !(l.queue core).isEmpty then entry core
    else if c.1 < c.2 then pos
    else if r.kind = 1 then (if (l.range die).1 = r.seq.toNat then .chunk else .none)
    else if r.kind = 3 then
      (match s.crews.find? (fun e => e.2.launch == id && coreDie e.2.core == die && e.2.ordinal == r.count.toNat) with
       | some e => entry e.2.core
       | none => .none)
    else if r.kind = 4 && s.endDue id l then .finish
    else .none

/-- Hand a task to every participant that waits (R39). One of a cancelled subtree that comes to a core after the cancel is
killed there before a participant receives it, and the crew asks on (R66, R69). -/
def Prog.hand (key : Nat) (t : Task) : Prog :=
  .look fun s =>
    match s.crew? key with
    | none => .skip
    | some c =>
      if s.known (16 + c.core) t.scope then .seq (.count t.scope 1 0 0 0) (.endWork t.scope 1)
      else .all [
        .crew key (fun c => { c with task := some t, asked := false, killed := false, dones := [] }),
        .each (c.parts key) (fun k => .deliver k t.record false),
        .saveAgain key]

/-- The ordinal of the crew of a launch on a core. -/
def State.ordinalAt (s : State) (id core : Nat) : Nat :=
  ((s.crews.find? (fun e => e.2.launch == id && e.2.core == core)).map (fun e => e.2.ordinal)).getD 0

/-- Count an entry handed out by a die. -/
def Prog.countHanded (id die : Nat) : Prog := .launch id (fun l => { l with handed := l.handed.put die (l.handed.get die 0 + 1) })

/-- Take the oldest entry of a core's queue (R69, R292, R293): one whose scope is cancelled is removed, else it is handed
to the crew. -/
def Prog.takeEntry (id key : Nat) (l : Launch) (c : Crew) (victim : Nat) : Prog :=
  .look fun s =>
    match l.queue victim with
    | [] => .skip
    | e :: rest =>
      let die := coreDie c.core
      let pop := Prog.launch id (fun l => { l with queues := l.queues.put victim rest })
      if s.known die e.scope then .all [pop, .count e.scope 0 1 0 0, .endWork e.scope 1]
      else
        let n := l.dequeued.get die 0
        let seq := ((if l.replay then l.nextRec die 0 c.ordinal else none).map TraceRec.seq).getD
          (BitVec.ofNat 64 (2 ^ 63 + 2 ^ 62 * die + n % 2 ^ 32))
        let own := victim == c.core
        .gated id die (.all [
          pop,
          .launch id (fun l => { l with
            dequeued := l.dequeued.put die (n + 1)
            stolen := if own then l.stolen else l.stolen.filter (fun e => e.1 == s.t) ++ [(s.t, c.core, victim)] }),
          .countHanded id die,
          .traceRec id die (crewRec (if own then 2 else 3) c.ordinal seq (if own then 0 else BitVec.ofNat 64 (s.ordinalAt id victim))),
          .when l.replay (.consume id die),
          .hand key { kind := 2, scope := e.scope, payload := e.body, seq }])

/-- Hand the next position of the core's chunk to its crew (R292, R293). -/
def Prog.takePosition (id key : Nat) (l : Launch) (c : Crew) : Prog :=
  let r := l.chunkOf c.core
  let p := l.coord r.1
  .all [
    .launch id (fun l => { l with chunks := l.chunks.put c.core (r.1 + 1, r.2) }),
    .countHanded id (coreDie c.core),
    .addWork l.scope 1,
    .hand key { kind := 1, scope := l.scope, seq := BitVec.ofNat 64 r.1
                payload := [BitVec.ofNat 64 p.1, BitVec.ofNat 64 p.2.1, BitVec.ofNat 64 p.2.2, 0] }]

/-- Give a core a new chunk (R291), or, in a replay, the chunk of the trace. -/
def Prog.newChunk (id : Nat) (l : Launch) (c : Crew) : Prog :=
  let die := coreDie c.core
  let r := l.range die
  let chunk := match (if l.replay then l.nextRec die 0 c.ordinal else none) with
    | some t => (t.seq.toNat, t.seq.toNat + t.count.toNat)
    | none => (r.1, l.chunkEnd die r.2 l.chunk r.1)
  .gated id die (.all [
    .launch id (fun l => { l with
      chunks := l.chunks.put c.core chunk
      ranges := l.ranges.put die (chunk.2, r.2) }),
    .traceRec id die (crewRec 1 c.ordinal (BitVec.ofNat 64 chunk.1) (BitVec.ofNat 64 (chunk.2 - chunk.1))),
    .when l.replay (.consume id die)])

/-- The other die cedes the upper half of what remains (R292, R464). -/
def Prog.takeCede (id : Nat) (l : Launch) (die : Nat) : Prog :=
  let o := l.range (1 - die)
  let n := (o.2 - o.1) / 2
  .gated id (1 - die) (.all [
    .launch id (fun l => { l with ranges := (l.ranges.put (1 - die) (o.1, o.2 - n)).put die (o.2 - n, o.2) }),
    .traceRec id (1 - die) (crewRec 8 0xFFFF (BitVec.ofNat 64 (o.2 - n)) (BitVec.ofNat 64 n))])

/-- A replay follows a CEDE record of a die (R296, R464). -/
def Prog.followCede (id : Nat) (l : Launch) (die : Nat) : Prog :=
  match l.ahead die with
  | r :: _ =>
    let n := r.seq.toNat
    .launch id (fun l => { l.follow die with
      ranges := (l.ranges.put die ((l.range die).1, n)).put (1 - die) (n, n + r.count.toNat) })
  | [] => .skip

/-- The crew receives END (R40, R41). -/
def Prog.giveEnd (id key : Nat) (l : Launch) (c : Crew) : Prog :=
  let die := coreDie c.core
  .gated id die (.all [
    .launch id (fun l => { l with endBegun := true }),
    .traceRec id die (crewRec 4 c.ordinal 0 0),
    .when (l.replay && (l.nextRec die 0 c.ordinal).isSome) (.consume id die),
    .crew key (fun c => { c with endGiven := true, asked := false }),
    .each (c.parts key) (fun k => .deliver k (endRecord l.scope) true),
    .checkCrew key])

/-- TASK_DELIVERY (R39, R41, R292): Bobbin serves a crew's request; a fenced core receives no task (01 R23). The request of a crew that is saved stays, and what it
is given waits for its TASKGET (23 R424). -/
def taskDelivery (key : Nat) : Prog :=
  .look fun s =>
    match s.crew? key with
    | none => .skip
    | some c =>
      match s.launch? c.launch with
      | none => .skip
      | some l =>
        let id := c.launch
        let die := coreDie c.core
        if !s.powered || !c.asked || c.task.isSome || c.endGiven || (s.ctx l.ctx).out then .skip
        else if (l.traceWait.find die).isSome || l.traceHeld.get die [] != [] then .skip
        else
          let src := if s.past l then .finish
            else if (s.core c.core).fenced then (if s.endDue id l then .finish else .none)
            else if l.replay then s.replaySource id l c.core c.ordinal else s.source id l c.core
          match src with
          | .none => .skip
          | .entry v => .takeEntry id key l c v
          | .position => .takePosition id key l c
          | .chunk => .newChunk id l c
          | .cede => .takeCede id l die
          | .ceded d => .followCede id l d
          | .finish => .giveEnd id key l c

/-! Admission (R290). -/

/-- Slots of a core that no band holds, by port. -/
def State.freeSlots (s : State) (core port : Nat) : List Nat :=
  ((List.range 16).map (fun i => 4 * i + port)).filter (fun n => (s.agents.find (agentAt core n)).isNone)

/-- The lowest free slots round-robin over the ports, from the port with the most free ones (R36): `n` of them, or fewer
where there are no more. -/
def slotsFrom : Nat → Nat → List (List Nat) → List Nat
  | 0, _, _ => []
  | n + 1, p, ports =>
    match (List.range 4).findSome? (fun i =>
        let q := (p + i) % 4
        match ports.getD q [] with
        | x :: _ => some (q, x)
        | [] => none) with
    | none => []
    | some (q, x) => x :: slotsFrom n (q + 1) ((List.range 4).map (fun i => if i = q then (ports.getD i []).drop 1 else ports.getD i []))

/-- The band slots that a crew of `n` bands takes (R36). -/
def State.pickSlots (s : State) (core n : Nat) : List Nat :=
  let ports := (List.range 4).map (s.freeSlots core)
  let first := (List.range 4).foldl (fun b i => if (ports.getD i []).length > (ports.getD b []).length then i else b) 0
  slotsFrom n first ports

/-- Resident crews of a core. -/
def State.resident (s : State) (core : Nat) : List (Nat × Crew) := s.crews.filter (fun e => e.2.core == core && e.2.saved.isNone)

/-- General slots in use on a core (R88). -/
def State.slotsUsed (s : State) (core : Nat) : Nat :=
  ((s.resident core).map (fun e => (e.2.bands.map (fun k => (s.agent k).g)).sum)).sum

/-- The lowest offset of a core's carved ways with room for an allocation (R156). -/
def State.padPlace (s : State) (core size : Nat) : Option Nat :=
  let used := (s.resident core).map (fun e => (e.2.scratchBase, e.2.scratchSize))
  let limit := (s.core core).w * 2 ^ 18
  let fits := fun (o : Nat) => decide (o + size ≤ limit) &&
    used.all (fun u => u.2 == 0 || size == 0 || decide (o + size ≤ u.1) || decide (u.1 + u.2 ≤ o))
  if size = 0 then some 0
  else ((0 :: used.map (fun u => u.1 + u.2)).filter fits).foldl (fun (m : Option Nat) o => match m with
    | some x => some (min x o)
    | none => some o) none

/-- The lowest free control context of a core: a saved crew's commands do not hold it. -/
def State.freeCtx (s : State) (core : Nat) : Option Nat :=
  (List.range 8).find? (fun x => !(s.resident core).any (fun e => e.2.ctx == x))

/-- The accumulator tiles of a core that crews hold, resident or saved in place (R237, R307). -/
def State.accsUsed (s : State) (core : Nat) : List Nat :=
  (s.crews.filter (fun e => e.2.core == core && !e.2.reclaimed)).flatMap (fun e => e.2.accs)

/-- The resources of a crew on a core: slots, scratchpad offset, context, tile entries, accumulator tiles (R290). -/
structure Room where
  slots : List Nat
  pad : Nat
  ctx : Nat
  tiles : List Nat
  accs : List Nat

/-- Find room for a crew on a core (R290); `accs` names the accumulator tiles that it already holds there. -/
def State.room (s : State) (core bands g pad tiles : Nat) (naccs : Nat) (accs : Option (List Nat)) : Option Room :=
  let slots := s.pickSlots core bands
  let freeT := (List.range 128).filter (fun i => !((s.resident core).flatMap (fun e => e.2.tiles.map Prod.snd)).contains i)
  let freeA := (List.range 32).filter (fun i => !(s.accsUsed core).contains i)
  match s.padPlace core pad, s.freeCtx core with
  | some o, some x =>
    if slots.length = bands && decide (s.slotsUsed core + bands * g ≤ 6144) && decide (tiles ≤ freeT.length) &&
        (accs.isSome || decide (naccs ≤ freeA.length)) then
      some { slots, pad := o, ctx := x, tiles := freeT.take tiles, accs := accs.getD (freeA.take naccs) }
    else none
  | _, _ => none

/-- Room for a crew of a launch. -/
def State.roomFor (s : State) (core : Nat) (k : Kernel) : Option Room :=
  s.room core k.bands k.g k.scratch k.tiles.length k.acc none

/-- The effective priority of a launch that waits for admission (R290). -/
def Launch.effPrio (l : Launch) : Nat := l.prio - l.ageSteps

/-- Whether a core has, or has had, its one crew of a launch (R290). -/
def State.admittedOn (s : State) (id : Nat) (l : Launch) (core : Nat) : Bool :=
  l.admitted.contains core || s.crews.any (fun e => e.2.launch == id && e.2.core == core)

/-- Whether a launch waits for admission on a core: from the clock after its start on, so that launches which start in one
clock are ordered whatever is processed first in it (02 R45, log 95). -/
def State.waitsOn (s : State) (id : Nat) (l : Launch) (core : Nat) : Bool :=
  (l.phase == .waiting || l.phase == .running) && !(s.core core).fenced && !s.gone l && decide (l.startAt / Config.clock < s.clocks) && !(s.ctx l.ctx).out &&
    !s.admittedOn id l core &&
    (!l.replay || decide (l.crewsOf.get (coreDie core) 0 < l.recorded (coreDie core)))

/-- A new agent of a crew (R37). -/
def newAgentOf (l : Launch) (key : Nat) (kind : AgentKind) (band : Nat) (entry : W64) (lanes now : Nat) : Agent :=
  { kind
    live := true
    crew := key
    band
    threads := (List.range lanes).map (fun i => (i, { pc := entry, restart := entry, st := .ready }))
    seed := if kind = .band then l.seed else 0
    check := kind == .band && l.check
    det := l.det
    monitor := if kind = .band then l.monitor else 0
    n := if kind = .band then l.kernel.n else 0
    g := if kind = .band then l.kernel.g else 0
    mqprio := l.prio
    eligibleSince := now
    lastRunEnd := now }

/-- A crew is placed on a core (R36, R37, R156, R208, R237). -/
def Prog.placeCrew (id core : Nat) (l : Launch) (r : Room) : Prog :=
  .look fun s =>
    let key := ctxKey core r.ctx
    let kk := l.kernel
    let hasCtl := kk.control != 0
    let keys := r.slots.map (agentAt core)
    let base := Space.scratchAt core r.pad
    let decl := r.tiles.zip kk.tiles
    .all [
      .upd (fun s => { s with
        crews := s.crews.put key {
          core
          launch := id
          bands := keys
          ordinal := l.crewsOf.get (coreDie core) 0
          hasCtl
          member := !l.formed
          ctx := r.ctx
          scratchBase := r.pad
          scratchSize := kk.scratch
          accs := r.accs
          tiles := decl.foldl (fun t e => t.put e.2.1 e.1) [] } }),
      .each ((List.range keys.length).zip keys) (fun e =>
        .newAgent e.2 (newAgentOf l key .band e.1 kk.entry 32 s.t)),
      .newAgent key (newAgentOf l key .ctl 0 kk.control (if hasCtl then 1 else 0) s.t),
      .act (.clear base (base + kk.scratch)),
      .upd (fun s => { s with poison := s.poison.filter (fun x => !(decide (base < 32 * x + 32) && decide (32 * x < base + kk.scratch))) }),
      .core core (fun c => { c with
        tiles := decl.foldl (fun t e =>
          t.put e.1 ((e.2.2 &&& ~~~(0x3F#128 <<< 106)) ||| BitVec.ofNat 128 (2 ^ 107 * r.ctx + 2 ^ 106))) c.tiles
        accs := r.accs.foldl (fun t i => t.put i {}) c.accs }),
      .launch id (fun l => { l with
        phase := .running
        admitted := core :: l.admitted
        crewsOf := l.crewsOf.put (coreDie core) (l.crewsOf.get (coreDie core) 0 + 1) })]

/-- Whether one launch goes before another: by effective priority, then in the order in which their LAUNCH packets were
processed, in one clock by die and slot (R290, 02 R45). -/
def Launch.before (x y : Nat × Launch) : Bool :=
  let key := fun (e : Nat × Launch) => [e.2.effPrio, e.2.processed, e.2.die, e.2.slot, e.1]
  decide (List.lt (key x) (key y))

/-- CREW_ADMISSION (R290): the first launch in order that fits on the core. -/
def crewAdmission (id core : Nat) : Prog :=
  .look fun s =>
    match s.launch? id with
    | none => .skip
    | some l =>
      let better := fun (e : Nat × Launch) => s.waitsOn e.1 e.2 core && (s.roomFor core e.2.kernel).isSome && Launch.before e (id, l)
      if !s.powered || core % 128 ≥ Config.cores || core ≥ 256 || !s.waitsOn id l core || s.launches.any better then .skip
      else match s.roomFor core l.kernel with
        | none => .skip
        | some r => .placeCrew id core l r

/-- LAUNCH_AGEING (R290): another complete 64 µs since the LAUNCH was processed. -/
def launchAgeing (id : Nat) : Prog :=
  .look fun s =>
    match s.launch? id with
    | none => .skip
    | some l =>
      .when (s.powered && (l.phase == .waiting || l.phase == .running) && decide (l.processed + (l.ageSteps + 1) * 64 * Config.usec ≤ s.t) &&
          decide (l.ageSteps < l.prio))
        (.launch id (fun l => { l with ageSteps := l.ageSteps + 1 }))

/-- Whether every core that is not fenced has admitted a launch (R290). -/
def State.allAdmitted (s : State) (id : Nat) (l : Launch) : Bool :=
  [0, 1].all (fun die => (List.range Config.cores).all (fun c =>
    (s.core (128 * die + c)).fenced || s.admittedOn id l (128 * die + c)))

/-- Whether a launch that runs is to be split now (R290): every core has admitted, or 50 µs have gone by since it started,
or, later, with the first admission; a replay once it has its recorded crews (R296). -/
def State.splitDue (s : State) (id : Nat) (l : Launch) : Bool :=
  let c0 := l.crewsOf.get 0 0
  let c1 := l.crewsOf.get 1 0
  l.phase == .running && !l.formed &&
    if l.replay then decide (l.recorded 0 ≤ c0) && decide (l.recorded 1 ≤ c1)
    else s.allAdmitted id l || (decide (l.startAt + 50 * Config.usec ≤ s.t) && decide (0 < c0 + c1))

/-- LAUNCH_SPLIT (R290, R296, R381): the index space is split by the admitted cores; the crews admitted so far are the
members of the launch's GBAR, which completes no generation before. A MAP launch is not split; its members are fixed at the same moment (log 95). -/
def launchSplit (id : Nat) : Prog :=
  .look fun s =>
    match s.launch? id with
    | none => .skip
    | some l =>
      let c0 := l.crewsOf.get 0 0
      let c1 := l.crewsOf.get 1 0
      if !s.powered || s.gone l || !s.splitDue id l then .skip
      else
        let n0 := l.count * c0 / (c0 + c1)
        .seq
          (.launch id (fun l => { l with
            formed := true
            split := true
            ranges := if l.map then l.ranges else [(0, (0, n0)), (1, (n0, l.count))] }))
          (.upd (fun s => { s with
            crews := s.crews.map (fun e => (e.1, if e.2.launch = id then { e.2 with member := true } else e.2)) }))

/-! GBAR (R381, R382). -/

/-- Whether a participant has arrived at the launch's GBAR: its threads stand at it, no token but those of its own GBARs
is counted, and FENCE.DEV's condition holds. -/
def State.atGbar (s : State) (k : Nat) : Bool :=
  let a := s.agent k
  let own := fun (t : Nat) => (a.gbarDest.filter (fun d => d.2 == some t)).length
  a.gbarIn || (a.stMask (· == .gbar) == a.liveMask && (List.range 8).all (fun t => a.tok t == own t) && s.devFence k s.nextId)

/-- The threads of an agent that leave the GBAR: those that wait there; of one that has arrived every thread stands at its
GBAR, also after a restore (13 R306). -/
def Agent.atGate (a : Agent) : W32 := if a.gbarIn then a.liveMask else a.stMask (· == .gbar)

/-- A participant leaves the GBAR with a status (R381): its results are written, its tokens released, its threads go on. -/
def State.leaveGbar (s : State) (w : W64) (a : Agent) : Agent :=
  let a := a.gbarDest.foldl (fun a d =>
    let a := s.lateS d.1 w false a
    match d.2 with
    | some t => a.untok t s.t
    | none => a) a
  { a.mapThreads a.atGate (fun _ t => { t with pc := t.pc + 8, restart := t.pc + 8, st := .ready }) with
    gbarDest := [], gbarIn := false, eligibleSince := s.t }

/-- The members of a launch's GBAR that still count: crews with a participant that has a non-exited thread (R381). -/
def State.gbarCrews (s : State) (id : Nat) : List (Nat × Crew) :=
  s.crews.filter (fun e => e.2.launch == id && e.2.member && (e.2.parts e.1).any (fun k => (s.agent k).liveMask != 0))

/-- GBAR_RELEASE (R381, R382): the generation completes; or the launch scope lies in a cancelled subtree, and every waiter
is released with CANCELLED, once the cancel has reached every unit: a waiter whose task it kills lands at its next kill point
(03 R69, log 102). -/
def gbarRelease (id : Nat) : Prog :=
  .look fun s =>
    match s.launch? id with
    | none => .skip
    | some l =>
      let cs := s.gbarCrews id
      let ks := cs.flatMap (fun e => (e.2.parts e.1).filter (fun k => (s.agent k).liveMask != 0))
      let anyWait := ks.any (fun k => (s.agent k).atGate != 0)
      let again := Prog.each (cs.filter (fun e => e.2.saved.isSome)) (fun e => .saveAgain e.1)
      if !s.powered || !anyWait then .skip
      else if s.gone l then
        .when (!(s.home l).any s.casting) (.seq (.each ks (fun k => .agent k (s.leaveGbar 1))) again)
      else if !l.formed || !ks.all s.atGbar then .skip
      else
        let gen := l.gbarGen + 1
        .seq (.launch id (fun l => { l with gbarGen := gen }))
          (.seq (.each ks (fun k => .agent k (s.leaveGbar (BitVec.ofNat 64 (gen % 2 ^ 32 * 2 ^ 32))))) again)

/-- TASK_DELIVERY (R39). -/
def execTaskDelivery (crew : Nat) (s : State) : Host.Outcome State Fault Refusal := done (taskDelivery crew) s

/-- CREW_ADMISSION (R290). -/
def execCrewAdmission (launch core : Nat) (s : State) : Host.Outcome State Fault Refusal := done (crewAdmission launch core) s

/-- LAUNCH_AGEING (R290). -/
def execLaunchAgeing (launch : Nat) (s : State) : Host.Outcome State Fault Refusal := done (launchAgeing launch) s

/-- LAUNCH_SPLIT (R290). -/
def execLaunchSplit (launch : Nat) (s : State) : Host.Outcome State Fault Refusal := done (launchSplit launch) s

/-- GBAR_RELEASE (R381). -/
def execGbarRelease (launch : Nat) (s : State) : Host.Outcome State Fault Refusal := done (gbarRelease launch) s

end Sys2Proof.Machine
end

