-- ==== Sys2Proof/Machine/Copies.lean ====
section
/-!
DEFINITION. COPY, CCOPY and HALO: their checks at issue (09 R216 to R222, 20 R357 to R360, 21 R383), their segments
(R218, R219), the bitmap (R220), surfaces and halos (11 R275 to R277), and their completion (R212, R215).
-/

namespace Sys2Proof.Machine

/-! Geometry. -/

/-- What a copy moves: rows, whether each end is in the crew's scratchpad, and for each row its source, its destination
and its bytes (R217). -/
structure Plan where
  rows : Nat
  srcPad : Bool
  dstPad : Bool
  row : Nat → W64 × W64 × Nat

/-- A piece of a segment: source, destination, bytes. -/
abbrev Piece := W64 × W64 × Nat

/-- The segment that begins at a position (row, byte): the pieces that follow one another within one 4 KiB block of the
destination, and the position after them (R218). -/
def Plan.seg (p : Plan) : Nat → Option Nat → Nat × Nat → List Piece × (Nat × Nat)
  | 0, _, pos => ([], pos)
  | n + 1, blk, (i, off) =>
    if i ≥ p.rows then ([], (i, off))
    else
      let (src, dst, len) := p.row i
      if off ≥ len then p.seg n blk (i + 1, 0)
      else
        let d := dst + BitVec.ofNat 64 off
        let b := d.toNat / 4096
        if blk.isSome && blk != some b then ([], (i, off))
        else
          let k := min (len - off) (4096 - d.toNat % 4096)
          let r := p.seg n (some b) (i, off + k)
          ((src + BitVec.ofNat 64 off, d, k) :: r.1, r.2)

/-- The segment at a position. -/
def Plan.segment (p : Plan) (pos : Nat × Nat) : List Piece × (Nat × Nat) := p.seg (2 * p.rows + 8) none pos

/-- The position after a number of segments. -/
def Plan.after (p : Plan) : Nat → Nat × Nat
  | 0 => (0, 0)
  | n + 1 => (p.segment (p.after n)).2

/-- The pieces of segment `n`; none when the plan has no such segment. -/
def Plan.pieces (p : Plan) (n : Nat) : List Piece := (p.segment (p.after n)).1

/-- A range of virtual addresses cut at multiples of 4 KiB. -/
def cut4K (va : W64) (n : Nat) : List (W64 × Nat) :=
  let k := min n (4096 - va.toNat % 4096)
  (va, k) :: (if n - k = 0 then [] else [(va + BitVec.ofNat 64 k, n - k)])

/-! Surfaces (R275 to R277). -/

/-- A surface (R275). -/
structure Surface where
  base : W64
  width : Nat
  height : Nat
  halo : Nat
  map : W64
  haloBase : W64
  deriving DecidableEq, Repr

/-- Read a surface descriptor's 64 bytes; none where it is malformed (R275). -/
def Surface.ofBytes (bs : List Byte) : Option Surface :=
  let n := fun (off len : Nat) => leNat ((bs.drop off).take len)
  let s : Surface :=
    { base := BitVec.ofNat 64 (n 0 8)
      width := n 8 2
      height := n 10 2
      halo := n 13 1
      map := BitVec.ofNat 64 (n 16 8)
      haloBase := BitVec.ofNat 64 (n 24 8) }
  if n 0 8 % 2 ^ 16 = 0 && s.width % 256 = 0 && s.width ≤ 16384 && s.height % 16 = 0 && s.height ≤ 16384 &&
      n 12 1 = 16 && s.halo ≤ 32 && n 14 2 = 0 && n 24 8 % 2 ^ 16 = 0 && n 32 32 = 0 then some s
  else none

/-- The offset of a pixel's record in its surface (R275). -/
def Surface.offset (s : Surface) (x y : Nat) : Nat :=
  8192 * (y / 16 * (s.width / 16) + x / 16) + 32 * (y % 16 * 16 + x % 16)

/-- Whether a pixel lies in a surface. -/
def Surface.inside (s : Surface) (x y : Int) : Bool := decide (0 ≤ x) && decide (x < s.width) && decide (0 ≤ y) && decide (y < s.height)

/-- The bytes of a surface's ownership map (R276). -/
def Surface.mapBytes (s : Surface) : Nat := (s.width / 256 * ((s.height + 255) / 256) + 7) / 8

/-- The die of a pixel's region, from the bytes of the map (R276). -/
def Surface.die (s : Surface) (map : List Byte) (x y : Nat) : Nat :=
  let j := y / 256 * (s.width / 256) + x / 256
  if (map.getD (j / 8) 0).getLsbD (j % 8) then 1 else 0

/-- The fields of HALO's S-register (R222). -/
structure Strip where
  col : Nat
  row : Nat
  sides : Nat
  width : Nat

/-- Read them. -/
def Strip.ofWord (w : W64) : Strip :=
  let n := w.toNat
  { col := bitsOf n 15 0, row := bitsOf n 31 16, sides := bitsOf n 35 32, width := bitsOf n 41 36 }

/-- A side of a strip is named. -/
def Strip.side (s : Strip) (i : Nat) : Bool := s.sides / 2 ^ i % 2 == 1

/-- The pixels of a rectangle, row by row: first column and row, and its size. -/
def rect (x0 y0 : Int) (w h : Nat) : List (Int × Int) :=
  (List.range h).flatMap (fun (j : Nat) => (List.range w).map (fun (i : Nat) => (x0 + (i : Int), y0 + (j : Int))))

/-- The pixels that HALO copies (R277): the strips of the named sides, extended over the corner where two adjacent sides
are named, inside the surface and in regions of the other die. -/
def Strip.pixels (t : Strip) (s : Surface) (map : List Byte) (die : Nat) : List (Nat × Nat) :=
  let h := min t.width s.halo
  let x0 : Int := 256 * t.col
  let y0 : Int := 256 * t.row
  let ext := fun (i : Nat) => if t.side i then h else 0
  let tall := 256 + ext 2 + ext 3
  let wide := 256 + ext 0 + ext 1
  let l := (if t.side 0 then rect (x0 - h) (y0 - ext 2) h tall else []) ++
    (if t.side 1 then rect (x0 + 256) (y0 - ext 2) h tall else []) ++
    (if t.side 2 then rect (x0 - ext 0) (y0 - h) wide h else []) ++
    (if t.side 3 then rect (x0 - ext 0) (y0 + 256) wide h else [])
  (l.filter (fun e => s.inside e.1 e.2)).filterMap (fun e =>
    let x := e.1.toNat
    let y := e.2.toNat
    if s.die map x y = die then none else some (x, y))

/-- Pixels with those of one 4 KiB block of the halo area together, so that a segment is such a block (R218). -/
def Surface.blocks (s : Surface) (ps : List (Nat × Nat)) : List (Nat × Nat) :=
  let block := fun (e : Nat × Nat) => s.offset e.1 e.2 / 4096
  ((ps.map block).eraseDups).flatMap (fun b => ps.filter (fun e => block e == b))

/-- What a HALO moves, once its descriptor and map are read. -/
def haloPlan (die : Nat) (c : Cmd) : Plan :=
  match Surface.ofBytes (c.data.take 64) with
  | none => { rows := 0, srcPad := false, dstPad := false, row := fun _ => (0, 0, 0) }
  | some s =>
    let ps := s.blocks ((Strip.ofWord (c.regs.getD 0 0)).pixels s (c.data.drop 64) die)
    { rows := ps.length
      srcPad := false
      dstPad := false
      row := fun i =>
        let e := ps.getD i (0, 0)
        let o := BitVec.ofNat 64 (s.offset e.1 e.2)
        (s.base + o, s.haloBase + o, 32) }

/-- What a COPY or CCOPY moves (R217, R358). -/
def State.copyPlan (s : State) (key : Nat) (c : Cmd) : Plan :=
  let r := fun (i : Nat) => c.regs.getD i 0
  let srcPad := c.f.mb 0
  let dstPad := c.kind == .copy && c.f.mb 1
  let end_ := fun (pad : Bool) (tile : Nat) (a st : W64) =>
    if pad then
      let t := (s.tile? key tile).getD 0
      (BitVec.ofNat 64 (tOffset t), BitVec.ofNat 64 (tPitch t))
    else (a, st)
  let (s0, ss) := end_ srcPad (c.f.x 57 52) (r 4) (r 2)
  let (d0, ds) := end_ dstPad (c.f.x 51 46) (r 5) (r 3)
  { rows := if r 1 = 0 then 0 else (r 0).toNat
    srcPad
    dstPad
    row := fun i => (s0 + BitVec.ofNat 64 i * ss, d0 + BitVec.ofNat 64 i * ds, (r 1).toNat) }

/-- What a copy-engine command moves. -/
def State.plan (s : State) (core cx : Nat) (c : Cmd) : Plan :=
  if c.kind = .halo then haloPlan (coreDie core) c else s.copyPlan (ctxKey core cx) c

/-- Whether rows rise without overlap or wrap, so that no line is written in two segments apart; a HALO's segments are whole
blocks (R218). -/
def Plan.rising (p : Plan) : Bool :=
  p.rows ≤ 1 ||
    (let a := p.row 0
     let b := p.row 1
     let last := p.row (p.rows - 1)
     decide ((b.2.1 - a.2.1).toNat < 2 ^ 63) && decide (a.2.2 ≤ (b.2.1 - a.2.1).toNat) &&
       decide (a.2.1.toNat + (p.rows - 1) * (b.2.1 - a.2.1).toNat + last.2.2 < 2 ^ 64))

/-! Issue. -/

/-- The lines of a plan's global destination on pages that translate and permit writes now, from a position on (R195);
`page` keeps those of one page. -/
def State.destLines (s : State) (core ctx : Nat) (p : Plan) (page : Option Nat) : List Nat :=
  if p.dstPad then []
  else
    ((List.range p.rows).flatMap (fun i =>
      let (_, dst, len) := p.row i
      let first := dst.toNat / 128
      let n := if len = 0 then 0 else (dst.toNat % 128 + len + 127) / 128
      (List.range n).filterMap (fun j =>
        let va := BitVec.ofNat 64 (128 * (first + j))
        if page.isSome && page != some (pageOf va) then none
        else match s.xlatCore core ctx va with
          | .ok t => if t.place = .slice && t.w then some (lineOf t.addr) else none
          | _ => none))).eraseDups

/-- A copy-engine command takes its destination lines (R195). -/
def Prog.ownDest (core cx id : Nat) (page : Option Nat) : Prog :=
  .look fun s =>
    match ((s.core core).queue false cx).find? (fun c => c.id == id) with
    | none => .skip
    | some c => .each (s.destLines core (s.ctxOf (ctxKey core cx)) (s.plan core cx c) page) (.own core cx id)

/-- The trap of an end that is a tile, where its entry or its geometry does not fit (R213, R217). -/
def State.endTrap (s : State) (key tile : Nat) (rows bpr : W64) : Option (Nat × W64) :=
  match s.tile? key tile with
  | none => some (0x0E, tileTaddr 3 tile)
  | some t => if rows.toNat ≠ tRows t || bpr.toNat ≠ tPitch t then some (0x0E, tileTaddr 4 tile) else none

/-- Whether a CCOPY's version word lies in its destination (R221). -/
def versionInside (rows bpr : Nat) (dst stride va : W64) : Bool :=
  (List.range rows).any (fun i =>
    let off := (va - (dst + BitVec.ofNat 64 i * stride)).toNat
    decide (off < bpr) || (decide (0 < bpr) && decide (off > 2 ^ 64 - 8)))

/-- The checks of COPY and CCOPY at issue, in order: designator, geometry, source tile, destination tile, bitmap,
version word (R217, R220, R221). -/
def copyTrap (s : State) (p : Pkt) (ccopy : Bool) : Option (Nat × W64) :=
  let r := s.regs p.k
  let key := (s.agent p.k).crew
  let g := fun (i : Nat) => r.s (p.f.d.toNat + i)
  let bad := badDesignator p.f.cnt || decide ((g 0).toNat > 65536) || decide ((g 1).toNat > 2 ^ 24)
  if bad then some (0x11, 1)
  else match (if p.f.mb 0 then s.endTrap key (p.f.x 57 52) (g 0) (g 1) else none) with
    | some t => some t
    | none =>
      if ccopy then
        let va := r.s (p.f.x 11 6)
        if (g 0).toNat * (g 1).toNat > 65536 then some (0x11, 2)
        else if va.toNat % 8 ≠ 0 || versionInside (g 0).toNat (g 1).toNat (r.s p.f.b.toNat) (g 3) va then some (0x11, 3)
        else none
      else match (if p.f.mb 1 then s.endTrap key (p.f.x 51 46) (g 0) (g 1) else none) with
        | some t => some t
        | none =>
          if !p.f.mb 2 then none
          else if p.f.mb 1 && ((s.tile? key (p.f.x 51 46)).any tBitmap) then none
          else some (0x0E, tileTaddr 6 (p.f.x 51 46))

/-- Whether a crew's tile is in a state. -/
def State.tileIs (s : State) (key n st : Nat) : Bool := (s.tile? key n).any (fun t => tState t == st)

/-- The registers that a COPY or CCOPY reads, in the order of the save area (R305). -/
def copyRegs (s : State) (p : Pkt) (ccopy : Bool) : List W64 :=
  let r := s.regs p.k
  let g := (List.range 4).map (fun i => r.s (p.f.d.toNat + i))
  g ++ [if p.f.mb 0 then 0 else r.s p.f.a.toNat, if p.f.mb 1 then 0 else r.s p.f.b.toNat, r.s p.f.scopeReg] ++
    (if ccopy then [r.s (p.f.x 11 6), r.s (p.f.x 5 0)] else [])

/-- COPY and CCOPY at issue (R206, R211, R357). -/
def copyMeaning (ccopy : Bool) : Meaning where
  reads := fun _ p => (List.range 4).map (fun i => .s (p.f.d.toNat + i)) ++
    (if p.f.mb 0 then [] else [.s p.f.a.toNat]) ++ (if p.f.mb 1 then [] else [.s p.f.b.toNat]) ++ [.s p.f.scopeReg] ++
    (if ccopy then [.s (p.f.x 11 6), .s (p.f.x 5 0)] else [])
  body := fun s p =>
    match copyTrap s p ccopy with
    | some (c, ta) => .trap c ta
    | none =>
      let key := (s.agent p.k).crew
      let core := coreOf p.k
      let cx := unitOf p.k - 64
      let dst := p.f.x 51 46
      let ready := (!p.f.mb 0 || s.tileIs key (p.f.x 57 52) 2) && (!p.f.mb 1 || s.tileIs key dst 0)
      issueCmd s p (if ccopy then .ccopy else .copy) p.f.cnt p.f.scopeReg (copyRegs s p ccopy) ready (fun id =>
        if ccopy then .skip
        else if p.f.mb 1 then .moveTile key dst 1 0
        else .ownDest core cx id none)

/-! Segments. -/

/-- What the engine meets when it translates the ends of a segment. -/
inductive Meets where
  | ok
  | absent (va : W64) (access level : Nat)
  | fault
  deriving DecidableEq, Repr

/-- Look at one range of an engine's access. -/
def State.meets (s : State) (core ctx : Nat) (write : Bool) (va : W64) (n : Nat) : Meets :=
  (cut4K va n).foldl (fun m e => match m with
    | .ok => match s.xlatCore core ctx e.1 with
      | .access => .fault
      | .absent l => .absent e.1 (if write then 1 else 0) l
      | .ok t => if (if write then t.w else t.r) then .ok else .fault
    | m => m) .ok

/-- Look at the ends of a segment, source before destination. -/
def State.segMeets (s : State) (core ctx : Nat) (p : Plan) (ps : List Piece) : Meets :=
  ps.foldl (fun m e => match m with
    | .ok => match (if p.srcPad then .ok else s.meets core ctx false e.1 e.2.2) with
      | .ok => if p.dstPad then .ok else s.meets core ctx true e.2.1 e.2.2
      | m => m
    | m => m) .ok

/-- The targets of a range, piece by piece. -/
def State.targets (s : State) (core ctx : Nat) (va : W64) (n : Nat) : List (W64 × Nat × Target) :=
  (cut4K va n).filterMap (fun e => match s.xlatCore core ctx e.1 with
    | .ok t => some (e.1, e.2, t)
    | _ => none)

/-- The bytes of a source range as the engine reads them now, each with whether its sector is poisoned (R196, R219); host
and peer memory answer free values (log 18). -/
def State.engineRead (s : State) (core ctx : Nat) (va : W64) (n : Nat) : List (Byte × Bool) :=
  (s.targets core ctx va n).flatMap (fun e =>
    ((s.readAt e.2.2 e.2.1).zip (List.range e.2.1)).map (fun x =>
      (x.1, e.2.2.place == .slice && s.poisoned (e.2.2.addr + x.2) 1)))

/-- The bytes of a range of scratchpad. -/
def State.padRead (s : State) (a n : Nat) : List (Byte × Bool) :=
  (List.range n).map (fun i => (Memory.read s.mem (a + i), s.poisoned (a + i) 1))

/-- The lines of a global range. -/
def State.rangeLines (s : State) (core ctx : Nat) (va : W64) (n : Nat) : List Nat :=
  ((s.targets core ctx va n).flatMap (fun e =>
    if e.2.2.place = .slice then
      (List.range ((e.2.2.addr % 128 + e.2.1 + 127) / 128)).map (fun i => lineOf e.2.2.addr + i)
    else [])).eraseDups

/-- A remote access of an engine fails: outside the module, so either may be (log 18). -/
def State.farFails (s : State) (core ctx : Nat) (va : W64) (n : Nat) : Bool :=
  (s.targets core ctx va n).any (fun e => e.2.2.place != .slice && s.freeBit (9500 + va.toNat / 4096))

/-- A global range as a copy-engine command meets and reads it now. -/
def State.fetchRange (s : State) (core ctx : Nat) (va : W64) (n : Nat) : Meets × List (Byte × Bool) :=
  (s.meets core ctx false va n, s.engineRead core ctx va n)

/-- The descriptor and the map that a HALO would read now, where they can be read (R383). -/
def State.haloData (s : State) (core ctx : Nat) (c : Cmd) : Option (List Byte) :=
  let va := c.regs.getD 1 0
  let r := s.fetchRange core ctx va 64
  if va.toNat % 64 ≠ 0 || r.1 ≠ .ok then none
  else match Surface.ofBytes (r.2.map Prod.fst) with
    | none => none
    | some f =>
      let m := s.fetchRange core ctx f.map f.mapBytes
      if m.1 = .ok then some (r.2.map Prod.fst ++ m.2.map Prod.fst) else none

/-- A HALO that has not started takes its lines (R195): those that its descriptor, which it reads when it starts, gives now
(log 29); `page` as for a copy's. -/
def Prog.ownHalo (core cx id : Nat) (page : Option Nat) : Prog :=
  .look fun s =>
    let ctx := s.ctxOf (ctxKey core cx)
    match ((s.core core).queue false cx).find? (fun c => c.id == id) with
    | none => .skip
    | some c => match s.haloData core ctx c with
      | some d => .each (s.destLines core ctx (haloPlan (coreDie core) { c with data := d }) page) (.own core cx id)
      | none => .skip

/-- A RESOLVED reply lets the engines translate a page: every queued COPY and HALO of the context takes its lines of that page,
in the order of their issue (R195). -/
def Prog.ownPage (ctx page : Nat) : Prog :=
  .look fun s =>
    let cmds := s.cores.flatMap (fun (e : Nat × Core) => e.2.copyQ.flatMap (fun (q : Nat × List Cmd) =>
      if s.ctxOf (ctxKey e.1 q.1) = ctx then
        (q.2.filter (fun c => c.kind == .copy || c.kind == .halo)).map (fun c => (e.1, q.1, c))
      else []))
    .each (cmds.foldl (fun l x => l.takeWhile (fun y => decide (y.2.2.id < x.2.2.id)) ++
        x :: l.dropWhile (fun y => decide (y.2.2.id < x.2.2.id))) []) (fun x =>
      if x.2.2.kind = .halo && !x.2.2.started then .ownHalo x.1 x.2.1 x.2.2.id (some page)
      else .ownDest x.1 x.2.1 x.2.2.id (some page))

/-- HALO at issue (R222, R383). -/
def haloMeaning : Meaning where
  reads := fun _ p => [.s p.f.d.toNat, .s p.f.a.toNat, .s p.f.scopeReg]
  body := fun s p =>
    let w := s.readS p.k p.f.d.toNat
    let width := (Strip.ofWord w).width
    if badDesignator p.f.cnt || width = 0 || width > 32 || w.toNat / 2 ^ 42 ≠ 0 then .trap 0x11 1
    else issueCmd s p .halo p.f.cnt p.f.scopeReg [w, s.readS p.k p.f.a.toNat, s.readS p.k p.f.scopeReg] true
      (fun id => .ownHalo (coreOf p.k) (unitOf p.k - 64) id none)

/-- Where two ends of a copy overlap, each aligned word of the destination takes the copied value or keeps the prior one
(R217). -/
def Plan.touches (p : Plan) (a : W64) : Bool :=
  p.srcPad == p.dstPad && (List.range p.rows).any (fun i =>
    let (src, _, len) := p.row i
    decide ((a - src).toNat < len))

/-- A byte that the engine writes: its address in the destination, its value, whether it is poisoned. -/
structure WByte where
  at_ : W64
  val : Byte
  bad : Bool

/-- The bytes that a piece writes. -/
def State.pieceBytes (s : State) (p : Plan) (dst : W64) (src : List (Byte × Bool)) : List WByte :=
  ((List.range src.length).zip src).filterMap (fun e =>
    let a := dst + BitVec.ofNat 64 e.1
    if p.touches a && s.freeBit (9600 + a.toNat / 4) then none else some { at_ := a, val := e.2.1, bad := e.2.2 })

/-- Sectors of written bytes that come from poisoned ones. -/
def badSectors (l : List (Nat × Bool)) : List Nat := ((l.filter Prod.snd).map (fun e => e.1 / 32)).eraseDups

/-- Poison sectors. -/
def Prog.poisonSectors (l : List Nat) : Prog := .upd (fun s => { s with poison := (l ++ s.poison).eraseDups })

/-- The bytes of a line of memory, each with whether its sector is poisoned. -/
def State.lineBytes (s : State) (line : Nat) : List (Byte × Bool) :=
  (List.range 128).map (fun i => (Memory.read s.mem (128 * line + i), s.poisoned (128 * line + i) 1))

/-- The source lines that a copy has read, with those of a list that it reads now: each at one instant (R196). -/
def State.readLines (s : State) (buf : Tbl (List (Byte × Bool))) (lines : List Nat) : Tbl (List (Byte × Bool)) :=
  lines.foldl (fun b l => if (b.find l).isSome then b else b.put l (s.lineBytes l)) buf

/-- A range of addresses cut at lines. -/
def cutLines (a n : Nat) : List (Nat × Nat) :=
  (List.range ((a % 128 + n + 127) / 128)).map (fun i =>
    let lo := max a (128 * (a / 128 + i))
    (lo, min (a + n) (128 * (a / 128 + i + 1)) - lo))

/-- The bytes of a source range, from the lines that the copy has read (R196); host and peer memory answer free values (log
18). -/
def State.sourceBytes (s : State) (buf : Tbl (List (Byte × Bool))) (core ctx : Nat) (va : W64) (n : Nat) : List (Byte × Bool) :=
  (s.targets core ctx va n).flatMap (fun e =>
    if e.2.2.place = .slice then
      (cutLines e.2.2.addr e.2.1).flatMap (fun x => ((buf.get (lineOf x.1) []).drop (x.1 % 128)).take x.2)
    else (s.readAt e.2.2 e.2.1).map (fun b => (b, false)))

/-- Store the bytes of a segment in scratchpad, at once. -/
def Prog.padStore (base : Nat) (ws : List WByte) : Prog :=
  .seq (.storeParts (ws.map (fun w => (base + w.at_.toNat, [w.val]))))
    (.poisonSectors (badSectors (ws.map (fun w => (base + w.at_.toNat, w.bad)))))

/-- Send the bytes of a segment that fall in one line of a place: a store of the engine, which has its V at once where the
line is local (R181, R195). Overlock's stores are those of one agent: each comes after the one before it (R198). -/
def Prog.engineStore (core cx id : Nat) (overlock : Bool) (t : Target) (line : Nat) (ws : List (Nat × WByte)) : Prog :=
  .look fun s =>
    let v := max (s.storeV line) (if overlock then (s.core core).overV else 0)
    let here := t.place == .slice
    .seq
      (.upd (fun s => { s with
        reqs := s.reqs ++ [{
          id := s.nextId
          op := id
          agent := engineKey core cx
          core
          place := t.place
          access := .store
          line
          parts := ws.map (fun e =>
            { lane := 0, piece := 0, addr := e.1, va := e.2.at_, len := 1, data := [e.2.val], op := if e.2.bad then 1 else 0 })
          stage := if here then .arrived else .sent
          v
          launch := (s.crewOf (ctxKey core cx)).map Crew.launch
          issued := s.t }]
        nextId := s.nextId + 1 }))
      (.when here (.all [
        .line line (fun r => { r with nextV := v + 1 }),
        .when overlock (.core core (fun c => { c with overV := v })),
        .cmd core false cx id (fun c => { c with maxV := max c.maxV (devTime (coreDie core) line v) })]))

/-- The bytes of a segment by line: the target, the line, and the bytes with their addresses. -/
def State.byLine (s : State) (core ctx : Nat) (ws : List WByte) : List (Target × Nat × List (Nat × WByte)) :=
  ws.foldr (fun w acc =>
    match s.xlatCore core ctx w.at_ with
    | .ok t =>
      let l := lineOf t.addr
      let same := fun (g : Target × Nat × List (Nat × WByte)) => g.1.place == t.place && g.2.1 == l
      match acc.find? same with
      | some g => (g.1, g.2.1, (t.addr, w) :: g.2.2) :: acc.filter (fun x => !same x)
      | none => (t, l, [(t.addr, w)]) :: acc
    | _ => acc) []

/-- A command ends its work with a status (R219); it completes once its writes are visible. -/
def Prog.stopCmd (core cx : Nat) (c : Cmd) (status : BitVec 5) : Prog :=
  .seq (.cmd core false cx c.id (fun x => { x with finished := true, status := x.status ||| status, wait := none }))
    (.when (status &&& 4 != 0) (.look fun s =>
      .recordFault c.scope 0x11 c.pc core (ctxKey core cx) (s.agent (ctxKey core cx)).det))

/-- A command meets an absent page (R219): it waits for the reply to its record. -/
def Prog.waitCmd (core cx : Nat) (c : Cmd) (agent : Nat) (va : W64) (access level : Nat) : Prog :=
  .look fun s =>
    let die := coreDie core
    let ctx := s.ctxOf (ctxKey core cx)
    if s.faultFull die core && (s.openFault die ctx va).isNone then .skip
    else
      let serial := s.faultSerialFor die ctx va
      .seq (.fault die ctx va core (core % 128) agent access cx level 0)
        (.cmd core false cx c.id (fun x => { x with wait := some (die, serial) }))

/-- Whether the crew of a control context has stopped for a pre-emption that waits for its engines (13 R304). -/
def State.stopping (s : State) (core cx : Nat) : Bool := (s.crew? (ctxKey core cx)).any (fun c => c.stopping.isSome)

/-- The lines of memory that the pieces of a segment read. -/
def State.segReads (s : State) (core ctx : Nat) (p : Plan) (ps : List (W64 × W64 × Nat)) : List Nat :=
  if p.srcPad then [] else ps.flatMap (fun e => s.rangeLines core ctx e.1 e.2.2)

/-- The lines of memory that the pieces of a segment write; a CCOPY writes at its commit only. -/
def State.segWrites (s : State) (core ctx : Nat) (p : Plan) (c : Cmd) (ps : List (W64 × W64 × Nat)) : List Nat :=
  if p.dstPad || c.kind = .ccopy then [] else (ps.flatMap (fun e => s.rangeLines core ctx e.2.1 e.2.2)).eraseDups

/-- The lines that a segment has yet to read and that another agent's command holds (R195). -/
def State.segBarred (s : State) (core : Nat) (c : Cmd) (reads : List Nat) : List Nat :=
  reads.filter (fun l => (c.lines.find l).isNone && !s.opened core c l)

/-- Whether the next segment of a copy waits for lines that other commands own (R195): its fetches are at their slices
already, or an earlier command has yet to write a line that it writes. -/
def State.segHeld (s : State) (core cx : Nat) (c : Cmd) : Bool :=
  let ctx := s.ctxOf (ctxKey core cx)
  let p := s.plan core cx c
  let ps := p.pieces c.done
  let barred := s.segBarred core c (s.segReads core ctx p ps)
  let writes := s.segWrites core ctx p c ps
  if barred.isEmpty then writes.all (fun l => (s.lineRec l).owners.contains c.id) && !writes.all (s.mine c.id)
  else barred.all (fun l => (c.met.find l).isSome)

/-- The lines that hold the start of a HALO up (R195): those of its descriptor that others' commands own, then those of its
map. -/
def State.haloBarred (s : State) (core ctx : Nat) (c : Cmd) : List Nat :=
  let va := c.regs.getD 1 0
  match s.segBarred core c (s.rangeLines core ctx va 64) with
  | [] =>
    match Surface.ofBytes ((s.fetchRange core ctx va 64).2.map Prod.fst) with
    | some f => s.segBarred core c (s.rangeLines core ctx f.map f.mapBytes)
    | none => []
  | l => l

/-- Whether the start of a HALO waits: its fetches stand at lines that others own. -/
def State.haloHeld (s : State) (core cx : Nat) (c : Cmd) : Bool :=
  let l := s.haloBarred core (s.ctxOf (ctxKey core cx)) c
  !l.isEmpty && l.all (fun l => (c.met.find l).isSome)

/-- Whether the head of a copy queue waits for lines that other commands own. -/
def State.heldUp (s : State) (core cx : Nat) (c : Cmd) : Bool :=
  match c.kind with
  | .halo => if c.started then s.segHeld core cx c else s.haloHeld core cx c
  | .ccopy => c.started && s.segHeld core cx c
  | _ => s.segHeld core cx c

/-- Whether a command of the copy engine fills a tile of scratchpad (R304). -/
def Cmd.fillsPad (c : Cmd) : Bool := c.kind == .copy && c.f.mb 1

/-- The contexts that the copy engine serves: those whose head is a copy that has bytes to move (R217) and waits for nothing
(R195, R218). A crew that is stopping starts none, and of what it has started it only fills scratchpad (13 R304). -/
def State.copyTurn (s : State) (core cx : Nat) : Bool :=
  match (s.core core).queue false cx with
  | c :: _ => c.kind != .resample && !c.finished && c.wait.isNone && (c.kind == .halo || (s.plan core cx c).rows != 0) &&
    (c.started || decide (c.maxV ≤ s.ns)) && (!s.stopping core cx || (c.started && c.fillsPad)) && !s.heldUp core cx c
  | [] => false

/-- The next context that the copy engine serves: at every turn one whose crew is stopping (13 R304), else round-robin
(R218). -/
def State.copyNext (s : State) (core : Nat) : Option Nat :=
  let order := (List.range 8).map (fun i => ((s.core core).lastCopy + 1 + i) % 8)
  match order.find? (fun cx => s.stopping core cx && s.copyTurn core cx) with
  | some cx => some cx
  | none => order.find? (s.copyTurn core)

/-- The bytes that a CCOPY has read say whether any was poisoned. -/
def anyBad (l : List (Byte × Bool)) : Bool := l.any Prod.snd

/-- The lines that a CCOPY owns: those of its destination and of its version word (R197). -/
def State.ccopyLines (s : State) (core ctx : Nat) (p : Plan) (c : Cmd) : List Nat :=
  (s.destLines core ctx p none ++ s.rangeLines core ctx (c.regs.getD 7 0) 8).eraseDups

/-- Whether every page of a CCOPY's destination and version word is device memory or Pewter of this module, readable and
writable as it needs (R359). -/
def State.ccopyPlace (s : State) (core ctx : Nat) (p : Plan) (c : Cmd) : Meets :=
  let far := fun (va : W64) (n : Nat) => (s.targets core ctx va n).any (fun e => e.2.2.place != .slice)
  let va := c.regs.getD 7 0
  let all := (List.range p.rows).foldl (fun m i => match m with
    | .ok =>
      let r := p.row i
      match s.meets core ctx true r.2.1 (min r.2.2 4096) with
      | .ok =>
        (List.range ((r.2.2 + 4095) / 4096)).foldl (fun m j => match m with
          | .ok =>
            let a := r.2.1 + BitVec.ofNat 64 (4096 * j)
            let n := min 4096 (r.2.2 - 4096 * j)
            match s.meets core ctx true a n with
            | .ok => if far a n then .fault else .ok
            | m => m
          | m => m) .ok
      | m => m
    | m => m) Meets.ok
  match all with
  | .ok =>
    match s.meets core ctx true va 8, s.meets core ctx false va 8 with
    | .ok, .ok => if far va 8 then .fault else .ok
    | .ok, m => m
    | m, _ => m
  | m => m

/-- The start of a HALO (R383): it reads its descriptor and its map, unless another agent's command owns their lines (R195), and its
lines are those that they give. -/
def Prog.startHalo (core cx : Nat) (c : Cmd) : Prog :=
  .look fun s =>
    let ctx := s.ctxOf (ctxKey core cx)
    let va := c.regs.getD 1 0
    let go := fun (m : Meets) (q : Prog) => match m with
      | .ok => q
      | .fault => .stopCmd core cx c 4
      | .absent a x l => .waitCmd core cx c 2 a x l
    if va.toNat % 64 ≠ 0 then .stopCmd core cx c 4
    else
      let r := s.fetchRange core ctx va 64
      let barred := s.haloBarred core ctx c
      if !barred.isEmpty then .meet core cx c.id barred
      else go r.1 (match Surface.ofBytes (r.2.map Prod.fst) with
        | none => .stopCmd core cx c 4
        | some f =>
          let t := Strip.ofWord (c.regs.getD 0 0)
          let m := s.fetchRange core ctx f.map f.mapBytes
          if anyBad r.2 then .stopCmd core cx c 8
          else if !f.inside (256 * (t.col : Int)) (256 * (t.row : Int)) then .stopCmd core cx c 4
          else go m.1 (
            let map := m.2.map Prod.fst
            if anyBad m.2 then .stopCmd core cx c 8
            else if f.die map (256 * t.col) (256 * t.row) ≠ coreDie core then .stopCmd core cx c 4
            else if f.halo = 0 || t.sides = 0 then .stopCmd core cx c 0
            else
              .seq (.cmd core false cx c.id (fun x => { x with started := true, data := r.2.map Prod.fst ++ map }))
                (.look fun s =>
                  let lines := s.destLines core ctx (haloPlan (coreDie core) { c with data := r.2.map Prod.fst ++ map }) none
                  .seq
                    (.upd (fun s => { s with
                      lines := s.lines.map (fun e => (e.1, if lines.contains e.1 then e.2
                        else { e.2 with owners := e.2.owners.filter (· != c.id) })) }))
                    (.ownDest core cx c.id none))))

/-- The start of a CCOPY (R359): its destination and version word must be of this module; it owns their lines (R197). -/
def Prog.startCcopy (core cx : Nat) (c : Cmd) : Prog :=
  .look fun s =>
    let ctx := s.ctxOf (ctxKey core cx)
    let p := s.plan core cx c
    match s.ccopyPlace core ctx p c with
    | .fault => .stopCmd core cx c 4
    | .absent a x l => .waitCmd core cx c 2 a x l
    | .ok =>
      .seq (.each (s.ccopyLines core ctx p c) (.own core cx c.id))
        (.cmd core false cx c.id (fun x => { x with started := true }))

/-- One segment of a command that has started (R218). -/
def Prog.doSegment (core cx : Nat) (c : Cmd) : Prog :=
  .look fun s =>
    let key := ctxKey core cx
    let ctx := s.ctxOf key
    let base := s.padBase key
    let p := s.plan core cx c
    let ps := p.pieces c.done
    if ps.isEmpty then
      .when (c.kind != .ccopy) (.stopCmd core cx c 0)
    else
      let p' : Plan := if c.kind = .ccopy then { p with dstPad := true } else p
      match s.segMeets core ctx p' ps with
      | .fault => .stopCmd core cx c 4
      | .absent a x l => .waitCmd core cx c 2 a x l
      | .ok =>
        let srcLines := s.segReads core ctx p ps
        let dstLines := s.segWrites core ctx p c ps
        let barred := s.segBarred core c srcLines
        let fresh := dstLines.filter (fun l => !(s.lineRec l).owners.contains c.id)
        if !fresh.isEmpty then .each (ps.map (fun e => pageOf e.2.1)).eraseDups (fun g => .ownDest core cx c.id (some g))
        else if !barred.isEmpty then .meet core cx c.id barred
        else if !dstLines.all (s.mine c.id) then .skip
        else if !p.srcPad && ps.any (fun e => s.farFails core ctx e.1 e.2.2) then .stopCmd core cx c 4
        else
          let buf := s.readLines c.lines srcLines
          let got := ps.map (fun e =>
            (e, if p.srcPad then s.padRead (base + e.1.toNat) e.2.2 else s.sourceBytes buf core ctx e.1 e.2.2))
          let bad : BitVec 5 := if got.any (fun e => anyBad e.2) then 8 else 0
          let note := Prog.cmd core false cx c.id (fun x => { x with
            started := true, done := x.done + 1, status := x.status ||| bad, lines := buf })
          if c.kind = .ccopy then
            .seq note (.cmd core false cx c.id (fun x => { x with data := x.data ++ got.flatMap (fun e => e.2.map Prod.fst) }))
          else
            let ws := got.flatMap (fun e => s.pieceBytes p e.1.2.1 e.2)
            .all [
              note,
              .when (c.begun == 0) (.cmd core false cx c.id (fun x => { x with begun := s.t })),
              if p.dstPad then .padStore base ws
              else .each (s.byLine core ctx ws) (fun g => .engineStore core cx c.id false g.1 g.2.1 g.2.2),
              .when (p.rising || c.kind == .halo) (.disownWritten c.id dstLines),
              .act .free,
              .look fun s => .when ((p.pieces (c.done + 1)).isEmpty) (
                match ((s.core core).queue false cx).head? with
                | some x => .stopCmd core cx x 0
                | none => .skip)]

/-- COPY_SEGMENT (R218): the copy engine serves the next context's head. Its reads follow the largest V that its control
context had at issue (R196). -/
def copySegment (core cx : Nat) : Prog :=
  .look fun s =>
    if !s.powered || s.copyNext core != some cx then .skip
    else match (s.core core).queue false cx with
      | [] => .skip
      | c :: _ =>
        .seq (.core core (fun x => { x with lastCopy := cx }))
          (if c.started then .doSegment core cx c
           else match c.kind with
             | .halo => .startHalo core cx c
             | .ccopy => .startCcopy core cx c
             | _ => .doSegment core cx c)

/-! Completion. -/

/-- Whether the elements of an 8 × 8 block of a tile all decode to a zero (R220). -/
def State.zeroBlock (s : State) (base : Nat) (t : BitVec 128) (bi bj : Nat) : Bool :=
  (List.range 8).all (fun i => (List.range 8).all (fun j =>
    match s.tileElem base t (8 * bi + i) (8 * bj + j) with
    | .fin _ m _ => m == 0
    | _ => false))

/-- The bytes of the bitmap that the engine writes for a tile (R210, R220). -/
def State.bitmapOf (s : State) (base : Nat) (t : BitVec 128) : List Byte :=
  let cols := tCols t / 8
  let n := tRows t / 8 * cols
  (List.range ((n + 7) / 8)).map (fun i =>
    BitVec.ofNat 8 (((List.range 8).map (fun b =>
      let j := 8 * i + b
      if j < n && s.zeroBlock base t (j / cols) (j % cols) then 2 ^ b else 0)).sum))

/-- Write the bits of a bitmap: those of its last byte beyond the last block stay (R210). -/
def State.bitmapStore (s : State) (base : Nat) (t : BitVec 128) : List Byte :=
  let n := tRows t / 8 * (tCols t / 8)
  let bs := s.bitmapOf base t
  ((List.range bs.length).zip bs).map (fun e =>
    if 8 * e.1 + 8 ≤ n then e.2
    else
      let keep : Byte := BitVec.ofNat 8 (256 - 2 ^ (n % 8))
      e.2 ||| (Memory.read s.mem (base + tBitmapAt t + e.1) &&& keep))

/-- The tile transition at the end of a copy (R212): READY where it ends with OK or POISON, else EMPTY. -/
def Prog.endTile (core cx : Nat) (c : Cmd) : Prog :=
  if c.kind = .copy && c.f.mb 1 then
    .look fun s =>
      let key := ctxKey core cx
      let n := c.f.x 51 46
      let base := s.padBase key
      let good := c.status &&& 5 == 0
      .seq
        (match s.tile? key n with
         | some t => .when (good && c.f.mb 2) (.storeBytes (base + tBitmapAt t) (s.bitmapStore base t))
         | none => .skip)
        (.seq (.act .free) (.moveTile key n (if good then 2 else 0) 1))
  else .skip

/-- COPY_COMPLETE (R212, R215): every destination line is visible at DEV scope, and far stores are acknowledged. A copy of no
rows or bytes completes at once (R217). What it does with the tiles that it holds comes before what bands do with them in that
clock (23 R428). -/
def copyComplete (core cx : Nat) : Prog :=
  .look fun s =>
    match (s.core core).queue false cx with
    | [] => .skip
    | c :: _ =>
      let plan := s.plan core cx c
      let work := c.finished || ((c.kind == .copy || c.kind == .ccopy) && plan.rows == 0 && !s.stopping core cx)
      if !s.powered || c.kind == .resample || !work || (c.finished && decide (s.ns < c.maxV)) || s.reqs.any (fun r => r.op == c.id) ||
          !s.tilesTurn (ctxKey core cx) c then .skip
      else .seq (.endTile core cx c) (.endCmd core cx c)

/-- CCOPY_COMMIT (R197, R221): with every source byte read, at one instant the version word is compared, and every
destination line and the new version word are applied at one V, which is this instant. -/
def ccopyCommit (core cx : Nat) : Prog :=
  .look fun s =>
    match (s.core core).queue false cx with
    | [] => .skip
    | c :: _ =>
      let key := ctxKey core cx
      let ctx := s.ctxOf key
      let p := s.plan core cx c
      let lines := s.ccopyLines core ctx p c
      if !s.powered || c.kind != .ccopy || !c.started || c.finished || c.wait.isSome || s.stopping core cx || !(p.pieces c.done).isEmpty then .skip
      else if c.status &&& 8 != 0 then .stopCmd core cx c 0
      else match s.ccopyPlace core ctx p c with
        | .fault => .stopCmd core cx c 4
        | .absent a x l => .waitCmd core cx c 2 a x l
        | .ok =>
          let quiet := fun (l : Nat) =>
            let r := s.lineRec l
            r.leaseEnd ≤ s.ns && r.nextV ≤ s.ns && s.mine c.id l
          if !lines.all quiet then .skip
          else
            let va := c.regs.getD 7 0
            let got := s.engineRead core ctx va 8
            let ver := leNat (got.map Prod.fst)
            if anyBad got then .stopCmd core cx c 8
            else if BitVec.ofNat 64 ver ≠ c.regs.getD 8 0 then .stopCmd core cx c 2
            else
              let dsts := (List.range c.done).flatMap (fun i => (p.pieces i).flatMap (fun e =>
                (List.range e.2.2).map (fun j => e.2.1 + BitVec.ofNat 64 j)))
              let vers := (List.range 8).map (fun j => va + BitVec.ofNat 64 j)
              let at_ := fun (a : W64) => match s.xlatCore core ctx a with
                | .ok t => t.addr
                | _ => 0
              let data := c.data.zip dsts |>.filterMap (fun e =>
                if p.touches e.2 && s.freeBit (9600 + e.2.toNat / 4) then none else some (at_ e.2, [e.1]))
              .all [
                .storeParts (data ++ (vers.zip (leBytes 8 (ver + 1))).map (fun e => (at_ e.1, [e.2]))),
                .noteStored ((s.crewOf key).map Crew.launch) (data.map (fun e => (e.1, 1)) ++ vers.map (fun a => (at_ a, 1))),
                .each lines (fun l => .line l (fun r => { r with nextV := s.ns + 1 })),
                .each lines (fun l => .cmd core false cx c.id (fun x => { x with maxV := max x.maxV (devTime (coreDie core) l s.ns) })),
                .act .free,
                .stopCmd core cx c 0]

/-- COPY (R357). -/
def execCopy (f : Fields) (s : State) : Host.Outcome State Fault Refusal := perform (.copy f) (copyMeaning false) s

/-- CCOPY (R357). -/
def execCcopy (f : Fields) (s : State) : Host.Outcome State Fault Refusal := perform (.ccopy f) (copyMeaning true) s

/-- HALO (R383). -/
def execHalo (f : Fields) (s : State) : Host.Outcome State Fault Refusal := perform (.halo f) haloMeaning s

/-- COPY_SEGMENT (R218). -/
def execCopySegment (core cx : Nat) (s : State) : Host.Outcome State Fault Refusal := done (copySegment core cx) s

/-- COPY_COMPLETE (R215). -/
def execCopyComplete (core cx : Nat) (s : State) : Host.Outcome State Fault Refusal := done (copyComplete core cx) s

/-- CCOPY_COMMIT (R221). -/
def execCcopyCommit (core cx : Nat) (s : State) : Host.Outcome State Fault Refusal := done (ccopyCommit core cx) s

end Sys2Proof.Machine
end

