-- ==== Sys2Proof/Machine/FrontEnd.lean ====
section
/-!
DEFINITION. The front ends: slots (12 R278 to R281), packets and their checks (R283 to R285, R463), the packet types
(R284, R286 to R289), ageing (R294) and the push into a ring (R282).
-/

namespace Sys2Proof.Machine

/-! Packets. -/

/-- A field of a packet's 8-byte unit. -/
def unitBits (u : List W64) (i hi lo : Nat) : Nat := bitsOf (u.getD i 0).toNat hi lo

/-- A unit of a packet. -/
def unitAt (u : List W64) (i : Nat) : W64 := u.getD i 0

/-- The fields of a packet's header (R283). -/
def pkType (u : List W64) : Nat := unitBits u 0 7 0
def pkBarrier (u : List W64) : Bool := unitBits u 0 8 8 == 1
def pkEvent (u : List W64) : Bool := unitBits u 0 9 9 == 1
def pkLen (u : List W64) : Nat := unitBits u 0 31 16
def pkArg (u : List W64) : Nat := unitBits u 0 63 32

/-- The units of a packet from its bytes. -/
def unitsOf : Nat → List Byte → List W64
  | 0, _ => []
  | n + 1, bs => BitVec.ofNat 64 (leNat (bs.take 8)) :: unitsOf n (bs.drop 8)

/-- The bytes of units. -/
def unitBytes (u : List W64) : List Byte := u.flatMap (fun w => leBytes 8 w.toNat)

/-- Check 6 of R285: L as R284 gives it. -/
def lengthOk (u : List W64) : Bool :=
  match pkType u with
  | 0 => decide (1 ≤ pkLen u)
  | 1 => pkLen u == 10
  | 2 => decide (1 ≤ pkArg u) && decide (pkArg u ≤ 1024) && pkLen u == 4 + 4 * pkArg u
  | 3 | 4 | 5 => pkLen u == 3
  | 6 => pkLen u == 1
  | 7 => pkLen u == 4
  | 8 => pkLen u == 10
  | _ => false

/-- Check 7 of R285: what R283, R284 and R288 require to be zero, and the values of arg. -/
def reservedOk (u : List W64) : Bool :=
  let arg := pkArg u
  unitBits u 0 15 10 == 0 && match pkType u with
    | 0 | 5 | 8 => arg == 0
    | 1 => unitBits u 6 39 37 == 0 && unitBits u 9 63 32 == 0 && (unitBits u 6 35 35 == 1 || unitAt u 7 == 0)
    | 2 => unitAt u 3 == 0
    | 3 => decide (arg ≤ 3) && (arg == 0 || unitBits u 1 63 16 == 0)
    | 4 => decide (arg ≤ 2) && (arg != 0 || unitBits u 1 63 16 == 0)
    | 6 => decide (arg ≤ 1)
    | 7 =>
      let op := bitsOf arg 7 0
      let level := bitsOf arg 10 8
      bitsOf arg 31 11 == 0 && (if op = 0 then decide (2 ≤ level) && decide (level ≤ 4) else decide (op ≤ 2) && level == 0)
    | _ => false

/-- Checks 5 to 7 of R285: the cause of the first that fails. -/
def packetFault (u : List W64) : Option Nat :=
  if pkType u > 8 then some 4 else if !lengthOk u then some 6 else if !reservedOk u then some 5 else none

/-! Slots. -/

/-- The bytes of a slot's ring, and its units (R278). -/
def Slot.bytes (x : Slot) : Nat := 2 ^ bitsOf x.size.toNat 4 0
def Slot.units (x : Slot) : Nat := x.bytes / 8

/-- The byte offset of the next packet, and the units held (R279). -/
def Slot.offset (x : Slot) : Nat := x.head.toNat * 8 % x.bytes
def Slot.held (x : Slot) : Nat := (x.tail - x.head).toNat

/-- The QCTL register of a slot (R279). -/
def Slot.qctl (x : Slot) : W64 :=
  let st := match x.state with
    | .unmapped => 0
    | .running => 1
    | .stopped => 2
    | .waiting => 3
  BitVec.ofNat 64 (2 ^ 20 * x.ctx + 2 ^ 9 * x.prio + 2 ^ 4 * x.cause + 2 ^ 2 * st + (if x.en then 1 else 0))

/-- The key of a slot's stores. -/
def slotKey (i : Nat) : Nat := dieKey (slotDie i) (512 + i)

/-- Unmap a slot's queue (R280): its head and tail are saved with it, and QCTL takes the value written. -/
def Prog.leaveSlot (i : Nat) (value : W64) : Prog :=
  .upd (fun s =>
    let x := s.slot i
    let off := { x with
      en := false, state := .unmapped, cause := 0, cur := none, leaving := none, wait := none, denied := []
      ctx := bitsOf value.toNat 31 20, prio := bitsOf value.toNat 11 9 }
    if x.en then
      { s with
        queues := s.queues.put x.queue.toNat (x.head, x.tail)
        queueCtx := s.queueCtx.put x.queue.toNat x.ctx
        slots := s.slots.put i { off with head := 0, tail := 0 } }
    else { s with slots := s.slots.put i off })

/-- The current packet of a slot is over, or cannot go on by itself: a slot that is to be unmapped leaves now (R280, log
93). -/
def Prog.mayLeave (i : Nat) : Prog :=
  .look fun s => match (s.slot i).leaving with
    | some v => .leaveSlot i v
    | none => .skip

/-- A RING fault (R285): the slot stops with QHEAD at the packet, and an event tells its owner; a slot that is to be unmapped
leaves (R280). -/
def Prog.ringFault (i cause : Nat) : Prog :=
  .look fun s =>
    let x := s.slot i
    .all [.slot i (fun x => { x with state := .stopped, cause, cur := none, wait := none, denied := [] }),
      .slotEvent i x.ctx 1 cause x.offset 0 false,
      .mayLeave i]

/-- A slot waits with its packet (R284), unless it is to be unmapped: then the packet is read again (R280). -/
def Prog.slotHold (i : Nat) (f : Slot → Slot) : Prog := .seq (.slot i (fun x => { f x with state := .waiting })) (.mayLeave i)

/-- A slot meets an absent page (R285, R463): its fault record goes to firmware, and it waits for the reply. -/
def Prog.slotWait (i : Nat) (va : W64) (access level : Nat) : Prog :=
  .look fun s =>
    let die := slotDie i
    let ctx := (s.slot i).ctx
    .seq (.dieFault die ctx va access level)
      (.slotHold i (fun x => { x with wait := some (die, s.faultSerialFor die ctx va) }))

/-- Whether a reply has denied a page of a range to a slot's packet (R463). -/
def Slot.refuses (x : Slot) (va : W64) (n : Nat) : Bool :=
  n != 0 && x.denied.any (fun p => decide (pageOf va ≤ p) && decide (p ≤ pageOf (va + BitVec.ofNat 64 (n - 1))))

/-- Go on with `q` where a slot may access a range, wait where it is absent, and fail with `bad` else (R463); a read of a
line that an engine owns is held (R195). -/
def Prog.withRange (i : Nat) (write : Bool) (va : W64) (n : Nat) (bad q : Prog) : Prog :=
  .look fun s =>
    let x := s.slot i
    if x.refuses va n then bad
    else match s.reach x.ctx write va n with
      | .ok => q
      | .hold => .skip
      | .absent a level => .slotWait i a (if write then 1 else 0) level
      | .fail => bad

/-- The bytes of a ring from a byte offset. -/
def State.ringBytes (s : State) (x : Slot) (o n : Nat) : List Byte := s.dieRead x.ctx (x.base + BitVec.ofNat 64 o) n

/-- The header at a slot's head. -/
def State.headUnits (s : State) (x : Slot) : List W64 := unitsOf 1 (s.ringBytes x x.offset 8)

/-- The checks 2 and 3 of R285, on the length that the header gives: a packet that breaks them is never covered. -/
def lengthFault (x : Slot) (u : List W64) : Option Nat :=
  if pkLen u = 0 then some 1 else if 8 * pkLen u > x.bytes then some 3 else none

/-- The tail writes that cover units past the head, once one more is made (R322). -/
def Slot.tailsWith (x : Slot) (tail : W32) (t : Nat) : List (W32 × Nat) :=
  x.tails.filter (fun e => decide (0 < (e.1 - x.head).toNat) && decide ((e.1 - x.head).toNat ≤ x.units)) ++ [(tail, t)]

/-- When the packet at the head, of `n` units, was covered by a tail write (R322). -/
def Slot.writtenAt (x : Slot) (n : Nat) : Nat :=
  ((x.tails.find? (fun e => decide (n ≤ (e.1 - x.head).toNat) && decide ((e.1 - x.head).toNat ≤ x.units))).map Prod.snd).getD x.tailAt

/-- The first of the checks 2 to 6 of R285 that the header fails. -/
def headerFault (x : Slot) (u : List W64) : Option Nat :=
  if (lengthFault x u).isSome then lengthFault x u
  else if x.offset + 8 * pkLen u > x.bytes then some 2
  else if pkType u > 8 then some 4
  else if !lengthOk u then some 6
  else none

/-- Whether a slot has a packet to read: QTAIL covers its units (R281), its length is at fault, or its header's page
cannot be read (R285). -/
def State.packetWaits (s : State) (i : Nat) : Bool :=
  let x := s.slot i
  x.en && x.state == .running && x.cur.isNone && x.leaving.isNone && x.wait.isNone && decide (0 < x.held) &&
    x.after.all (fun r => (s.req? r).isNone) && match s.reach x.ctx false (x.base + BitVec.ofNat 64 x.offset) 8 with
      | .ok => (lengthFault x (s.headUnits x)).isSome || decide (pkLen (s.headUnits x) ≤ x.held)
      | .hold => false
      | _ => true

/-- The effective priority of a slot (R294): steps of an earlier wait do not count. -/
def Slot.effPrio (x : Slot) (now : Nat) : Nat := x.prio - min x.ageSteps ((now - x.since) / (64 * Config.usec))

/-- The slot that a die's front end reads next: the lowest effective priority, round-robin among equals (R294). -/
def State.nextSlot (s : State) (die : Nat) : Option Nat :=
  let last := s.frontLast.get die 255
  ((List.range 256).map (fun j => 256 * die + (last + 1 + j) % 256)).foldl (fun (acc : Option Nat) i =>
    if !s.packetWaits i then acc
    else match acc with
      | some b => if (s.slot i).effPrio s.t < (s.slot b).effPrio s.t then some i else acc
      | none => some i) none

/-- PACKET_READ (R281, R285, R294): the header gives the length; once QTAIL covers it, the packet's units are read, as far
as the ring goes, and then checked. -/
def packetRead (i : Nat) : Prog :=
  .look fun s =>
    let x := s.slot i
    if !s.powered || s.nextSlot (slotDie i) != some i then .skip
    else
      let o := x.offset
      let va := x.base + BitVec.ofNat 64 o
      let bad := Prog.ringFault i 8
      .withRange i false va 8 bad (
        let u := s.headUnits x
        match lengthFault x u with
        | some c => .ringFault i c
        | none =>
          .withRange i false va (min (8 * pkLen u) (x.bytes - o)) bad (
            let us := unitsOf (pkLen u) (s.ringBytes x o (8 * pkLen u))
            match headerFault x u with
            | some c => .ringFault i c
            | none =>
            if !reservedOk us then .ringFault i 5
            else
              .seq (.upd (fun s => { s with frontLast := s.frontLast.put (slotDie i) (i % 256) }))
                (.slot i (fun x => { x with
                  ageSteps := 0
                  cur := some {
                    offset := o
                    units := us
                    written := x.writtenAt (pkLen u)
                    code := if pkType us = 1 then s.mem.filter (fun c => c.1 < Space.scratch) else [] } }))))

/-- The packets of a slot's queue that are processed and have not completed (R283). -/
def State.openOf (s : State) (i : Nat) : List OpenPacket := s.opens.get (s.slot i).queue.toNat []

/-- What waits for its turn is a FENCE of a scope, or a SIGNAL that writes. -/
def OpenKind.fences (sys : Bool) : OpenKind → Bool
  | .fence y _ => y == sys
  | _ => false
def OpenKind.writes : OpenKind → Bool
  | .write .. => true
  | _ => false

/-- The queue whose oldest uncompleted packet was read by a slot and is of a kind. -/
def State.openHead (s : State) (i : Nat) (f : OpenKind → Bool) : Option (Nat × OpenPacket) :=
  s.opens.findSome? (fun e => match e.2 with
    | o :: _ => if o.slot = i ∧ f o.kind then some (e.1, o) else none
    | [] => none)

/-- The packet of a slot that is to be processed now, of a type: BARRIER holds it until every earlier packet of the queue
has completed (R283). -/
def State.packetOf (s : State) (i type : Nat) : Option Packet :=
  let x := s.slot i
  match x.cur with
  | some p =>
    if s.powered && x.en && x.state != .stopped && x.wait.isNone && pkType p.units == type &&
        (!pkBarrier p.units || (s.openOf i).isEmpty) then some p else none
  | none => none

/-- A packet has been processed: the head moves past it (R283), and its wait is sampled (14 R322). -/
def Prog.packetOver (i : Nat) (p : Packet) : Prog :=
  .look fun s =>
    .all [
      .sampleDie (slotDie i) 2 ((s.t - p.written) / Config.tick),
      .slot i (fun x => { x with
        head := x.head + BitVec.ofNat 32 (pkLen p.units)
        cur := none
        denied := []
        state := .running
        since := s.t }),
      .mayLeave i]

/-- A packet has completed (R283). -/
def Prog.packetDone (i : Nat) (p : Packet) : Prog :=
  .look fun s =>
    let ctx := (s.slot i).ctx
    .seq (.packetOver i p) (.when (pkEvent p.units) (.slotEvent i ctx 4 0 p.offset 0 false))

/-- A packet has failed: its event comes before its completion (R283, R286). -/
def Prog.packetFail (i : Nat) (p : Packet) (kind cause : Nat) (info : W64) (det : Bool) : Prog :=
  .look fun s =>
    let ctx := (s.slot i).ctx
    .all [.slotEvent i ctx kind cause p.offset info det,
      .packetOver i p,
      .when (pkEvent p.units) (.slotEvent i ctx 4 0 p.offset info det)]

/-- PACKET-FAIL with a cause (R286). -/
def Prog.fail3 (i : Nat) (p : Packet) (cause : Nat) : Prog := .packetFail i p 3 cause 0 false

/-- A packet waits for its turn to complete (R283, R284). -/
def Prog.packetOpen (i : Nat) (p : Packet) (kind : OpenKind) : Prog :=
  .look fun s =>
    let x := s.slot i
    .seq (.packetOver i p)
      (.opens x.queue.toNat (fun l => l ++ [{ slot := i, ctx := x.ctx, offset := p.offset, event := pkEvent p.units, kind }]))

/-- A packet of a queue that waited has completed. -/
def Prog.openDone (q : Nat) (o : OpenPacket) : Prog :=
  .seq (.opens q (fun l => l.erase o)) (.when o.event (.slotEvent o.slot o.ctx 4 0 o.offset 0 false))

/-- A packet of a queue that waited has failed for its memory (R283, R463). -/
def Prog.openFail (q : Nat) (o : OpenPacket) : Prog := .seq (.slotEvent o.slot o.ctx 3 4 o.offset 0 false) (.openDone q o)

/-! The packet types. -/

/-- PAD (R284). -/
def padPacket (i : Nat) : Prog :=
  .look fun s => match s.packetOf i 0 with
    | some p => .packetDone i p
    | none => .skip

/-- The cores of a die that hold a crew of a launch. -/
def State.crewCores (s : State) (id die : Nat) : List Nat :=
  ((List.range Config.cores).map (fun c => 128 * die + c)).filter (fun c =>
    s.crews.any (fun e => e.2.launch == id && e.2.core == c))

/-- The cores that take entries round-robin, from the one after the last used (R284). -/
def rotateFrom (cores : List Nat) (last : Nat) : List Nat := cores.filter (· > last) ++ cores.filter (· ≤ last)

/-- The link that a TASKS packet makes (R68): the peer whose place a QPUSH holds, or a new one; none where the parent's
list is full. -/
def State.linkPlace (s : State) (parent handle : W64) : Option Bool :=
  let l := (s.scope (hIndex parent)).remote
  if l.any (fun p => p.handle == handle && !p.settled) then some false
  else if l.length ≥ 16 then none else some true

/-- Place the entries of a TASKS packet (R284). -/
def Prog.placeTasks (id scope : Nat) (cores : List Nat) (bodies : List (List W64)) : Prog :=
  .look fun s =>
    let order := rotateFrom cores (((s.launch? id).map Launch.lastTasks).getD 0)
    let n := order.length
    .all [
      .addWork scope bodies.length,
      .each ((List.range bodies.length).zip bodies) (fun e =>
        .enqueue id (order.getD (e.1 % n) 0) { scope, body := e.2 }),
      .launch id (fun l => { l with lastTasks := order.getD ((bodies.length - 1) % n) l.lastTasks })]

/-- TASKS (R284, R68). A local parent takes the link itself; whether a peer's module refuses it is outside the module
(log 18), and it is told when the scope is final. -/
def tasksPacket (i : Nat) : Prog :=
  .look fun s => match s.packetOf i 2 with
    | none => .skip
    | some p =>
      let u := p.units
      let h := unitAt u 1
      let parent := unitAt u 2
      let sc := hIndex h
      let e := s.scope sc
      let bodies := (List.range (pkArg u)).map (fun j => (List.range 4).map (fun w => unitAt u (4 + 4 * j + w)))
      if s.foreign h || s.stale h || e.level > 1 || (parent >>> 57) != 0 then .fail3 i p 2
      else match s.ofLevel sc 1 |>.bind s.launchAt with
        | none => .fail3 i p 6
        | some (id, l) =>
          if e.sealed || e.state == .closed || e.state == .cancelled || l.endBegun then .fail3 i p 6
          else if e.state == .cancelling then .seq (.count sc 0 bodies.length 0 0) (.packetDone i p)
          else
            let here := s.crewCores id (slotDie i)
            let cores := if here.isEmpty then s.crewCores id (1 - slotDie i) else here
            let die := coreDie (cores.headD 0)
            if cores.isEmpty || s.entriesOf die + bodies.length > 65536 then .slotHold i (fun x => x)
            else
              let mine := parent != 0 && !s.foreign parent
              let refused := parent != 0 && (if mine then s.stale parent || (s.linkPlace parent h).isNone else s.freeBit (9700 + i))
              if refused then .seq (.fail3 i p 5) (.act .free)
              else
                .all [
                  .when (mine && s.linkPlace parent h == some true) (.seq
                    (.scope (hIndex parent) (fun x => { x with remote := x.remote ++ [{ node := 0x1FF, handle := h }] }))
                    (.addWork (hIndex parent) 1)),
                  .when (parent != 0 && !mine) (.watch (hNode parent).toNat h),
                  .placeTasks id sc cores bodies,
                  .packetDone i p,
                  .act .free]

/-- A SIGNAL on a counter (R284, R287, R463): `f` answers none where the counter's state refuses it. -/
def Prog.signalCounter (i op : Nat) (f : State → Nat → W64 → Option Prog) : Prog :=
  .look fun s => match s.packetOf i 3 with
    | none => .skip
    | some p =>
      if pkArg p.units ≠ op then .skip
      else match counterOf (unitAt p.units 1).toNat with
        | none => .fail3 i p 1
        | some d => match f s d (unitAt p.units 2) with
          | none => .fail3 i p 1
          | some q => .all [q, .packetDone i p, .act .free, .fireDecs 64]

/-- A SIGNAL WRITE whose turn has come writes (R284), its page checked anew (R463). -/
def Prog.openWrite (q : Nat) (o : OpenPacket) (va v : W64) : Prog :=
  .look fun s =>
    let die := slotDie o.slot
    if o.wait.isSome then .skip
    else if o.denied then .openFail q o
    else match s.reach o.ctx true va 8 with
      | .ok => .seq (.dieStore (slotKey o.slot) o.ctx va (leBytes 8 v.toNat)) (.openDone q o)
      | .absent a level =>
        .seq (.dieFault die o.ctx a 1 level)
          (.opens q (fun l => { o with wait := some (die, s.faultSerialFor die o.ctx a) } :: l.tail))
      | _ => .openFail q o

/-- SIGNAL WRITE (R284): its page is checked when it is processed; it writes once every earlier packet has completed. -/
def signalWrite (i : Nat) : Prog :=
  .look fun s =>
    let x := s.slot i
    match s.packetOf i 3 with
    | some p =>
      let va := unitAt p.units 1
      let v := unitAt p.units 2
      if pkArg p.units ≠ 0 then .skip
      else if va.toNat % 8 ≠ 0 then .fail3 i p 4
      else .withRange i true va 8 (.fail3 i p 4)
        (if (s.openOf i).isEmpty then .seq (.dieStore (slotKey i) x.ctx va (leBytes 8 v.toNat)) (.packetDone i p)
         else .packetOpen i p (.write va v))
    | none =>
      match s.openHead i OpenKind.writes with
      | some (q, o) =>
        (match o.kind with
         | .write va v => .when s.powered (.openWrite q o va v)
         | _ => .skip)
      | none => .skip

/-- SIGNAL DEC (R287). -/
def signalDec (i : Nat) : Prog := .signalCounter i 1 (fun _ d _ => some (.decCounter d 0))

/-- SIGNAL ARM (R287). A value above 32 bits has no stated count: it is free (log 33). -/
def signalArm (i : Nat) : Prog :=
  .signalCounter i 2 (fun s d v =>
    let c := s.counter d
    if v = 0 || c.count ≠ 0 || c.bind.isSome then none
    else
      let n := if v.toNat < 2 ^ 32 then v.toNat else 1 + Config.freeNat s.freeCtr 9800 d % (2 ^ 32 - 1)
      some (.counter d (fun c => { c with count := n, status := 0 })))

/-- SIGNAL INC (R287). -/
def signalInc (i : Nat) : Prog :=
  .signalCounter i 3 (fun _ d v => some (.counter d (fun c => { c with count := satAdd (2 ^ 32 - 1) c.count v.toNat })))

/-- A WAIT packet looks at its condition (R284, R463): a word is read afresh. -/
def Prog.waitLook (i : Nat) (p : Packet) : Prog :=
  .look fun s =>
    let x := s.slot i
    let a := unitAt p.units 1
    let v := unitAt p.units 2
    let hold := Prog.slotHold i (fun x => { x with checked := s.t })
    if pkArg p.units = 0 then
      (match counterOf a.toNat with
       | none => .fail3 i p 1
       | some d => if (s.counter d).count = 0 then .packetDone i p else hold)
    else if a.toNat % 8 ≠ 0 then .fail3 i p 4
    else .withRange i false a 8 (.fail3 i p 4) (
      let w := leNat (s.dieRead x.ctx a 8)
      let met := if pkArg p.units = 1 then decide (v.toNat ≤ w) else w == v.toNat
      .seq (if met then .packetDone i p else hold) (.act .free))

/-- A WAIT packet of one operation is processed. -/
def waitPacket (i op : Nat) : Prog :=
  .look fun s => match s.packetOf i 4 with
    | some p => .when (pkArg p.units == op && (s.slot i).state == .running) (.waitLook i p)
    | none => .skip

/-- WAIT_CHECK (R284): at a tail write, and every 2 µs. -/
def waitCheck (i : Nat) : Prog :=
  .look fun s =>
    let x := s.slot i
    match s.packetOf i 4 with
    | some p => .when (x.state == .waiting && (decide (x.checked + 2 * Config.usec ≤ s.t) || decide (x.checked < x.tailAt)))
        (.waitLook i p)
    | none => .skip

/-- The job under whose count a host's cancel falls. -/
def State.hostJob (s : State) (i : Nat) : Nat := (s.jobOf i).getD 0

/-- CANCEL (R284, R63, R57): any level; the ticket is stored at its address. -/
def cancelPacket (i : Nat) : Prog :=
  .look fun s => match s.packetOf i 5 with
    | none => .skip
    | some p =>
      let h := unitAt p.units 1
      let va := unitAt p.units 2
      let j := hIndex h
      let go :=
        if s.foreign h then Prog.fail3 i p 2
        else
          let ticket := if s.stale h then ticketWord 0 3 j else s.cancelTicket j (s.detNear j) (s.hostJob j)
          .all [
            .when (!s.stale h) (.cancel j (s.detNear j) (s.hostJob j) none),
            .when (va != 0) (.dieStore (slotKey i) (s.slot i).ctx va (leBytes 8 ticket.toNat)),
            .packetDone i p]
      if va = 0 then go
      else if va.toNat % 8 ≠ 0 then .fail3 i p 4
      else .withRange i true va 8 (.fail3 i p 4) go

/-- FENCE (R284): processed, it completes once every earlier packet has completed and the stores pending then are visible
at its scope. -/
def fencePacket (i : Nat) (sys : Bool) : Prog :=
  .look fun s =>
    match s.packetOf i 6 with
    | some p => .when ((pkArg p.units == 1) == sys) (.packetOpen i p (.fence sys none))
    | none =>
      match s.openHead i (OpenKind.fences sys) with
      | some (q, o) =>
        (match o.kind with
         | .fence y after =>
           if !s.powered then .skip
           else match after with
             | none =>
               let ids := (s.reqs.filter (fun r => (r.access == .store || r.access == .atomic) && (sys || r.place == .slice))).map Req.id
               .opens q (fun l => { o with kind := .fence y (some ids) } :: l.tail)
             | some ids => .when (ids.all (fun r => (s.req? r).isNone)) (.openDone q o)
         | _ => .skip)
      | none => .skip

/-- SCOPE CREATE (R284, R55, R58, R463). -/
def scopeCreate (i : Nat) : Prog :=
  .look fun s => match s.packetOf i 7 with
    | none => .skip
    | some p =>
      let u := p.units
      let level := bitsOf (pkArg u) 10 8
      let h := unitAt u 1
      let ack := unitAt u 2
      let va := unitAt u 3
      let ctx := (s.slot i).ctx
      let e := s.scope (hIndex h)
      let fits := if level = 4 then h == 0
        else !s.foreign h && !s.stale h && e.level == level + 1 && !e.sealed && e.state != .closed && e.state != .cancelled
      let go :=
        if !fits then Prog.fail3 i p 2
        else match s.freeScope with
          | none => .fail3 i p 3
          | some n =>
            .all [
              .newScope n level (if level = 4 then 0 else hIndex h) false ack ctx,
              .look fun s => .when (va != 0) (.dieStore (slotKey i) ctx va (leBytes 8 (s.handle n).toNat)),
              .settle n,
              .packetDone i p,
              .fireDecs 64]
      if bitsOf (pkArg u) 7 0 ≠ 0 then .skip
      else if ack.toNat % 32 ≠ 0 || va.toNat % 8 ≠ 0 then .fail3 i p 4
      else if va = 0 then go
      else .withRange i true va 8 (.fail3 i p 4) go

/-- SCOPE SEAL and CLOSE-JOB name a scope of their levels (R284). -/
def scopeClose (i op : Nat) (levels : List Nat) (q : Nat → Prog) : Prog :=
  .look fun s => match s.packetOf i 7 with
    | none => .skip
    | some p =>
      let h := unitAt p.units 1
      if bitsOf (pkArg p.units) 7 0 ≠ op then .skip
      else if (unitAt p.units 2).toNat % 32 ≠ 0 then .fail3 i p 4
      else if s.foreign h || s.stale h || !levels.contains (s.scope (hIndex h)).level then .fail3 i p 2
      else .seq (q (hIndex h)) (.packetDone i p)

/-- SEAL (R44, R58). -/
def scopeSeal (i : Nat) : Prog :=
  scopeClose i 1 [2, 3] (fun j => .seq (.scope j (fun e => { e with sealed := true })) (.settle j))

/-- CLOSE-JOB (R44, R58): the job may close; its entry is freed once it is final. -/
def scopeCloseJob (i : Nat) : Prog :=
  scopeClose i 2 [4] (fun j => .seq (.scope j (fun e => { e with sealed := true })) (.look fun s =>
    let e := s.scope j
    if e.final then .seq (.scope j Scope.free) (.upd (fun s => { s with jobCancels := s.jobCancels.drop j })) else .settle j))

/-! LAUNCH. -/

/-- The body of a LAUNCH (R288). -/
structure LaunchBody where
  desc : W64
  graph : W64
  ack : W64
  dimX : Nat
  dimY : Nat
  dimZ : Nat
  wait : Nat
  doneCnt : Nat
  seed : W32
  flags : Nat
  monitor : Nat
  chunk : Nat
  map : W64
  trace : W64
  cap : Nat

/-- Read it from a packet's units. -/
def LaunchBody.ofUnits (u : List W64) : LaunchBody :=
  let b := fun (i hi lo : Nat) => unitBits u i hi lo
  { desc := unitAt u 1
    graph := unitAt u 2
    ack := unitAt u 3
    dimX := b 4 31 0 + 1
    dimY := b 4 63 32 + 1
    dimZ := b 5 31 0 + 1
    wait := b 5 47 32
    doneCnt := b 5 63 48
    seed := BitVec.ofNat 32 (b 6 31 0)
    flags := b 6 39 32
    monitor := b 6 47 40
    chunk := b 6 63 48
    map := unitAt u 7
    trace := unitAt u 8
    cap := b 9 31 0 }

/-- The flags of a LAUNCH: CHECK, DET, MORTON, MAP, REPLAY (R288). -/
def LaunchBody.flag (b : LaunchBody) (i : Nat) : Bool := b.flags / 2 ^ i % 2 == 1

/-- The limits of R288, broken with cause 7. -/
def LaunchBody.ok (b : LaunchBody) : Bool :=
  let des := fun (w : Nat) => decide (w ≥ 2 ^ 15) || w == 0
  decide (b.dimX * b.dimY * b.dimZ ≤ 2 ^ 63) && decide (1 ≤ b.chunk) && decide (b.chunk ≤ 64) && decide (b.monitor ≤ 63) &&
    b.desc.toNat % 64 == 0 && b.ack.toNat % 32 == 0 && b.trace.toNat % 64 == 0 && (!b.flag 1 || b.cap != 0) &&
    (!b.flag 4 || b.flag 1) && (!b.flag 3 || b.map != 0) && des b.wait && des b.doneCnt

/-- The bytes of the ownership map of a LAUNCH (R276, R290). -/
def LaunchBody.mapSize (b : LaunchBody) : Nat := ((b.dimX + 15) / 16 * ((b.dimY + 15) / 16) + 7) / 8

/-- The kernel of a descriptor and its declarations (R288); the latter as tile number and entry. -/
def Kernel.ofBytes (d decls : List Byte) : Kernel :=
  let n := fun (off len : Nat) => leNat ((d.drop off).take len)
  let w := fun (off : Nat) => BitVec.ofNat 64 (n off 8)
  { entry := w 0
    control := w 8
    landing := w 16
    handler := w 24
    shaderBase := w 32
    shaderLimit := n 40 4
    bands := n 44 1
    n := n 45 1
    g := n 46 1
    acc := n 47 1
    scratch := n 48 4
    tiles := (List.range (n 52 2)).map (fun i =>
      let t := leNat ((decls.drop (16 * i)).take 16)
      (bitsOf t 117 112, BitVec.ofNat 128 (t % 2 ^ 112))) }

/-- Whether a tile declaration keeps R208 to R210 within a scratchpad; without a bitmap the bitmap's field is zero (32 R454). -/
def tileDeclOk (scratch t : Nat) : Bool :=
  let e := BitVec.ofNat 128 t
  let fmt := tFmt e
  let rows := tRows e
  let cols := tCols e
  bitsOf t 127 118 == 0 && bitsOf t 111 106 == 0 && bitsOf t 104 104 == 0 && bitsOf t 99 96 == 0 && bitsOf t 63 53 == 0 &&
    bitsOf t 31 21 == 0 && decide (fmt ≤ 6) && decide (1 ≤ rows) && decide (rows ≤ 16384) && decide (1 ≤ cols) &&
    decide (cols ≤ 16384) && (decide (fmt < 4) || cols % 32 == 0) && tOffset e % 128 == 0 &&
    decide (tOffset e + tBytes e ≤ scratch) &&
    (if tBitmap e then fmt != 0 && rows % 8 == 0 && cols % 8 == 0 && tBitmapAt e % 16 == 0 &&
        decide (tBitmapAt e + (rows / 8 * (cols / 8) + 7) / 8 ≤ scratch)
      else tBitmapAt e == 0)

/-- Whether a descriptor and its declarations keep their limits (cause 1 of R289). -/
def kernelOk (d decls : List Byte) : Bool :=
  let k := Kernel.ofBytes d decls
  let count := leNat ((d.drop 52).take 2)
  let raw := fun (i : Nat) => leNat ((decls.drop (16 * i)).take 16)
  decide (1 ≤ k.bands) && decide (k.bands ≤ 16) && decide (1 ≤ k.n) && decide (k.n ≤ 126) && decide (k.g ≤ k.n) &&
    decide (k.acc ≤ 32) && k.scratch % 128 == 0 && decide (k.scratch ≤ 2 ^ 21) && decide (count ≤ 64) &&
    leNat ((d.drop 54).take 2) == 0 && (List.range count).all (fun i => tileDeclOk k.scratch (raw i)) &&
    decide ((k.tiles.map Prod.fst).eraseDups.length = k.tiles.length)

/-- Records of a half of a trace, up to the first that is empty (R296, log 31); the first address that cannot be read. -/
def State.traceRecs (s : State) (ctx : Nat) (denied : List Nat) : Nat → W64 → List TraceRec × Store
  | 0, _ => ([], .ok)
  | n + 1, va =>
    if denied.contains (pageOf va) then ([], .fail) else
    match s.reach ctx false va 32 with
    | .ok =>
      let bs := s.dieRead ctx va 32
      let x := fun (off len : Nat) => leNat ((bs.drop off).take len)
      if x 0 1 = 0 then ([], .ok)
      else
        let r := s.traceRecs ctx denied n (va + 32)
        ({ kind := x 0 1, ord := x 2 2, incomplete := x 4 4 % 2 == 1, seq := BitVec.ofNat 64 (x 8 8),
           count := BitVec.ofNat 64 (x 16 8), handed := BitVec.ofNat 64 (x 24 8) } :: r.1, r.2)
    | e => ([], e)

/-- The crews that a half of a trace records (R296). -/
def traceCrews (l : List TraceRec) : Nat := l.foldl (fun n r => if r.ord = 0xFFFF then n else max n (r.ord + 1)) 0

/-- Whether a half of a trace is complete (R296): every crew up to the largest ordinal has its END record. -/
def traceComplete (l : List TraceRec) : Bool :=
  l.all (fun r => !r.incomplete) && (List.range (traceCrews l)).all (fun o => l.any (fun e => e.kind == 4 && e.ord == o))

/-- Cores of a die that are not fenced. -/
def State.freeCores (s : State) (die : Nat) : Nat :=
  ((List.range Config.cores).filter (fun c => !(s.core (128 * die + c)).fenced)).length

/-- The first of the causes 1, 2, 8, 4, 3, 6 and 5 of R289 that a LAUNCH meets, once what it names is read. -/
def State.launchCause (s : State) (b : LaunchBody) (d decls : List Byte) (traces : List (List TraceRec)) (readOk : Bool) :
    Option Nat :=
  let g := s.scope (hIndex b.graph)
  let waitBound := match counterOf b.wait with
    | some c => ((s.counter c).bind).isSome
    | none => false
  let half := fun (die : Nat) => traces.getD die []
  if !kernelOk d decls then some 1
  else if ((b.flag 2 || b.flag 3) && b.dimY == 1) || (b.flag 3 && decide (b.dimZ > 1)) then some 2
  else if b.flag 3 && (s.freeCores 0 == 0 || s.freeCores 1 == 0) then some 8
  else if s.foreign b.graph || s.stale b.graph || g.level != 2 || g.sealed || g.state == .closed || g.state == .cancelled then some 4
  else if waitBound then some 3
  else if b.flag 4 && !(readOk && [0, 1].all (fun die => traceComplete (half die) && decide (traceCrews (half die) ≤ s.freeCores die)))
    then some 6
  else if s.freeScope.isNone then some 5 else none

/-- A LAUNCH fails (R289): its event, its completion, and its done counter with FAULT. -/
def Prog.launchFail (i : Nat) (p : Packet) (b : LaunchBody) (cause : Nat) : Prog :=
  .all [.packetFail i p 2 cause (BitVec.ofNat 64 (pkArg p.units)) (b.flag 1), .addDec b.doneCnt 4 [], .fireDecs 64]

/-- The launch that a LAUNCH makes (R288). -/
def launchOfBody (s : State) (i : Nat) (p : Packet) (b : LaunchBody) (n : Nat) (d decls map : List Byte)
    (traces : List (List TraceRec)) : Launch :=
  let held := match counterOf b.wait with
    | some c => decide ((s.counter c).count > 0)
    | none => false
  let x := s.slot i
  { scope := n
    gen := (s.scope n).gen
    job := (s.jobOf (hIndex b.graph)).getD 0
    jobGen := (s.scope ((s.jobOf (hIndex b.graph)).getD 0)).gen
    id := BitVec.ofNat 32 (pkArg p.units)
    die := slotDie i
    slot := i
    ctx := x.ctx
    prio := x.prio
    dimX := b.dimX
    dimY := b.dimY
    dimZ := b.dimZ
    wait := b.wait
    doneCnt := b.doneCnt
    seed := b.seed
    check := b.flag 0
    det := b.flag 1
    morton := b.flag 2
    map := b.flag 3
    replay := b.flag 4
    monitor := BitVec.ofNat 6 b.monitor
    chunk := b.chunk
    mapAddr := b.map
    mapBits := map
    traceAddr := b.trace
    traceCap := b.cap
    kernel := Kernel.ofBytes d decls
    code := p.code
    phase := if held then .bound else .waiting
    split := b.flag 3
    ranges := if b.flag 3 then [(0, (0, b.dimX * b.dimY * b.dimZ)), (1, (0, b.dimX * b.dimY * b.dimZ))] else []
    processed := s.t
    startAt := s.t
    trace := if b.flag 4 then [(0, traces.getD 0 []), (1, traces.getD 1 [])] else [] }

/-- A LAUNCH is processed (R288 to R290): its scope is created, and admission begins; under a CANCELLING graph its
coordinates are dropped. -/
def Prog.launchGo (i : Nat) (p : Packet) (b : LaunchBody) (n : Nat) (l : Launch) : Prog :=
  .look fun s =>
    let id := s.nextId
    let under := (s.scope (hIndex b.graph)).state == .cancelling
    .all [
      .newScope n 1 (hIndex b.graph) false b.ack l.ctx,
      .upd (fun s => { s with
        launches := s.launches.put id { l with phase := if under then .over else l.phase }
        nextId := id + 1 }),
      .when (!under && l.phase == .bound) (.counter ((counterOf b.wait).getD 0) (fun c => { c with bind := some (.launch id false) })),
      .packetOpen i p (.launch n l.gen),
      .when under (.all [
        .launch id (fun l => { l with coordsDropped := true }),
        .count n 0 l.count 0 0,
        .settle n,
        .fireDecs 64])]

/-- LAUNCH (R288, R289, R463). -/
def launchPacket (i : Nat) : Prog :=
  .look fun s => match s.packetOf i 1 with
    | none => .skip
    | some p =>
      let b := LaunchBody.ofUnits p.units
      let ctx := (s.slot i).ctx
      let bad := Prog.launchFail i p b 9
      if !b.ok then .launchFail i p b 7
      else .withRange i false b.desc 64 bad (
        let d := s.dieRead ctx b.desc 64
        let count := leNat ((d.drop 52).take 2)
        let at_ := BitVec.ofNat 64 (leNat ((d.drop 56).take 8))
        let size := if count ≤ 64 then 16 * count else 0
        .withRange i false at_ size bad (
          let decls := s.dieRead ctx at_ size
          .withRange i false b.map (if b.flag 3 then b.mapSize else 0) bad (
            let map := if b.flag 3 then s.dieRead ctx b.map b.mapSize else []
            let half := fun (die : Nat) =>
              if b.flag 4 then s.traceRecs ctx (s.slot i).denied b.cap (b.trace + BitVec.ofNat 64 (die * b.cap * 32)) else ([], .ok)
            let t0 := half 0
            let t1 := half 1
            match t0.2, t1.2 with
            | .hold, _ | _, .hold => .skip
            | .absent a level, _ => .slotWait i a 0 level
            | _, .absent a level => .slotWait i a 0 level
            | e0, e1 =>
              match s.launchCause b d decls [t0.1, t1.1] (e0 == .ok && e1 == .ok), s.freeScope with
              | some c, _ => .launchFail i p b c
              | none, none => .launchFail i p b 5
              | none, some n => .launchGo i p b n (launchOfBody s i p b n d decls map [t0.1, t1.1]))))

/-! Registers and ageing. -/

/-- QTAIL_WRITE (R278, R281, R285, R194). -/
def qtailWrite (i : Nat) (value : W64) : Prog :=
  .look fun s =>
    let x := s.slot i
    let tail : W32 := value.extractLsb' 0 32
    if !s.powered || i ≥ 512 then .skip
    else
      .seq (.slot i (fun x => { x with
          tail
          tailAt := s.t
          tails := x.tailsWith tail s.t
          since := if s.packetWaits i then x.since else s.t
          after := s.dieStores (dieKey 0 2) ++ s.dieStores (slotKey i) }))
        (.when (x.en && x.state != .stopped && decide ((tail - x.head).toNat > x.units)) (.ringFault i 7))

/-- Whether a slot has a current packet that goes on by itself: one that is read, and neither waits nor is held by its
BARRIER (R280, R283). -/
def State.packetGoesOn (s : State) (i : Nat) : Bool :=
  let x := s.slot i
  x.en && x.state == .running && match x.cur with
    | some p => !pkBarrier p.units || (s.openOf i).isEmpty
    | none => false

/-- Firmware unmaps a slot's queue (R280): the slot finishes its current packet first. -/
def Prog.unmapSlot (i : Nat) (value : W64) : Prog :=
  .look fun s =>
    if s.packetGoesOn i then .slot i (fun x => { x with leaving := some value }) else .leaveSlot i value

/-- Map a queue to a slot (R280): reading resumes at its saved head. The number that firmware gives the queue is free (log
34); a queue that has none saved begins with what the registers hold. Where the units held exceed the ring, the slot stops
with OVERRUN (R279, R285, log 93). -/
def Prog.mapSlot (i : Nat) : Prog :=
  .look fun s =>
    let q : W32 := if (s.slot i).en then (s.slot i).queue else s.freeWord (9900 + i) 0
    .all [
      .slot i (fun x =>
        let (head, tail) := if x.en then (x.head, x.tail) else s.queues.get q.toNat (x.head, x.tail)
        { x with
          en := true, state := .running, cause := 0, cur := none, wait := none, denied := [], queue := q, head, tail
          ageSteps := 0, since := s.t }),
      .upd (fun s => { s with queues := s.queues.drop q.toNat, queueCtx := s.queueCtx.drop q.toNat }),
      .look fun s => .when (decide ((s.slot i).held > (s.slot i).units)) (.ringFault i 7),
      .act .free]

/-- QCTL_WRITE (R278 to R280): firmware maps, re-maps or unmaps a queue. -/
def qctlWrite (i : Nat) (value : W64) : Prog :=
  .look fun s =>
    let x := s.slot i
    let lg := bitsOf x.size.toNat 4 0
    let fits := x.base.toNat % 4096 == 0 && decide (12 ≤ lg) && decide (lg ≤ 28)
    if !s.powered || i ≥ 512 then .skip
    else if value.getLsbD 0 && fits then
      .seq
        (.slot i (fun x => { x with ctx := bitsOf value.toNat 31 20, prio := bitsOf value.toNat 11 9, leaving := none }))
        (if x.en && x.state != .stopped then .skip else .mapSlot i)
    else .unmapSlot i value

/-- QUEUE_AGEING (R294): a readable packet has waited another complete 64 µs. -/
def queueAgeing (i : Nat) : Prog :=
  .look fun s =>
    let x := s.slot i
    .when (s.powered && s.packetWaits i && decide (x.since + (x.ageSteps + 1) * 64 * Config.usec ≤ s.t) && decide (x.ageSteps < x.prio))
      (.slot i (fun x => { x with ageSteps := x.ageSteps + 1 }))

/-! The push into a ring (R282). -/

/-- The units of PAD before a packet of `n` units, and its unit offset, where the ring has room. -/
def Slot.room (x : Slot) (n : Nat) : Option (Nat × Nat) :=
  let o := x.tail.toNat % x.units
  let pad := if o + n > x.units then x.units - o else 0
  if x.held + pad + n > x.units then none else some (pad, (o + pad) % x.units)

/-- The slot that holds a queue (R401). -/
def State.slotOf (s : State) (queue : Nat) : Option Nat :=
  (s.slots.find? (fun e => e.2.en && e.2.queue.toNat == queue)).map Prod.fst

/-- Write a packet into a slot's ring and advance QTAIL (R282). -/
def Prog.push (i : Nat) (pad off : Nat) (image : List W64) : Prog :=
  .look fun s =>
    let x := s.slot i
    let o := x.tail.toNat % x.units
    let at_ := fun (u : Nat) => x.base + BitVec.ofNat 64 (8 * u)
    .all [
      .when (pad != 0) (.dieStore (slotKey i) x.ctx (at_ o) (leBytes 8 (2 ^ 16 * pad))),
      .dieStore (slotKey i) x.ctx (at_ off) (unitBytes image),
      .look fun s => .slot i (fun x => { x with
        tail := x.tail + BitVec.ofNat 32 (pad + image.length)
        tailAt := s.t
        tails := x.tailsWith (x.tail + BitVec.ofNat 32 (pad + image.length)) s.t
        since := if s.packetWaits i then x.since else s.t
        after := x.after ++ s.dieStores (slotKey i) })]

/-- QTAIL_WRITE (R278). -/
def execQtailWrite (slot : Nat) (value : W64) (s : State) : Host.Outcome State Fault Refusal := done (qtailWrite slot value) s

/-- QCTL_WRITE (R279). -/
def execQctlWrite (slot : Nat) (value : W64) (s : State) : Host.Outcome State Fault Refusal := done (qctlWrite slot value) s

/-- PACKET_READ (R281). -/
def execPacketRead (slot : Nat) (s : State) : Host.Outcome State Fault Refusal := done (packetRead slot) s

/-- QUEUE_AGEING (R294). -/
def execQueueAgeing (slot : Nat) (s : State) : Host.Outcome State Fault Refusal := done (queueAgeing slot) s

/-- PAD (R284). -/
def execPad (slot : Nat) (s : State) : Host.Outcome State Fault Refusal := done (padPacket slot) s

/-- LAUNCH (R288). -/
def execLaunch (slot : Nat) (s : State) : Host.Outcome State Fault Refusal := done (launchPacket slot) s

/-- TASKS (R284). -/
def execTasks (slot : Nat) (s : State) : Host.Outcome State Fault Refusal := done (tasksPacket slot) s

/-- SIGNAL WRITE (R284). -/
def execSignalWrite (slot : Nat) (s : State) : Host.Outcome State Fault Refusal := done (signalWrite slot) s

/-- SIGNAL DEC (R287). -/
def execSignalDec (slot : Nat) (s : State) : Host.Outcome State Fault Refusal := done (signalDec slot) s

/-- SIGNAL ARM (R287). -/
def execSignalArm (slot : Nat) (s : State) : Host.Outcome State Fault Refusal := done (signalArm slot) s

/-- SIGNAL INC (R287). -/
def execSignalInc (slot : Nat) (s : State) : Host.Outcome State Fault Refusal := done (signalInc slot) s

/-- WAIT on a counter (R284). -/
def execWaitCounterZero (slot : Nat) (s : State) : Host.Outcome State Fault Refusal := done (waitPacket slot 0) s

/-- WAIT on a word not below a value (R284). -/
def execWaitWordGe (slot : Nat) (s : State) : Host.Outcome State Fault Refusal := done (waitPacket slot 1) s

/-- WAIT on a word equal to a value (R284). -/
def execWaitWordEq (slot : Nat) (s : State) : Host.Outcome State Fault Refusal := done (waitPacket slot 2) s

/-- WAIT_CHECK (R284). -/
def execWaitCheck (slot : Nat) (s : State) : Host.Outcome State Fault Refusal := done (waitCheck slot) s

/-- CANCEL of a queue (R284). -/
def execCancelPacket (slot : Nat) (s : State) : Host.Outcome State Fault Refusal := done (cancelPacket slot) s

/-- FENCE at DEV scope (R284). -/
def execFencePacketDev (slot : Nat) (s : State) : Host.Outcome State Fault Refusal := done (fencePacket slot false) s

/-- FENCE at SYS scope (R284). -/
def execFencePacketSys (slot : Nat) (s : State) : Host.Outcome State Fault Refusal := done (fencePacket slot true) s

/-- SCOPE CREATE (R284). -/
def execScopeCreate (slot : Nat) (s : State) : Host.Outcome State Fault Refusal := done (scopeCreate slot) s

/-- SCOPE SEAL (R284). -/
def execScopeSeal (slot : Nat) (s : State) : Host.Outcome State Fault Refusal := done (scopeSeal slot) s

/-- SCOPE CLOSE-JOB (R284). -/
def execScopeCloseJob (slot : Nat) (s : State) : Host.Outcome State Fault Refusal := done (scopeCloseJob slot) s

end Sys2Proof.Machine
end

