-- ==== Sys2Proof/Machine/Matrix.lean ====
section
/-!
DEFINITION. The matrix engine: MWLOAD, MMUL, MZERO and MDRAIN (09 R225 to R237, 21 R390 to R395), their steps, the
arithmetic of the accumulators (06 R148 to R153), and the grant of an array start (09 R236).
-/

namespace Sys2Proof.Machine

/-! Accumulators (R149 to R151). -/

/-- The NaN marker (R149). -/
def accMarker : Int := -(2 ^ 47)

/-- The place of element (i, j) of an accumulator tile. -/
def accAt (i j : Nat) : Nat := 128 * i + j

/-- An element of an accumulator tile. -/
def Acc.at_ (a : Acc) (i j : Nat) : Int := a.elems.get (accAt i j) 0

/-- The exact sum of the products of one element (R150), or none where one of them involves a NaN or an infinity (R151). -/
def dotSum : List (FVal × FVal) → Option (Int × Int)
  | [] => some (0, 0)
  | (.fin n m e, .fin n' m' e') :: r =>
    match dotSum r with
    | some x => some (dyAdd (sgn (n != n') (m * m')) (e + e') x.1 x.2)
    | none => none
  | _ :: _ => none

/-- m · 2^e rounded to an integer, ties to even (R150). -/
def rnInt (x : Int × Int) : Int :=
  let n : Int := (roundStep rneMode 0 0 (decide (x.1 < 0)) (.rat x.1.natAbs 1 x.2) 0).1
  if x.1 < 0 then -n else n

/-- S / 2^E rounded to an integer (R150). -/
def accTerm (s : Int × Int) (e : Int) : Int := rnInt (s.1, s.2 - e)

/-- Renormalise a tile: every element that is not the marker is divided by 2^8 with RN, and E_t rises by 8 (R150). -/
def Acc.renorm (a : Acc) : Acc :=
  { a with
    elems := a.elems.map (fun x => (x.1, if x.2 = accMarker then x.2 else rnInt (x.2, -8)))
    e := a.e + 8 }

/-- The sums of a k-step by element; an element with none is marked. -/
abbrev Sums := List ((Nat × Nat) × Option (Int × Int))

/-- Every unmarked element's addition fits (R150). -/
def Acc.fits (a : Acc) (s : Sums) : Bool :=
  a.elems.all (fun x => x.2 == accMarker || decide (x.2.natAbs ≤ 2 ^ 47 - 1)) &&
  s.all (fun x => match x.2 with
    | none => true
    | some v =>
      let old := a.at_ x.1.1 x.1.2
      old == accMarker || decide ((old + accTerm v a.e).natAbs ≤ 2 ^ 47 - 1))

/-- Renormalise until every addition fits (R150), at most a number of times. -/
def Acc.settle : Nat → Acc → Sums → Acc
  | 0, a, _ => a
  | n + 1, a, s => if a.fits s then a else settle n a.renorm s

/-- An exponent that no sum of a k-step reaches: each is below 2 to it. -/
def topExp (s : Sums) : Int :=
  s.foldl (fun m x => match x.2 with
    | some v => if v.1 = 0 then m else max m ((v.1.natAbs.log2 : Int) + 1 + v.2)
    | none => m) 0

/-- More renormalisations than it takes until every addition of a k-step fits (R150): then E_t is above every sum, and an
element is below 2^40. -/
def Acc.rounds (a : Acc) (s : Sums) : Nat := (topExp s - a.e).toNat / 8 + 8

/-- The exponent that the automatic mode sets: floor(log2 max |S|) − 39 (R150). -/
def autoExp (s : Sums) (marked : Nat × Nat → Bool) : Option Int :=
  s.foldl (fun acc x => match x.2 with
    | some v =>
      if v.1 = 0 || marked x.1 then acc
      else
        let e := (v.1.natAbs.log2 : Int) + v.2 - 39
        some (match acc with
          | some f => max e f
          | none => e)
    | none => acc) none

/-- One k-step on an accumulator tile (R150, R151). -/
def Acc.kStep (a : Acc) (s : Sums) : Acc :=
  let a := { a with
    elems := s.foldl (fun t x => match x.2 with
      | none => t.put (accAt x.1.1 x.1.2) accMarker
      | some _ => t) a.elems }
  let marked := fun (p : Nat × Nat) => a.at_ p.1 p.2 == accMarker
  let add := fun (a : Acc) =>
    let a := a.settle (a.rounds s) s
    { a with
      elems := s.foldl (fun t x => match x.2 with
        | some v =>
          let old := a.at_ x.1.1 x.1.2
          if old = accMarker then t else t.put (accAt x.1.1 x.1.2) (old + accTerm v a.e)
        | none => t) a.elems }
  if a.mode = 1 then
    match autoExp s marked with
    | none => a
    | some e => add { a with e, mode := 2 }
  else add a

/-! Formats. -/

/-- p of a tile format (R228), 0 where the matrix engine does not take it. -/
def fmtP (fmt : Nat) : Nat := if fmt = 2 || fmt = 3 then 1 else if fmt = 4 then 2 else if fmt = 5 then 4 else if fmt = 6 then 8 else 0

/-- The tile format of AFMT (R229). -/
def afmtTile (a : Nat) : Nat := if a = 0 then 3 else if a = 1 then 2 else a + 2

/-- The tile format of MDRAIN's fmt (R390). -/
def dfmtTile (d : Nat) : Nat := if d = 0 then 1 else if d = 1 then 3 else if d = 2 then 2 else d + 1

/-- Fields of MMUL's descriptor (R229). -/
def mmTile (f : Fields) : Nat := f.x 57 52
def mmAcc (f : Fields) : Nat := f.x 51 47
def mmM (f : Fields) : Nat := f.x 29 22
def mmKs (f : Fields) : Nat := f.x 21 17
def mmFmt (f : Fields) : Nat := f.x 16 14

/-- The accumulator tile of a command's view. -/
def Cmd.acc (c : Cmd) : Nat :=
  match c.kind with
  | .mmul => (mmAcc c.f)
  | .mdrain => bitsOf c.f.imm24 10 6
  | _ => c.f.d.toNat

/-- The physical accumulator tile of a crew (R237). -/
def State.accIndex (s : State) (key a : Nat) : Option Nat := (s.crew? key).bind (fun c => c.accs[a]?)

/-- A crew's accumulator tile. -/
def State.acc (s : State) (key a : Nat) : Acc :=
  match s.crew? key, s.accIndex key a with
  | some c, some i => (s.core c.core).accs.get i {}
  | _, _ => {}

/-- The ENGINE trap of an accumulator number (R233): not below the crew's count, or marked with no MZERO of the same
context to come. -/
def State.accTrap (s : State) (key a : Nat) : Option (Nat × W64) :=
  match s.accIndex key a with
  | none => some (0x11, 5)
  | some _ =>
    let coming := (s.cmdsOf key).any (fun c => (match c.kind with
      | .mzero _ => true
      | _ => false) && c.acc == a)
    if (s.acc key a).mark && !coming then some (0x11, 4) else none

/-! Issue. -/

/-- MWLOAD's checks (R228, R394): the tile's entry, its format, its geometry. -/
def mwloadTrap (s : State) (p : Pkt) : Option (Nat × W64) :=
  let n := bitsOf p.f.imm24 5 0
  match s.tile? (s.agent p.k).crew n with
  | none => some (0x0E, tileTaddr 3 n)
  | some t =>
    if fmtP (tFmt t) = 0 then some (0x0E, tileTaddr 1 n)
    else if tCols t ≠ 128 || tRows t % 128 ≠ 0 || tRows t = 0 || tRows t > 2048 * fmtP (tFmt t) then
      some (0x0E, tileTaddr 4 n)
    else none

/-- MWLOAD at issue (R228, R394). -/
def mwloadMeaning : Meaning where
  body := fun s p =>
    match mwloadTrap s p with
    | some (c, ta) => .trap c ta
    | none =>
      let n := bitsOf p.f.imm24 5 0
      issueCmd s p .mwload 0 0 [] (((s.tile? (s.agent p.k).crew n)).any (fun t => tState t == 2))
        (fun _ => .agent p.k (fun a => { a with bound := some n }))

/-- MMUL's checks in the order of R392, before the scope. -/
def mmulTrap (s : State) (p : Pkt) : Option (Nat × W64) :=
  let f := p.f
  let key := (s.agent p.k).crew
  if (mmM f) = 0 || (mmM f) > 128 || (mmKs f) = 0 || (mmKs f) > 16 then some (0x11, 6)
  else if badDesignator f.cnt then some (0x11, 1)
  else match s.accTrap key (mmAcc f) with
    | some t => some t
    | none =>
      match (s.agent p.k).bound with
      | none => some (0x11, 8)
      | some w =>
        match s.tile? key (mmTile f) with
        | none => some (0x0E, tileTaddr 3 (mmTile f))
        | some t =>
          if tFmt t ≠ afmtTile (mmFmt f) then some (0x0E, tileTaddr 1 (mmTile f))
          else
            let wt := (s.tile? key w).getD 0
            let kk := (mmKs f) * 128 * min (fmtP (tFmt wt)) (fmtP (tFmt t))
            if tCols t ≠ kk || tRows t < (mmM f) then some (0x0E, tileTaddr 4 (mmTile f))
            else if tRows wt < kk then some (0x0E, tileTaddr 4 w)
            else none

/-- MMUL at issue (R392). -/
def mmulMeaning : Meaning where
  reads := fun _ p => [.s p.f.scopeReg]
  body := fun s p =>
    match mmulTrap s p with
    | some (c, ta) => .trap c ta
    | none =>
      issueCmd s p .mmul p.f.cnt p.f.scopeReg [s.readS p.k p.f.scopeReg]
        (((s.tile? (s.agent p.k).crew (mmTile p.f))).any (fun t => tState t == 2)) (fun _ => .skip)

/-- MDRAIN's checks in the order of R391, before the scope. -/
def mdrainTrap (s : State) (p : Pkt) : Option (Nat × W64) :=
  let key := (s.agent p.k).crew
  let n := bitsOf p.f.imm24 5 0
  let w := (s.readS p.k p.f.a.toNat).toNat
  if w ≥ 2 ^ 16 || badDesignator w then some (0x11, 1)
  else match s.accTrap key (bitsOf p.f.imm24 10 6) with
    | some t => some t
    | none =>
      match s.tile? key n with
      | none => some (0x0E, tileTaddr 3 n)
      | some t =>
        if tFmt t ≠ dfmtTile (bitsOf p.f.imm24 13 11) then some (0x0E, tileTaddr 1 n)
        else if tCols t ≠ 128 || tRows t > 128 then some (0x0E, tileTaddr 4 n)
        else none

/-- MDRAIN at issue (R390, R391): its destination waits in FILLING or DRAINING, and is refused READY and held. -/
def mdrainMeaning : Meaning where
  reads := fun _ p => [.s p.f.a.toNat, .s p.f.b.toNat] ++ (if p.f.cs then [.s p.f.cReg] else [])
  body := fun s p =>
    match mdrainTrap s p with
    | some (c, ta) => .trap c ta
    | none =>
      let key := (s.agent p.k).crew
      let n := bitsOf p.f.imm24 5 0
      let r := s.regs p.k
      let st := ((s.tile? key n).map tState).getD 0
      let regs := [r.s p.f.a.toNat, r.s p.f.b.toNat, if p.f.cs then r.s p.f.cReg else 0]
      if s.cmdScope p.k 0 = .refused then .trap 0x11 7
      else if (match s.cmdScope p.k 0 with
          | .queued _ => st == 2 && s.tileHeld key n
          | _ => false) then .trap 0x0E (tileTaddr 2 n)
      else
        issueCmd s p .mdrain (r.s p.f.a.toNat).toNat 0 regs (st == 0 || st == 2) (fun _ => .moveTile key n 3 0)

/-- MZERO at issue (R395). -/
def mzeroMeaning (auto : Bool) : Meaning where
  reads := fun _ p => if auto then [] else [.s p.f.a.toNat]
  body := fun s p =>
    match s.accIndex (s.agent p.k).crew p.f.d.toNat with
    | none => .trap 0x11 5
    | some _ => issueCmd s p (.mzero auto) 0 0 [if auto then 0 else s.readS p.k p.f.a.toNat] true (fun _ => .skip)

/-! Execution. -/

/-- A matrix command that has run for some clocks has ended: the engine is idle from now on (R226). A k-step that follows a
command that has overtaken is no start (R236). -/
def Prog.matDone (core cx : Nat) (c : Cmd) (clocks : Nat) : Prog :=
  .look fun s =>
    let c := { c with first := some (c.first.getD (s.t - Config.clock * clocks)) }
    let passing := s.overtakes core cx c
    .all [
      .overtake core,
      .core core (fun x => { x with
        matIdle := s.clocks
        running := none
        lastStream := if passing then some s.clocks else x.lastStream }),
      .endCmd core cx c]

/-- MWLOAD_LATCH (R228): 128 clocks; the array holds the format and the tile's first 128 × p rows. -/
def mwloadLatch (core : Nat) : Prog :=
  .look fun s =>
    match (if s.powered then s.matReady core (· == .mwload) (fun _ _ => 128) else none) with
    | none => .skip
    | some (cx, c) =>
      let key := ctxKey core cx
      let n := bitsOf c.f.imm24 5 0
      let t := (s.tile? key n).getD 0
      let rows := (List.range (128 * fmtP (tFmt t))).map (fun i => s.tileRow (s.padBase key) t i)
      .when (s.tilesTurn key c) (.all [
        .core core (fun x => { x with latched := some { ctx := cx, fmt := tFmt t, row := 0, rows } }),
        .agent key (fun a => { a with loaded := some n, wfmt := some (tFmt t) }),
        .matDone core cx c 128])

/-- A crew's accumulator tile takes a value. -/
def Prog.putAcc (core key a : Nat) (v : Acc) : Prog :=
  .look fun s => match s.accIndex key a with
    | some i => .core core (fun x => { x with accs := x.accs.put i v })
    | none => .skip

/-- MZERO_EXECUTE (R231): 128 clocks. -/
def mzeroExecute (core : Nat) : Prog :=
  .look fun s =>
    let isZero := fun (k : CmdKind) => match k with
      | .mzero _ => true
      | _ => false
    match (if s.powered then s.matReady core isZero (fun _ _ => 128) else none) with
    | none => .skip
    | some (cx, c) =>
      let auto := c.kind == .mzero true
      let e := ((c.regs.getD 0 0).extractLsb' 0 16).toInt
      .seq (.putAcc core (ctxKey core cx) c.acc { e := if auto then 0 else e, mode := if auto then 1 else 0 })
        (.matDone core cx c 128)

/-- The formats and the k-range of an MMUL: the activation tile, the weight tile, and p (R229). -/
structure MmShape where
  base : Nat
  a : BitVec 128
  w : BitVec 128
  p : Nat

/-- The shape of an MMUL of a control context; its weights have the format that MWLOAD latched (R148). -/
def State.mmShape (s : State) (core cx : Nat) (c : Cmd) : MmShape :=
  let key := ctxKey core cx
  let a := (s.tile? key (mmTile c.f)).getD 0
  let t := (c.weights.bind (fun n => s.tile? key n)).getD 0
  let w := tAs t ((s.agent key).wfmt.getD (tFmt t))
  { base := s.padBase key, a, w, p := min (fmtP (tFmt w)) (fmtP (tFmt a)) }

/-- The groups of 8 rows of a k-step that have a block to stream (R230). -/
def State.mmGroups (s : State) (m : MmShape) (rows j : Nat) : Nat :=
  ((List.range ((rows + 7) / 8)).filter (fun g =>
    (List.range (16 * m.p)).any (fun b => !s.blockSkipped m.base m.a (8 * g) (128 * m.p * j + 8 * b)))).length

/-- The clocks of a k-step (R230). -/
def State.kClocks (s : State) (core cx : Nat) (c : Cmd) : Nat :=
  let g := s.mmGroups (s.mmShape core cx c) (mmM c.f) c.done
  if g = 0 then 8 else 256 + 8 * g

/-- The weights of a k-step (R230): the first takes those that MWLOAD has left in the array, unless the MMUL has overtaken
another or the array holds other rows; every other k-step loads its rows from the bound tile. -/
def State.kWeights (s : State) (core cx : Nat) (c : Cmd) : Latch :=
  let m := s.mmShape core cx c
  let row := 128 * m.p * c.done
  let load : Latch :=
    { ctx := cx, fmt := tFmt m.w, row, rows := (List.range (128 * m.p)).map (fun i => s.tileRow m.base m.w (row + i)) }
  match (s.core core).latched with
  | some l => if c.done = 0 && !s.overtakes core cx c && l.ctx == cx && l.row == 0 && decide (128 * m.p ≤ l.rows.length) then l else load
  | none => load

/-- The sums of k-step j with the weights in the array (R150, R152, R229). -/
def State.kSums (s : State) (m : MmShape) (w : Latch) (rows j : Nat) : Sums :=
  let ks := (List.range (128 * m.p)).map (fun k => 128 * m.p * j + k)
  (List.range rows).flatMap (fun i =>
    let here := ks.filter (fun k => !s.blockSkipped m.base m.a i k)
    let as := here.map (fun k => s.tileElem m.base m.a i k)
    (List.range 128).map (fun col => ((i, col), dotSum (as.zip (here.map (fun k => w.elem k col))))))

/-- The clock at which the k-step that the engine is on began (R226, R236): that of the arbitration, or of the grant of a
start; none while a start waits for its grant. -/
def State.kBegin (s : State) (core : Nat) : Option Nat :=
  match s.matNow core with
  | some (b, _, _) => if (s.core core).isStart b then (s.core core).grantedAt.map (max b) else some b
  | none => none

/-- MMUL_K_STEP (R230, R234): one k-step ends on the shadow; the last one commits. -/
def mmulKStep (core : Nat) : Prog :=
  .look fun s =>
    match (if s.powered then s.matReady core (· == .mmul) (s.kClocks core) else none), s.kBegin core with
    | some (cx, c), some begin_ =>
      let n := s.kClocks core cx c
      if s.clocks < begin_ + n then .skip
      else
        let key := ctxKey core cx
        let m := s.mmShape core cx c
        let w := s.kWeights core cx c
        let shadow := if c.done = 0 then s.acc key c.acc else (s.core core).shadows.get cx {}
        let next := shadow.kStep (s.kSums m w (mmM c.f) c.done)
        let last := decide (c.done + 1 ≥ (mmKs c.f))
        .when (!last || s.tilesTurn key c) (.all [
          .overtake core,
          .core core (fun x => { x with
            latched := if n = 8 then x.latched else some w
            lastStream := some s.clocks
            grantedAt := none
            matIdle := s.clocks
            running := some cx
            shadows := if last then x.shadows.drop cx else x.shadows.put cx next }),
          .cmd core true cx c.id (fun x => { x with
            done := x.done + 1
            started := true
            first := some (x.first.getD (Config.clock * begin_))
            begun := if x.started then x.begun else Config.clock * begin_ }),
          .when last (.seq (.putAcc core key c.acc next) (.matDone core cx c n)),
          .act .free])
    | _, _ => .skip

/-- MATRIX_PRIORITY_AGEING (R225): a head that has waited another complete 32 µs. Ageing stops while the command runs. -/
def matrixPriorityAgeing (core cx : Nat) : Prog :=
  .look fun s =>
    if !s.powered || (s.matRuns core).any (fun h => h.1 == cx) then .skip
    else .seq (.overtake core) (.look fun s =>
      match (s.core core).queue true cx with
      | c :: _ =>
        .when (decide (c.headSince + (c.ageSteps + 1) * 32 * Config.usec ≤ s.t) &&
            decide (c.ageSteps < (s.agent (ctxKey core cx)).mqprio))
          (.cmd core true cx c.id (fun x => { x with ageSteps := x.ageSteps + 1 }))
      | [] => .skip)

/-! MDRAIN (R153, R232). -/

/-- The exact value that an element drains as (R153). Every element of a tile whose E_t is unset is +0, whatever the scale,
but for markers (R232). So is an element whose exact product with a scale of zero is zero (log 101). -/
def drainVal (a : Acc) (scale : Option W32) (x : Int) : FVal :=
  if x = accMarker then .nan false
  else if a.mode = 1 then .fin false 0 0
  else
    let v : FVal := .fin (decide (x < 0)) x.natAbs a.e
    match scale.map (fun w => Fmt.f32.decode w.toNat) with
    | none => v
    | some (.nan _) => .nan false
    | some (.inf n) => if x = 0 then .nan false else .inf (n != decide (x < 0))
    | some (.fin n m e) => if x = 0 || m = 0 then .fin false 0 0 else .fin (n != decide (x < 0)) (x.natAbs * m) (a.e + e)

/-- A value in an IEEE target (R135, R153). -/
def drainWord (f : Fmt) (mode : Nat) (seed : W32) : FVal → Nat
  | .nan _ => f.nan
  | .inf n => f.sign n + f.inf
  | .fin n m e => if m = 0 then f.sign n else (roundDy f mode seed false (sgn n m, e)).1

/-- The bytes of one drained row (R153, R390). -/
def drainRow (fmt mode : Nat) (seed : W32) (vs : List FVal) : List Byte :=
  let plain := fun (f : Fmt) (n : Nat) => vs.flatMap (fun v => leBytes n (drainWord f mode seed v))
  if fmt = 0 then plain Fmt.f32 4
  else if fmt = 1 then plain Fmt.bf16 2
  else if fmt = 2 then plain Fmt.f16 2
  else
    let d := fmt - 3
    (List.range 4).flatMap (fun b => leBytes (dxBytes d) (dxEncode d mode seed true (dxM d) ((vs.drop (32 * b)).take 32)).1)

/-- The bytes of the tile that a drain writes (R232). -/
def State.drainBytes (s : State) (core cx : Nat) (c : Cmd) : List Byte :=
  let key := ctxKey core cx
  let t := (s.tile? key (bitsOf c.f.imm24 5 0)).getD 0
  let a := s.acc key c.acc
  let fmt := bitsOf c.f.imm24 13 11
  let mode := if c.f.imm24 / 2 ^ 14 % 2 = 1 then srMode else rneMode
  let seed := (c.regs.getD 1 0).setWidth 32
  let scale := if c.f.imm24 / 2 ^ 15 % 2 = 1 then some ((c.regs.getD 2 0).setWidth 32) else none
  (List.range (tRows t)).flatMap (fun i =>
    drainRow fmt mode seed ((List.range 128).map (fun j => drainVal a scale (a.at_ i j))))

/-- MDRAIN_COMPLETE (R212, R232): 256 B a clock; the tile becomes READY, before what bands do with it in that clock (23
R428). -/
def mdrainComplete (core : Nat) : Prog :=
  .look fun s =>
    match (if s.powered then s.matReady core (· == .mdrain) (fun cx c =>
        (tBytes ((s.tile? (ctxKey core cx) (bitsOf c.f.imm24 5 0)).getD 0) + 255) / 256) else none) with
    | none => .skip
    | some (cx, c) =>
      let key := ctxKey core cx
      let n := bitsOf c.f.imm24 5 0
      let t := (s.tile? key n).getD 0
      .when (s.tilesTurn key c) (.all [
        .storeBytes (s.padBase key + tOffset t) (s.drainBytes core cx c),
        .moveTile key n 2 1,
        .matDone core cx c ((tBytes t + 255) / 256)])

/-! The governor (R236, 14 R317). -/

/-- The rate-of-rise limit of a die in A/µs (R317). -/
def Power.limit (p : Power) : Nat := 25 * p.step

/-- The budget of a die's governor now, in units of 1/3000 A·: a start costs 1,500, and the budget holds at most that. -/
def State.budget (s : State) (die : Nat) : Nat :=
  let p := s.powerOf die
  min 1500 (p.budget + (s.t - p.budgetAt) * p.limit)

/-- The clock at which a core has asked for a start that it still waits for (R236): that of the arbitration which chose an
MMUL, where the array has not streamed for 64 clocks. -/
def State.startAsked (s : State) (core : Nat) : Option Nat :=
  let c := s.core core
  match s.matNow core with
  | some (b, _, x) => if x.kind = .mmul && c.grantedAt.isNone && c.isStart b then some b else none
  | none => none

/-- GOVERNOR_GRANT (R236): the grant goes to the earliest request of the die, ties to the lower core. -/
def governorGrant (core : Nat) : Prog :=
  .look fun s =>
    let die := coreDie core
    match s.startAsked core with
    | none => .skip
    | some t =>
      let before := (List.range Config.cores).any (fun i => match s.startAsked (128 * die + i) with
        | some u => decide (u < t) || (u == t && decide (128 * die + i < core))
        | none => false)
      if !s.powered || before || s.budget die < 1500 then .skip
      else
        .seq (.core core (fun x => { x with grantedAt := some s.clocks }))
          (.powerOf die (fun p => { p with budget := s.budget die - 1500, budgetAt := s.t, delayed := p.delayed || decide (t < s.clocks) }))

/-- MWLOAD (R394). -/
def execMwload (f : Fields) (s : State) : Host.Outcome State Fault Refusal := perform (.mwload f) mwloadMeaning s

/-- MMUL (R392). -/
def execMmul (f : Fields) (s : State) : Host.Outcome State Fault Refusal := perform (.mmul f) mmulMeaning s

/-- MDRAIN (R390). -/
def execMdrain (f : Fields) (s : State) : Host.Outcome State Fault Refusal := perform (.mdrain f) mdrainMeaning s

/-- MZERO (R395). -/
def execMzero (f : Fields) (s : State) : Host.Outcome State Fault Refusal := perform (.mzero f) (mzeroMeaning false) s

/-- MZERO.AUTO (R395). -/
def execMzeroAuto (f : Fields) (s : State) : Host.Outcome State Fault Refusal := perform (.mzeroAuto f) (mzeroMeaning true) s

/-- MWLOAD_LATCH (R228). -/
def execMwloadLatch (core : Nat) (s : State) : Host.Outcome State Fault Refusal := done (mwloadLatch core) s

/-- MZERO_EXECUTE (R231). -/
def execMzeroExecute (core : Nat) (s : State) : Host.Outcome State Fault Refusal := done (mzeroExecute core) s

/-- MMUL_K_STEP (R230). -/
def execMmulKStep (core : Nat) (s : State) : Host.Outcome State Fault Refusal := done (mmulKStep core) s

/-- MDRAIN_COMPLETE (R232). -/
def execMdrainComplete (core : Nat) (s : State) : Host.Outcome State Fault Refusal := done (mdrainComplete core) s

/-- MATRIX_PRIORITY_AGEING (R225). -/
def execMatrixPriorityAgeing (core cx : Nat) (s : State) : Host.Outcome State Fault Refusal :=
  done (matrixPriorityAgeing core cx) s

/-- GOVERNOR_GRANT (R236). -/
def execGovernorGrant (core : Nat) (s : State) : Host.Outcome State Fault Refusal := done (governorGrant core) s

end Sys2Proof.Machine
end

