-- ==== Sys2Proof/Machine/CancelSteps.lean ====
section
/-!
DEFINITION. The steps of a cancel (03 R66, R69, R75, R77), the acknowledgement record (R72, R73) and the messages of
peers (R68).
-/

namespace Sys2Proof.Machine

/-! The broadcast (R66): units 0 and 1 are Bobbin of a die, 2 and 3 a front end, 16 upwards a core by its key. -/

/-- Whether a crew is concerned by a cancel: its launch, its task or one of its commands lies in the subtree. -/
def State.concerned (s : State) (key : Nat) (c : Crew) (i : Nat) : Bool :=
  let core := s.core c.core
  let cmds := c.cmds ++ (if c.saved.isNone then core.queue false (unitOf key - 64) ++ core.queue true (unitOf key - 64) else [])
  ((s.launch? c.launch).any (fun l => (s.home l).any (fun j => s.within j i))) || c.task.any (fun t => s.within t.scope i) ||
    cmds.any (fun x => s.within x.scope i)

/-- The units that a cancel has still to reach (R66). -/
def State.castLeft (s : State) (c : Cast) : List Nat :=
  let crews := s.crews.filter (fun (e : Nat × Crew) => s.concerned e.1 e.2 c.scope)
  (([0, 1, 2, 3] ++ crews.map (fun (e : Nat × Crew) => 16 + e.2.core)).eraseDups).filter (fun u => !c.done.contains u)

/-- Whether a crew of a replay that holds a task of a cancelled subtree still has threads that go on of themselves: what its
recorded run issued before the cancel is issued first, as far as the 0.5 µs of R66 go (R77, log 106). -/
def State.replayRuns (s : State) (core : Nat) (c : Cast) : Bool :=
  decide (s.t < (s.scope c.scope).cancelledAt + Config.usec / 2) &&
    s.crews.any (fun e => e.2.core == core && e.2.saved.isNone && (s.launch? e.2.launch).any Launch.replay &&
      e.2.task.any (fun t => s.within t.scope c.scope) &&
      (e.2.parts e.1).any (fun k => s.holds k && (s.agent k).landing.isNone && (s.agent k).readyMask != 0))

/-- Launches of a cancel's subtree. -/
def State.launchesIn (s : State) (i : Nat) : List (Nat × Launch) :=
  s.launches.filter (fun e => e.2.phase != .over && (s.home e.2).any (fun j => s.within j i))

/-- Whether a record is that of the cancel with a serial. -/
def TraceRec.isCancel (r : TraceRec) (serial : Nat) : Bool := r.kind == 7 && r.seq.toNat == serial

/-- The serial of a cancel that has been accepted for a scope. -/
def State.serialOf (s : State) (i : Nat) : Nat := (s.scope i).ticket.toNat / 2 ^ 32

/-- Whether a cancel takes effect on a die's launches in replay (R77): its record is the next, and what the trace says was
handed out and had ended before it has been, and has. -/
def State.replayDue (s : State) (die i : Nat) : Bool :=
  s.launches.all (fun e => !e.2.replay || !s.touches e.2 i ||
    match (e.2.ahead die).dropWhile (fun r => !r.isCancel (s.serialOf i)) with
    | [] => true
    | r :: _ => (e.2.ahead die).head? == some r && decide (r.handed.toNat ≤ e.2.handed.get die 0) &&
      decide (r.count.toNat ≤ e.2.endedOf.get die 0))

/-- The CANCEL records of a die (R296, R464): for each launch concerned of which the die has written a record. -/
def Prog.castTrace (die : Nat) (c : Cast) : Prog :=
  .look fun s =>
    let hit := s.launches.filter (fun e =>
      decide (0 < e.2.traced.get die 0) && s.touches e.2 c.scope)
    .each hit (fun e => .traceRec e.1 die {
      kind := 7
      ord := match c.issuer with
        | some (d, l, o) => if d = die && l = e.1 then o else 0xFFFF
        | none => 0xFFFF
      incomplete := false
      seq := BitVec.ofNat 64 (s.serialOf c.scope)
      count := BitVec.ofNat 64 (e.2.endedOf.get die 0)
      handed := BitVec.ofNat 64 (e.2.handed.get die 0) })

/-- Coordinates of a launch that a die has not handed out are dropped (R69); before the split the master counts them. -/
def Prog.dropCoords (die : Nat) (e : Nat × Launch) : Prog :=
  let l := e.2
  let here := if l.split then
      l.owned die (l.range die) + ((l.chunks.filter (fun c => coreDie c.1 == die)).map (fun c => l.owned die c.2)).sum
    else if l.die = die && !l.coordsDropped then l.count else 0
  .all [
    .count l.scope 0 here 0 0,
    .launch e.1 (fun l =>
      if l.split then { l with ranges := l.ranges.put die (0, 0), chunks := l.chunks.filter (fun c => coreDie c.1 != die) }
      else { l with coordsDropped := l.coordsDropped || l.die == die, split := l.die == die, ranges := [], chunks := [] }),
    .sealLaunch e.1]

/-- Tasks of a cancelled subtree that a die's counters hold are detached (R69, R287). -/
def Prog.dropBound (die i : Nat) : Prog :=
  .look fun s =>
    .each (s.counters.filter (fun e => e.1 / 2 ^ 14 == die)) (fun e => match e.2.bind with
      | some (.task id core t false) =>
        if s.within t.scope i then
          .all [.counter e.1 (fun c => { c with bind := some (.task id core t true) }), .count t.scope 0 1 0 0, .endWork t.scope 1]
        else .skip
      | _ => .skip)

/-- Replays have followed the CANCEL record of a cancel on a die (R77). -/
def Prog.followCancel (die : Nat) (c : Cast) : Prog :=
  .look fun s => .each (s.launches.filter (fun e => e.2.replay && (e.2.ahead die).head?.any (fun r => r.isCancel (s.serialOf c.scope))))
    (fun e => .consume e.1 die)

/-- A cancel reaches Bobbin of a die. -/
def Prog.castBobbin (die : Nat) (c : Cast) : Prog :=
  .look fun s => .all [
    .castTrace die c,
    .followCancel die c,
    .each ((s.launchesIn c.scope).filter (fun e => e.2.phase != .bound)) (.dropCoords die),
    .dropBound die c.scope]

/-- A cancel reaches a front end: its launches that wait for counters are detached (R69). -/
def Prog.castFront (die : Nat) (c : Cast) : Prog :=
  .look fun s =>
    .each ((s.launchesIn c.scope).filter (fun e => e.2.die == die && e.2.phase == .bound)) (fun e =>
      .all [
        .upd (fun s => { s with
          counters := s.counters.map (fun x => (x.1, match x.2.bind with
            | some (.launch j false) => if j = e.1 then { x.2 with bind := some (.launch j true) } else x.2
            | _ => x.2)) }),
        .count e.2.scope 0 e.2.count 0 0,
        .launch e.1 (fun l => { l with coordsDropped := true }),
        .sealLaunch e.1])

/-- A copy-engine command of a cancelled subtree (R69). -/
def Prog.castCopy (core cx : Nat) (c : Cmd) : Prog :=
  let n := if c.kind = .resample then 0 else 1
  let hit : Cmd := { c with status := c.status ||| 1 }
  if c.finished then .skip
  else
    .seq (.count c.scope 0 0 n 0)
      (if c.started && c.wait.isNone && c.kind != .ccopy then .stopCmd core cx c 1
       else .seq (.endTile core cx hit) (.endCmd core cx hit))

/-- A free element of an accumulator tile (R11, R70). -/
def State.freeElem (s : State) (place : Nat) : Int :=
  ((s.freeWord 10000 place ++ s.freeWord 10001 place).extractLsb' 0 48).toInt

/-- A matrix command of a cancelled subtree (R69, R70); `head` says that the engine has started it. -/
def Prog.castMatrix (core cx : Nat) (head : Bool) (c : Cmd) : Prog :=
  .look fun s =>
    let key := ctxKey core cx
    let hit : Cmd := { c with status := c.status ||| 1 }
    let away := Prog.all [
      .count c.scope 0 0 0 1,
      .when head (.core core (fun x => { x with
        running := if x.running = some cx then none else x.running
        matIdle := s.clocks
        grantedAt := none })),
      .endCmd core cx hit,
      .act .free]
    match c.kind with
    | .mwload => if head then .skip else .seq away (.rebind core cx)
    | .mzero _ => if head then .skip else away
    | .mmul =>
      if c.done = 0 && !head then away
      else
        .all [
          .putAcc core key c.acc { s.acc key c.acc with
            elems := (List.range 16384).map (fun i => (i, s.freeElem i)), mark := true },
          .core core (fun x => { x with shadows := x.shadows.drop cx }),
          away]
    | .mdrain =>
      let n := bitsOf c.f.imm24 5 0
      let t := (s.tile? key n).getD 0
      let bs := s.drainBytes core cx c
      .all [
        .when head (.storeBytes (s.padBase key + tOffset t) (bs.take (Config.freeNat s.freeCtr 10200 core % (bs.length + 1)))),
        .moveTile key n 0 1,
        away]
    | _ => .skip

/-- The commands of a cancelled subtree in a crew's queues meet their fates, in the order of their queues. What the
matrix engine runs now has started (R226). -/
def Prog.castCmds (core cx i : Nat) : Prog :=
  .look fun s =>
    let hit := fun (q : List Cmd) => q.filter (fun c => s.within c.scope i)
    let c := s.core core
    let head := if (s.matRuns core).any (fun h => h.1 == cx) then (c.queue true cx).head?.map Cmd.id else none
    .seq (.each (hit (c.queue false cx)) (.castCopy core cx))
      (.each (hit (c.queue true cx)) (fun x => .castMatrix core cx (head == some x.id) x))

/-- The tile entry of a saved crew is EMPTY in its save area (R69, R305). -/
def Prog.emptySaved (c : Crew) (n : Nat) : Prog :=
  .look fun s => match c.saved with
    | none => .skip
    | some area =>
      let a := area + 1280 + 1024 * c.bands.length + 16 * n
      .bytes a (leBytes 16 (tWith (BitVec.ofNat 128 (s.readNat a 16)) 0).toNat)

/-- A saved crew's task and commands in a cancelled subtree are dropped (R75), the tiles that they were to fill become EMPTY
(R69), the weight tile bound is that of the latest MWLOAD left (21 R394); the crew resumes at its landing address once it is restored (R53). -/
def Prog.castSaved (key : Nat) (c : Crew) (i : Nat) : Prog :=
  .look fun s =>
    let (out, stay) := c.cmds.partition (fun x => s.within x.scope i)
    .all [
      .crew key (fun c => { c with cmds := stay }),
      .agent key (fun a => { a with bound := match (stay.filter (fun x => x.kind == .mwload)).getLast? with
        | some x => some (bitsOf x.f.imm24 5 0)
        | none => a.loaded }),
      .each out (fun x => .all [
        .disownAll x.id,
        .each (x.fills) (.emptySaved c),
        .count x.scope 0 0 (if x.kind.isMatrix || x.kind = .resample then 0 else 1) (if x.kind.isMatrix then 1 else 0),
        .addDec x.cnt 1 [],
        .endWork x.scope 1]),
      match c.task with
      | some t =>
        .when (s.within t.scope i && !c.droppedTask) (.all [
          .crew key (fun c => { c with droppedTask := true, task := none, killed := false, dones := [] }),
          .each c.dones (fun d => .addDec d 1 []),
          .each (c.parts key) (fun k => .agent k (fun a => { a with
            landing := if a.liveMask = 0 then some .exit else some .cancelled
            received := false
            ended := false })),
          .when (!c.killed) (.count t.scope 1 0 0 0),
          .endWork t.scope 1])
      | none => .skip,
      .saveAgain key]

/-- A cancel reaches a core: tasks of the subtree are killed, engine commands meet their fates (R69). -/
def Prog.castCore (core : Nat) (c : Cast) : Prog :=
  .look fun s =>
    .each (s.crews.filter (fun e => e.2.core == core)) (fun e =>
      if e.2.saved.isSome then .castSaved e.1 e.2 c.scope
      else
        .seq (.castCmds core (unitOf e.1 - 64) c.scope)
          (.when (e.2.task.any (fun t => s.within t.scope c.scope)) (.kill e.1)))

/-- Scopes of a subtree, the deepest first. -/
def State.subtree (s : State) (i : Nat) : List Nat :=
  let l := (s.scopes.filter (fun e => e.2.used && s.within e.1 i)).map (fun e => (e.1, e.2.path.length))
  (List.range 13).reverse.flatMap (fun d => (l.filter (fun e => e.2 == d)).map Prod.fst)

/-- CANCEL_BROADCAST_ARRIVAL (R66, R69): a cancel on its way to a scope's subtree reaches one unit; once it has reached all
of them, the scopes that hold no work become final. -/
def cancelBroadcastArrival (target i : Nat) : Prog :=
  .look fun s =>
    match s.casts.find? (fun c => c.scope == i) with
    | none => .skip
    | some c =>
      let die := if target < 2 then target else if target < 4 then target - 2 else coreDie (target - 16)
      if !s.powered || !(s.castLeft c).contains target || !s.replayDue die i || (decide (16 ≤ target) && s.replayRuns (target - 16) c) then .skip
      else
        .all [
          if target < 2 then .castBobbin target c
          else if target < 4 then .castFront (target - 2) c
          else .castCore (target - 16) c,
          .upd (fun s => { s with casts := s.casts.map (fun x => if x = c then { x with done := target :: x.done } else x) }),
          .look fun s =>
            let c := { c with done := target :: c.done }
            .seq (.each (s.crews.filter (fun e => coreDie e.2.core == die && (s.launch? e.2.launch).any Launch.replay))
                (fun e => .checkCrew e.1))
              (.look fun s => if (s.castLeft c).isEmpty then
              .seq (.upd (fun s => { s with casts := s.casts.erase c })) (.each (s.subtree i) .settle)
            else .skip),
          .fireDecs 64]

/-! The acknowledgement record. -/

/-- Whether a scope belongs to a launch in deterministic mode (R77). -/
def State.detScope (s : State) (i : Nat) : Bool :=
  ((s.ofLevel i 1).bind s.launchAt).any (fun e => e.2.det)

/-- The 32 bytes of a scope's acknowledgement record (R72). -/
def State.ackRecord (s : State) (i : Nat) : List Byte :=
  let e := s.scope i
  let gone := e.state == .cancelling
  let n := fun (x : Nat) => if gone then x else 0
  let state := (if gone then 2 else 3) + (if e.remoteLost then 4 else 0) + (if e.fault.isSome then 8 else 0)
  leBytes 2 i ++ leBytes 1 e.level ++ leBytes 1 state ++ leBytes 4 (n e.killed) ++ leBytes 4 (n e.dropped) ++
    leBytes 2 (n e.copies) ++ leBytes 2 (n e.matrix) ++ leBytes 8 (n e.ticket.toNat) ++
    leBytes 8 (if s.detScope i then 0 else (e.zeroAt.getD 0) / Config.tick)

/-- The record of a scope cannot be written: ACCESS is its fault, and it becomes final (R72). The spec names no agent for it:
its TPC is 0 and its core 0xFF (log 89). -/
def Prog.ackFail (i : Nat) : Prog :=
  .look fun s =>
    .seq (.scope i (fun e => { e with
        ackWait := none
        fault := some (e.fault.getD { tcode := 9, tpc := 0, core := 0xFF, time := s.ns }) }))
      (.finish 13 i)

/-- ACK_RECORD_WRITE (R72, R73): once the stores that were pending are visible, the record is stored at a later time, and
the scope becomes final; a record in host or peer memory counts as written when its write has completed (R199). Its
faults go to die 0 (log 36). A launch without a record completes once those stores are visible (30 R447). -/
def ackRecordWrite (i : Nat) : Prog :=
  .look fun s =>
    let e := s.scope i
    let due := e.used && e.zeroAt.isSome && (e.state == .opened || e.state == .cancelling) && e.ackWait.isNone &&
      e.outstanding == 0 && e.after.all s.made
    let final := Prog.all [
      .when (e.ackaddr != 0 && e.state == .cancelling && e.ticket.toNat % 2 ^ 16 == i) (.sampleDie 0 4 ((s.t - e.cancelledAt) / Config.tick)),
      .finish 13 i,
      .fireDecs 64]
    if !s.powered || !due then .skip
    else if e.ackaddr = 0 then final
    else if let some q := e.ackReq then (if (s.req? q).isNone then final else .skip)
    else match e.quietAt with
      | none => .scope i (fun e => { e with quietAt := some s.ns })
      | some q =>
        if s.ns ≤ q then .skip
        else match s.reachStore e.ctx e.ackaddr with
          | .later => .skip
          | .fail => .ackFail i
          | .absent level =>
            .seq (.dieFault 0 e.ctx e.ackaddr 1 level)
              (.scope i (fun x => { x with ackWait := some (0, s.faultSerialFor 0 e.ctx e.ackaddr) }))
          | .now t =>
            if t.place = .slice then .seq (.storeAt t (s.ackRecord i)) final
            else .seq (.scope i (fun x => { x with ackReq := some s.nextId }))
              (.dieStoreLine (dieKey 0 3) t e.ackaddr (s.ackRecord i))

/-! Peers (R68). -/

/-- PEER_CANCEL_MESSAGE (R68, 14 R315): a peer's cancel reaches the local scope that it names, which acknowledges when it is
final. Node 0x1FF is this module, for a link within it. -/
def peerCancelMessage (node : Nat) (handle : W64) : Prog :=
  .look fun s =>
    let i := hIndex handle
    .when (s.powered && !s.foreign handle) (.seq (.watch node handle)
      (.when (!s.stale handle) (.cancel i (s.detNear i) (s.hostJob i) none)))

/-- A peer counts as acknowledged: every link to the one peer scope is settled. -/
def Prog.peerDone (i : Nat) (p : Peer) : Prog :=
  let same := fun (x : Peer) => x.node == p.node && x.handle == p.handle && !x.settled
  .look fun s =>
    .seq (.scope i (fun e => { e with remote := e.remote.map (fun x => if same x then { x with settled := true } else x) }))
      (.endWork i ((s.scope i).remote.filter same).length)

/-- The peer of a scope on a node that has not acknowledged. -/
def State.peerOf (s : State) (i node : Nat) : Option Peer :=
  (s.scope i).remote.find? (fun p => p.node == node && !p.settled)

/-- Whether a peer scope may acknowledge: one of this module once it is final (R68), another while a route is left. -/
def State.answers (s : State) (p : Peer) : Bool :=
  if p.node = 0x1FF then s.stale p.handle || (s.scope (hIndex p.handle)).final else s.reachable p.node

/-- PEER_ACKNOWLEDGEMENT (R68). -/
def peerAcknowledgement (i node : Nat) : Prog :=
  .look fun s => match s.peerOf i node with
    | some p => .when (s.powered && (s.scope i).used && s.answers p) (.peerDone i p)
    | none => .skip

/-- PEER_ACK_TIMEOUT (R68): 100 µs after its cancel message left. The spec names no agent for the fault: its TPC is 0 and its
core 0xFF (log 89). -/
def peerAckTimeout (i node : Nat) : Prog :=
  .look fun s => match s.peerOf i node with
    | some p =>
      .when (s.powered && (s.scope i).used && p.sent.any (fun t => decide (t + 100 * Config.usec ≤ s.t))) (.all [
        .scope i (fun e => { e with
          remoteLost := true
          fault := some (e.fault.getD { tcode := 0x0C, tpc := 0, core := 0xFF, time := s.ns }) }),
        .peerDone i p])
    | none => .skip

/-- CANCEL_BROADCAST_ARRIVAL (R66). -/
def execCancelBroadcastArrival (target scope : Nat) (s : State) : Host.Outcome State Fault Refusal :=
  done (cancelBroadcastArrival target scope) s

/-- ACK_RECORD_WRITE (R72). -/
def execAckRecordWrite (scope : Nat) (s : State) : Host.Outcome State Fault Refusal := done (ackRecordWrite scope) s

/-- PEER_CANCEL_MESSAGE (R68). -/
def execPeerCancelMessage (node : Nat) (handle : W64) (s : State) : Host.Outcome State Fault Refusal :=
  done (peerCancelMessage node handle) s

/-- PEER_ACKNOWLEDGEMENT (R68). -/
def execPeerAcknowledgement (scope node : Nat) (s : State) : Host.Outcome State Fault Refusal :=
  done (peerAcknowledgement scope node) s

/-- PEER_ACK_TIMEOUT (R68). -/
def execPeerAckTimeout (scope node : Nat) (s : State) : Host.Outcome State Fault Refusal := done (peerAckTimeout scope node) s

end Sys2Proof.Machine
end

