-- ==== Sys2Proof/Machine/Carve.lean ====
section
/-!
DEFINITION. The carve-out of a core (07 R155 to R158): CARVE (20 R356), its completion, and the reset of a core.
-/

namespace Sys2Proof.Machine

/-- Bytes of a way of a core's SRAM array (R155). -/
def wayBytes : Nat := 2 ^ 18

/-- The highest end of a resident crew's scratchpad allocation on a core (R157). -/
def State.padEnd (s : State) (core : Nat) : Nat :=
  s.crews.foldl (fun m e => if e.2.core = core && e.2.saved.isNone then max m (e.2.scratchBase + e.2.scratchSize) else m) 0

/-- Zero ways of scratchpad, their poison with them (R157, R158). -/
def Prog.zeroWays (core lo hi : Nat) : Prog :=
  let a := Space.scratchAt core (lo * wayBytes)
  let b := Space.scratchAt core (hi * wayBytes)
  .seq (.act (.clear a b))
    (.upd (fun s => { s with poison := s.poison.filter (fun x => !(decide (a ≤ 32 * x) && decide (32 * x < b))) }))

/-- CARVE (R157, R356): BUSY, no change and a shrink are decided at issue; a growth takes its time (R158). One that comes before
an earlier one on the core has written its status waits. -/
def carveMeaning : Meaning where
  illegal := fun s p => decide ((s.readS p.k p.f.a.toNat).toNat > 8)
  reads := fun _ p => [.s p.f.a.toNat]
  writes := fun _ p => [.s p.f.d.toNat]
  body := fun s p =>
    let core := coreOf p.k
    let c := s.core core
    let w := (s.readS p.k p.f.a.toNat).toNat
    let d := p.f.d.toNat
    let mark := Prog.look fun s => .core core (fun c => { c with carveOp := some s.nextId })
    let put := fun (x : W64) => Prog.seq mark (.addOp p (.values [(d, x)] [] 0) p.act true)
    if c.carving.isSome || c.carveOp.any (fun n => (s.op? n).isSome) then .wait
    else if w = c.w then .go (put 0) 0
    else if w < c.w then
      if s.padEnd core > w * wayBytes then .go (put 1) 0
      else .go (.all [put 0, .core core (fun c => { c with w })]) 0
    else
      .go (.look fun s => .all [.core core (fun c => { c with carving := some { target := w, op := s.nextId, since := s.t } }),
        mark, .addOp p (.carve d) p.act true]) 0

/-- CARVE_COMPLETE (R158): stores in the leaving ways have been written to L2 (they are applied from the L1 at their V, so
nothing waits for them here), lines of those ways are dropped, the ways read as zero, and the status is DONE. -/
def carveComplete (core : Nat) : Prog :=
  .look fun s =>
    match (s.core core).carving with
    | none => .skip
    | some v =>
      if !s.powered then .skip
      else
        .all [
          .zeroWays core (s.core core).w v.target,
          .core core (fun c => { c with
            w := v.target, carving := none, l1 := c.l1.filter (fun l => decide (l.way < c.w) || decide (v.target ≤ l.way)) }),
          .upd (fun s => { s with
            ops := s.ops.map (fun o => if o.id = v.op then (match o.kind with
              | .carve d => { o with kind := .values [(d, 0)] [] 0 }
              | _ => o) else o) }),
          .act .free]

/-- CORE_RESET (R155): w is zero; the L1 and the TLB of the core hold nothing. It is firmware's, on a core without crews
(log 30). -/
def coreReset (core : Nat) : Prog :=
  .look fun s =>
    if !s.powered || s.crews.any (fun e => e.2.core == core) then .skip
    else
      .seq (.zeroWays core 0 8) (.upd (fun s => { s with cores := s.cores.put core { fenced := (s.core core).fenced } }))

/-- CARVE (R356). -/
def execCarve (f : Fields) (s : State) : Host.Outcome State Fault Refusal := perform (.carve f) carveMeaning s

/-- CARVE_COMPLETE (R158). -/
def execCarveComplete (core : Nat) (s : State) : Host.Outcome State Fault Refusal := done (carveComplete core) s

/-- CORE_RESET (R155). -/
def execCoreReset (core : Nat) (s : State) : Host.Outcome State Fault Refusal := done (coreReset core) s

end Sys2Proof.Machine
end

