-- ==== Sys2Proof/Machine/Fetch.lean ====
section
/-!
DEFINITION. Fetching an instruction (05 R101 to R103, 07 R171): the code as the launch fetches it, the blocks that the
launch itself has stored to, absent and forbidden pages, and a firmware partition's SRAM; and the packet that an agent is to
issue (02 R28).
-/

namespace Sys2Proof.Machine

/-- What a fetch meets: a trap, an absent page, or the bytes from the PC to the end of its fetch block (at most 16). -/
inductive Fetch where
  | trap (code : Nat) (taddr : W64)
  | absent (level : Nat)
  | bytes (bs : List Byte)
  deriving DecidableEq, Repr

/-- The bytes of an instruction that lie in its fetch block (R102). -/
def blockRest (pc : W64) : Nat := min 16 (32 - pc.toNat % 32)

/-- A byte of code of a launch (R103): from its snapshot, or, in a block that the launch has stored to, freely from the
snapshot or from memory, one choice for the block. -/
def State.codeByte (s : State) (l : Launch) (a : Nat) : Byte :=
  if l.selfStored.contains (a / 32) && s.freeBit (6000 + a / 32) then Memory.read s.mem a else Memory.read l.code a

/-- Fetch at a PC (R102, R103, R171, R320). A firmware partition fetches the bytes that its SRAM holds now, those that it has
stored there itself among them (log 40). -/
def State.fetchAt (s : State) (k : Nat) (pc : W64) : Fetch :=
  let n := blockRest pc
  if pc.toNat % 4 ≠ 0 then .trap 0x02 pc
  else if (s.agent k).kind = .fw then
    if !s.sramOpen (dieOf k) (unitOf k) pc.toNat n false then .trap 0x09 pc
    else .bytes (s.sramRead (dieOf k) pc.toNat n)
  else match s.launchOf k with
    | none => .trap 0x09 pc
    | some l =>
      if s.walkPoisoned l.ctx pc then .trap 0x0A pc
      else match s.xlatCore (coreOf k) l.ctx pc with
        | .access => .trap 0x09 pc
        | .absent level => .absent level
        | .ok t =>
          if !t.x then .trap 0x09 pc
          else if t.place ≠ .slice then .bytes ((List.range n).map (fun i => (s.freeWord (7000 + i) 0).extractLsb' 0 8))
          else if s.poisoned t.addr n then .trap 0x0A pc
          else .bytes ((List.range n).map (fun i => s.codeByte l (t.addr + i)))

/-- The instruction that bytes of a fetch block hold: an instruction that runs past the block is decoded as far as the
block goes, and its own check turns it away (R102, R120). -/
def fetched (bs : List Byte) : Instr :=
  match decode ((bs ++ List.replicate 16 (0 : Byte)).take 16) with
  | .ok (i, _) => i
  | .error _ => .unassignedEncoding 0

/-- The length of the instruction at an address, from its LEN as the launch fetches it; 8 where LEN is 0b00 (R365). -/
def State.lengthAt (s : State) (k : Nat) (pc : W64) : W64 :=
  match s.fetchAt k pc with
  | .bytes (b :: _) => BitVec.ofNat 64 (lenBytes (b.extractLsb' 0 2))
  | _ => 8

/-! The packet that an agent issues (02 R28). -/

/-- Put a PC in its place in a rising list. -/
def insertPc (pc : W64) : List W64 → List W64
  | [] => [pc]
  | x :: r => if pc < x then pc :: x :: r else if pc = x then x :: r else x :: insertPc pc r

/-- The PCs of an agent's READY threads, rising. -/
def Agent.readyPcs (a : Agent) : List W64 :=
  a.threads.foldl (fun l e => if e.2.st = .ready then insertPc e.2.pc l else l) []

/-- Whether the packet at a PC waits under R34 (log 17): it passes the checks of its encoding, writes an S-register, and
lacks a thread that is still to come. -/
def State.heldAt (s : State) (k : Nat) (pc : W64) : Bool :=
  let a := s.agent k
  match s.fetchAt k pc with
  | .bytes bs =>
    let i := fetched bs
    (match opcodeOf i with
     | some (_, _, f) =>
       !crosses pc f && (checkWords a.kind a.priv a.n i).isNone && needsFull a.kind i f &&
         s.split k pc (a.packetAt pc) == .wait
     | none => false)
  | _ => false

/-- The PC that an agent issues from (R28): the least whose packet does not wait under R34. -/
def State.packetPc (s : State) (k : Nat) : Option W64 := (s.agent k).readyPcs.find? (fun pc => !s.heldAt k pc)

/-- Whether the tokens that the instruction at a PC names let it issue (R91). -/
def State.tokensOk (s : State) (k : Nat) (pc : W64) : Bool :=
  match s.fetchAt k pc with
  | .bytes bs =>
    (match opcodeOf (fetched bs) with
     | some (_, _, f) => (s.agent k).waitOk f && (s.agent k).setOk f
     | none => true)
  | _ => true

/-- The time from which the tokens that the instruction at a PC names have let it issue (R91, 12 R294). -/
def State.tokensSince (s : State) (k : Nat) (pc : W64) : Nat :=
  match s.fetchAt k pc with
  | .bytes bs =>
    (match opcodeOf (fetched bs) with
     | some (_, _, f) =>
       let at_ := fun (n : Nat) => (s.agent k).tokAt.get n 0
       max (if f.setEn then at_ (8 + f.setK.toNat) else 0)
         (((List.range 8).filter (fun n => f.wait.getLsbD n)).foldl (fun m n => max m (at_ n)) 0)
     | none => 0)
  | _ => 0

end Sys2Proof.Machine
end

