-- ==== Sys2Proof/Machine/Control.lean ====
section
/-!
DEFINITION. Control flow of domain 11: BRA, BRC, CALL, CALLT (20 R351 to R354), RET (22 R404), BJOIN (R349, R350),
EXIT (R366), YIELD (23 R442), NOP (22 R396), TRAP (23 R430) and ERET (R365).
-/

namespace Sys2Proof.Machine

/-- Set the PCs of the threads of a mask. -/
def Agent.jump (a : Agent) (m : W32) (g : Nat → W64) : Agent := a.mapThreads m (fun l t => { t with pc := g l })

/-- The target of an offset in 4-byte units (R101). -/
def Pkt.target (p : Pkt) (off : Int) : W64 := p.pc + BitVec.ofInt 64 (4 * off)

/-- BRA (R351). -/
def braMeaning : Meaning where
  body := fun _ p => .go (.agent p.k (fun a => a.jump p.act (fun _ => p.target p.f.off28))) 0

/-- The threads that BRC takes (R352): `g` the guarded threads, `c` the condition's. -/
def brcTaken (mode : Nat) (g c : W32) : W32 :=
  match mode with
  | 0 => g &&& c
  | 1 => if g &&& c != 0 then g else 0
  | _ => if g &&& ~~~c == 0 then g else 0

/-- BRC (R352). -/
def brcMeaning : Meaning where
  reads := fun _ p => [.p (p.f.m 2 0)]
  body := fun s p =>
    let q := s.readP p.k (p.f.m 2 0)
    let c := if p.f.mb 3 then ~~~q else q
    .go (.agent p.k (fun a => a.jump (brcTaken (p.f.m 5 4) p.act c) (fun _ => p.target p.f.off22))) 0

/-- Write a link at once (R353): in a band the pair Vd, Vd+1, elsewhere Sd. -/
def State.link (s : State) (p : Pkt) (ret : W64) (a : Agent) : Agent :=
  let d := p.f.d.toNat
  if p.kind = .band then
    let put := fun (n : Nat) (w : W32) (a : Agent) => s.fixV 0 n ((a.rawV n).merge (.uni w) p.act p.covers) a
    put (d + 1) (ret.extractLsb' 32 32) (put d (ret.extractLsb' 0 32) a)
  else s.fixS 0 d ret a

/-- The registers of a link. -/
def linkRegs (p : Pkt) (n : Nat) : List Reg := if p.kind = .band then [.v n, .v (n + 1)] else [.s n]

/-- The V results of a link, with whether they are G (R353). -/
def linkDests (p : Pkt) : List (Nat × Bool) :=
  if p.kind = .band then [(p.f.d.toNat, !p.covers), (p.f.d.toNat + 1, !p.covers)] else []

/-- CALL (R353). -/
def callMeaning : Meaning where
  writes := fun _ p => linkRegs p p.f.d.toNat
  dests := fun _ p => linkDests p
  body := fun s p =>
    .go (.seq (.clash p.k (linkRegs p p.f.d.toNat))
      (.agent p.k (fun a => (s.link p (p.pc + 8) a).jump p.act (fun _ => p.target p.f.off21)))) 0

/-- The index of a lane of CALLT (R354). -/
def calltIndex (p : Pkt) (r : Regs) (l : Nat) : W32 :=
  if p.kind = .band then (r.v p.f.a.toNat).lane l else (r.s p.f.a.toNat).setWidth 32

/-- The shader table of an agent (R255): base and limit. An agent without a launch has none. -/
def State.shaderTable (s : State) (k : Nat) : W64 × Nat :=
  match s.launchOf k with
  | some l => (l.kernel.shaderBase, l.kernel.shaderLimit)
  | none => (0, 0)

/-- CALLT (R354, R255): the records are read while the packet waits at the instruction. -/
def calltMeaning : Meaning where
  reads := fun _ p => if p.kind = .band then [.v p.f.a.toNat] else [.s p.f.a.toNat]
  writes := fun _ p => linkRegs p p.f.d.toNat
  dests := fun _ p => linkDests p
  body := fun s p =>
    let r := s.regs p.k
    let (base, limit) := s.shaderTable p.k
    let idx := calltIndex p r
    match lowest p.act (fun l => decide ((idx l).toNat ≥ limit)) with
    | some l => .trap 0x0D ((idx l).zeroExtend 64)
    | none =>
      let calling := p.act &&& maskOf (fun l => idx l != 0)
      let parts := (lanesOf calling).map (fun l =>
        ({ lane := l, piece := 0, addr := 0, va := base + 8 * (idx l).zeroExtend 64, len := 8 } : Part))
      s.access p 8 .load (.callt p.f.d.toNat calling (p.act &&& ~~~calling)) false false 0 parts true false

/-- RET (R404). -/
def retMeaning : Meaning where
  reads := fun _ p => linkRegs p p.f.a.toNat
  body := fun s p =>
    let r := s.regs p.k
    let n := p.f.a.toNat
    let dest := fun (l : Nat) =>
      if p.kind = .band then (r.v (n + 1)).lane l ++ (r.v n).lane l else r.s n
    .go (.agent p.k (fun a => a.jump p.act dest)) 0

/-- BJOIN (R349, R350, R30): threads outside the mask pass; a control context and a firmware core only advance. -/
def bjoinMeaning : Meaning where
  reads := fun _ p => if p.f.mb 0 then [] else [.s p.f.a.toNat]
  body := fun s p =>
    let m := if p.f.mb 0 then 0xFFFFFFFF else (s.readS p.k p.f.a.toNat).setWidth 32
    let stop := if p.kind = .band then p.act &&& m else 0
    .go (.agent p.k (fun a => (a.mapThreads stop (fun _ t => { t with st := .bjoin m })).checkJoin)) stop

/-- EXIT (R366). -/
def exitMeaning : Meaning where
  body := fun s p =>
    .go (.seq
      (.agent p.k (fun a =>
        let a := a.mapThreads p.act (fun _ t => { t with st := .exited })
        let a := if a.hmask = 0 then a else a.leaveHandler p.act
        a.checkJoin))
      (.checkCrew (s.agent p.k).crew)) 0

/-- YIELD (R442). -/
def yieldMeaning : Meaning where
  body := fun _ p => .go (if p.kind = .fw then .skip else .endRun p.k) 0

/-- NOP (R396). -/
def nopMeaning : Meaning where
  body := fun _ _ => .go .skip 0

/-- TRAP (R430). -/
def trapMeaning : Meaning where
  reads := fun _ p => [.s p.f.a.toNat]
  body := fun s p => .trap 0x12 (s.readS p.k p.f.a.toNat)

/-- ERET and ERET.NEXT (R365, R302): a thread outside the handler traps whatever its guard (R121). -/
def eretMeaning : Meaning where
  illegal := fun s p => p.lanes &&& ~~~(s.agent p.k).hmask != 0
  body := fun s p =>
    let a := s.agent p.k
    let dest := if p.f.mb 0 then a.tpc + a.tlen else a.tpc
    .go (.seq (.agent p.k (fun a => a.eret p.act dest)) (.endRun p.k)) 0

/-- BRA (R351). -/
def execBra (f : Fields) (s : State) : Host.Outcome State Fault Refusal := perform (.bra f) braMeaning s

/-- BRC (R352). -/
def execBrc (f : Fields) (s : State) : Host.Outcome State Fault Refusal := perform (.brc f) brcMeaning s

/-- CALL (R353). -/
def execCall (f : Fields) (s : State) : Host.Outcome State Fault Refusal := perform (.call f) callMeaning s

/-- CALLT (R354). -/
def execCallt (f : Fields) (s : State) : Host.Outcome State Fault Refusal := perform (.callt f) calltMeaning s

/-- RET (R404). -/
def execRet (f : Fields) (s : State) : Host.Outcome State Fault Refusal := perform (.ret f) retMeaning s

/-- BJOIN (R350). -/
def execBjoin (f : Fields) (s : State) : Host.Outcome State Fault Refusal := perform (.bjoin f) bjoinMeaning s

/-- BJOIN.ALL (R349). -/
def execBjoinAll (f : Fields) (s : State) : Host.Outcome State Fault Refusal := perform (.bjoinAll f) bjoinMeaning s

/-- EXIT (R366). -/
def execExit (f : Fields) (s : State) : Host.Outcome State Fault Refusal := perform (.exit f) exitMeaning s

/-- YIELD (R442). -/
def execYield (f : Fields) (s : State) : Host.Outcome State Fault Refusal := perform (.yield f) yieldMeaning s

/-- NOP (R396). -/
def execNop (f : Fields) (s : State) : Host.Outcome State Fault Refusal := perform (.nop f) nopMeaning s

/-- TRAP (R430). -/
def execTrap (f : Fields) (s : State) : Host.Outcome State Fault Refusal := perform (.trap f) trapMeaning s

/-- ERET (R365). -/
def execEret (f : Fields) (s : State) : Host.Outcome State Fault Refusal := perform (.eret f) eretMeaning s

/-- ERET.NEXT (R365). -/
def execEretNext (f : Fields) (s : State) : Host.Outcome State Fault Refusal := perform (.eretNext f) eretMeaning s

end Sys2Proof.Machine
end

