-- ==== Sys2Proof/Machine/Scalar.lean ====
section
/-!
DEFINITION. The scalar instructions of domain 00: the ALU (22 R409 to R411), SLI (R415) and SREAD (R418, 04 R97 to
R99).
-/

namespace Sys2Proof.Machine

/-- A scalar instruction that writes Sd from Sa and Sb with latency 2 (R409). -/
def scalarMeaning (g : Fields → W64 → W64 → W64) : Meaning where
  reads := fun _ p => [.s p.f.a.toNat, .s p.f.b.toNat]
  writes := fun _ p => [.s p.f.d.toNat]
  body := fun s p =>
    let d := p.f.d.toNat
    let r := g p.f (s.readS p.k p.f.a.toNat) (s.readS p.k p.f.b.toNat)
    .go (.seq (.clash p.k [.s d]) (.agent p.k (s.fixS 2 d r))) 0

/-- Saturate or wrap an exact sum or difference: `sg` is it on signed operands, `un` on unsigned ones (R409). -/
def satScalar (mode : Nat) (sg un : Int) : W64 :=
  if mode = 1 then BitVec.ofInt 64 (clampInt (-2 ^ 63) (2 ^ 63 - 1) sg)
  else if mode = 2 then BitVec.ofInt 64 (clampInt 0 (2 ^ 64 - 1) un)
  else BitVec.ofInt 64 un

/-- SADD (R409). -/
def saddVal (f : Fields) (a b : W64) : W64 := satScalar (f.m 1 0) (a.toInt + b.toInt) (a.toNat + b.toNat : Nat)

/-- SSUB (R409). -/
def ssubVal (f : Fields) (a b : W64) : W64 := satScalar (f.m 1 0) (a.toInt - b.toInt) ((a.toNat : Int) - b.toNat)

/-- SMUL (R409). -/
def smulVal (_ : Fields) (a b : W64) : W64 := a * b

/-- SMULHI (R409). -/
def smulhiVal (f : Fields) (a b : W64) : W64 :=
  if f.mb 0 then BitVec.ofInt 64 (a.toInt * b.toInt / 2 ^ 64) else BitVec.ofNat 64 (a.toNat * b.toNat / 2 ^ 64)

/-- SSHL (R409): 0 when b ≥ 64. -/
def sshlVal (_ : Fields) (a b : W64) : W64 :=
  if b.toNat ≥ 64 then 0 else a <<< b.toNat

/-- SSHR (R409). -/
def sshrVal (f : Fields) (a b : W64) : W64 :=
  if f.mb 0 then a.sshiftRight (min b.toNat 64) else if b.toNat ≥ 64 then 0 else a >>> b.toNat

/-- Whether a is less than b, signed or not. -/
def less (signed : Bool) (a b : W64) : Bool := if signed then a.slt b else a.ult b

/-- SMIN (R409). -/
def sminVal (f : Fields) (a b : W64) : W64 := if less (f.mb 0) b a then b else a

/-- SMAX (R409). -/
def smaxVal (f : Fields) (a b : W64) : W64 := if less (f.mb 0) a b then b else a

/-- SCMP's condition (R410). -/
def scmpCond (c : Nat) (a b : W64) : Bool :=
  match c with
  | 0 => a == b
  | 1 => a != b
  | 2 => a.slt b
  | 3 => a.sle b
  | 4 => b.slt a
  | 5 => b.sle a
  | 6 => a.ult b
  | 7 => a.ule b
  | 8 => b.ult a
  | 9 => b.ule a
  | _ => a &&& b != 0

/-- SCMP (R410): the result goes to Pd in every lane of the packet whose guard is true. -/
def scmpMeaning : Meaning where
  reads := fun _ p => [.s p.f.a.toNat, .s p.f.b.toNat]
  writes := fun _ p => [.p (p.f.d.toNat % 8)]
  body := fun s p =>
    let c := scmpCond (p.f.d.toNat / 8) (s.readS p.k p.f.a.toNat) (s.readS p.k p.f.b.toNat)
    .go (.agent p.k (s.fixP 2 (p.f.d.toNat % 8) (if c then 0xFFFFFFFF else 0) p.act)) 0

/-- SSEL's choice (R411). -/
def sselCond (f : Fields) (act q : W32) : Bool :=
  let c := if f.mb 3 then ~~~q else q
  if f.mb 4 then act &&& ~~~c == 0 else act &&& c != 0

/-- SSEL (R411). -/
def sselMeaning : Meaning where
  reads := fun _ p => [.p (p.f.m 2 0), .s p.f.a.toNat, .s p.f.b.toNat]
  writes := fun _ p => [.s p.f.d.toNat]
  body := fun s p =>
    let d := p.f.d.toNat
    let r := if sselCond p.f p.act (s.readP p.k (p.f.m 2 0)) then s.readS p.k p.f.a.toNat else s.readS p.k p.f.b.toNat
    .go (.seq (.clash p.k [.s d]) (.agent p.k (s.fixS 2 d r))) 0

/-- SLI's value (R415). -/
def sliVal (f : Fields) : W64 :=
  if f.len = 3#2 then f.ext else if f.mb 0 then f.imm32.signExtend 64 else f.imm32.zeroExtend 64

/-- SLI (R415). -/
def sliMeaning : Meaning where
  writes := fun _ p => [.s p.f.d.toNat]
  body := fun s p =>
    let d := p.f.d.toNat
    .go (.seq (.clash p.k [.s d]) (.agent p.k (s.fixS 2 d (sliVal p.f)))) 0

/-- Global time as an agent of a die reads it: the dies' counters differ by at most 2 ns (01 R15, log 22). -/
def State.gtime (s : State) (die : Nat) : Nat := if die = 0 then s.ns else s.ns + (Config.dieSkew die).toNat % 5 - 2

/-- The global time in ns at which an agent of a die reads a time. -/
def nsAt (die t : Nat) : Nat := if die = 0 then t else t + 2 - (Config.dieSkew die).toNat % 5

/-- The codes that read zero under DET (R99). -/
def timingCode (c : Nat) : Bool := [3, 4, 5, 6, 7, 0x14].contains c

/-- The content of a special register (R97, R98). A firmware partition has no launch: what such a code holds there is a
free value; its LANEMASK and BAND are those of a control context (log 23). MONSEL on a control context, which has no
MONITOR (R83), selects monitor value 0 (log 90). -/
def State.special (s : State) (k c : Nat) : W64 :=
  let a := s.agent k
  let l := s.launchOf k
  let n := fun (x : Nat) => BitVec.ofNat 64 x
  let task := if a.received && !a.ended then (s.crewOf k).bind Crew.task else none
  let ofLaunch := fun (g : Launch → Nat) => match l with
    | some l => n (g l)
    | none => s.free64 (4000 + c)
  if a.det && timingCode c then 0
  else match c with
    | 0x00 => if a.kind = .band then a.liveMask.zeroExtend 64 else 1
    | 0x01 => if a.kind = .band then n a.band else 0xFFFFFFFFFFFFFFFF
    | 0x02 => if a.kind = .fw then s.free64 4002 else n (unitOf a.crew - 64)
    | 0x03 => if a.kind = .fw then s.free64 4003 else n (coreNo k)
    | 0x04 => n (dieOf k)
    | 0x05 => s.node.zeroExtend 64
    | 0x06 => n s.clocks
    | 0x07 => n (s.gtime (dieOf k))
    | 0x08 => match task with
      | some t => s.handle t.scope
      | none => 0
    | 0x09 => match task with
      | some t => t.seq
      | none => 0xFFFFFFFFFFFFFFFF
    | 0x0A => (a.flagsAt s.t).zeroExtend 64
    | 0x0B => a.status
    | 0x0C => a.tcode.zeroExtend 64
    | 0x0D => a.tpc
    | 0x0E => a.taddr
    | 0x0F => a.detSticky
    | 0x10 => ofLaunch (fun l => l.id.toNat)
    | 0x11 => ofLaunch Launch.dimX
    | 0x12 => ofLaunch Launch.dimY
    | 0x13 => ofLaunch Launch.dimZ
    | _ => s.monSel k a.monitor

/-- What reading a special register changes: the sticky bits that MOD[0] clears (R97), and DETSTICKY under DET (R99). -/
def Agent.afterSread (a : Agent) (now c : Nat) (clear : Bool) : Agent :=
  let a := if a.det && timingCode c then { a with detSticky := a.detSticky ||| (1#64 <<< c) } else a
  if !clear then a
  else if c = 0x0A then a.clearFlags now
  else if c = 0x0B then { a with nullcall := false }
  else if c = 0x0F then { a with detSticky := 0 }
  else a

/-- SREAD (R418): the value is that of the instant at which it performs; the result comes with variable latency. -/
def sreadMeaning : Meaning where
  writes := fun _ p => [.s p.f.d.toNat]
  body := fun s p =>
    let c := p.f.a.toNat
    .go (.all [
      .addOp p (.values [(p.f.d.toNat, s.special p.k c)] [] 0) p.act false,
      .agent p.k (fun a => a.afterSread s.t c (p.f.mb 0))]) 0

/-- SADD (R409). -/
def execSadd (f : Fields) (s : State) : Host.Outcome State Fault Refusal := perform (.sadd f) (scalarMeaning saddVal) s

/-- SSUB (R409). -/
def execSsub (f : Fields) (s : State) : Host.Outcome State Fault Refusal := perform (.ssub f) (scalarMeaning ssubVal) s

/-- SMUL (R409). -/
def execSmul (f : Fields) (s : State) : Host.Outcome State Fault Refusal := perform (.smul f) (scalarMeaning smulVal) s

/-- SMULHI (R409). -/
def execSmulhi (f : Fields) (s : State) : Host.Outcome State Fault Refusal :=
  perform (.smulhi f) (scalarMeaning smulhiVal) s

/-- SAND (R409). -/
def execSand (f : Fields) (s : State) : Host.Outcome State Fault Refusal :=
  perform (.sand f) (scalarMeaning (fun _ a b => a &&& b)) s

/-- SOR (R409). -/
def execSor (f : Fields) (s : State) : Host.Outcome State Fault Refusal :=
  perform (.sor f) (scalarMeaning (fun _ a b => a ||| b)) s

/-- SXOR (R409). -/
def execSxor (f : Fields) (s : State) : Host.Outcome State Fault Refusal :=
  perform (.sxor f) (scalarMeaning (fun _ a b => a ^^^ b)) s

/-- SSHL (R409). -/
def execSshl (f : Fields) (s : State) : Host.Outcome State Fault Refusal := perform (.sshl f) (scalarMeaning sshlVal) s

/-- SSHR (R409). -/
def execSshr (f : Fields) (s : State) : Host.Outcome State Fault Refusal := perform (.sshr f) (scalarMeaning sshrVal) s

/-- SMIN (R409). -/
def execSmin (f : Fields) (s : State) : Host.Outcome State Fault Refusal := perform (.smin f) (scalarMeaning sminVal) s

/-- SMAX (R409). -/
def execSmax (f : Fields) (s : State) : Host.Outcome State Fault Refusal := perform (.smax f) (scalarMeaning smaxVal) s

/-- SCMP (R410). -/
def execScmp (f : Fields) (s : State) : Host.Outcome State Fault Refusal := perform (.scmp f) scmpMeaning s

/-- SSEL (R411). -/
def execSsel (f : Fields) (s : State) : Host.Outcome State Fault Refusal := perform (.ssel f) sselMeaning s

/-- SMOV (R409). -/
def execSmov (f : Fields) (s : State) : Host.Outcome State Fault Refusal :=
  perform (.smov f) (scalarMeaning (fun _ a _ => a)) s

/-- SLI (R415). -/
def execSli (f : Fields) (s : State) : Host.Outcome State Fault Refusal := perform (.sli f) sliMeaning s

/-- SREAD (R418). -/
def execSread (f : Fields) (s : State) : Host.Outcome State Fault Refusal := perform (.sread f) sreadMeaning s

/-- SREAD_CLR (R418). -/
def execSreadClr (f : Fields) (s : State) : Host.Outcome State Fault Refusal := perform (.sreadClr f) sreadMeaning s

end Sys2Proof.Machine
end

