-- ==== Sys2Proof/Machine/Firmware.lean ====
section
/-!
DEFINITION. The firmware complex (15 R324 to R338): the measurement log, the replacement of a partition, leadership,
mailboxes and attestation. What the firmware images compute is not in the spec; a run of firmware code is that of the
partition's agent.
-/

namespace Sys2Proof.Machine

/-! The measurement log (R335). -/

/-- Enter a record in a die's log: LOGD takes it in, and the last 4,096 entries are kept. -/
def Prog.logAdd (die kind event : Nat) (version : W32) (digest : BitVec 512) : Prog :=
  .look fun s => .fw die (fun f =>
    let e : LogEntry := { index := f.count, die, kind, event, time := s.ns, version, digest }
    let es := f.entries ++ [e]
    { f with entries := es.drop (es.length - 4096), count := f.count + 1, logd := logNext f.logd e })

/-- A MEASURE event (R336). -/
def measureEvent (die part outcome index time : Nat) (before after : Image) : List Byte :=
  leBytes 1 6 ++ leBytes 1 die ++ leBytes 1 part ++ leBytes 1 outcome ++ leBytes 4 index ++ leBytes 8 time ++
    digestBytes before.digest ++ digestBytes after.digest ++ leBytes 4 before.version.toNat ++
    leBytes 4 after.version.toNat ++ List.replicate 40 0

/-- Every tenant receives a MEASURE event of the log's latest entry (R336). -/
def Prog.measure (die part outcome : Nat) (before after : Image) : Prog :=
  .look fun s => .each s.evqs (fun (q : Nat × EvQueue) =>
    .postEvent die q.1 (measureEvent die part outcome ((s.fw die).count - 1) s.ns before after))

/-! Images and state blocks in firmware SRAM (R325). -/

/-- Clear an image slot. -/
def Prog.clearSlot (die part slot : Nat) : Prog := .part die part (fun p => { p with images := p.images.drop slot })

/-- Start a partition's image at its entry with its block's address in S1 and its length in S2 (R332). The other
registers are free values (log 43). -/
def Prog.startImage (die part slot : Nat) (block : List Byte) : Prog :=
  .look fun s =>
    let pc := BitVec.ofNat 64 (slotOff part slot + 512)
    let a := s.freeRegs { kind := .fw, live := true, priv := true, eligibleSince := s.t }
    .all [
      .discard (agentKey die 255 part),
      .newAgent (agentKey die 255 part) { a with
        threads := [(0, { pc, restart := pc, st := .ready })]
        s := (a.s.put 1 (BitVec.ofNat 64 (blockOff part))).put 2 (BitVec.ofNat 64 block.length) },
      .act .free]

/-! Replacement (R330, R332). -/

/-- Whether a partition's image serves no mailbox: it quiesces, or its context is being replaced (R332, R337). -/
def Partition.away (p : Partition) : Bool := p.phase == .quiesce || p.phase == .exporting || p.phase == .switching

/-- Whether a replacement of a partition is between QUIESCE and its end (R338). -/
def Partition.replacing (p : Partition) : Bool :=
  p.phase == .quiesce || p.phase == .exporting || p.phase == .switching || p.phase == .probation

/-- Whether every partition of both dies is IDLE (R330). -/
def State.allIdle (s : State) : Bool :=
  [0, 1].all (fun d => [0, 1, 2].all (fun p => (s.part d p).phase == .idle))

/-- A partition of the module. -/
def isPart (die part : Nat) : Bool := decide (die < 2) && decide (part < 3)

/-- A FWCMD write that its phase does not accept (R330). -/
def Prog.fwBusy (die part : Nat) : Prog := .part die part (fun p => { p with outcome := 8 })

/-- FWCMD STAGE (R330, R332). -/
def fwcmdStage (die part : Nat) : Prog :=
  .look fun s =>
    if !s.powered || !isPart die part then .skip
    else if s.allIdle then .part die part (fun p => { p with phase := .staging })
    else .fwBusy die part

/-- The outcome that refuses an image (R328, R332); an image whose sizes break R328 counts with those of the signature
(log 44). -/
def State.imageRefused (s : State) (die part : Nat) (b : List Byte) : Option Nat :=
  let n := fun (o k : Nat) => leNat ((b.drop o).take k)
  let i := Image.ofBytes b
  let schema := (s.part die part).active.schema
  if n 0 4 != 0x46574E4D || n 4 1 != part then some 3
  else if !imageSizes b || !endorsementOk die b || !imageSigned b then some 3
  else if i.version.toNat < Config.fusedMinVersion die part then some 4
  else if schema < i.importMin || i.importMax < schema then some 5
  else none

/-- STAGE_END (R332): the image that was read is verified; it is staged in slot B and logged, or refused. -/
def stageEnd (die part : Nat) (image : List Byte) : Prog :=
  .look fun s =>
    let p := s.part die part
    if !s.powered || !isPart die part || p.phase != .staging then .skip
    else
      let slotB := 1 - p.slot
      match s.imageRefused die part image with
      | some o =>
        .seq (.clearSlot die part slotB) (.part die part (fun p => { p with phase := .idle, outcome := o, staged := none }))
      | none =>
        let i := Image.ofBytes image
        .all [
          .clearSlot die part slotB,
          .part die part (fun p => { p with images := p.images.put slotB (image.take (2 ^ 21)) }),
          .logAdd die part 1 i.version i.digest,
          .part die part (fun p => { p with phase := .staged, staged := some i })]

/-- FWCMD REPLACE (R330, R332): the old image starts to quiesce; on the leader's scheduler partition the lease is handed
over first (R327). -/
def fwcmdReplace (die part : Nat) : Prog :=
  .look fun s =>
    if !s.powered || !isPart die part then .skip
    else if (s.part die part).phase != .staged then .fwBusy die part
    else
      .seq (.part die part (fun p => { p with phase := .quiesce, quiesceAt := s.t }))
        (.when (part == 1 && (s.fw die).leads) (.fw die (fun f => { f with leads := false, handoff := true })))

/-- FWCMD DISCARD (R330, R332). -/
def fwcmdDiscard (die part : Nat) : Prog :=
  .look fun s =>
    let p := s.part die part
    if !s.powered || !isPart die part then .skip
    else if p.phase != .staged then .fwBusy die part
    else
      .seq (.clearSlot die part (1 - p.slot))
        (.part die part (fun p => { p with phase := .idle, outcome := 7, staged := none }))

/-- QUIESCE_TIMEOUT (R332): no handover point within 5 ms. -/
def quiesceTimeout (die part : Nat) : Prog :=
  .look fun s =>
    let p := s.part die part
    if !s.powered || !isPart die part || p.phase != .quiesce || decide (s.t < p.quiesceAt + 5 * Config.msec) then .skip
    else
      .seq (.clearSlot die part (1 - p.slot))
        (.part die part (fun p => { p with phase := .idle, outcome := 6, staged := none }))

/-- A section of a state block (R333). -/
def sectionBytes (e : BitVec 16 × BitVec 16 × List Byte) : List Byte :=
  leBytes 2 e.1.toNat ++ leBytes 2 e.2.1.toNat ++ leBytes 4 e.2.2.length ++ e.2.2 ++
    List.replicate ((8 - e.2.2.length % 8) % 8) 0

/-- A state block (R333). -/
def stateBlock (part schema : Nat) (sections : List (BitVec 16 × BitVec 16 × List Byte)) : List Byte :=
  let body := sections.flatMap sectionBytes
  leBytes 1 part ++ leBytes 3 0 ++ leBytes 2 schema ++ leBytes 2 sections.length ++ leBytes 4 (80 + body.length) ++
    leBytes 4 0 ++ digestBytes (sha512 body) ++ body

/-- The digest of an exported block matches its sections (R333). -/
def blockOk (b : List Byte) : Bool := (b.drop 16).take 64 == digestBytes (sha512 (b.drop 80))

/-- The sections, from the first, that a block of 1 MiB holds, after so many bytes of it (log 42). -/
def fitSections (used : Nat) : List (BitVec 16 × BitVec 16 × List Byte) → List (BitVec 16 × BitVec 16 × List Byte)
  | [] => []
  | e :: r => if used + (sectionBytes e).length ≤ 2 ^ 20 then e :: fitSections (used + (sectionBytes e).length) r else []

/-- EXPORT (R332, R333), step by step: the old image is at its handover point, within 5 ms; its state block is written, at
the end of which the hardware stops it; SWITCH starts the new image with the block, and the log and the tenants are told. -/
def fwExport (die part : Nat) : Prog :=
  .look fun s =>
    let p := s.part die part
    match p.staged with
    | none => .skip
    | some i =>
      if !s.powered || !isPart die part then .skip
      else match p.phase with
        | .quiesce =>
          .when (decide (s.t ≤ p.quiesceAt + 5 * Config.msec)) (.part die part (fun p => { p with phase := .exporting }))
        | .exporting =>
          .all [
            .part die part (fun p => { p with
              phase := .switching
              block := stateBlock part p.active.schema (fitSections 80 (Config.exportSections s.freeCtr die part)) }),
            .agent (agentKey die 255 part) (fun a => { a with live := false }),
            .act .free]
        | .switching =>
          .all [
            .startImage die part (1 - p.slot) p.block,
            .logAdd die part 2 i.version i.digest,
            .part die part (fun p => { p with
              phase := .probation, imported := blockOk p.block, switchAt := s.t, firstBeat := none, lastBeat := s.t }),
            .measure die part 1 p.active i]
        | _ => .skip

/-- The time at which HBEAT misses its deadline (R332, R334). -/
def Partition.deadline (p : Partition) : Nat :=
  match p.firstBeat with
  | none => p.switchAt + 20 * Config.msec
  | some _ => p.lastBeat + 2 * Config.msec

/-- FALLBACK (R334): the new image has missed a deadline; its slot, which is its memory region, is cleared, and the old image
restarts with the block that it exported; the log receives the digest of the old image as its slot holds it now. -/
def fallback (die part : Nat) : Prog :=
  .look fun s =>
    let p := s.part die part
    if !s.powered || !isPart die part || p.phase != .probation || decide (s.t < p.deadline) then .skip
    else
      .all [
        .clearSlot die part (1 - p.slot),
        .startImage die part p.slot p.block,
        .logAdd die part 3 p.active.version (Image.ofBytes (p.image p.slot)).digest,
        .part die part (fun p => { p with phase := .idle, outcome := 2, staged := none }),
        .measure die part 2 (p.staged.getD {}) p.active]

/-- The new image has lived for 500 ms (R332): slot B becomes the active slot. -/
def Prog.commitImage (die part : Nat) (i : Image) : Prog :=
  .seq (.part die part (fun p => { p with
      slot := 1 - p.slot, active := i, staged := none, phase := .idle, outcome := 1 }))
    (.logAdd die part 4 i.version i.digest)

/-- A partition answers some of the oldest requests of its mailbox, which leave it (R331); how many is its program's (log 69). -/
def Prog.serveMail (die part : Nat) : Prog :=
  .look fun s =>
    let p := s.part die part
    let words := p.mailbox.filter (fun e => match e with
      | .word _ => true
      | .attest .. => false)
    let out := words.take (Config.freeNat s.freeCtr 9970 (4 * die + part) % (words.length + 1))
    if p.away || words.isEmpty then .skip
    else
      .all [
        .part die part (fun p => { p with mailbox := out.foldl (fun m e => m.erase e) p.mailbox }),
        .upd (fun s => { s with mailOut := s.mailOut ++ out.map (fun entry => { die, part, entry, busy := false }) }),
        .act .free]

/-- A request enters a partition's mailbox, or is answered BUSY where that is full (R331). -/
def Prog.mail (die part : Nat) (entry : Mail) : Prog :=
  .look fun s =>
    if (s.part die part).mailbox.length < 256 then .part die part (fun p => { p with mailbox := p.mailbox ++ [entry] })
    else .upd (fun s => { s with mailOut := s.mailOut ++ [{ die, part, entry, busy := true }] })

/-- A write of HBEAT (R329, R332): in time, it is a heartbeat of the new image, and the first at or
after 500 ms from the first commits. An image whose block was not imported writes none (R333). -/
def Prog.heartbeat (die part : Nat) (value : W64) : Prog :=
  .look fun s =>
    let p := s.part die part
    .seq (.part die part (fun p => { p with hbeat := value }))
      (if p.phase != .probation || !p.imported || decide (s.t > p.deadline) then .skip
       else match p.firstBeat, p.staged with
         | none, _ => .part die part (fun p => { p with firstBeat := some s.t, lastBeat := s.t })
         | some t0, some i =>
           if s.t ≥ t0 + 500 * Config.msec then .commitImage die part i
           else .part die part (fun p => { p with lastBeat := s.t })
         | some _, none => .skip)

/-- MAILBOX_REQUEST (R331): a request comes, after the partition has answered what it has; it waits in the mailbox, or is
answered BUSY. -/
def mailboxRequest (die part : Nat) (entry : W64) : Prog :=
  .look fun s => .when (s.powered && isPart die part) (.seq (.serveMail die part) (.mail die part (.word entry)))

/-! Leadership (R326, R327, R338). Lease ends are in ns of global time. -/

/-- The length of a lease, in ns. -/
def leaseLength : Nat := 20000000

/-- A die takes a lease that starts now by its own global time, and a message tells the other (R326). -/
def Prog.newLease (d : Nat) : Prog :=
  .look fun s =>
    let e := s.gtime d + leaseLength
    .seq (.fw d (fun f => { f with leaseEnd := e })) (.fw (1 - d) (fun f => { f with inbox := f.inbox ++ [e] }))

/-- LEASE_RENEWAL (R326): a message comes to a die and gives it the lease end; or the leader renews its lease, 5 ms after it
last did, and its message leaves. -/
def leaseRenewal : Prog :=
  .look fun s =>
    if !s.powered then .skip
    else match [0, 1].find? (fun d => (s.fw d).inbox != []) with
      | some d => .fw d (fun f => { f with leaseEnd := f.inbox.headD f.leaseEnd, inbox := f.inbox.tail })
      | none => .each [0, 1] (fun d =>
        let f := s.fw d
        .when (f.leads && decide (s.gtime d < f.leaseEnd) && decide (f.leaseEnd ≤ s.gtime d + 15000000)) (.newLease d))

/-- LEADER_LEASE_EXPIRY (R326): a leader whose own global time reaches its lease end stops its duties. -/
def leaderLeaseExpiry : Prog :=
  .look fun s => .each [0, 1] (fun d =>
    .when (s.powered && (s.fw d).leads && decide ((s.fw d).leaseEnd ≤ s.gtime d)) (.fw d (fun f => { f with leads := false })))

/-- The follower that is to lead (R326): 1 ms has gone by since the last lease end that it received, and no message is on its
way; one that has sent HANDOFF stays a follower (R327). -/
def State.heir (s : State) : Option Nat :=
  [0, 1].find? (fun d =>
    let f := s.fw d
    !f.leads && !f.handoff && f.inbox == [] && decide (f.leaseEnd + 1000000 ≤ s.gtime d))

/-- LEADER_TAKEOVER (R326): the follower leads, unless its scheduler partition is being replaced (R338). -/
def leaderTakeover : Prog :=
  .look fun s =>
    match s.heir with
    | none => .skip
    | some d => .when (s.powered && !(s.part d 1).replacing) (.seq (.fw d (fun f => { f with leads := true })) (.newLease d))

/-- HANDOFF (R327): the follower leads on receipt. -/
def handoff : Prog :=
  .look fun s =>
    match [0, 1].find? (fun d => (s.fw (1 - d)).handoff) with
    | none => .skip
    | some d =>
      .when s.powered (.all [
        .fw (1 - d) (fun f => { f with handoff := false }),
        .fw d (fun f => { f with leads := true }),
        .newLease d])

/-! Attestation (R337). -/

/-- The bytes 0 to 607 of a report: the address of the log's mapping is firmware's (log 45). -/
def State.reportBody (s : State) (nonce : List W64) : List Byte :=
  leBytes 2 1 ++ leBytes 2 0 ++ leBytes 4 (s.fw 0).count ++ leBytes 4 (s.fw 1).count ++ leBytes 4 0 ++ leBytes 8 s.ns ++
    leBytes 8 (s.free64 9990).toNat ++ unitBytes nonce ++ digestBytes (s.fw 0).logd ++ digestBytes (s.fw 1).logd ++
    [0, 1].flatMap (fun d => [0, 1, 2].flatMap (fun p => digestBytes (s.part d p).active.digest))

/-- A report with its signature. -/
def State.report (s : State) (nonce : List W64) : List Byte :=
  let b := s.reportBody nonce
  b ++ (leBytes 132 (Config.moduleSignature (sha512 b)).toNat).reverse ++ List.replicate 28 0

/-- The stores of a report leave (R337): `q` says what waits for them. -/
def Prog.sendReport (slot ctx : Nat) (va : W64) (nonce : List W64) (q : List Nat → Prog) : Prog :=
  .look fun s =>
    let old := s.dieStores (slotKey slot)
    .all [
      .dieStore (slotKey slot) ctx va (s.report nonce),
      .act .free,
      .look fun s => q ((s.dieStores (slotKey slot)).filter (fun r => !old.contains r))]

/-- An ATTEST leaves the mailbox of its die's management partition, answered. -/
def Prog.mailServed (die queue offset : Nat) : Prog :=
  .seq (.part die 0 (fun p => { p with mailbox := p.mailbox.erase (.attest queue offset) }))
    (.upd (fun s => { s with mailOut := s.mailOut ++ [{ die, part := 0, entry := .attest queue offset, busy := false }] }))

/-- An ATTEST that waits in the mailbox is served: its page is checked, and its report written (R337, R463). -/
def Prog.serveAttest (queue : Nat) (o : OpenPacket) (va : W64) (nonce : List W64) : Prog :=
  .look fun s =>
    let die := slotDie o.slot
    let set := fun (x : OpenPacket) => Prog.opens queue (fun l => l.map (fun y => if y = o then x else y))
    if o.wait.isSome || (s.part die 0).away then .skip
    else if o.denied then .seq (.mailServed die queue o.offset) (.openFail queue o)
    else match s.reach o.ctx true va 768 with
      | .ok => .seq (.mailServed die queue o.offset)
          (.sendReport o.slot o.ctx va nonce (fun ids => set { o with kind := .report ids }))
      | .absent a level => .seq (.dieFault die o.ctx a 1 level) (set { o with wait := some (die, s.faultSerialFor die o.ctx a) })
      | _ => .seq (.mailServed die queue o.offset) (.openFail queue o)

/-- What an ATTEST that is processed and has not completed does next: served from the mailbox, or complete once its report is
visible. -/
def Prog.attestStep (i : Nat) : Prog :=
  .look fun s =>
    let ready := fun (o : OpenPacket) => o.slot == i && match o.kind with
      | .report ids => ids.all (fun r => (s.req? r).isNone)
      | .attest .. => o.wait.isNone && !(s.part (slotDie i) 0).away
      | _ => false
    match s.opens.findSome? (fun e => (e.2.find? ready).map (fun o => (e.1, o))) with
    | some (q, o) =>
      (match o.kind with
       | .report _ => .openDone q o
       | .attest va nonce => .serveAttest q o va nonce
       | _ => .skip)
    | none => .skip

/-- ATTEST (R337, R463): the report is written, and the packet completes once it is visible. While the management partition is
being replaced it waits in the mailbox; where that is full it is answered BUSY, and completes without a report (R331, log
107). -/
def attest (i : Nat) : Prog :=
  .look fun s =>
    let x := s.slot i
    let die := slotDie i
    match s.packetOf i 8 with
    | some p =>
      let va := unitAt p.units 1
      let nonce := (p.units.drop 2).take 8
      if va.toNat % 64 ≠ 0 then .fail3 i p 4
      else if (s.part die 0).away then
        .seq (.mail die 0 (.attest x.queue.toNat p.offset))
          (if (s.part die 0).mailbox.length < 256 then .packetOpen i p (.attest va nonce) else .packetDone i p)
      else .withRange i true va 768 (.fail3 i p 4)
        (.sendReport i x.ctx va nonce (fun ids => .packetOpen i p (.report ids)))
    | none => .when s.powered (.attestStep i)

/-! The rows of the opcode table. -/

/-- ATTEST (R337). -/
def execAttest (slot : Nat) (s : State) : Host.Outcome State Fault Refusal := done (attest slot) s

/-- FWCMD_STAGE (R332). -/
def execFwcmdStage (die part : Nat) (s : State) : Host.Outcome State Fault Refusal := done (fwcmdStage die part) s

/-- STAGE_END (R332). -/
def execStageEnd (die part : Nat) (image : List Byte) (s : State) : Host.Outcome State Fault Refusal :=
  done (stageEnd die part image) s

/-- FWCMD_REPLACE (R332). -/
def execFwcmdReplace (die part : Nat) (s : State) : Host.Outcome State Fault Refusal := done (fwcmdReplace die part) s

/-- FWCMD_DISCARD (R332). -/
def execFwcmdDiscard (die part : Nat) (s : State) : Host.Outcome State Fault Refusal := done (fwcmdDiscard die part) s

/-- QUIESCE_TIMEOUT (R332). -/
def execQuiesceTimeout (die part : Nat) (s : State) : Host.Outcome State Fault Refusal := done (quiesceTimeout die part) s

/-- EXPORT (R333). -/
def execFwExport (die part : Nat) (s : State) : Host.Outcome State Fault Refusal := done (fwExport die part) s

/-- FALLBACK (R334). -/
def execFallback (die part : Nat) (s : State) : Host.Outcome State Fault Refusal := done (fallback die part) s

/-- MAILBOX_REQUEST (R331). -/
def execMailboxRequest (die part : Nat) (entry : W64) (s : State) : Host.Outcome State Fault Refusal :=
  done (mailboxRequest die part entry) s

/-- LEASE_RENEWAL (R326). -/
def execLeaseRenewal (s : State) : Host.Outcome State Fault Refusal := done leaseRenewal s

/-- LEADER_LEASE_EXPIRY (R326). -/
def execLeaderLeaseExpiry (s : State) : Host.Outcome State Fault Refusal := done leaderLeaseExpiry s

/-- LEADER_TAKEOVER (R326). -/
def execLeaderTakeover (s : State) : Host.Outcome State Fault Refusal := done leaderTakeover s

/-- HANDOFF (R327). -/
def execHandoff (s : State) : Host.Outcome State Fault Refusal := done handoff s

end Sys2Proof.Machine
end

