-- ==== Sys2Proof/Machine/Pad.lean ====
section
/-!
DEFINITION. The scratchpad accesses LDS, STS and their tile forms (21 R387, R388, 22 R421) and ATOMS (20 R343): their checks,
and how they perform at the SRAM array (07 R156, 08 R191).
-/

namespace Sys2Proof.Machine

/-- What the checks of a scratchpad packet decide. -/
inductive Pad where
  | wait
  /-- a sector is poisoned, and a store of the agent that may clear it has not yet performed; or an event of a later place has
  come on the tile in this clock -/
  | hold
  | trap (code : Nat) (taddr : W64)
  /-- each lane with its address in the one memory -/
  | ok (at_ : List (Nat × Nat))

/-- The plain form: the crew-local offsets of the guarded lanes (R156, R388). -/
def State.padPlain (s : State) (p : Pkt) (n : Nat) (reads : Bool) : Pad :=
  let r := s.regs p.k
  let (base, size) := s.scratchOf p.k
  let offs := (lanesOf p.act).map (fun l => (l, laneAddr p.f r l))
  match offs.find? (fun e => e.2.toNat % n != 0) with
  | some e => .trap 0x07 e.2
  | none =>
    match offs.find? (fun e => decide (e.2.toNat + n > size)) with
    | some e => .trap 0x09 e.2
    | none =>
      match offs.find? (fun e => reads && s.poisoned (base + e.2.toNat) n) with
      | some e => if s.padDone p.k s.nextId then .trap 0x0A e.2 else .hold
      | none => .ok (offs.map (fun e => (e.1, base + e.2.toNat)))

/-- The tile form (R387, R388, R421): it waits until the tile is in a state, which it looks at in its place among the events of the
clock (23 R428). -/
def State.padTile (s : State) (p : Pkt) (n state : Nat) (reads : Bool) : Pad :=
  let key := (s.agent p.k).crew
  let tile := p.f.b.toNat % 64
  match s.tile? key tile with
  | none => .trap 0x0E (tileTaddr 3 tile)
  | some t =>
    if !s.tileTurn key tile (tilePlace p.k) then .hold
    else if tState t ≠ state then .wait
    else
      let r := s.regs p.k
      let (base, _) := s.scratchOf p.k
      let rel := fun (l : Nat) =>
        ((((r.v p.f.a.toNat).lane l).toNat * 2 ^ p.f.m 5 4 : Nat) : Int) + p.f.sx24.toInt
      let offs := (lanesOf p.act).map (fun l => (l, rel l))
      let off := fun (x : Int) => BitVec.ofInt 64 (x + tOffset t)
      match offs.find? (fun e => e.2 % (n : Int) != 0) with
      | some e => .trap 0x07 (off e.2)
      | none =>
        match offs.find? (fun e => decide (e.2 < 0) || decide (e.2 + (n : Int) > (tBytes t : Int))) with
        | some _ => .trap 0x0E (tileTaddr 5 tile)
        | none =>
          match offs.find? (fun e => reads && s.poisoned (base + tOffset t + e.2.toNat) n) with
          | some e => if s.padDone p.k s.nextId then .trap 0x0A (off e.2) else .hold
          | none => .ok (offs.map (fun e => (e.1, base + tOffset t + e.2.toNat)))

/-- What the checks of LDS decide. -/
def State.padLoad (s : State) (p : Pkt) : Pad :=
  let n := sizeBytes (p.f.m 2 0)
  if p.f.mb 3 then s.padTile p n 2 true else s.padPlain p n true

/-- What the checks of STS decide. -/
def State.padStore (s : State) (p : Pkt) : Pad :=
  let n := sizeBytes (p.f.m 2 0)
  if p.f.mb 3 then s.padTile p n 0 false else s.padPlain p n false

/-- The address of a lane among those of a packet. -/
def atLane (ps : List (Nat × Nat)) (l : Nat) : Option Nat := (ps.find? (fun e => e.1 == l)).map Prod.snd

/-- The registers of a scratchpad address. -/
def padRegs (f : Fields) : List Reg := if f.mb 3 then [.v f.a.toNat] else addrRegs f

/-- What a scratchpad packet does: it passes its checks, `note` marks it, and its access is put in flight (R191). -/
def padBody (p : Pkt) (commit : Bool) (note : Prog) (kind : List (Nat × Nat) → OpKind) : Pad → Body
  | .wait => .wait
  | .hold => .hold
  | .trap c ta => .trap c ta
  | .ok ps => .go (.seq note (.addOp p (kind ps) p.act commit)) 0

/-- A tile form is an event on its tile (R211, 23 R428). -/
def padNote (s : State) (p : Pkt) : Prog :=
  .when (p.f.mb 3) (.noteTile (s.agent p.k).crew (p.f.b.toNat % 64) (tilePlace p.k))

/-- LDS and LDS.T (R387, R388). -/
def ldsMeaning : Meaning where
  reads := fun _ p => padRegs p.f
  writes := fun _ p => groupRegs p.f.d.toNat (sizeRegs (p.f.m 2 0))
  dests := fun _ p => groupDests p.f.d.toNat (sizeRegs (p.f.m 2 0))
  body := fun s p => padBody p false (padNote s p) (.lds p.f.d.toNat (p.f.m 2 0)) (s.padLoad p)

/-- STS and STS.T (R421). -/
def stsMeaning : Meaning where
  reads := fun _ p => groupRegs p.f.d.toNat (sizeRegs (p.f.m 2 0)) ++ padRegs p.f
  body := fun s p =>
    padBody p false (padNote s p)
      (fun ps => .sts (ps.map (fun e => (e.2, storeBytesOf (s.regs p.k) p.f.d.toNat (p.f.m 2 0) e.1)))) (s.padStore p)

/-- ATOMS (R343, R344). -/
def atomsMeaning : Meaning where
  reads := fun _ p => atomRegs p.f ++ addrRegs p.f
  writes := fun _ p => groupRegs p.f.d.toNat 1
  dests := fun _ p => groupDests p.f.d.toNat 1
  body := fun s p =>
    let r := s.regs p.k
    match detAtomic s p (atomParts p r) with
    | some a => .trap 0x0F a
    | none =>
      padBody p true .skip (fun ps => .atoms p.f.d.toNat (p.f.m 3 0) (ps.map (fun e => (e.1, e.2, atomData p.f r e.1))))
        (s.padPlain p 4 true)

/-! The accesses as they perform at the SRAM array (R191). -/

/-- The aligned words that a range of bytes touches. -/
def wordsOf (a n : Nat) : List Nat := if n = 0 then [] else (List.range ((a + n - 1) / 4 - a / 4 + 1)).map (fun i => a / 4 + i)

/-- The contents that a read of a scratchpad word by an agent may find (R191): the present ones, and what stood there before
each write of another agent in this clock that follows the agent's own. -/
def State.padChoices (s : State) (core k word : Nat) : List W32 :=
  let c := s.core core
  BitVec.ofNat 32 (s.readNat (4 * word) 4) ::
    (if c.padAt = s.clocks then ((c.padWas.filter (fun w => w.at_ == word)).takeWhile (fun w => w.who != k)).map PadWord.was
     else [])

/-- The bytes that a lane of an LDS reads: each aligned word wholly of one of its contents, freely chosen. -/
def State.padBytes (s : State) (core k lane a n : Nat) : List Byte :=
  ((wordsOf a n).flatMap (fun w =>
    let cs := s.padChoices core k w
    leBytes 4 (cs.getD (Config.freeNat s.freeCtr (10300 + lane) w % cs.length) 0).toNat)).drop (a % 4) |>.take n

/-- The words of scratchpad that an agent is about to write are noted, for reads of other bands in the same clock. -/
def Prog.notePad (core k : Nat) (words : List Nat) : Prog :=
  .look fun s =>
    let new := words.eraseDups.map (fun w => ({ at_ := w, was := BitVec.ofNat 32 (s.readNat (4 * w) 4), who := k } : PadWord))
    .core core (fun c => { c with padAt := s.clocks, padWas := new ++ (if c.padAt = s.clocks then c.padWas else []) })

/-- The words of scratchpad after a packet of atomics, lane by lane (R341): memory, the old values, the flags. -/
def padAtomics (mem : List Host.Cell) (op : Nat) : List (Nat × Nat × W32 × W32) → List Host.Cell × List (Nat × W32) × BitVec 5
  | [] => (mem, [], 0)
  | (l, a, v, cmp) :: r =>
    let old := BitVec.ofNat 32 (leNat (Memory.reads mem a 4))
    let n := atomNew op old v cmp
    let x := padAtomics (Memory.writes mem a (leBytes 4 n.1.toNat)) op r
    (x.1, (l, old) :: x.2.1, n.2 ||| x.2.2)

/-- The addresses that an operation's scratchpad access reads, with their lanes, and their size. -/
def OpKind.padReads : OpKind → List (Nat × Nat) × Nat
  | .lds _ size ps => (ps, sizeBytes size)
  | .atoms _ _ ps => (ps.map (fun e => (e.1, e.2.1)), 4)
  | _ => ([], 0)

/-- Whether a scratchpad access writes. -/
def OpKind.padStores : OpKind → Bool
  | .sts _ | .atoms .. => true
  | _ => false

/-- A scratchpad access performs (R191, R343, R388, R421). A sector that has been poisoned since its issue traps the
packet's threads (log 86). -/
def Prog.performPad (o : Op) : Prog :=
  .look fun s =>
    let core := coreOf o.agent
    let (reads, n) := o.kind.padReads
    let fin := match o.tok with
      | some t => Prog.agent o.agent (fun a => a.untok t s.t)
      | none => .skip
    match reads.find? (fun e => s.poisoned e.2 n) with
    | some e =>
      .all [.dropOp o.id, fin,
        .trapBack o 0x0A (BitVec.ofNat 64 (e.2 - (s.scratchOf o.agent).1)),
        .when ((s.agent o.agent).liveMask == 0) (.checkCrew (s.agent o.agent).crew)]
    | none =>
      match o.kind with
      | .lds d size ps =>
        let word := fun (i l : Nat) => match atLane ps l with
          | some a => (loadWords size (s.padBytes core o.agent l a (sizeBytes size))).getD i 0
          | none => 0
        let v := if d ≥ 126 then [] else (List.range (sizeRegs size)).map (fun i => (d + i, VReg.ofLanes (word i)))
        .seq (.op o.id (fun x => { x with kind := .values [] v 0 })) (.act .free)
      | .sts ps =>
        .all [
          .notePad core o.agent (ps.flatMap (fun e => wordsOf e.1 e.2.length)),
          .storeParts ps,
          .dropOp o.id,
          fin,
          .when ((s.agent o.agent).liveMask == 0) (.checkCrew (s.agent o.agent).crew)]
      | .atoms d op ps =>
        let x := padAtomics s.mem op ps
        let words := (ps.map (fun e => e.2.1)).eraseDups
        let old := fun (l : Nat) => ((x.2.1.find? (fun e => e.1 == l)).map Prod.snd).getD 0
        let v := if d ≥ 126 then [] else [(d, VReg.ofLanes old)]
        .all [
          .notePad core o.agent (words.map (· / 4)),
          .each words (fun a => .bytes a (Memory.reads x.1 a 4)),
          .op o.id (fun y => { y with kind := .values [] v x.2.2 })]
      | _ => .skip

/-- The scratchpad stores and atomics of agents that stop perform before their crew's scratchpad is saved (R304). -/
def Prog.flushPad (ks : List Nat) : Prog :=
  .look fun s => .each (s.ops.filter (fun o => ks.contains o.agent && o.kind.padStores)) .performPad

/-- ATOMS (R343). -/
def execAtoms (f : Fields) (s : State) : Host.Outcome State Fault Refusal := perform (.atoms f) atomsMeaning s

/-- LDS (R388). -/
def execLds (f : Fields) (s : State) : Host.Outcome State Fault Refusal := perform (.lds f) ldsMeaning s

/-- LDS.T (R388). -/
def execLdsT (f : Fields) (s : State) : Host.Outcome State Fault Refusal := perform (.ldsT f) ldsMeaning s

/-- STS (R421). -/
def execSts (f : Fields) (s : State) : Host.Outcome State Fault Refusal := perform (.sts f) stsMeaning s

/-- STS.T (R421). -/
def execStsT (f : Fields) (s : State) : Host.Outcome State Fault Refusal := perform (.stsT f) stsMeaning s

end Sys2Proof.Machine
end

