-- ==== Sys2Proof/Machine/Peers.lean ====
section
/-!
DEFINITION. Requests of peers (14 R315, R316, 08 R199, 12 R282): what each meets in this module, what it does, and the reply
that it gets.
-/

namespace Sys2Proof.Machine

/-- The result word of a QPUSH (R401). -/
def pushWord (status off : Nat) : W64 := BitVec.ofNat 64 (status + 2 ^ 32 * (if status = 0 then off else 0))

/-- What a push does (R401): it has its status; it waits for an absent page of the ring; it is placed; or it leaves for a
peer, and holds a place on a scope's remote list. -/
inductive Push where
  | status (n : Nat)
  | denied (slot : Nat)
  /-- a queue of another context that is mapped to no slot -/
  | barred (ctx : Nat)
  | absent (slot : Nat) (va : W64) (level : Nat)
  | place (slot pad off : Nat)
  | far (node : Nat)
  deriving DecidableEq, Repr

/-- Carry out a push at the front end that holds the queue: `owner` says that the pusher may (R282, R401); `local?` is a local
pusher's context, which a queue that is mapped to no slot is to belong to (log 34). A ring page without W answers DENIED (log
92). -/
def State.pushAt (s : State) (queue : Nat) (image : List W64) (local? : Option Nat) (owner : Nat → Slot → Bool) : Push :=
  match s.slotOf queue with
  | none => match local?, s.queueCtx.find queue with
    | some c, some o => if c = o then .status 3 else .barred o
    | _, _ => .status 3
  | some i =>
    let x := s.slot i
    if !owner i x then .denied i
    else match x.room image.length with
      | none => .status 1
      | some (pad, off) =>
        let at_ := fun (u : Nat) => x.base + BitVec.ofNat 64 (8 * u)
        match (if pad = 0 then .ok else s.reach x.ctx true (at_ (x.tail.toNat % x.units)) 8),
          s.reach x.ctx true (at_ off) (8 * image.length) with
        | .fail, _ | _, .fail => .status 2
        | .absent a level, _ | _, .absent a level => .absent i a level
        | _, _ => .place i pad off

/-- Bit n of a slot's access-control bitmap (R282); a page of it that cannot be read denies (log 35). -/
def State.aclBit (s : State) (x : Slot) (node : Nat) : Bool :=
  match s.xlat x.ctx (x.acl + BitVec.ofNat 64 (node / 8)) with
  | .ok t => t.r && ((s.readAt t 1).headD 0).getLsbD (node % 8)
  | _ => false

/-- The key of a peer's stores and atomics: they perform in the peer's order (R199). -/
def peerKey (node : Nat) : Nat := dieKey 0 (1024 + node)

/-- An atomic of a peer performs at its home slice, after the peer's earlier stores (R199, R340). -/
def Prog.peerAtomic (node : Nat) (t : Target) (va : W64) (op : Nat) (v cmp : W32) : Prog :=
  .upd (fun s =>
    let line := lineOf t.addr
    let v' := max (s.storeV line) (s.agentV (peerKey node))
    let now := (s.lineRec line).owners.isEmpty && s.reqs.all (fun r => r.agent != peerKey node || r.stage != .sent)
    { s with
      reqs := s.reqs ++ [{
        id := s.nextId
        op := s.nextId
        agent := peerKey node
        core := 127
        place := .slice
        access := .atomic
        line
        parts := [{ lane := 0, piece := 0, addr := t.addr, va, len := 4, data := leBytes 4 v.toNat, op, cmp }]
        stage := if now then .arrived else .sent
        v := if now then v' else 0
        issued := s.t }]
      lines := if now then s.lines.put line { s.lineRec line with nextV := v' + 1 } else s.lines
      nextId := s.nextId + 1 })

/-- The node of a peer's key. -/
def peerNode (k : Nat) : Option Nat := if coreNo k = 254 ∧ 1024 ≤ unitOf k then some (unitOf k - 1024) else none

/-- Whether requests of a node are pending: its loads and atomics perform after them (R199). -/
def State.peerBusy (s : State) (node : Nat) : Bool := s.reqs.any (fun r => r.agent == peerKey node)

/-- A reply leaves for a peer. -/
def Prog.peerReply (node : Nat) (r : Reply) : Prog := .upd (fun s => { s with peerOut := s.peerOut ++ [(node, r)] })

/-- A request of a peer ends in NACK, and firmware logs the cause (R316). -/
def Prog.peerNack (node cause : Nat) : Prog :=
  .upd (fun s => { s with
    peerOut := s.peerOut ++ [(node, .nack)]
    nacks := s.nacks ++ [{ node, cause, time := s.ns }] })

/-- What a request of a peer meets: it is to wait; a page is absent; it ends in NACK; it performs. -/
inductive Meet where
  | hold
  | absent (die ctx : Nat) (va : W64) (access level : Nat)
  | nack (cause : Nat)
  | go (p : Prog)

/-- What an access of a peer meets (R315, R316, R170): an absent page asks firmware. -/
def State.peerMeets (s : State) (ctx : Nat) (va : W64) (n : Nat) (acc : Access) (op : Nat) (q : Target → Meet) : Meet :=
  match s.xlat ctx va with
  | .access => .nack 3
  | .absent level => .absent 0 ctx va acc.code level
  | .ok t =>
    if t.place != .slice || !permits acc t op then .nack 3
    else if s.poisoned t.addr n then .nack 4
    else q t

/-- What a request of a peer meets, and does (R315, R316, R282). -/
def State.peerOutcome (s : State) (node : Nat) (r : PeerRequest) : Meet :=
  match r with
  | .load ctx va len =>
    s.peerMeets ctx va len .load 0 (fun t =>
      if s.ownedRange t len || s.peerBusy node then .hold
      else .go (.seq (.line (lineOf t.addr) (fun x => { x with leaseEnd := max x.leaseEnd s.ns }))
        (.peerReply node (.data (s.readAt t len)))))
  | .store ctx va data =>
    s.peerMeets ctx va data.length .store 0 (fun _ =>
      let old := s.dieStores (peerKey node)
      .go (.seq (.dieStore (peerKey node) ctx va data) (.upd (fun s => { s with
        peerAcks := s.peerAcks ++ [{ node, stores := (s.dieStores (peerKey node)).filter (fun i => !old.contains i) }] }))))
  | .atomic ctx va op v cmp =>
    s.peerMeets ctx va 4 .atomic op (fun t => if s.peerBusy node then .hold else .go (.peerAtomic node t va op v cmp))
  | .push queue image =>
    let acl := (s.slotOf queue).elim Store.ok (fun i =>
      let x := s.slot i
      s.reach x.ctx false (x.acl + BitVec.ofNat 64 (node / 8)) 1)
    if pkLen image ≠ image.length || (packetFault image).isSome then .go .skip
    else if acl == .hold then .hold
    else match s.pushAt queue image none (fun _ x => s.aclBit x node) with
      | .denied i => .go (.seq (.slotEvent i (s.slot i).ctx 5 0 0 (BitVec.ofNat 64 node) false) (.peerNack node 5))
      | .absent i va level => .absent (slotDie i) (s.slot i).ctx va 1 level
      | .place i pad off => .go (.seq (.push i pad off image) (.peerReply node (.result (pushWord 0 off))))
      | .status n => if n = 2 then .nack 3 else .go (.peerReply node (.result (pushWord n 0)))
      | .far _ | .barred _ => .go .skip
  | .firmware data =>
    .go (.seq (.upd (fun s => { s with peerMsgs := s.peerMsgs ++ [(node, data)] })) (.peerReply node .ack))

/-- The first request of a list that waits for no reply and behind no earlier request of its node, and performs or meets an
absent page or a refusal now; its place. -/
def State.peerTurn (s : State) : Nat → List Nat → List HeldPeer → Option (Nat × HeldPeer × Meet)
  | _, _, [] => none
  | i, before, h :: r =>
    if h.wait.isSome || before.contains h.node then s.peerTurn (i + 1) (h.node :: before) r
    else match s.peerOutcome h.node h.req with
      | .hold => s.peerTurn (i + 1) (h.node :: before) r
      | m => some (i, h, m)

/-- Serve the requests of peers whose turn has come, at most `n` of them (R315, log 94). -/
def Prog.servePeers : Nat → Prog
  | 0 => .skip
  | n + 1 =>
    .look fun s =>
      match s.peerTurn 0 [] s.heldPeers with
      | none => .skip
      | some (i, h, m) =>
        let leave := Prog.upd (fun s => { s with heldPeers := s.heldPeers.eraseIdx i })
        .seq (match m with
          | .hold => .skip
          | .absent die ctx va access level =>
            .seq (.upd (fun s => { s with
                heldPeers := s.heldPeers.set i { h with wait := some (die, s.faultSerialFor die ctx va) } }))
              (.fault die ctx va 0xFFF 0xFF 4 access 0xFF level 0)
          | .nack cause => .seq leave (.peerNack h.node cause)
          | .go p => .seq leave p)
          (servePeers n)

/-- Stores of peers that are visible are acknowledged, and the requests that waited for them are served (R199). -/
def Prog.settlePeers : Prog :=
  .look fun s =>
    let past := s.peerAcks.filter (fun a => a.stores.all (fun r => (s.req? r).isNone))
    .all [
      .upd (fun s => { s with peerAcks := s.peerAcks.filter (fun a => !past.contains a) }),
      .each past (fun a => .peerReply a.node .ack),
      .look fun s => .servePeers s.heldPeers.length]

/-- The fault record of a request of a peer is answered (R315, R316): RESOLVED lets it go on, DENIED and ABSENT end it in
NACK. -/
def Prog.replyPeers (die serial kind : Nat) : Prog :=
  .look fun s =>
    let mine := s.heldPeers.filter (fun h => h.wait == some (die, serial))
    .seq
      (if kind = 1 then .upd (fun s => { s with
          heldPeers := s.heldPeers.map (fun h => if h.wait = some (die, serial) then { h with wait := none } else h) })
       else .seq (.upd (fun s => { s with heldPeers := s.heldPeers.filter (fun h => h.wait != some (die, serial)) }))
         (.each mine (fun h => .peerNack h.node (kind - 1))))
      (.look fun s => .servePeers s.heldPeers.length)

end Sys2Proof.Machine
end

