-- ==== Sys2Proof/Machine/MemSteps.lean ====
section
/-!
DEFINITION. The steps of the memory system: fetches and stores at their slices (08 R180 to R186), the bank sorters (07
R169), leases, replies of peers and of the host (13 R303, R311, 08 R199, R200), host accesses (14 R310), and the
invalidation of TLBs (07 R166).
-/

namespace Sys2Proof.Machine

/-- Whether an atomic returns its old words (R186). -/
def State.returns (s : State) (r : Req) : Bool :=
  match (s.op? r.op).map Op.kind with
  | some (.atomic d _) => decide (d < 126)
  | _ => false

/-- Whether a load may take its instant now (R183, R186): every earlier load of its agent has its own, earlier atomics that
return have performed, and so have earlier atomics on its line. A store from which an earlier load was served has its V
(R182). -/
def State.loadTurn (s : State) (r : Req) : Bool :=
  s.reqs.all (fun x => x.agent != r.agent || decide (x.op ≥ r.op) || x.place != .slice || match x.access with
    | .load => !x.unserved
    | .atomic => x.stage == .visible || x.stage == .answered || (!s.returns x && x.line != r.line)
    | .store => !(x.fwd && x.unserved)
    | _ => true)

/-- Whether a demand request waits for the fill of an earlier prefetch of its line (R177). -/
def State.fillPending (s : State) (r : Req) : Bool :=
  s.reqs.any (fun x => x.core == r.core && x.line == r.line && x.access == .pref && decide (x.id < r.id) &&
    touchesL1 r.access r.noL1 { place := r.place, addr := 0, lease := r.lease, r := true, w := true, x := false })

/-- The bank of a line, over both dies (R160): 256 a die, 4 a slice. -/
def bankOf (line : Nat) : Nat :=
  let pa := 128 * line % 2 ^ 38
  let c := bitsOf pa 12 8 ^^^ bitsOf pa 25 21
  256 * (pa / 2 ^ 37) + 4 * (2 * c + bitsOf pa 7 7) + bitsOf pa 14 13

/-- Whether no engine's write holds a request's line (R195): the line is unowned, or the write that held the request has its
V. Commands that have taken the line since then follow the request (log 103). -/
def State.released (s : State) (r : Req) : Bool := (s.lineRec r.line).owners.isEmpty || r.notBefore != 0

/-- Whether a store may reach its slice now (R184, R186, R195): earlier loads of its agent, and earlier atomics that return,
have their values, and earlier stores have arrived; a prefetch that fills its line is in (R177). -/
def State.storeTurn (s : State) (r : Req) : Bool :=
  s.released r && !s.fillPending r &&
    s.reqs.all (fun x => x.agent != r.agent || decide (x.op ≥ r.op) || match x.access with
      | .load => x.stage == .answered
      | .pref => true
      | .atomic => x.place != .slice || (if s.returns x then x.stage == .answered else !x.unserved)
      | .store => x.place != .slice || !x.unserved)

/-- Whether a fetch may be served at its slice now: its turn has come, no engine owns the line (R195), and L1 does not serve
it (R167). -/
def State.fetchTurn (s : State) (r : Req) : Bool :=
  s.released r && s.loadTurn r && !s.hits r && !s.fillPending r &&
    decide ((s.agent r.agent).lastInst ≤ s.ns)

/-- Whether a request may be served at its slice now: no engine's write holds it back (R195), it has a miss slot or finds one
(R168), and its turn has come. -/
def State.servable (s : State) (r : Req) : Bool :=
  r.stage == .sent && r.place == .slice && decide (r.notBefore ≤ s.ns) && (r.slot != .none || !usesSlots r.agent || s.slotFor r.agent != .none) &&
    match r.access with
    | .load => s.fetchTurn r
    | .pref => true
    | _ => s.storeTurn r

/-- Whether a bank may serve a request before those that came to it earlier (R169): none of these has been passed by 64
requests, unless it is for the same line. -/
def State.bankTurn (s : State) (r : Req) : Bool :=
  s.reqs.all (fun x => decide (x.id ≥ r.id) || decide (x.passed < 64) || bankOf x.line != bankOf r.line || x.line == r.line ||
    !s.servable x)

/-- A bank serves a request: it holds its miss slot (R168), and the earlier ones that could be served are passed (R169). -/
def Prog.serveReq (r : Req) : Prog :=
  .upd (fun s => { s with
    reqs := s.reqs.map (fun x =>
      if x.id = r.id then (if x.slot = .none && usesSlots x.agent then { x with slot := s.slotFor x.agent } else x)
      else if x.id < r.id && bankOf x.line = bankOf r.line && x.line ≠ r.line && s.servable x then
        { x with passed := x.passed + 1 }
      else x) })

/-- SLICE_FETCH (R180, R182, R195, R398). A line that holds a poisoned sector which the load reads answers nothing: the
packet traps (R170). -/
def sliceFetch (id : Nat) : Prog :=
  .look fun s =>
    match s.req? id with
    | none => .skip
    | some r =>
      if !s.powered || !s.servable r || !s.bankTurn r then .skip
      else match r.access with
        | .pref =>
          if !(s.lineRec r.line).owners.isEmpty || s.poisoned (128 * r.line) 128 then
            .all [.serveReq r, .dropReq id, .grantSlots r.core, .finishOp r.op]
          else
            let e := s.leaseFor r.line r.lease
            .all [
              .serveReq r,
              .line r.line (fun x => { x with leaseEnd := max x.leaseEnd e }),
              .req id (fun x => { x with stage := .fetched, leaseEnd := e })]
        | .load =>
          if r.parts.any (fun p => s.poisoned p.addr p.len) then
            .seq (.serveReq r) (.answer id (fun x => { x with failed := true, bad := true }))
          else
            let e := if r.lease = 0 || r.noL1 then 0 else s.leaseFor r.line r.lease
            .all [
              .serveReq r,
              .when (e != 0) (.line r.line (fun x => { x with leaseEnd := max x.leaseEnd e })),
              .req id (fun x => { x with stage := .fetched, leaseEnd := e, got := r.parts.map (s.readPart r) }),
              .loadInstant r.agent r.op r.line r.parts]
        | _ => .skip

/-- A fetched line enters its core's L1, unless its lease has ended (R180). -/
def Prog.fillL1 (r : Req) : Prog :=
  .look fun s =>
    if r.leaseEnd ≤ s.ns || r.noL1 then .skip
    else .core r.core (fun c =>
      ({ c with l1 := c.l1.filter (fun l => l.line != r.line || decide (s.ns < l.leaseEnd)) }).fill
        (fun i => Config.freeNat s.freeCtr (4098 + i) r.line)
        { line := r.line, leaseEnd := r.leaseEnd, sectors := r.sectors, count := r.count, pref := decide (r.access = Access.pref),
          touched := r.touched })

/-- LOAD_REPLY (R159, R180, R186, R385): a fetched line or a performed atomic answers, or the L1 serves the load. -/
def loadReply (id : Nat) : Prog :=
  .look fun s =>
    match s.req? id with
    | none => .skip
    | some r =>
      if !s.powered || r.place != .slice then .skip
      else match r.stage, r.access with
        | .fetched, _ => .all [.fillL1 r, .answer id (fun x => x), .act .free]
        | .visible, .atomic => .answer id (fun x => x)
        | .sent, .load =>
          if !s.hits r || !s.loadTurn r then .skip
          else
            .all [
              .when (!r.counted || r.count != 0) (.countHit r.core r.line r.count),
              .loadInstant r.agent r.op r.line r.parts,
              .answer id (fun x => { x with got := r.parts.map (s.readPart r) })]
        | _, _ => .skip

/-- SLICE_STORE_ARRIVAL (R181, R184). -/
def sliceStoreArrival (id : Nat) : Prog :=
  .look fun s =>
    match s.req? id with
    | none => .skip
    | some r =>
      let stores := r.access == .store || r.access == .atomic
      if !s.powered || !stores || !s.servable r || !s.bankTurn r then .skip
      else
        let v := max (s.storeV r.line) (s.agentV r.agent)
        .all [
          .serveReq r,
          .line r.line (fun x => { x with nextV := v + 1 }),
          .agent r.agent (fun a => { a with
            lastV := v
            lastInst := if r.fwd then max a.lastInst v else a.lastInst
            fenceAt := max a.fenceAt (if homeDie (128 * r.line) = dieOf r.agent then v else v + 2) }),
          .req id (fun x => { x with stage := .arrived, v }),
          .grantSlots r.core,
          .when (r.access == .store) (.finishOp r.op)]

/-- The blocks of code that the store of a launch touches, which are the launch's that issued it (R103). -/
def Prog.noteSelf (r : Req) : Prog := .noteStored r.launch (r.parts.map (fun p => (p.addr, p.len)))

/-- An atomic performs on the words of its line, lane by lane (R341). -/
def atomicParts (mem : List Host.Cell) (op : Nat) : List Part → List Host.Cell × List (List Byte)
  | [] => (mem, [])
  | p :: r =>
    let old := Memory.reads mem p.addr 4
    let new := (atomNew op (BitVec.ofNat 32 (leNat old)) (BitVec.ofNat 32 (leNat p.data)) p.cmp).1
    let x := atomicParts (Memory.writes mem p.addr (leBytes 4 new.toNat)) op r
    (x.1, old :: x.2)

/-- The words that an atomic leaves in memory, part by part. -/
def State.atomicWrites (s : State) (r : Req) : List (Nat × List Byte) :=
  let m := (atomicParts s.mem ((r.parts.head?.map Part.op).getD 0) r.parts).1
  r.parts.map (fun p => (p.addr, Memory.reads m p.addr 4))

/-- A store that a slot's ring is read after is visible: a packet that it lets the slot read has waited from now (12 R294). -/
def Prog.tailVisible (id : Nat) : Prog :=
  .upd (fun s => { s with
    slots := s.slots.map (fun e =>
      if e.2.after.contains id then (e.1, { e.2 with after := e.2.after.filter (· != id), since := s.t }) else e) })

/-- STORE_VISIBLE (R181, R186): at V the slice applies the store's bytes, or performs the atomic. -/
def storeVisible (id : Nat) : Prog :=
  .look fun s =>
    match s.req? id with
    | none => .skip
    | some r =>
      if !s.powered || r.stage != .arrived || s.ns < r.v then .skip
      else
        .all [
          match r.access with
          | .store =>
            .all [
              .storeParts (r.parts.map (fun p => (p.addr, p.data))),
              .poisonSectors ((r.parts.filter (fun p => p.op = 1)).map (fun p => p.addr / 32)).eraseDups,
              .dropReq id]
          | .atomic =>
            if r.parts.any (fun p => s.poisoned p.addr p.len) then
              (match peerNode r.agent with
               | some n => .seq (.dropReq id) (.peerNack n 4)
               | none => .answer id (fun x => { x with failed := true, bad := true }))
            else
            let olds := (atomicParts s.mem ((r.parts.head?.map Part.op).getD 0) r.parts).2
            .seq (.storeParts (s.atomicWrites r))
              (if (s.op? r.op).isNone then .seq (.dropReq id)
                (match peerNode r.agent with
                 | some n => .peerReply n (.data olds.flatten)
                 | none => .skip)
               else .seq (.req id (fun x => { x with stage := .visible, got := olds }))
                 (.when (s.returns r) (.agent r.agent (fun a => { a with lastInst := max a.lastInst r.v }))))
          | _ => .skip,
          .noteSelf r,
          .tailVisible id,
          .fireDecs 64,
          .fireEvents,
          .settlePeers]

/-- LEASE_END (R180). -/
def leaseEnd (core line : Nat) : Prog :=
  .look fun s => .when s.powered (.core core (fun c => { c with
    l1 := c.l1.filter (fun l => !(l.line == line && decide (l.leaseEnd ≤ s.ns))) }))

/-- L2_BANK_SERVICE (R169): the bank serves its oldest request that may be served; where more than 32 are queued, every
fetch of the same line with a fetch. The order by GDDR7 row is timing (log 13). -/
def l2BankService (bank : Nat) : Prog :=
  .look fun s =>
    let here := s.reqs.filter (fun r => bankOf r.line == bank && s.servable r)
    match here.head? with
    | none => .skip
    | some r =>
      if r.access = .store || r.access = .atomic then sliceStoreArrival r.id
      else if here.length ≤ 32 then sliceFetch r.id
      else .each ((here.filter (fun x => x.line == r.line && (x.access == .load || x.access == .pref))).map Req.id) sliceFetch

/-! Peers and the host. -/

/-- The bytes of a reply, cut by the parts of its request. -/
def cutParts : List Part → List Byte → List (List Byte)
  | [], _ => []
  | p :: r, bs => bs.take p.len :: cutParts r (bs.drop p.len)

/-- A far store of an engine or of a die agent is settled; a failure ends the engine's command with FAULT (R358). -/
def Prog.engineReply (r : Req) (failed : Bool) : Prog :=
  .all [.dropReq r.id,
    .when (failed && usesSlots r.agent) (.storeFault r (if r.timeout then 0x0C else 0x0B)),
    .look fun s =>
      let cx := unitOf r.agent - 128
      match ((s.core r.core).queue false cx).find? (fun c => c.id == r.op) with
      | some c => .when (failed && unitOf r.agent ≥ 128) (.stopCmd r.core cx c 4)
      | none => .seq (.fireDecs 64) .fireEvents]

/-- A far request is settled (R199, R200, R303, R311): a load or atomic answers; a posted store that failed is kept for the
next FENCE.SYS and recorded in its scope, but for a NACK that finds its crew pre-empted (13 R308). -/
def Prog.farSettle (r : Req) (failed timeout : Bool) (data : List Byte) : Prog :=
  .look fun s =>
    if (s.agents.find r.agent).isNone then .engineReply { r with timeout } failed
    else match r.access with
      | .store =>
        let va := (r.parts.head?.map Part.va).getD 0
        .all [
          .when (failed && !(s.away r.agent && !timeout)) (.seq
            (.agent r.agent (fun a => { a with failed := a.failed ++ [(r.op, va, timeout)] }))
            (.storeFault r (if timeout then 0x0C else 0x0B))),
          .req r.id (fun x => { x with stage := .answered }),
          .grantSlots r.core,
          .finishOp r.op,
          .dropReq r.id,
          .fireDecs 64]
      | _ => .answer r.id (fun x => { x with failed, timeout, got := if failed then [] else cutParts r.parts data })

/-- HOST_COMPLETION (R311): of a posted store it is the zero-length read behind it, which reports no error. -/
def hostCompletion (id : Nat) (ok : Bool) (data : List Byte) : Prog :=
  .look fun s =>
    match s.req? id with
    | some r =>
      if s.powered && r.place == .host && r.stage == .sent &&
          !(r.access != .store && decide (r.sentAt + 10 * Config.msec ≤ s.t)) then
        .farSettle r (!ok && r.access != .store) false data
      else .skip
    | none => .skip

/-- HOST_COMPLETION_TIMEOUT (R311): a load or atomic without a completion for 10 ms. -/
def hostCompletionTimeout (id : Nat) : Prog :=
  .look fun s =>
    match s.req? id with
    | some r =>
      if s.powered && r.place == .host && r.stage == .sent && r.access != .store &&
          decide (r.sentAt + 10 * Config.msec ≤ s.t) then .farSettle r true true []
      else .skip
    | none => .skip

/-- The key of the host's stores. -/
def hostKey : Nat := dieKey 0 2

/-- Stores of the host to consecutive local addresses (R199). -/
def Prog.hostStore (a : Nat) (bs : List Byte) : Prog :=
  .each (cutAt 128 (bs.length / 128 + 2) (BitVec.ofNat 64 a) bs) (fun e =>
    .dieStoreLine hostKey { place := .slice, addr := e.1.toNat, lease := 0, r := true, w := true, x := false } e.1 e.2)

/-- The completion of a read of the host (R310, R311): data, or a poisoned completion. The read comes behind the host's
posted writes (R199), and a line that an engine owns holds it (R195). -/
def Prog.hostRead (a n : Nat) : Prog :=
  .look fun s =>
    let t : Target := { place := .slice, addr := a, lease := 0, r := true, w := true, x := false }
    .when (s.dieStores hostKey == [] && !s.ownedRange t n)
      (.upd (fun s => { s with hostOut := s.hostOut ++ [if s.poisoned a n then .poisoned else .data (s.readBytes a n)] }))

/-- HOST_BAR2_ACCESS (R310): a window onto device physical memory; in a frame that is withheld from the physical address space
(01 R23) the access completes with UR, as beyond the Pewter that is carved (log 96). -/
def hostBar2 (write : Bool) (offset len : Nat) (data : List Byte) : Prog :=
  .look fun s => .when (s.powered && decide (offset + len ≤ 2 ^ min s.bar2 38))
    (if s.withheldRange offset len then .when (!write) (.upd (fun s => { s with hostOut := s.hostOut ++ [.unsupported] }))
     else if write then .hostStore offset (data.take len) else .hostRead offset len)

/-- HOST_BAR4_ACCESS (R310): a window onto Pewter; beyond the carved size the access completes with UR. -/
def hostBar4 (write : Bool) (offset len : Nat) (data : List Byte) : Prog :=
  .look fun s =>
    let die := offset / 2 ^ 30 % 2
    let off := offset % 2 ^ 30
    let a := Space.pewter + die * 2 ^ 37 + off
    .when (s.powered && decide (offset < 2 ^ 31))
      (if off + len > s.pewterSize die then
        .when (!write) (.upd (fun s => { s with hostOut := s.hostOut ++ [.unsupported] }))
       else if write then .hostStore a (data.take len) else .hostRead a len)

/-- TLB_INVALIDATION (R166): the tag and page leave every TLB of both dies. -/
def tlbInvalidation (tag page : Nat) : Prog :=
  .look fun s => .when s.powered (.upd (fun s => { s with
    cores := s.cores.map (fun c => (c.1, { c.2 with
      tlb := c.2.tlb.filter (fun e => !(e.ctx == tag && decide (e.va < (page + 1) * 2 ^ 16) && decide (page * 2 ^ 16 < e.va + e.size))) })) }))

/-- LOAD_REPLY (R385). -/
def execLoadReply (req : Nat) (s : State) : Host.Outcome State Fault Refusal := done (loadReply req) s

/-- SLICE_FETCH (R180). -/
def execSliceFetch (req : Nat) (s : State) : Host.Outcome State Fault Refusal := done (sliceFetch req) s

/-- SLICE_STORE_ARRIVAL (R181). -/
def execSliceStoreArrival (req : Nat) (s : State) : Host.Outcome State Fault Refusal := done (sliceStoreArrival req) s

/-- STORE_VISIBLE (R181). -/
def execStoreVisible (req : Nat) (s : State) : Host.Outcome State Fault Refusal := done (storeVisible req) s

/-- LEASE_END (R180). -/
def execLeaseEnd (core line : Nat) (s : State) : Host.Outcome State Fault Refusal := done (leaseEnd core line) s

/-- L2_BANK_SERVICE (R169). -/
def execL2BankService (bank : Nat) (s : State) : Host.Outcome State Fault Refusal := done (l2BankService bank) s

/-- HOST_COMPLETION (R311). -/
def execHostCompletion (req : Nat) (ok : Bool) (data : List Byte) (s : State) : Host.Outcome State Fault Refusal :=
  done (hostCompletion req ok data) s

/-- HOST_COMPLETION_TIMEOUT (R311). -/
def execHostCompletionTimeout (req : Nat) (s : State) : Host.Outcome State Fault Refusal := done (hostCompletionTimeout req) s

/-- HOST_BAR2_ACCESS (R310). -/
def execHostBar2Access (write : Bool) (offset len : Nat) (data : List Byte) (s : State) : Host.Outcome State Fault Refusal :=
  done (hostBar2 write offset len data) s

/-- HOST_BAR4_ACCESS (R310). -/
def execHostBar4Access (write : Bool) (offset len : Nat) (data : List Byte) (s : State) : Host.Outcome State Fault Refusal :=
  done (hostBar4 write offset len data) s

/-- TLB_INVALIDATION (R166). -/
def execTlbInvalidation (tag page : Nat) (s : State) : Host.Outcome State Fault Refusal := done (tlbInvalidation tag page) s

end Sys2Proof.Machine
end

