-- ==== Sys2Proof/Machine/Queue.lean ====
section
/-!
DEFINITION. QPUSH (22 R399 to R402), the replies of peers (14 R316) and the arrival of their requests (R315).
-/

namespace Sys2Proof.Machine

/-- Whether a node number names this module (R57, R164). -/
def State.isHere (s : State) (n : Nat) : Bool := n == 0x1FF || BitVec.ofNat 9 n == s.node

/-- A range as accesses of one lane, line by line. -/
def rangeParts (lane : Nat) (va : W64) (n : Nat) : List Part :=
  (cutAt 128 (n / 128 + 2) va (List.replicate n 0)).map (fun e =>
    { lane, piece := 0, addr := 0, va := e.1, len := e.2.length })

/-- QPUSH at issue (R400): the image is read at one instant (log 11), once what lies in host or peer memory has been
answered (R303); the push is kept until it performs. -/
def qpushBody (s : State) (p : Pkt) : Body :=
  let r := s.regs p.k
  let ctx := s.ctxOf p.k
  let va := r.s p.f.b.toNat + p.f.sx24
  let lane := (lowest p.act (fun _ => true)).getD 0
  let away := fun (absent : List (Part × Nat)) => Body.go
    (.all [.parkLanes p.k ctx .load (firstAbsent absent) (some p.lanes), .addOp p (.values [] [] 0) 0 false]) p.lanes
  let ready := fun (hits : List (Part × Target)) =>
    s.loadsDone p.k && hits.all (fun e => s.readable { e.2 with addr := e.1.addr })
  let sent := fun (far : List (Part × Target)) => accessBody p ctx .load (.peek true) false false 0 far [] true true
  if s.slotFor p.k = .none then .wait
  else match s.verdict p.k ctx 8 .load [{ lane, piece := 0, addr := 0, va, len := 8 }] with
  | .wait => .wait
  | .trap c ta => .fail c ta (.forget p)
  | .poison _ absent => away absent
  | .go hits absent =>
    let far := s.unpeeked p.k hits
    if absent != [] then away absent
    else if far != [] then sent far
    else if s.fillAwaited p.k hits then .late (.touchLines p.k hits)
    else if !ready hits then .wait
    else
      let head := unitsOf 1 (hits.flatMap (s.readHit p.k))
      let n := if pkLen head ≤ 128 then 8 * (pkLen head - 1) else 0
      match s.verdict p.k ctx 1 .load (rangeParts lane (va + 8) n) with
      | .wait => .wait
      | .trap c ta => .fail c ta (.forget p)
      | .poison _ absent2 => away absent2
      | .go hits2 absent2 =>
        let far2 := s.unpeeked p.k hits2
        if absent2 != [] then away absent2
        else if far2 != [] then sent far2
        else if s.fillAwaited p.k hits2 then .late (.touchLines p.k hits2)
        else if !ready hits2 then .wait
        else
          .go (.all [
            .forget p,
            .readMarks p.k ctx ((hits ++ hits2).filter (fun e => e.2.place == .slice)),
            .addOp p (.qpush p.f.d.toNat (r.s p.f.a.toNat) (head ++ unitsOf (n / 8) (hits2.flatMap (s.readHit p.k))) none false) p.act true]) 0

/-- QPUSH (R399, R400). -/
def qpushMeaning : Meaning where
  illegal := fun s p =>
    let h := (s.readS p.k p.f.a.toNat).toNat
    bitsOf h 63 57 != 0 || bitsOf h 47 32 != 0
  reads := fun _ p => [.s p.f.a.toNat, .s p.f.b.toNat]
  writes := fun _ p => [.s p.f.d.toNat]
  body := qpushBody

/-- The place that a QPUSH holds on its parent's remote list (R401): it stays on OK and TIMEOUT, else it is released. -/
def Prog.pushPlace (id : Nat) (scope : Option Nat) (status : Nat) : Prog :=
  match scope with
  | none => .skip
  | some i =>
    if status = 0 || status = 6 then .skip
    else .look fun s =>
      .when ((s.scope i).remote.any (fun p => p.id == id && !p.settled))
        (.seq (.scope i (fun e => { e with remote := e.remote.filter (fun p => p.id != id) })) (.endWork i 1))

/-- The local scope that a TASKS image names as its remote parent (R401). -/
def State.pushParent (s : State) (image : List W64) : Option Nat :=
  let h := unitAt image 2
  if pkType image = 2 && h != 0 && !s.foreign h && !s.stale h then some (hIndex h) else none

/-- Decide a push (R401). -/
def State.pushOutcome (s : State) (ctx : Nat) (handle : W64) (image : List W64) : Push :=
  let len := pkLen image
  let type := pkType image
  let node := bitsOf handle.toNat 56 48
  let queue := bitsOf handle.toNat 31 0
  if len = 0 || len > 128 || (packetFault image).isSome then .status 5
  else if !(type == 2 || type == 3 || type == 4 || type == 6) then .status 4
  else if (s.pushParent image).any (fun i => decide ((s.scope i).remote.length ≥ 16)) then .status 7
  else if s.isHere node then s.pushAt queue image (some ctx) (fun _ x => x.ctx == ctx)
  else .far node

/-- A TASKS push of an operation holds a place on its parent's remote list (R401). A parent that is CANCELLING already sends
the peer no message and starts no time for it (log 88). -/
def Prog.holdPlace (id node : Nat) (image : List W64) : Prog :=
  .look fun s => match s.pushParent image with
    | none => .skip
    | some i =>
      .seq (.scope i (fun e => { e with remote := e.remote ++ [{ id, node, handle := unitAt image 1 }] })) (.addWork i 1)

/-- A push has its result word. -/
def Prog.pushResult (id d status off : Nat) : Prog :=
  .op id (fun o => { o with kind := .values [(d, pushWord status off)] [] 0 })

/-- QPUSH performs (R401). Where a page of the ring is absent it waits for firmware's reply; a page that the reply denies
answers DENIED (log 92). The event of a queue that is mapped to no slot has a free slot number (log 34). -/
def Prog.performPush (o : Op) (d : Nat) (handle : W64) (image : List W64) (denied : Bool) : Prog :=
  .look fun s =>
    match s.pushOutcome (s.ctxOf o.agent) handle image with
    | .status n => .pushResult o.id d n 0
    | .denied i =>
      .seq (.slotEvent i (s.slot i).ctx 5 0 0 (s.node.zeroExtend 64) false) (.pushResult o.id d 2 0)
    | .barred owner =>
      .all [.slotEvent (Config.freeNat s.freeCtr 9910 owner % 512) owner 5 0 0 (s.node.zeroExtend 64) false,
        .act .free, .pushResult o.id d 2 0]
    | .absent i va level =>
      let die := slotDie i
      let ctx := (s.slot i).ctx
      if denied then .pushResult o.id d 2 0
      else .seq (.dieFault die ctx va 1 level)
        (.op o.id (fun x => { x with kind := .qpush d handle image (some (die, s.faultSerialFor die ctx va)) false }))
    | .place i pad off => .all [.holdPlace o.id 0x1FF image, .push i pad off image, .pushResult o.id d 0 off]
    | .far node =>
      .seq (.op o.id (fun x => { x with kind := .push d node s.t (s.pushParent image) })) (.holdPlace o.id node image)

/-- The crew of an operation's agent: its launch and its ordinal. -/
def State.opCrew (s : State) (k : Nat) : Option (Nat × Launch × Nat) :=
  match s.crewOf k with
  | none => none
  | some c => (s.launch? c.launch).map (fun l => (c.launch, l, c.ordinal))

/-- A push of a recorded launch leaves its result word in the trace (R296). -/
def Prog.tracePush (o : Op) (w : W64) : Prog :=
  .look fun s =>
    match s.opCrew o.agent with
    | none => .skip
    | some (id, _, ord) => .traceRec id (dieOf o.agent) (crewRec 6 ord 0 w)

/-! Replies of peers. -/

/-- A remote QPUSH has its status (R401). -/
def Prog.pushDone (o : Op) (status off : Nat) : Prog :=
  match o.kind with
  | .push d _ _ scope =>
    .all [.op o.id (fun x => { x with kind := .values [(d, pushWord status off)] [] 0 }), .pushPlace o.id scope status,
      .tracePush o (pushWord status off)]
  | _ => .skip

/-- Whether 100 µs have gone by (R316). -/
def State.late100 (s : State) (since : Nat) : Bool := decide (since + 100 * Config.usec ≤ s.t)

/-- REMOTE_REPLY (R303, R200, R401): data, an acknowledgement or a NACK of a peer. A node without a route left does not
answer (14 R314), and what comes after 100 µs is not taken (R316). -/
def remoteReply (id : Nat) (nack : Bool) (data : List Byte) : Prog :=
  .look fun s =>
    if !s.powered then .skip
    else match s.req? id with
      | some r =>
        (match r.place with
         | .node n =>
           if r.stage = .sent && s.reachable n && !s.late100 r.sentAt then .farSettle r nack false data else .skip
         | _ => .skip)
      | none =>
        match s.op? id with
        | some o =>
          let w := leNat data
          (match o.kind with
           | .push _ n since _ => .when (s.reachable n && !s.late100 since) (.pushDone o (if nack then 2 else w % 8) (w / 2 ^ 32 % 2 ^ 32))
           | _ => .skip)
        | none => .skip

/-- REMOTE_TIMEOUT (R316, R401). -/
def remoteTimeout (id : Nat) : Prog :=
  .look fun s =>
    if !s.powered then .skip
    else match s.req? id with
      | some r =>
        (match r.place with
         | .node _ => if r.stage = .sent && s.late100 r.sentAt then .farSettle r true true [] else .skip
         | _ => .skip)
      | none =>
        match s.op? id with
        | some o => (match o.kind with
          | .push _ _ since _ => if s.late100 since then .pushDone o 6 0 else .skip
          | _ => .skip)
        | none => .skip

/-- REMOTE_REQUEST (R315, R316, R282). A request of a node, one of the 384 of a domain (01 R20), comes after the node's earlier ones that wait (log 94). -/
def remoteRequest (node : Nat) (r : PeerRequest) : Prog :=
  .look fun s => .when (s.powered && decide (node < 384)) (.seq
    (.upd (fun s => { s with heldPeers := s.heldPeers ++ [{ node, req := r, wait := none }] }))
    (.servePeers (s.heldPeers.length + 1)))

/-- QPUSH (R401). -/
def execQpush (f : Fields) (s : State) : Host.Outcome State Fault Refusal := perform (.qpush f) qpushMeaning s

/-- REMOTE_REPLY (R303). -/
def execRemoteReply (req : Nat) (nack : Bool) (data : List Byte) (s : State) : Host.Outcome State Fault Refusal :=
  done (remoteReply req nack data) s

/-- REMOTE_TIMEOUT (R316). -/
def execRemoteTimeout (req : Nat) (s : State) : Host.Outcome State Fault Refusal := done (remoteTimeout req) s

/-- REMOTE_REQUEST (R315). -/
def execRemoteRequest (node : Nat) (r : PeerRequest) (s : State) : Host.Outcome State Fault Refusal :=
  done (remoteRequest node r) s

end Sys2Proof.Machine
end

