-- ==== Sys2Proof/Machine/IssueSteps.lean ====
section
/-!
DEFINITION. The steps of issue: tokens (04 R90, R91), STALL counts (R89), runs (02 R46), ageing (12 R294), results of
variable latency (04 R91, 22 R401, R417), landings (02 R48, 03 R71) and encodings that name no instruction (05 R117).
-/

namespace Sys2Proof.Machine

/-- TOKEN_RELEASE (R90, R91): a fixed-latency token is due. -/
def tokenRelease (k token : Nat) : Prog :=
  .look fun s =>
    match (s.agent k).timers.find? (fun e => e.1 == token && decide (e.2 ≤ s.t)) with
    | none => .skip
    | some e => .when s.powered (.agent k (fun a => { a.untok token s.t with timers := a.timers.erase e }))

/-- STALL_ELAPSED (R89). -/
def stallElapsed (k : Nat) : Prog :=
  .look fun s =>
    let a := s.agent k
    .when (s.powered && a.stalled && decide (a.stallEnd ≤ s.t)) (.agent k (fun a => { a with
      stalled := false
      eligibleSince := s.t
      recent := a.recent.filter (fun r => decide (s.t < r.due)) }))

/-- RUN_END (R46): the 24th packet, or 64 STALL clocks. -/
def runEnd (k : Nat) : Prog :=
  .look fun s =>
    let a := s.agent k
    .when (s.powered && a.live && a.runOpen && (decide (a.runPackets ≥ 24) || decide (a.runStalls ≥ 64))) (.endRun k)

/-- The base priority of an agent's launch. -/
def State.basePrio (s : State) (k : Nat) : Nat := ((s.launchOf k).map Launch.prio).getD 0

/-- The time since which an agent has been eligible but for its port (R28, R294): none where it is not. -/
def State.eligibleFrom (s : State) (k : Nat) : Option Nat :=
  let a := s.agent k
  if !(s.powered && a.live && !a.stalled && !s.onFenced k && a.landing.isNone && a.stMask (· == .waiting) == 0) then none
  else match s.packetPc k with
    | some pc => if s.tokensOk k pc then some (max a.eligibleSince (s.tokensSince k pc)) else none
    | none => none

/-- BAND_PRIORITY_AGEING (R294): another complete 64 µs of an eligible band without an issue. -/
def bandPriorityAgeing (k : Nat) : Prog :=
  .look fun s =>
    match s.eligibleFrom k with
    | none => .skip
    | some t0 =>
      .when (decide (t0 + ((s.agent k).ageSteps + 1) * 64 * Config.usec ≤ s.t) && decide ((s.agent k).ageSteps < s.basePrio k))
        (.agent k (fun a => { a with ageSteps := a.ageSteps + 1 }))

/-! Results. -/

/-- Write the values of an operation and release its token (R91). -/
def Prog.writeValues (o : Op) (ss : List (Nat × W64)) (vs : List (Nat × VReg)) (flags : BitVec 5) : Prog :=
  .look fun s =>
    .all [
      .dropOp o.id,
      .agent o.agent (fun a =>
        let a := ss.foldl (fun a e => s.lateS e.1 e.2 (o.clash.contains (.s e.1)) a) a
        let a := vs.foldl (fun a e => s.lateV e.1 e.2 o.lanes o.covers (o.clash.contains (.v e.1)) a) a
        let a := a.addFlags flags
        match o.tok with
        | some t => a.untok t s.t
        | none => a),
      .lateResult o.agent,
      .act .free,
      .when (o.commit && (s.agent o.agent).liveMask == 0) (.checkCrew (s.agent o.agent).crew)]

/-- SPAWN performs (R417): its status is computed, REFUSED where its issuer holds no task, or follows the trace (R296). -/
def Prog.performSpawn (o : Op) (d : Nat) (handle : Option W64) (body : List W64) (bind : Option Nat) : Prog :=
  .look fun s =>
    match s.opCrew o.agent with
    | none => .dropOp o.id
    | some (id, l, ord) =>
      let core := coreOf o.agent
      let die := coreDie core
      let h := handle.getD (s.handle ((s.taskScope o.agent).getD 0))
      let traced := if l.replay then (l.nextRec die 1 ord).map (fun r => r.count.toNat % 256) else none
      if l.replay && traced.isNone && l.moreRecs die 1 ord then .skip else
      let status := traced.getD (if s.holdsTask o.agent then s.spawnStatus l core h bind else 5)
      .gated id die (.all [
        .spawnEffect id core h body bind status,
        .traceRec id die (crewRec 5 ord 0 (BitVec.ofNat 64 status)),
        .when traced.isSome (.consume id die),
        .op o.id (fun x => { x with kind := .values [(d, BitVec.ofNat 64 status)] [] 0 })])

/-- QPUSH performs (R401), or follows the trace when its record is the next (R296, R402): a traced OK is placed once its ring
is mapped and has room. -/
def Prog.qpushStep (o : Op) (d : Nat) (handle : W64) (image : List W64) (denied : Bool) : Prog :=
  .look fun s =>
    match s.opCrew o.agent with
    | none => .dropOp o.id
    | some (id, l, ord) =>
      let die := dieOf o.agent
      if l.replay then
        match l.nextRec die 2 ord with
        | none => if l.moreRecs die 2 ord then .skip else .performPush o d handle image denied
        | some r =>
          let follow := Prog.seq (.consume id die) (.op o.id (fun x => { x with kind := .values [(d, r.count)] [] 0 }))
          if r.count.toNat % 256 ≠ 0 then follow
          else match s.pushOutcome (s.ctxOf o.agent) handle image with
            | .status n => if n = 1 ∨ n = 3 then .skip else follow
            | .absent .. => if denied then follow else .performPush o d handle image denied
            | _ => .seq (.performPush o d handle image denied) follow
      else .gated id die (.performPush o d handle image denied)

/-- VARIABLE_LATENCY_RESULT (R90, R91): the result of an operation whose values are known is written; a scratchpad access
performs in its agent's order (R191); a SPAWN or a QPUSH performs once its agent meets FENCE.DEV's condition (R194); an operation without a request to wait for ends. -/
def variableLatencyResult (id : Nat) : Prog :=
  .look fun s =>
    match s.op? id with
    | none => .skip
    | some o =>
      if !s.powered then .skip
      else match o.kind with
        | .values ss vs flags => .writeValues o ss vs flags
        | .spawn d handle body bind => .when (s.devFence o.agent o.id) (.performSpawn o d handle body bind)
        | .qpush d handle image wait denied =>
          .when (wait.isNone && s.devFence o.agent o.id) (.seq (.qpushStep o d handle image denied) (.look fun s =>
            match (s.op? id).map Op.kind with
            | some (.values [(_, w)] _ _) => .tracePush o w
            | _ => .skip))
        | .lds .. | .sts _ | .atoms .. => .when (s.padDone o.agent o.id) (.performPad o)
        | .cwait .. | .carve .. | .scwait .. | .push .. => .skip
        | _ => .finishOp id

/-! Landings. -/

/-- Whether what was issued has met its fate before a control context lands (R71, R302): the engine commands of cancelled
scopes; where its task was aborted, every engine command, and the stores and atomics of the crew. -/
def State.cmdsMet (s : State) (k : Nat) (why : Reason) : Bool :=
  let cx := unitOf k - 64
  let c := s.core (coreOf k)
  (s.agent k).kind != .ctl ||
    (((c.queue false cx) ++ (c.queue true cx)).all (fun x => why != .fault && !s.inCancelled x.scope) &&
      (why != .fault || s.reqs.all (fun r => (s.agent r.agent).crew != (s.agent k).crew || (s.agents.find r.agent).isNone ||
        (r.access != .store && r.access != .atomic)) &&
        s.ops.all (fun o => (s.agent o.agent).crew != (s.agent k).crew || !o.kind.padStores)))

/-- CREW_LANDING (R48, R71): a participant at its kill point lands. -/
def crewLanding (k : Nat) : Prog :=
  .look fun s =>
    let a := s.agent k
    match a.landing with
    | none => .skip
    | some why =>
      if !s.powered || a.runOpen || s.owes k || !s.cmdsMet k why then .skip
      else .seq (.land k why) (.checkCrew a.crew)

/-! Encodings without an instruction. -/

/-- An encoding that names no instruction traps (R117, R120): LEN 00, then the fetch block, then the opcode. It waits for no token
that its WAIT and SET fields may name (log 114). -/
def unassignedEncoding (w : W64) : Prog :=
  .look fun s =>
    match s.issuePc with
    | none => .skip
    | some pc =>
      let k := s.cur
      let lanes := (s.agent k).packetAt pc
      let len := w.toNat % 4
      let (code, ta) : Nat × W64 :=
        if len = 0 then (1, 1)
        else if pc.toNat % 4 ≠ 0 || pc.toNat % 32 + (4 + 4 * len) > 32 then (2, pc)
        else (1, 2)
      if lanes = 0 || !s.mayIssue k then .skip
      else .trapThreads k lanes code pc (BitVec.ofNat 64 (lenBytes (w.extractLsb' 0 2))) ta (w.getLsbD 2)

/-- TOKEN_RELEASE (R91). -/
def execTokenRelease (agent token : Nat) (s : State) : Host.Outcome State Fault Refusal := done (tokenRelease agent token) s

/-- STALL_ELAPSED (R89). -/
def execStallElapsed (agent : Nat) (s : State) : Host.Outcome State Fault Refusal := done (stallElapsed agent) s

/-- RUN_END (R46). -/
def execRunEnd (agent : Nat) (s : State) : Host.Outcome State Fault Refusal := done (runEnd agent) s

/-- BAND_PRIORITY_AGEING (R294). -/
def execBandPriorityAgeing (agent : Nat) (s : State) : Host.Outcome State Fault Refusal := done (bandPriorityAgeing agent) s

/-- VARIABLE_LATENCY_RESULT (R91). -/
def execVariableLatencyResult (op : Nat) (s : State) : Host.Outcome State Fault Refusal := done (variableLatencyResult op) s

/-- CREW_LANDING (R71). -/
def execCrewLanding (agent : Nat) (s : State) : Host.Outcome State Fault Refusal := done (crewLanding agent) s

/-- UNASSIGNED_ENCODING (R117). -/
def execUnassignedEncoding (w : W64) (s : State) : Host.Outcome State Fault Refusal := done (unassignedEncoding w) s

end Sys2Proof.Machine
end

