-- ==== Sys2Proof/Machine/Indir.lean ====
section
/-!
DEFINITION. The indirection tables of the GDDR7 controllers (07 R174, R175): the entries, the device pieces, and what a
write of an entry does to the bytes that its frame reads as. The one memory holds each frame with the bytes of the pieces
that its entries name; a piece that no entry names is kept beside it.
-/

namespace Sys2Proof.Machine

/-- The key of a controller's entry for a frame, or of its piece with a number. -/
def indirKey (die ctrl n : Nat) : Nat := die * 2 ^ 21 + ctrl * 2 ^ 16 + n

/-- An entry of a controller's indirection table (R174, R422): each frame's own piece until firmware writes another (log 4). -/
def State.indirOf (s : State) (die ctrl frame : Nat) : W64 :=
  s.indir.get (indirKey die ctrl frame) (BitVec.ofNat 64 (frame + 2 ^ 16 * frame))

/-- The current and the new piece of an entry, and whether it is copying (R422). -/
def indirPiece (e : W64) : Nat := bitsOf e.toNat 15 0
def indirNew (e : W64) : Nat := bitsOf e.toNat 31 16
def indirCopying (e : W64) : Bool := bitsOf e.toNat 33 32 == 1

/-- The device piece that a physical address is served by (R160, R174): die, controller and piece. -/
def State.pieceOf (s : State) (pa : Nat) : Nat × Nat × Nat :=
  let die := homeDie pa
  let ctrl := bitsOf pa 12 8 ^^^ bitsOf pa 25 21
  (die, ctrl, indirPiece (s.indirOf die ctrl (bitsOf pa 36 21)))

/-- Whether an address of device memory lies in a frame's piece of a controller (R160). -/
def inPiece (die ctrl frame a : Nat) : Bool :=
  decide (a / 2 ^ 21 = die * 2 ^ 16 + frame) && bitsOf a 12 8 == (ctrl ^^^ frame % 32)

/-- The 256-byte parts of a frame's piece of a controller, by their first addresses (R160). -/
def pieceParts (die ctrl frame : Nat) : List Nat :=
  (List.range 256).map (fun j => (die * 2 ^ 16 + frame) * 2 ^ 21 + 8192 * j + 256 * (ctrl ^^^ frame % 32))

/-- What a frame's piece of a controller holds: its bytes and its poisoned sectors, by their place in the frame. -/
def State.pieceNow (s : State) (die ctrl frame : Nat) : DevPiece :=
  { cells := (s.mem.filter (fun c => inPiece die ctrl frame c.1)).map (fun c => (c.1 % 2 ^ 21 - 256 * (ctrl ^^^ frame % 32), c.2))
    poison := (s.poison.filter (fun x => inPiece die ctrl frame (32 * x))).map (fun x => 32 * x % 2 ^ 21 - 256 * (ctrl ^^^ frame % 32)) }

/-- A frame's piece of a controller reads as a device piece that stood aside. -/
def Prog.usePiece (die ctrl frame : Nat) (p : DevPiece) : Prog :=
  let base := (die * 2 ^ 16 + frame) * 2 ^ 21 + 256 * (ctrl ^^^ frame % 32)
  .all [
    .each (pieceParts die ctrl frame) (fun a => .act (.clear a (a + 256))),
    .each (p.cells.filter (fun c => inPiece die ctrl frame (base + c.1))) (fun c => .bytes (base + c.1) [c.2]),
    .upd (fun s => { s with
      poison := s.poison.filter (fun x => !inPiece die ctrl frame (32 * x)) ++ p.poison.map (fun o => (base + o) / 32) })]

/-- Write an entry (R174, R175, R422). While it copies, every write goes to both pieces and the old piece is copied to the
new one: when the copying ends, by the flip or without it, the piece that is left holds the same bytes and poison as the
piece that stays (log 41). A flip that no copying has prepared leaves the old piece as it is, and the frame reads as the new
piece stands. -/
def Prog.setIndir (die ctrl frame : Nat) (value : W64) : Prog :=
  .look fun s =>
    let old := s.indirOf die ctrl frame
    let now := s.pieceNow die ctrl frame
    let copied := indirCopying old && !(indirCopying value && indirNew value == indirNew old)
    .all [
      .upd (fun s => { s with indir := s.indir.put (indirKey die ctrl frame) value }),
      .when copied (.upd (fun s => { s with pieces := s.pieces.put (indirKey die ctrl (indirNew old)) now })),
      .when (indirPiece value != indirPiece old) (.look fun s => .seq
        (.when (!(copied && indirNew old == indirPiece value))
          (.usePiece die ctrl frame (s.pieces.get (indirKey die ctrl (indirPiece value)) {})))
        (.upd (fun s => { s with
          pieces := (s.pieces.put (indirKey die ctrl (indirPiece old)) now).drop (indirKey die ctrl (indirPiece value)) })))]

end Sys2Proof.Machine
end

