-- ==== Sys2Proof/Machine/Replies.lean ====
section
/-!
DEFINITION. Firmware's replies to fault records (07 R172, R173): RESOLVED (1), DENIED (2) and ABSENT (3) as they reach
threads, engine commands (09 R219), queue slots and pushes (12 R463), requests of peers (14 R315), acknowledgement records (03 R72) and traces (12 R464).
-/

namespace Sys2Proof.Machine

/-- The outstanding record of a die with a serial. -/
def State.faultNamed (s : State) (die serial : Nat) : Option FaultRec :=
  (s.faults ++ s.cores.flatMap (fun c => c.2.heldRecs)).find? (fun r => r.die == die && r.serial == serial)

/-- The oldest record of a die that a core holds for want of room (R172). -/
def State.oldestHeld (s : State) (die : Nat) : Option FaultRec :=
  (s.cores.flatMap (fun c => c.2.heldRecs)).foldl (fun m r =>
    if r.die != die then m
    else match m with
      | some o => if r.time < o.time then some r else m
      | none => some r) none

/-- A record leaves the queue or the core that holds it, and the oldest record held takes the room (R172). -/
def Prog.dropFault (r : FaultRec) : Prog :=
  let drop := fun (r : FaultRec) (s : State) => { s with
    faults := s.faults.filter (· != r)
    cores := s.cores.map (fun c => (c.1, { c.2 with heldRecs := c.2.heldRecs.filter (· != r) })) }
  .seq (.upd (drop r))
    (.upd (fun s => match s.oldestHeld r.die with
      | some o => if s.queued r.die < 4096 then { drop o s with faults := (drop o s).faults ++ [o] } else s
      | none => s))

/-- The lanes of an agent that wait for a record. -/
def Agent.waitingFor (a : Agent) (die serial : Nat) : W32 :=
  a.stMask (fun t => match t with
    | .parked d n _ => d == die && n == serial
    | _ => false)

/-- The address at which a thread parked. -/
def Agent.parkedVa (a : Agent) (l : Nat) : W64 :=
  match (a.thread l).st with
  | .parked _ _ va => va
  | _ => 0

/-- The parked threads of an agent rejoin (R173): READY, or a precise trap for the threads of each instruction, least PC
first. A band that had no packet to issue, for want of ready threads or under R34, is eligible from now on (12 R294). -/
def Prog.rejoin (k die serial kind : Nat) : Prog :=
  .look fun s =>
    let a := s.agent k
    let m := a.waitingFor die serial
    if m = 0 || !a.live || a.landing.isSome then .skip
    else if kind = 1 then
      .agent k (fun b => { b.mapThreads m (fun _ t => { t with st := .ready }) with
        eligibleSince := if (s.packetPc k).isNone then s.t else b.eligibleSince })
    else
      let code := if kind = 2 then 0x09 else 0x08
      let pcs := (lanesOf m).foldl (fun ps l => insertPc (a.thread l).pc ps) []
      .each pcs (fun pc => .look fun s =>
        let a := s.agent k
        let here := (lanesOf (a.waitingFor die serial)).filter (fun l => (a.thread l).pc == pc)
        .when (here != [])
          (.trap k (here.foldl (fun m l => m ||| (1#32 <<< l)) 0) code pc (s.lengthAt k pc) (a.parkedVa (here.headD 0))))

/-- An engine command that waits for a record goes on, or ends with FAULT; a RESAMPLE gives the pixel's pages up (R219, 11
R272). -/
def Prog.replyCmd (core cx kind : Nat) (r : FaultRec) (c : Cmd) : Prog :=
  if kind = 1 then .cmd core false cx c.id (fun q => { q with wait := none })
  else match c.kind with
    | .resample => .cmd core false cx c.id (fun q => { q with wait := none, denied := q.denied ++ [pageOf r.va] })
    | _ => .seq (.cmd core false cx c.id (fun q => { q with wait := none })) (.stopCmd core cx c 4)

/-- A reply to the outstanding record of a die with a serial; one that names none is ignored (R173, 22 R422). -/
def Prog.fReply (die serial kind : Nat) : Prog :=
  .look fun s =>
    match s.faultNamed die serial with
    | none => .skip
    | some r =>
      let mine : Option (Nat × Nat) := some (die, serial)
      .all [
        .dropFault r,
        .when (kind == 1) (.ownPage r.ctx (pageOf r.va)),
        .each (s.agents.map Prod.fst) (fun k => .rejoin k die serial kind),
        .each s.cores (fun (c : Nat × Core) => .each c.2.copyQ (fun (q : Nat × List Cmd) =>
          .each (q.2.filter (fun x => x.wait == mine)) (fun x => .replyCmd c.1 q.1 kind r x))),
        .each (s.slots.filter (fun x => x.2.wait == mine)) (fun (x : Nat × Slot) => .slot x.1 (fun y => { y with
          wait := none, state := .running, since := s.t, ageSteps := 0
          denied := if kind = 1 then y.denied else y.denied ++ [pageOf r.va] })),
        .upd (fun s => { s with opens := s.opens.map (fun (e : Nat × List OpenPacket) => (e.1, e.2.map (fun o =>
          if o.wait = mine then { o with wait := none, denied := kind != 1 } else o))) }),
        .upd (fun s => { s with ops := s.ops.map (fun o => match o.kind with
          | .qpush d h i w _ => if w = mine then { o with kind := .qpush d h i none (kind != 1) } else o
          | _ => o) }),
        .replyPeers die serial kind,
        .each (s.scopes.filter (fun x => x.2.ackWait == mine)) (fun (x : Nat × Scope) =>
          if kind = 1 then .scope x.1 (fun e => { e with ackWait := none }) else .seq (.ackFail x.1) (.fireDecs 64)),
        .each (s.launches.filter (fun x => x.2.traceWait.find die == some serial)) (fun (x : Nat × Launch) =>
          .seq (.launch x.1 (fun l => { l with traceWait := l.traceWait.drop die }))
            (if kind = 1 then .traceFlush x.1 die (x.2.traceHeld.get die []).length else .traceFail x.1 die))]

end Sys2Proof.Machine
end

