-- ==== Sys2Proof/Machine/Swrite.lean ====
section
/-!
DEFINITION. SWRITE (22 R422): the privileged writes of control registers, each by the partition that owns its target (13
R298, 15 R324).
-/

namespace Sys2Proof.Machine

/-- The core that an index names, on the issuer's die. -/
def swCore (k : Nat) (b : W64) : Nat := 128 * dieOf k + bitsOf b.toNat 6 0

/-- The band slot that an index names. -/
def swBand (k : Nat) (b : W64) : Nat := agentAt (swCore k b) (bitsOf b.toNat 13 8)

/-- The control context that an index names. -/
def swCtl (k : Nat) (b : W64) : Nat := agentAt (swCore k b) (64 + bitsOf b.toNat 18 16)

/-- The tile-table entry that an index names. -/
def swTile (b : W64) : Nat := bitsOf b.toNat 15 8

/-- The partition for which an agent writes (R422). -/
def swActor (p : Pkt) : Nat := if p.kind = .fw then unitOf p.k else 1

/-- An SWRITE (R422): its target code, the number of bits of its value's field, the partition that owns the target where
one does, what else is ILLEGAL of its index and value, and the write, which performs at issue. -/
def swriteMeaning (code width : Nat) (owner : Option Nat) (bad : W64 → W64 → Bool)
    (q : Nat → W64 → W64 → State → Prog) : Meaning where
  illegal := fun s p =>
    let a := s.readS p.k p.f.a.toNat
    let b := s.readS p.k p.f.b.toNat
    decide (a.toNat ≥ 2 ^ width) || bad b a
  reads := fun _ p => [.s p.f.a.toNat, .s p.f.b.toNat]
  body := fun s p =>
    if owner.isSome && owner != some (swActor p) then .trap 0x13 (BitVec.ofNat 64 code)
    else
      .go (.all [
        q p.k (s.readS p.k p.f.b.toNat) (s.readS p.k p.f.a.toNat) s,
        .when p.f.setEn (.addOp p (.values [] [] 0) p.act false)]) 0

/-- No further condition on index and value. -/
def swAny (_ _ : W64) : Bool := false

/-- An index that names no core. -/
def swNoCore (b _ : W64) : Bool := decide (bitsOf b.toNat 6 0 ≥ Config.cores)

/-- An index that names no core or no entry of the tile table. -/
def swNoTile (b a : W64) : Bool := swNoCore b a || decide (swTile b ≥ 128)

/-- The bits of a tile-table entry that hold a field, [63:0] (09 R208). -/
def tileLoMask : W64 := 0x001FFFFF001FFFFF

/-- The bits of a tile-table entry that hold a field, [127:64] (09 R208). -/
def tileHiMask : W64 := 0x0000FEF0FFFFFFFF

/-- A tile-table entry with its low half written (R422); reserved bits read zero. -/
def tileLo (old : BitVec 128) (v : W64) : BitVec 128 := (old.extractLsb' 64 64) ++ (v &&& tileLoMask)

/-- A tile-table entry with its high half written (R422): the state is written only as EMPTY or READY. -/
def tileHi (old : BitVec 128) (v : W64) : BitVec 128 :=
  let st := bitsOf v.toNat 47 46
  let w := v &&& tileHiMask
  let w := if st = 0 || st = 2 then w else (w &&& ~~~(3#64 <<< 46)) ||| (old.extractLsb' 64 64 &&& (3#64 <<< 46))
  w ++ old.extractLsb' 0 64

/-- Change a tile-table entry of a core. -/
def Prog.swTileEntry (k : Nat) (b : W64) (f : BitVec 128 → BitVec 128) : Prog :=
  .core (swCore k b) (fun c => { c with tiles := c.tiles.put (swTile b) (f (c.tiles.get (swTile b) 0)) })

/-- Carve a die's Pewter (07 R161, R162): its contents become zero. -/
def Prog.carvePewter (die ways : Nat) : Prog :=
  let lo := Space.pewter + die * 2 ^ 37
  let hi := lo + 2 ^ 30
  .look fun s => .when (s.pewter.get die 0 != ways) (.all [
    .act (.clear lo hi),
    .upd (fun s => { s with
      pewter := s.pewter.put die ways
      poison := s.poison.filter (fun x => !(decide (lo ≤ 32 * x) && decide (32 * x < hi))) })])

/-! The rows of the opcode table. -/

/-- SWRITE SEED (R422, 04 R84). -/
def execSwriteSeed (f : Fields) (s : State) : Host.Outcome State Fault Refusal :=
  perform (.swriteSeed f) (swriteMeaning 0x00 32 (some 1) swNoCore
    (fun k b a _ => .agent (swBand k b) (fun x => { x with seed := a.extractLsb' 0 32 }))) s

/-- SWRITE CHECK (R422, 04 R96). -/
def execSwriteCheck (f : Fields) (s : State) : Host.Outcome State Fault Refusal :=
  perform (.swriteCheck f) (swriteMeaning 0x01 1 (some 1) swNoCore
    (fun k b a _ => .agent (swBand k b) (fun x => { x with check := a.getLsbD 0 }))) s

/-- SWRITE DET (R422, 13 R297). -/
def execSwriteDet (f : Fields) (s : State) : Host.Outcome State Fault Refusal :=
  perform (.swriteDet f) (swriteMeaning 0x02 1 (some 1) swNoCore
    (fun k b a _ => .agent (if b.getLsbD 20 then swCtl k b else swBand k b) (fun x => { x with det := a.getLsbD 0 }))) s

/-- SWRITE MONITOR (R422, 14 R323). -/
def execSwriteMonitor (f : Fields) (s : State) : Host.Outcome State Fault Refusal :=
  perform (.swriteMonitor f) (swriteMeaning 0x03 6 (some 1) swNoCore
    (fun k b a _ => .agent (swBand k b) (fun x => { x with monitor := a.extractLsb' 0 6 }))) s

/-- SWRITE PRIVCX (R422, 05 R119). -/
def execSwritePrivcx (f : Fields) (s : State) : Host.Outcome State Fault Refusal :=
  perform (.swritePrivcx f) (swriteMeaning 0x04 1 (some 1) swNoCore
    (fun k b a _ => .agent (swCtl k b) (fun x => { x with priv := a.getLsbD 0 }))) s

/-- SWRITE MQPRIO (R422, 09 R225). -/
def execSwriteMqprio (f : Fields) (s : State) : Host.Outcome State Fault Refusal :=
  perform (.swriteMqprio f) (swriteMeaning 0x05 3 (some 1) swNoCore
    (fun k b a _ => .agent (swCtl k b) (fun x => { x with mqprio := a.toNat }))) s

/-- SWRITE TILELO (R422, 09 R208). -/
def execSwriteTilelo (f : Fields) (s : State) : Host.Outcome State Fault Refusal :=
  perform (.swriteTilelo f) (swriteMeaning 0x06 64 (some 1) swNoTile
    (fun k b a _ => .swTileEntry k b (fun e => tileLo e a))) s

/-- SWRITE TILEHI (R422, 09 R208). -/
def execSwriteTilehi (f : Fields) (s : State) : Host.Outcome State Fault Refusal :=
  perform (.swriteTilehi f) (swriteMeaning 0x07 64 (some 1) swNoTile
    (fun k b a _ => .swTileEntry k b (fun e => tileHi e a))) s

/-- SWRITE FENCED (R422, 01 R23). -/
def execSwriteFenced (f : Fields) (s : State) : Host.Outcome State Fault Refusal :=
  perform (.swriteFenced f) (swriteMeaning 0x08 1 (some 1) swNoCore
    (fun k b a _ => .core (swCore k b) (fun c => { c with fenced := a.getLsbD 0 }))) s

/-- SWRITE FREPLY (R422, 07 R173). -/
def execSwriteFreply (f : Fields) (s : State) : Host.Outcome State Fault Refusal :=
  perform (.swriteFreply f) (swriteMeaning 0x09 34 (some 0) (fun _ a => bitsOf a.toNat 33 32 == 0)
    (fun k _ a _ => .fReply (dieOf k) (bitsOf a.toNat 31 0) (bitsOf a.toNat 33 32))) s

/-- SWRITE INDIR (R422, 07 R174, R175): an entry of a controller's indirection table. -/
def execSwriteIndir (f : Fields) (s : State) : Host.Outcome State Fault Refusal :=
  perform (.swriteIndir f) (swriteMeaning 0x0A 34 (some 0) (fun _ a => bitsOf a.toNat 33 32 ≥ 2)
    (fun k b a _ => .setIndir (dieOf k) (bitsOf b.toNat 4 0) (bitsOf b.toNat 31 16) a)) s

/-- SWRITE PEWTER (R422, 07 R161). -/
def execSwritePewter (f : Fields) (s : State) : Host.Outcome State Fault Refusal :=
  perform (.swritePewter f) (swriteMeaning 0x0B 4 (some 0) (fun _ a => decide (a.toNat > 8))
    (fun k _ a _ => .carvePewter (dieOf k) a.toNat)) s

/-- SWRITE ROUTE (R422, 14 R314). -/
def execSwriteRoute (f : Fields) (s : State) : Host.Outcome State Fault Refusal :=
  perform (.swriteRoute f) (swriteMeaning 0x0C 18 (some 2) swAny
    (fun _ b a _ => .upd (fun s => { s with routes := s.routes.put (bitsOf b.toNat 8 0) (a.extractLsb' 0 18) }))) s

/-- SWRITE NODE (R422). -/
def execSwriteNode (f : Fields) (s : State) : Host.Outcome State Fault Refusal :=
  perform (.swriteNode f) (swriteMeaning 0x0D 9 (some 2) (fun _ a => decide (a.toNat > 383))
    (fun _ _ a _ => .upd (fun s => { s with node := a.extractLsb' 0 9 }))) s

/-- SWRITE HBEAT (R422, 15 R329, R332): the issuer's own partition. -/
def execSwriteHbeat (f : Fields) (s : State) : Host.Outcome State Fault Refusal :=
  perform (.swriteHbeat f) (swriteMeaning 0x0E 64 none swAny
    (fun k _ a s => .heartbeat (dieOf k) (if (s.agent k).kind = .fw then unitOf k else 1) a)) s

end Sys2Proof.Machine
end

