-- ==== Sys2Proof/Machine/Platform.lean ====
section
/-!
DEFINITION. Power and telemetry (14 R317, R318), soft errors (R319 to R321), the monitors' interval and clearing (R322), the
links (R313, R314, 01 R23), power-on and power-off (01 R24, 07 R155), and host-visible registers (00 R4): what they read as
and their writes.
-/

namespace Sys2Proof.Machine

/-! Power (R317). -/

/-- SLEWLIM_WRITE (R317): STEP 0 and 41 to 63 are ignored; the budget held is kept. -/
def slewlimWrite (die : Nat) (value : W64) : Prog :=
  .look fun s =>
    let step := bitsOf value.toNat 5 0
    .when (s.powered && decide (die < 2) && decide (1 ≤ step) && decide (step ≤ 40))
      (.powerOf die (fun p => { p with step, budget := s.budget die, budgetAt := s.t }))

/-- CURRENT_SAMPLE (R318): every 1 µs; what the sensor reads is a free value, in mA, of at most 2,000 A (01 R22, log 50). -/
def currentSample (die : Nat) : Prog :=
  .look fun s =>
    let p := s.powerOf die
    .when (s.powered && decide (die < 2) && decide (p.lastSample + Config.usec ≤ s.t))
      (.seq
        (.powerOf die (fun p => { p with
          samples := p.samples ++ [Config.freeNat s.freeCtr 9980 die % 2000001]
          missed := p.missed || decide (p.lastSample + 2 * Config.usec ≤ s.t)
          lastSample := p.lastSample + Config.usec }))
        (.act .free))

/-- The bins of a telemetry record (R318). -/
def histogram (samples : List Nat) : List Byte :=
  (List.range 16).flatMap (fun b => leBytes 2 (min 0xFFFF (samples.filter (fun v => min 15 (v / 125000) == b)).length))

/-- The 1,000 samples of an interval of 1 ms (R318). -/
def Power.interval (p : Power) : List Nat := p.samples.take 1000

/-- The mean power of a die in an interval, in mW (R318): the two dies' powers are a free split of the module's, which is at
most 2,000 W (01 R22, log 50). -/
def diePower (time die : Nat) : Nat :=
  let all := Config.freeNat time 9988 0 % 2000001
  let share := Config.freeNat time 9989 0 % (all + 1)
  if die = 0 then share else all - share

/-- A telemetry record (R318): time, sequence number, flags, sensors, current. Sensors are free values within the limits of
01 R22: at least 0.40 V; so is the current of an interval without samples (log 50). -/
def telemetryBytes (die seq time : Nat) (p : Power) (sensor : Nat → Nat) : List Byte :=
  let xs := p.interval
  let n := xs.length
  let of := fun (i v : Nat) => if n = 0 then sensor i % 20001 else v
  let mean := if n = 0 then sensor 3 % 2000001 else xs.sum / n
  let least := of 4 ((xs.foldl min (xs.headD 0)) / 100)
  let most := of 5 ((xs.foldl max 0) / 100)
  leBytes 8 time ++ leBytes 4 seq ++ leBytes 1 die ++
    leBytes 1 (p.delayed.toNat + 2 * (p.missed || decide (n < 1000)).toNat) ++ leBytes 2 (sensor 0) ++
    leBytes 4 (diePower time die) ++ leBytes 4 mean ++ leBytes 2 (400 + sensor 2 % 65136) ++ leBytes 2 least ++
    leBytes 2 most ++ leBytes 2 0 ++ histogram xs

/-- The time at which a die's next sample, and its next record, is due (R318). -/
def Power.sampleAt (p : Power) : Nat := p.lastSample + Config.usec
def Power.recordAt (p : Power) : Nat := p.lastRecord + Config.msec

/-- Where a die's next telemetry record goes (R317, R318): none where the ring has no base. -/
def Power.ringAt (p : Power) : Option (Bool × Nat) :=
  let base := p.tlmBase.toNat / 4096 * 4096
  if base = 0 then none else some (p.tlmBase.getLsbD 0, base + 64 * (p.tlmSeq.toNat % 2 ^ p.tlmSize.toNat))

/-- Whether a die's telemetry record is due and can be written now: its line of device memory is open (R181). -/
def State.recordDue (s : State) (die : Nat) : Bool :=
  decide ((s.powerOf die).recordAt ≤ s.t) && match (s.powerOf die).ringAt with
    | some (false, a) => decide (Space.pewter ≤ a) || s.lineOpen (lineOf a)
    | _ => true

/-- TELEMETRY_RECORD (R318): every 1 ms, unless the ring has no base. Beyond device memory, or in a frame that is withheld (01 R23), nothing is written; a ring in host
memory takes the record as a posted store (log 18). -/
def telemetryRecord (die : Nat) : Prog :=
  .look fun s =>
    let p := s.powerOf die
    let seq := p.tlmSeq + 1
    let bs := telemetryBytes die seq.toNat (p.recordAt / Config.tick) p (fun i => Config.freeNat s.freeCtr (9981 + i) die)
    if !s.powered || die ≥ 2 || !s.recordDue die then .skip
    else
      .all [
        match p.ringAt with
        | none => .skip
        | some (true, a) =>
          .dieStoreLine (dieKey die 4) { place := .host, addr := a, lease := 0, r := true, w := true, x := false } (BitVec.ofNat 64 a) bs
        | some (false, a) => .when (decide (a < Space.pewter) && !s.withheld a) (.storeNow a bs),
        .powerOf die (fun p => { p with
          tlmSeq := if p.ringAt.isNone then p.tlmSeq else seq
          samples := p.samples.drop 1000, delayed := false, missed := false, lastRecord := p.recordAt }),
        .act .free]

/-! Monitors (R322). -/

/-- A ratio in Q0.16 (R322). -/
def ratio16 (a b : BitVec 48) : Nat := 65536 * a.toNat / b.toNat

/-- Whether an interval of 1 ms of a core has ended (R322). -/
def State.intervalOver (s : State) (core : Nat) : Bool := decide ((s.core core).intervalAt / Config.msec < s.t / Config.msec)

/-- MONITOR_INTERVAL (R322, 07 R177): every 1 ms, accuracy and timeliness over the interval; none for a zero divisor. -/
def monitorInterval (core : Nat) : Prog :=
  .look fun s =>
    let c := s.core core
    let issued := c.prefIssued - c.prefAt.1
    let used := c.prefUsed - c.prefAt.2.1
    let early := c.prefEarly - c.prefAt.2.2
    if !s.powered || core % 128 ≥ Config.cores || core ≥ 256 || !s.intervalOver core then .skip
    else
      .all [
        .when (issued != 0) (.sampleCore core 5 (ratio16 used issued)),
        .when (used != 0) (.sampleCore core 6 (ratio16 early used)),
        .core core (fun c => { c with prefAt := (c.prefIssued, c.prefUsed, c.prefEarly), intervalAt := s.t / Config.msec * Config.msec })]

/-- MONITOR_CLEAR (R322): the monitors of a core, by its key, or of die d as unit 256 + d. -/
def monitorClear (unit : Nat) : Prog :=
  .look fun s =>
    .when s.powered
      (if unit < 256 then .core unit (fun c => { c with monitors := [] })
       else .upd (fun s => { s with dieMonitors := s.dieMonitors.filter (fun e => e.1 / 8 != unit - 256) }))

/-! Soft errors (R319). -/

/-- The structures of R319, in the order of its table: GDDR7 0, L2 1, Pewter 2, L1 clean 3, L1 dirty 4, scratchpad 5,
register file 6, compact store 7, accumulator store 8, tile table 9, control core 10, page-table entry 11 (log 71). Of L1,
the place is the core's key times 2^40 plus the address; of a scratchpad its address in the one memory; of 6 to 10 the
key of an agent of the crew times 2^32 plus the offset in the structure; else the address. -/
def eccDie (site place : Nat) : Nat :=
  if site ≤ 2 || site = 11 then homeDie place
  else if site ≤ 4 then coreDie (place / 2 ^ 40)
  else if site = 5 then coreDie ((place - Space.scratch) / 2 ^ 21)
  else dieOf (place / 2 ^ 32)

/-- A sector leaves a line of L1 (R319); a line without sectors leaves it whole. -/
def Core.dropSector (c : Core) (a : Nat) : Core :=
  let cut := fun (l : L1Line) => if l.line = lineOf a then { l with sectors := l.sectors &&& ~~~(1#4 <<< (a / 32 % 4)) } else l
  { c with l1 := (c.l1.map cut).filter (fun l => l.sectors != 0) }

/-- The outcome of a lasting error (R319). -/
def Prog.eccLasting (site place : Nat) : Prog :=
  let poison := fun (a : Nat) => Prog.upd (fun s => { s with poison := if s.poison.contains (a / 32) then s.poison else (a / 32) :: s.poison })
  let sector := Prog.core (place / 2 ^ 40) (fun c => c.dropSector (place % 2 ^ 40))
  if site ≤ 2 || site = 5 || site = 11 then poison place
  else if site = 3 then sector
  else if site = 4 then .seq sector (poison (place % 2 ^ 40))
  else .look fun s => .seq (.abort (place / 2 ^ 32) 0 0x0A (s.free64 9990)) (.act .free)

/-- Whether a packet whose checks are passed is still to read a sector (R170). -/
def State.readAhead (s : State) (sec : Nat) : Bool :=
  let meets := fun (a n : Nat) => decide (a / 32 ≤ sec) && decide (32 * sec < a + n)
  s.reqs.any (fun r => usesSlots r.agent && r.place == .slice && (r.access == .load || r.access == .atomic) &&
      (r.unserved || r.stage == .arrived) && r.parts.any (fun p => meets p.addr p.len)) ||
    s.ops.any (fun o => o.kind.padReads.1.any (fun e => meets e.2 o.kind.padReads.2))

/-- Whether a lasting error would poison a sector that a packet whose checks are passed is still to read: the error is found
before such a packet's checks or after its read (log 86). -/
def State.eccWaits (s : State) (site place : Nat) : Bool :=
  if site ≤ 2 || site = 5 then s.readAhead (place / 32)
  else site == 4 && s.readAhead (place % 2 ^ 40 / 32)

/-- A corrected error of a structure is counted, and firmware logs it (R319). -/
def Prog.eccCorrected (site place : Nat) : Prog :=
  .upd (fun s =>
    let key := 16 * eccDie site place + site
    { s with
      correctable := s.correctable.put key (s.correctable.get key 0 + 1)
      errors := s.errors ++ [{ die := eccDie site place, site, place, lasting := false, corrected := true, time := s.ns }] })

/-- ECC_RETRY (R319, R321): the event is logged; a lasting error has its structure's outcome and tells the PF on vector 1. A
site of 16 more is a correctable error of the structure (log 71). -/
def eccRetry (site place : Nat) (ok : Bool) : Prog :=
  .look fun s =>
    if !s.powered || site % 16 > 11 || site ≥ 32 || (!ok && s.eccWaits site place) then .skip
    else if site ≥ 16 then .eccCorrected (site - 16) place
    else
      .all [
        .upd (fun s => { s with
          errors := s.errors ++ [{ die := eccDie site place, site, place, lasting := !ok, time := s.ns }]
          msi := if ok then s.msi else s.msi ++ [(0, 1)] }),
        .when (!ok) (.eccLasting site place)]

/-! Links. -/

/-- DIE_LINK_LANE_FAILURE (R313, 01 R23): the module runs at 32 lanes for the rest of the power cycle. -/
def dieLinkLaneFailure (link : Nat) : Prog :=
  .look fun s => .when (s.powered && decide (link < 24)) (.upd (fun s => { s with links := s.links.put link 32 }))

/-- TROPEX_PORT_FAILURE (R314): traffic moves to the routes that are left. -/
def tropexPortFailure (port : Nat) : Prog :=
  .look fun s => .when (s.powered && decide (port < 18) && !s.portsDown.contains port)
    (.upd (fun s => { s with portsDown := port :: s.portsDown }))

/-! Power cycles. -/

/-- POWER_ON (07 R155, 15 R326, R335): the state after reset. -/
def powerOn : Prog := .look fun s => .when (!s.powered) (.act .powerOn)

/-- POWER_OFF (01 R24): the module presents nothing. -/
def powerOff : Prog := .upd (fun s => { s with powered := false })

/-! Registers (R4, 13 R299). -/

/-- The function number that stands for firmware's own writes. -/
def fwFunction : Nat := 4096

/-- The function number that stands for the host's writes of the physical function's configuration space (R310, log 108). -/
def cfgFunction : Nat := 4097

/-- A write of configuration space (R310, log 108): at 0 the size of BAR2, log2 of its MiB from 256 MiB to 256 GiB; at 8 the
number of virtual functions. -/
def cfgWrite (offset : Nat) (value : W64) : Prog :=
  .upd (fun s =>
    let n := value.toNat
    { s with
      bar2 := if offset = 0 && 8 ≤ n && n ≤ 18 then 20 + n else s.bar2
      vfs := if offset = 8 && n ≤ 63 then n else s.vfs })

/-- Whether a function exists (01 R20, R310): the physical function 0, a virtual function that the host has enabled, or, with
number 4096, firmware. -/
def State.isFn (s : State) (fn : Nat) : Bool := decide (fn ≤ min s.vfs 63) || fn == fwFunction

/-- Whether a function sees a slot's registers (R310): a virtual function sees those of the slots of its contexts. -/
def Slot.seenBy (x : Slot) (fn : Nat) : Bool := fn == fwFunction || fn == 0 || (x.en && x.ctx == fn)

/-- A write of an event queue's register (R312); `fn` names the context whose function it is (log 51). Of a base that is not
4 KiB aligned the low 12 bits are dropped, by the model's choice (log 97). -/
def Prog.eventReg (fn offset : Nat) (value : W64) : Prog :=
  .upd (fun s =>
    let q := s.evq fn
    let lo : W32 := value.extractLsb' 0 32
    let q' : EvQueue := match offset with
      | 0x00 => if q.en then q else { q with base := value &&& ~~~0xFFF#64 }
      | 0x08 => if q.en then q else { q with size := value &&& 0x1F#64 }
      | 0x10 => { q with head := lo }
      | 0x20 => { q with en := value.getLsbD 0, vector := bitsOf value.toNat 4 1, every := value.getLsbD 5 }
      | 0x28 => { q with lost := q.lost &&& ~~~lo }
      | _ => q
    { s with evqs := s.evqs.put fn q' })

/-- A write of a slot's register (12 R278): the base, the size and the bitmap's address are PRIV. -/
def Prog.slotReg (fn i offset : Nat) (value : W64) : Prog :=
  .look fun s =>
    let x := s.slot i
    let fw := fn == fwFunction
    match offset with
    | 0x00 => .when fw (.slot i (fun x => { x with base := value }))
    | 0x08 => .when fw (.slot i (fun x => { x with size := value &&& 0x1F#64 }))
    | 0x18 => .when (x.seenBy fn) (qtailWrite i value)
    | 0x20 => .when fw (qctlWrite i value)
    | 0x28 => .when fw (.slot i (fun x => { x with acl := value }))
    | _ => .skip

/-- A write of a power register (R317). -/
def Prog.powerReg (die offset : Nat) (value : W64) : Prog :=
  match offset with
  | 0x00 => slewlimWrite die value
  | 0x08 => .powerOf die (fun p => { p with tlmBase := value &&& ~~~0xFFE#64 })
  | 0x10 => .powerOf die (fun p => { p with tlmSize := value &&& 0x1F#64 })
  | _ => .skip

/-- A write of a partition's register (15 R329, R330). Of an FWIMG that is not 4 KiB aligned the low 12 bits are dropped, by
the model's choice (log 97). -/
def Prog.fwReg (fn die part offset : Nat) (value : W64) : Prog :=
  match offset with
  | 0x10 => .part die part (fun p => { p with img := value &&& ~~~0xFFF#64 })
  | 0x18 =>
    let c := bitsOf value.toNat 1 0
    if c = 1 then fwcmdStage die part else if c = 2 then fwcmdReplace die part
    else if c = 3 then fwcmdDiscard die part else .fwBusy die part
  | 0x20 => .when (fn == fwFunction) (.heartbeat die part value)
  | _ => .skip

/-- The registers of a slot as they read (12 R278). -/
def Slot.register (x : Slot) (offset : Nat) : W64 :=
  match offset with
  | 0x00 => x.base
  | 0x08 => x.size
  | 0x10 => x.head.zeroExtend 64
  | 0x18 => x.tail.zeroExtend 64
  | 0x20 => x.qctl
  | 0x28 => x.acl
  | _ => 0

/-- The registers of an event queue as they read (R312). -/
def EvQueue.register (q : EvQueue) (offset : Nat) : W64 :=
  match offset with
  | 0x00 => q.base
  | 0x08 => q.size
  | 0x10 => q.head.zeroExtend 64
  | 0x18 => q.tail.zeroExtend 64
  | 0x20 => BitVec.ofNat 64 (q.en.toNat + 2 * q.vector + 32 * q.every.toNat)
  | 0x28 => q.lost.zeroExtend 64
  | _ => 0

/-- The power registers of a die as they read (R317). -/
def Power.register (p : Power) (offset : Nat) : W64 :=
  match offset with
  | 0x00 => BitVec.ofNat 64 p.step
  | 0x08 => p.tlmBase
  | 0x10 => p.tlmSize
  | 0x18 => p.tlmSeq.zeroExtend 64
  | _ => 0

/-- The phase of a replacement as FWSTAT gives it (15 R330). -/
def FwPhase.code : FwPhase → Nat
  | .idle => 0
  | .staging => 1
  | .staged => 2
  | .quiesce => 3
  | .exporting => 4
  | .switching => 5
  | .probation => 6

/-- The registers of a partition as they read (15 R329, R330); FWCMD reads as zero. -/
def Partition.register (p : Partition) (offset : Nat) : W64 :=
  match offset with
  | 0x00 => BitVec.ofNat 64 (2 ^ 12 * p.outcome + 2 ^ 8 * p.phase.code + p.slot)
  | 0x08 => ((p.staged.map Image.version).getD 0) ++ p.active.version
  | 0x10 => p.img
  | 0x20 => p.hbeat
  | _ => 0

/-- What a register of BAR0 reads as for a function (R4, R5, R299, R310): a register marked PRIV reads its value; reserved
bits, write-only registers and offsets without a register that the function sees read zero. -/
def State.readRegister (s : State) (fn offset : Nat) : W64 :=
  let pf := fn == 0 || fn == fwFunction
  if !s.powered || !s.isFn fn || offset % 8 ≠ 0 then 0
  else if 0x100000 ≤ offset && offset < 0x100000 + 64 * 512 then
    let x := s.slot ((offset - 0x100000) / 64)
    if x.seenBy fn then x.register (offset % 64) else 0
  else if 0x800 ≤ offset && offset < 0x830 && fn != fwFunction then (s.evq fn).register (offset - 0x800)
  else if 0x1000 ≤ offset && offset < 0x1080 && pf then (s.powerOf ((offset - 0x1000) / 0x40)).register (offset % 0x40)
  else if 0x2000 ≤ offset && offset < 0x2200 && pf then
    let o := offset % 0x100
    let die := (offset - 0x2000) / 0x100
    if o < 0xC0 then (s.part die (o / 0x40)).register (o % 0x40)
    else if o = 0xC0 then BitVec.ofNat 64 (s.fw die).leaseEnd
    else if o = 0xC8 then BitVec.ofNat 64 (s.fw die).leads.toNat
    else 0
  else 0

/-- REGISTER_WRITE (R4, R299): a write at an offset of BAR0 by a function, or of configuration space by the host (R310). Read-only registers and offsets without a register
take nothing. -/
def registerWrite (fn offset : Nat) (value : W64) : Prog :=
  .look fun s =>
    let pf := fn == 0 || fn == fwFunction
    if s.powered && fn == cfgFunction then cfgWrite offset value
    else if !s.powered || !s.isFn fn || offset % 8 ≠ 0 then .skip
    else if 0x100000 ≤ offset && offset < 0x100000 + 64 * 512 then
      .slotReg fn ((offset - 0x100000) / 64) (offset % 64) value
    else if 0x800 ≤ offset && offset < 0x830 && fn != fwFunction then .eventReg fn (offset - 0x800) value
    else if 0x1000 ≤ offset && offset < 0x1080 && pf then .powerReg ((offset - 0x1000) / 0x40) (offset % 0x40) value
    else if 0x2000 ≤ offset && offset < 0x2200 && pf then
      let o := offset % 0x100
      .when (decide (o < 0xC0)) (.fwReg fn ((offset - 0x2000) / 0x100) (o / 0x40) (o % 0x40) value)
    else .skip

/-! The rows of the opcode table. -/

/-- SLEWLIM_WRITE (R317). -/
def execSlewlimWrite (die : Nat) (value : W64) (s : State) : Host.Outcome State Fault Refusal := done (slewlimWrite die value) s

/-- TELEMETRY_RECORD (R318). -/
def execTelemetryRecord (die : Nat) (s : State) : Host.Outcome State Fault Refusal := done (telemetryRecord die) s

/-- CURRENT_SAMPLE (R318). -/
def execCurrentSample (die : Nat) (s : State) : Host.Outcome State Fault Refusal := done (currentSample die) s

/-- MONITOR_INTERVAL (R322). -/
def execMonitorInterval (core : Nat) (s : State) : Host.Outcome State Fault Refusal := done (monitorInterval core) s

/-- ECC_RETRY (R319). -/
def execEccRetry (site place : Nat) (ok : Bool) (s : State) : Host.Outcome State Fault Refusal := done (eccRetry site place ok) s

/-- DIE_LINK_LANE_FAILURE (R23). -/
def execDieLinkLaneFailure (link : Nat) (s : State) : Host.Outcome State Fault Refusal := done (dieLinkLaneFailure link) s

/-- TROPEX_PORT_FAILURE (R314). -/
def execTropexPortFailure (port : Nat) (s : State) : Host.Outcome State Fault Refusal := done (tropexPortFailure port) s

/-- POWER_ON (R155). -/
def execPowerOn (s : State) : Host.Outcome State Fault Refusal := done powerOn s

/-- REGISTER_WRITE (R4). -/
def execRegisterWrite (fn offset : Nat) (value : W64) (s : State) : Host.Outcome State Fault Refusal :=
  done (registerWrite fn offset value) s

/-- POWER_OFF (R24). -/
def execPowerOff (s : State) : Host.Outcome State Fault Refusal := done powerOff s

/-- MONITOR_CLEAR (R322). -/
def execMonitorClear (unit : Nat) (s : State) : Host.Outcome State Fault Refusal := done (monitorClear unit) s

end Sys2Proof.Machine
end

