-- ==== Sys2Proof/Machine/Ray.lean ====
section
/-!
DEFINITION. The ray instructions RTBOX, RTTRI, RTSTEP and RTHIT (10 R244 to R252) and LTWALK (11 R269, 21 R389).
-/

namespace Sys2Proof.Machine

/-- The ray words of every lane, from the group at a register. -/
def rayLanes (r : Regs) (base : Nat) : List (List W32) :=
  (List.range 32).map (fun l => (List.range 16).map (fun i => (r.v (base + i)).lane l))

/-- The ray words that RTBOX reads (R244). -/
def boxReads (f : Fields) : List Nat := ((List.range 11) ++ [15]).map (fun i => f.a.toNat + i)

/-- RTBOX (R244, R245): the lanes whose ray is not DONE read their node. -/
def rtboxMeaning : Meaning where
  reads := fun _ p => (boxReads p.f).map Reg.v ++ [.s p.f.b.toNat]
  writes := fun _ p => groupRegs p.f.d.toNat 7
  dests := fun s p =>
    let u := (boxReads p.f).all (fun n => (s.readV p.k n).uniform)
    (List.range 7).map (fun i => (p.f.d.toNat + i, !p.covers || !u))
  body := fun s p =>
    let r := s.regs p.k
    let rays := rayLanes r p.f.a.toNat
    let u := (boxReads p.f).all (fun n => (r.v n).uniform)
    let parts := ((lanesOf p.act).filter (fun l => rayAction (rayOf rays l 15) != 3)).map (fun l =>
      ({ lane := l, piece := 0, addr := 0, va := nodeAddr (r.s p.f.b.toNat) (rayOf rays l), len := 64 } : Part))
    s.access p 64 .load (.rtbox p.f.d.toNat rays u) false false 0 parts false false

/-- The registers that RTTRI reads (R249). -/
def triReads (f : Fields) : List Nat := (List.range 6).map (fun i => f.a.toNat + i) ++ [f.d.toNat + 5]

/-- RTTRI (R249): three loads of 16 bytes for each lane. -/
def rttriMeaning : Meaning where
  reads := fun _ p => (triReads p.f).map Reg.v ++ [.s p.f.b.toNat]
  writes := fun _ p => groupRegs p.f.d.toNat 5
  dests := fun s p =>
    let u := (triReads p.f).all (fun n => (s.readV p.k n).uniform)
    (List.range 5).map (fun i => (p.f.d.toNat + i, !p.covers || !u))
  body := fun s p =>
    let r := s.regs p.k
    let u := (triReads p.f).all (fun n => (r.v n).uniform)
    let at_ := fun (l : Nat) => r.s p.f.b.toNat + 48 * ((r.v (p.f.d.toNat + 5)).lane l).zeroExtend 64
    let parts := (lanesOf p.act).flatMap (fun l => (List.range 3).map (fun i =>
      ({ lane := l, piece := i, addr := 0, va := at_ l + BitVec.ofNat 64 (16 * i), len := 16 } : Part)))
    s.access p 16 .load (.rttri p.f.d.toNat (p.f.m 1 0) (rayLanes r p.f.a.toNat) u) false false 0 parts false false

/-- RTSTEP (R247). -/
def rtstepOut (x : VIn) : VOut :=
  let src := (List.range 7).map (fun i => x.r.v (x.f.a.toNat + i))
  let o := fun (l : Nat) => rayStep (fun i => (src.getD i .dead).lane l)
  let put := fun (n : Nat) (g : StepOut → W32) => (n, perLane src (fun l => g (o l)))
  { v := [put (x.d + 8) StepOut.node, put (x.d + 9) StepOut.trailLo, put (x.d + 10) StepOut.trailHi,
      put (x.d + 15) StepOut.w15, put x.f.b.toNat StepOut.leaf] }

/-- RTHIT (R251). -/
def rthitOut (x : VIn) : VOut :=
  let ray := fun (i : Nat) => x.r.v (x.d + i)
  let cand := fun (i : Nat) => x.r.v (x.f.a.toNat + i)
  let inst := if x.f.imm24 % 2 = 1 then x.c else cand 4
  let src := [ray 6, ray 7, ray 11, ray 12, ray 13, ray 14, ray 15, cand 0, cand 1, cand 2, cand 3, inst]
  let key := fun (a b : W32) => 2 ^ 32 * a.toNat + b.toNat
  let ok := fun (l : Nat) => hitAccepts ((cand 0).lane l) ((ray 6).lane l) ((ray 7).lane l)
    (key (inst.lane l) ((cand 3).lane l)) (key ((ray 11).lane l) ((ray 12).lane l))
  let put := fun (i : Nat) (g : Nat → W32) => (x.d + i, perLane src (fun l => if ok l then g l else (ray i).lane l))
  { v := [put 7 (cand 0).lane, put 11 inst.lane, put 12 (cand 3).lane, put 13 (cand 1).lane, put 14 (cand 2).lane,
      put 15 (fun l => (ray 15).lane l ||| 0x400)] }

/-! LTWALK (R268, R269). -/

/-- Absent accesses in the order of their lanes (R172). -/
def byLane (ps : List (Part × Nat)) : List (Part × Nat) :=
  (List.range 32).flatMap (fun l => ps.filter (fun e => e.1.lane == l))

/-- LTWALK (R269): it reads its nodes when it issues, those of host or peer memory having been sent for first (R303); the
pairs are loads of an operation in flight. -/
def ltwalkBody (s : State) (p : Pkt) : Body :=
  let r := s.regs p.k
  let ctx := s.ctxOf p.k
  let base := r.s p.f.b.toNat
  let walker := walkerOf r p.f
  let walking := (lanesOf p.act).filter (fun l => (walker l).light == 0xFFFFFFFF)
  let part := fun (l : Nat) (i : W32) (n : Nat) => ({ lane := l, piece := 0, addr := 0, va := lightAddr base i, len := n } : Part)
  let first := walking.map (fun l => part l (walker l).node 32)
  if s.slotFor p.k = .none then .wait
  else match (if base.toNat % 64 ≠ 0 then first.head? else none) with
  | some q => .fail 0x07 q.va (.forget p)
  | none =>
    match s.verdict p.k ctx 32 .load first with
    | .wait => .wait
    | .trap c ta => .fail c ta (.forget p)
    | .poison va absent => poisonBody p ctx .load va absent false
    | .go hits absent =>
      let far := s.unpeeked p.k hits
      if far != [] then accessBody p ctx .load (.peek false) false false 0 far absent true false
      else if s.fillAwaited p.k hits then .late (.touchLines p.k hits)
      else if !s.loadsDone p.k || !hits.all (fun e => s.readable { e.2 with addr := e.1.addr }) then .wait
      else
        let nodes := (List.range 32).map (fun l => ((hits.find? (fun e => e.1.lane == l)).map (s.readHit p.k)).getD [])
        let node := fun (l : Nat) => lightNode (nodes.getD l [])
        let inner := (hits.map (fun e => e.1.lane)).filter (fun l => !(node l).leaf)
        match inner.find? (fun l => (node l).index.getLsbD 0) with
        | some l => .fail 0x07 (lightAddr base (node l).index) (.forget p)
        | none =>
          match s.verdict p.k ctx 64 .load (inner.map (fun l => part l (node l).index 64)) with
          | .wait => .wait
          | .trap c ta =>
            if c = 0x0A && absent != [] then poisonBody p ctx .load ta absent false else .fail c ta (.forget p)
          | .poison va absent2 => poisonBody p ctx .load va (byLane (absent ++ absent2)) false
          | .go hits2 absent2 =>
            let mine := hits.filter (fun e => e.2.place == .slice)
            let kind := OpKind.walk p.f.d.toNat ((List.range 32).map (fun l => (walker l).words)) nodes (walkUniform r p.f)
            (accessBody p ctx .load kind false false 0 hits2 (byLane (absent ++ absent2)) false false
                ((lineGroups mine).map LineGroup.line)).after
              (.seq (.forget p) (.readMarks p.k ctx mine))

/-- LTWALK (R269, R389). -/
def ltwalkMeaning : Meaning where
  reads := fun _ p => groupRegs p.f.d.toNat 5 ++ groupRegs p.f.a.toNat 3 ++ [.s p.f.b.toNat]
  writes := fun _ p => groupRegs p.f.d.toNat 5
  dests := fun s p =>
    let u := walkUniform (s.regs p.k) p.f
    (List.range 5).map (fun i => (p.f.d.toNat + i, !p.covers || !u))
  body := ltwalkBody

/-- RTBOX (R245). -/
def execRtbox (f : Fields) (s : State) : Host.Outcome State Fault Refusal := perform (.rtbox f) rtboxMeaning s

/-- RTTRI (R249). -/
def execRttri (f : Fields) (s : State) : Host.Outcome State Fault Refusal := perform (.rttri f) rttriMeaning s

/-- RTSTEP (R247). -/
def execRtstep (f : Fields) (s : State) : Host.Outcome State Fault Refusal :=
  perform (.rtstep f) { vecMeaning .rtstep 4 rtstepOut with reads := fun _ p => groupRegs p.f.a.toNat 7 } s

/-- RTHIT (R251). -/
def execRthit (f : Fields) (s : State) : Host.Outcome State Fault Refusal :=
  perform (.rthit f)
    { vecMeaning .rthit 6 rthitOut with
      reads := fun _ p => groupRegs p.f.a.toNat 4 ++
        [.v (p.f.d.toNat + 6), .v (p.f.d.toNat + 7), .v (p.f.d.toNat + 11), .v (p.f.d.toNat + 12), .v (p.f.d.toNat + 15)] ++
        [if p.f.imm24 % 2 = 1 then (if p.f.cs then .s p.f.cReg else .v p.f.cReg) else .v (p.f.a.toNat + 4)] } s

/-- LTWALK (R269). -/
def execLtwalk (f : Fields) (s : State) : Host.Outcome State Fault Refusal := perform (.ltwalk f) ltwalkMeaning s

end Sys2Proof.Machine
end

