-- ==== Sys2Proof/Machine/Frozen.lean ====
section
/-!
DEFINITION. The frozen transcendentals (06 R139 to R142, 21 R372): the segment tables, computed where they are needed
from exactly rounded values of the function, the quadratic of R140, and the special operands.
-/

namespace Sys2Proof.Machine

/-- Round a number with `k` more fraction bits than 30 to Q2.30, ties to even. -/
def rnDrop (k : Nat) (x : Int) : Int :=
  let q := x / 2 ^ k
  let r := x % 2 ^ k
  if 2 * r > 2 ^ k || (2 * r = 2 ^ k && q % 2 = 1) then q + 1 else q

/-- Fraction bits of the working precision. -/
def wp : Nat := 140

/-- A product at the working precision. -/
def wmul (a b : Int) : Int := a * b / 2 ^ wp

/-- A square root at the working precision. -/
def wsqrt (a : Int) : Int := (isqrt (a.toNat * 2 ^ wp) : Nat)

/-- log2 of a number in [1, 2) at the working precision, `n` bits, by repeated squaring. -/
def log2Bits : Nat → Int → Int → Int
  | 0, _, acc => acc
  | n + 1, x, acc =>
    let y := wmul x x
    if y ≥ 2 * 2 ^ wp then log2Bits n (y / 2) (2 * acc + 1) else log2Bits n y (2 * acc)

/-- 2^(b / 2^9) for the bits of `b` below 2^n: `r` is 2^(1 / 2^(10 − n)). -/
def exp2Bits : Nat → Nat → Int → Int → Int
  | 0, _, _, acc => acc
  | n + 1, b, r, acc => exp2Bits n b (wsqrt r) (if b / 2 ^ n % 2 = 1 then wmul acc r else acc)

/-- cos and sin of b / 2^9 of a turn for the bits of `b` below 2^n: `c`, `s` are those of 1 / 2^(10 − n) of a turn. -/
def turnBits : Nat → Nat → Int → Int → Int × Int → Int × Int
  | 0, _, _, _, acc => acc
  | n + 1, b, c, s, acc =>
    let acc' := if b / 2 ^ n % 2 = 1 then (wmul acc.1 c - wmul acc.2 s, wmul acc.1 s + wmul acc.2 c) else acc
    turnBits n b (wsqrt ((2 ^ wp + c) / 2)) (wsqrt ((2 ^ wp - c) / 2)) acc'

/-- The functions that the tables hold (R139). -/
inductive Frozen where
  | rcp
  | rsq0
  | rsq1
  | log2
  | exp2
  | sin
  | cos
  deriving DecidableEq, Repr

/-- The function at i / 512 of its segment variable, rounded to Q2.30 (R141). -/
def Frozen.at (g : Frozen) (i : Nat) : Int :=
  match g with
  | .rcp => rnDrop 70 ((512 * 2 ^ 100 : Int) / (512 + i : Nat))
  | .rsq0 => rnDrop 70 (isqrt (512 * 2 ^ 200 / (512 + i)) : Nat)
  | .rsq1 => rnDrop 70 (isqrt (256 * 2 ^ 200 / (512 + i)) : Nat)
  | .log2 => if i = 512 then 2 ^ 30 else rnDrop 34 (log2Bits 64 ((512 + i : Nat) * 2 ^ wp / 512) 0)
  | .exp2 => if i = 512 then 2 ^ 31 else rnDrop (wp - 30) (exp2Bits 9 i (wsqrt (2 * 2 ^ wp)) (2 ^ wp))
  | .sin => rnDrop (wp - 30) (turnBits 9 (i % 512) (-2 ^ wp) 0 (2 ^ wp, 0)).2
  | .cos => rnDrop (wp - 30) (turnBits 9 (i % 512) (-2 ^ wp) 0 (2 ^ wp, 0)).1

/-- The segment polynomial at the 23-bit fraction r (R140, R141), in units of 2^−30. -/
def Frozen.poly (g : Frozen) (r : Nat) : Int :=
  let i := r / 2 ^ 15
  let t : Int := (r % 2 ^ 15 : Nat)
  let y0 := g.at (2 * i)
  let ym := g.at (2 * i + 1)
  let y1 := g.at (2 * i + 2)
  let c1 := 4 * ym - 3 * y0 - y1
  let c2 := 2 * (y0 - 2 * ym + y1)
  y0 + c1 * t / 2 ^ 15 + c2 * (t * t) / 2 ^ 30

/-- Round a frozen result to its format, RNE, and flush what falls below the normal range (R139). A zero is +0 where
`posZero` says so (R142). -/
def frozenRound (f : Fmt) (posZero : Bool) (x : Int) (e : Int) : Nat × BitVec 5 :=
  if x = 0 then (0, 0)
  else
    let neg := x < 0
    let mg := Mag.rat x.natAbs 1 e
    let b := mg.log2
    let r := roundStep 0 0 32 neg mg (b - (f.p - 1 : Nat))
    let top := b + (if r.1 = 2 ^ f.p then 1 else 0)
    if top < f.emin then (if posZero then 0 else f.sign neg, flagUnderflow ||| flagInexact)
    else roundTo f 0 0 k32 neg mg

/-- A normal value's exponent and 23-bit fraction: |x| = 2^e · m, 1 ≤ m < 2 (R139). -/
def normParts (m : Nat) (e : Int) : Int × Nat :=
  let b := m.log2
  ((b : Int) + e, m * 2 ^ 23 / 2 ^ b % 2 ^ 23)

/-- floor(x · 2^k) of a signed dyadic. -/
def floorDy (n : Bool) (m : Nat) (e : Int) (k : Nat) : Int :=
  let sh := e + k
  if sh ≥ 0 then sgn n m * 2 ^ sh.toNat else sgn n m / 2 ^ (-sh).toNat

/-- A subnormal input is taken as zero of its sign (R132, R139). -/
def flushIn (f : Fmt) : FVal → FVal
  | .fin n m e => if m < 2 ^ (f.p - 1) then .fin n 0 e else .fin n m e
  | v => v

/-- FRCP (R139, R142). -/
def fpRcp (f : Fmt) (a : Nat) : Nat × BitVec 5 :=
  match flushIn f (f.decode a) with
  | .nan s => (f.nan, nanFlags [.nan s])
  | .inf n => (f.sign n, 0)
  | .fin n m e =>
    if m = 0 then (f.sign n + f.inf, flagDivZero)
    else
      let x := normParts m e
      frozenRound f false (sgn n (Frozen.poly .rcp x.2).toNat) (-30 - x.1)

/-- FRSQ (R139, R142). -/
def fpRsq (f : Fmt) (a : Nat) : Nat × BitVec 5 :=
  match flushIn f (f.decode a) with
  | .nan s => (f.nan, nanFlags [.nan s])
  | .inf n => if n then (f.nan, flagInvalid) else (0, 0)
  | .fin n m e =>
    if m = 0 then (f.sign n + f.inf, flagDivZero)
    else if n then (f.nan, flagInvalid)
    else
      let x := normParts m e
      let q := x.1 / 2
      frozenRound f false (Frozen.poly (if x.1 % 2 = 0 then .rsq0 else .rsq1) x.2) (-30 - q)

/-- FLOG2 (R139, R142). -/
def fpLog2 (f : Fmt) (a : Nat) : Nat × BitVec 5 :=
  match flushIn f (f.decode a) with
  | .nan s => (f.nan, nanFlags [.nan s])
  | .inf n => if n then (f.nan, flagInvalid) else (f.inf, 0)
  | .fin n m e =>
    if m = 0 then (f.sign true + f.inf, flagDivZero)
    else if n then (f.nan, flagInvalid)
    else
      let x := normParts m e
      frozenRound f false (x.1 * 2 ^ 30 + Frozen.poly .log2 x.2) (-30)

/-- FEXP2 (R139, R142): +∞ where P × 2^n exceeds the largest finite value. -/
def fpExp2 (f : Fmt) (a : Nat) : Nat × BitVec 5 :=
  match flushIn f (f.decode a) with
  | .nan s => (f.nan, nanFlags [.nan s])
  | .inf n => if n then (0, 0) else (f.inf, 0)
  | .fin n m e =>
    if m = 0 then ((roundTo f 0 0 k32 false (.rat 1 1 0)).1, 0)
    else
      let r := (floorDy n m (min e 0) 23 % 2 ^ 23).toNat
      let y := Frozen.poly .exp2 (if e ≥ 0 then 0 else r)
      let k := floorDy n m e 0
      if k > f.emax || (k = f.emax && y * 2 ^ (f.p - 1) > ((2 ^ f.p - 1 : Nat) : Int) * 2 ^ 30) then
        (f.inf, flagOverflow ||| flagInexact)
      else frozenRound f false y (-30 + k)

/-- FSIN and FCOS (R139, R142). -/
def fpTurn (g : Frozen) (f : Fmt) (a : Nat) : Nat × BitVec 5 :=
  match flushIn f (f.decode a) with
  | .nan s => (f.nan, nanFlags [.nan s])
  | .inf _ => (f.nan, flagInvalid)
  | .fin n m e =>
    if m = 0 && g == .sin then (0, 0)
    else
      let r := if m = 0 || e ≥ 0 then 0 else (floorDy n m e 23 % 2 ^ 23).toNat
      frozenRound f true (Frozen.poly g r) (-30)

end Sys2Proof.Machine
end

