-- ==== Sys2Proof/Machine/VecFp.lean ====
section
/-!
DEFINITION. The vector floating-point instructions (21 R367 to R379, 06 R129 to R142) and the block encoder and decoder
(20 R362 to R364).
-/

namespace Sys2Proof.Machine

/-- The result of a per-lane float instruction of sources `srcs`: the word and the flags of each lane (R86, R130, R133). -/
def floatOut (x : VIn) (srcs : List VReg) (g : Nat → Nat × BitVec 5) : VOut :=
  { v := [(x.d, perLane srcs (fun l => BitVec.ofNat 32 (g l).1))], flags := laneFlags x.act (fun l => (g l).2) }

/-- A float instruction on A and B in the type of MOD[2:0] and the mode of MOD[5:3] (R368). -/
def float2 (h : Fmt → Nat → W32 → Nat → Nat → Nat × BitVec 5) (x : VIn) : VOut :=
  floatOut x [x.a, x.bImm] (fun l =>
    h (fmtOf (x.f.m 2 0)) (x.f.m 5 3) x.seed (x.a.lane l).toNat (x.bImm.lane l).toNat)

/-- A unary float instruction. -/
def float1 (h : Fmt → Nat → W32 → Nat → Nat × BitVec 5) (x : VIn) : VOut :=
  floatOut x [x.a] (fun l => h (fmtOf (x.f.m 2 0)) (x.f.m 5 3) x.seed (x.a.lane l).toNat)

/-- A unary float instruction without rounding mode or seed. -/
def floatEx (h : Fmt → Nat → Nat × BitVec 5) : VIn → VOut := float1 (fun f _ _ a => h f a)

/-- FFMA (R368). -/
def ffmaOut (x : VIn) : VOut :=
  floatOut x [x.a, x.b, x.c] (fun l =>
    fpFma (fmtOf (x.f.m 2 0)) (x.f.m 5 3) x.seed (x.a.lane l).toNat (x.b.lane l).toNat (x.c.lane l).toNat)

/-- FCMP (R371). -/
def fcmpOut (x : VIn) : VOut :=
  let r := fun l => fpCmp (fmtOf (x.f.m 2 0)) (x.d / 8) (x.a.lane l).toNat (x.b.lane l).toNat
  { p := [(x.d % 8, maskOf (fun l => (r l).1))], flags := laneFlags x.act (fun l => (r l).2) }

/-- FCVT (R373, R374). -/
def fcvtOut (x : VIn) : VOut :=
  let r := fun l => fpCvt (x.f.m 2 0) (bitsOf x.f.b.toNat 2 0) (x.f.m 5 3) x.seed (x.a.lane l)
  { v := [(x.d, perLane [x.a] (fun l => (r l).1))], flags := laneFlags x.act (fun l => (r l).2) }

/-- The source format of DXENC and the result format of DXDEC (R362). -/
def dxType (x : VIn) : Fmt := fmtOf (x.f.m 3 2)

/-- DXENC's shift (R363). -/
def dxencShift (x : VIn) : Nat :=
  let m := dxM (x.f.m 1 0)
  if !x.f.bs then m
  else
    let s := (x.r.s x.f.b.toNat).toNat
    if s % 16 = 0 then m else s % 16

/-- DXENC (R363): all 32 lanes of Va are read. -/
def dxencOut (x : VIn) : VOut :=
  let vals := (List.range 32).map (fun l => (dxType x).decode (x.a.lane l).toNat)
  let e := dxEncode (x.f.m 1 0) (if x.f.mb 4 then srMode else rneMode) x.seed false (dxencShift x) vals
  { v := [(x.d, .ofLanes (fun l => BitVec.ofNat 32 (e.1 / 2 ^ (32 * l))))], flags := e.2 }

/-- The block image in the low lanes of a register (R362). -/
def dxImage (fmt : Nat) (r : VReg) : Nat :=
  leNat (((List.range ((dxBytes fmt + 3) / 4)).map (fun l => leBytes 4 (r.lane l).toNat)).flatten)

/-- An exact value in F32 or BF16 (R364). -/
def dxOut (f : Fmt) (v : FVal) : Nat :=
  match v with
  | .nan _ => f.nan
  | .inf n => f.sign n + f.inf
  | .fin n m e => (roundTo f rneMode 0 k32 n (.rat m 1 e)).1

/-- DXDEC (R364). -/
def dxdecOut (x : VIn) : VOut :=
  let blk := dxImage (x.f.m 1 0) x.a
  { v := [(x.d, .ofLanes (fun l => BitVec.ofNat 32 (dxOut (dxType x) (dxElem (x.f.m 1 0) blk l))))] }

/-- DXENC's own ILLEGAL condition (R363). -/
def dxencMeaning : Meaning :=
  { vecMeaning .dxenc 8 dxencOut with
    illegal := fun s p => p.f.bs && (s.readS p.k p.f.b.toNat).toNat / 16 != 0 }

def execFadd (f : Fields) (s : State) : Host.Outcome State Fault Refusal :=
  perform (.fadd f) (vecMeaning .fadd 6 (float2 fpAdd)) s
def execFsub (f : Fields) (s : State) : Host.Outcome State Fault Refusal :=
  perform (.fsub f) (vecMeaning .fsub 6 (float2 fpSub)) s
def execFmul (f : Fields) (s : State) : Host.Outcome State Fault Refusal :=
  perform (.fmul f) (vecMeaning .fmul 6 (float2 fpMul)) s
def execFfma (f : Fields) (s : State) : Host.Outcome State Fault Refusal :=
  perform (.ffma f) (vecMeaning .ffma 6 ffmaOut) s
def execFmin (f : Fields) (s : State) : Host.Outcome State Fault Refusal :=
  perform (.fmin f) (vecMeaning .fmin 6 (float2 (fun f _ _ a b => fpMinMax f false a b))) s
def execFmax (f : Fields) (s : State) : Host.Outcome State Fault Refusal :=
  perform (.fmax f) (vecMeaning .fmax 6 (float2 (fun f _ _ a b => fpMinMax f true a b))) s
def execFcmp (f : Fields) (s : State) : Host.Outcome State Fault Refusal :=
  perform (.fcmp f) (vecMeaning .fcmp 6 fcmpOut) s
def execFclass (f : Fields) (s : State) : Host.Outcome State Fault Refusal :=
  perform (.fclass f) (vecMeaning .fclass 6 (floatEx (fun f a => (fpClass f a, 0)))) s
def execFcvt (f : Fields) (s : State) : Host.Outcome State Fault Refusal :=
  perform (.fcvt f) (vecMeaning .fcvt 6 fcvtOut) s
def execFrnd (f : Fields) (s : State) : Host.Outcome State Fault Refusal :=
  perform (.frnd f) (vecMeaning .frnd 6 (float1 fpRnd)) s
def execFkey (f : Fields) (s : State) : Host.Outcome State Fault Refusal :=
  perform (.fkey f) (vecMeaning .fkey 6 (floatEx (fun t a => (fpKey t (f.b.getLsbD 0) a, 0)))) s
def execFrcp (f : Fields) (s : State) : Host.Outcome State Fault Refusal :=
  perform (.frcp f) (vecMeaning .frcp 12 (floatEx fpRcp)) s
def execFrsq (f : Fields) (s : State) : Host.Outcome State Fault Refusal :=
  perform (.frsq f) (vecMeaning .frsq 12 (floatEx fpRsq)) s
def execFexp2 (f : Fields) (s : State) : Host.Outcome State Fault Refusal :=
  perform (.fexp2 f) (vecMeaning .fexp2 12 (floatEx fpExp2)) s
def execFlog2 (f : Fields) (s : State) : Host.Outcome State Fault Refusal :=
  perform (.flog2 f) (vecMeaning .flog2 12 (floatEx fpLog2)) s
def execFsin (f : Fields) (s : State) : Host.Outcome State Fault Refusal :=
  perform (.fsin f) (vecMeaning .fsin 12 (floatEx (fpTurn .sin))) s
def execFcos (f : Fields) (s : State) : Host.Outcome State Fault Refusal :=
  perform (.fcos f) (vecMeaning .fcos 12 (floatEx (fpTurn .cos))) s
def execFsqrt (f : Fields) (s : State) : Host.Outcome State Fault Refusal :=
  perform (.fsqrt f) (vecLate .fsqrt (float1 fpSqrt)) s
def execFdiv (f : Fields) (s : State) : Host.Outcome State Fault Refusal :=
  perform (.fdiv f) (vecLate .fdiv (float2 fpDiv)) s
def execDxenc (f : Fields) (s : State) : Host.Outcome State Fault Refusal := perform (.dxenc f) dxencMeaning s
def execDxdec (f : Fields) (s : State) : Host.Outcome State Fault Refusal :=
  perform (.dxdec f) (vecMeaning .dxdec 8 dxdecOut) s

end Sys2Proof.Machine
end

