-- ==== Sys2Proof/Machine/VecInt.lean ====
section
/-!
DEFINITION. The vector integer instructions: the VABS family (23 R431 to R435), VAFF (R436), VBALLOT (R437), VREDUCE
and VSCAN (R438 to R440, 06 R143, R144) and VSHFL (R441).
-/

namespace Sys2Proof.Machine

/-- Bits of an element of a type code (R111). -/
def elemBits (ty : Nat) : Nat := if ty ≤ 1 then 32 else if ty ≤ 3 then 16 else 8

/-- Element j of a word, as an exact integer (R431). -/
def elem (ty j : Nat) (w : W32) : Int :=
  let n := elemBits ty
  let u := w.toNat / 2 ^ (n * j) % 2 ^ n
  if ty % 2 = 0 && u ≥ 2 ^ (n - 1) then (u : Int) - 2 ^ n else u

/-- Element j read as unsigned. -/
def elemU (ty j : Nat) (w : W32) : Nat := w.toNat / 2 ^ (elemBits ty * j) % 2 ^ elemBits ty

/-- Saturate or wrap an exact element result (R432). -/
def narrow (ty : Nat) (sat : Bool) (r : Int) : Nat :=
  let n := elemBits ty
  let r := if !sat then r else if ty % 2 = 0 then clampInt (-2 ^ (n - 1)) (2 ^ (n - 1) - 1) r
    else clampInt 0 (2 ^ n - 1) r
  (r % 2 ^ n).toNat

/-- A word from its elements. -/
def packElems (ty : Nat) (g : Nat → Nat) : W32 :=
  BitVec.ofNat 32 ((List.range (32 / elemBits ty)).foldl (fun acc j => acc + 2 ^ (elemBits ty * j) * g j) 0)

/-- The word of an integer instruction from words a, b, c: exact per element, then narrowed (R432). -/
def packed (f : Fields) (g : Nat → Nat → W32 → W32 → W32 → Int) (a b c : W32) : W32 :=
  let ty := f.m 2 0
  packElems ty (fun j => narrow ty (f.mb 3) (g ty j a b c))

/-- The shift count of an element, cut where it no longer matters. -/
def shiftCount (ty j : Nat) (b : W32) : Nat := min (elemU ty j b) 64

/-- A per-lane vector integer instruction on A and B. -/
def int2 (g : Nat → Nat → W32 → W32 → W32 → Int) (x : VIn) : VOut :=
  { v := [(x.d, perLane [x.a, x.bImm] (fun l => packed x.f g (x.a.lane l) (x.bImm.lane l) 0))] }

/-- A unary vector integer instruction. -/
def int1 (g : Nat → Nat → W32 → W32 → W32 → Int) (x : VIn) : VOut :=
  { v := [(x.d, perLane [x.a] (fun l => packed x.f g (x.a.lane l) 0 0))] }

/-- Whether VADD, VSUB or VMUL keeps an affine shape: I32 or N32 without saturation (R86). -/
def keepsAffine (f : Fields) : Bool := f.m 2 0 ≤ 1 && !f.mb 3

/-- Base and stride of a U or A source (R86). -/
def VReg.affine : VReg → Option (W32 × W32)
  | .dead => some (0, 0)
  | .uni v => some (v, 0)
  | .aff b st => some (b, st)
  | .gen _ => none

/-- VADD and VSUB (R86, R432). -/
def addSub (g : Nat → Nat → W32 → W32 → W32 → Int) (h : W32 → W32 → W32) (x : VIn) : VOut :=
  match x.a.affine, x.bImm.affine with
  | some (b1, s1), some (b2, s2) =>
    if keepsAffine x.f then { v := [(x.d, (VReg.aff (h b1 b2) (h s1 s2)).norm)] } else int2 g x
  | _, _ => int2 g x

/-- VMUL (R86, R432). -/
def mulOut (g : Nat → Nat → W32 → W32 → W32 → Int) (x : VIn) : VOut :=
  let scaled := fun (r : VReg) (k : W32) => match r.affine with
    | some (b, st) => some (b * k, st * k)
    | none => none
  let aff := if !keepsAffine x.f then none
    else if x.bImm.uniform then scaled x.a (x.bImm.lane 0)
    else if x.a.uniform then scaled x.bImm (x.a.lane 0)
    else none
  match aff with
  | some (b, st) => { v := [(x.d, (VReg.aff b st).norm)] }
  | none => int2 g x

def eAdd (ty j : Nat) (a b _ : W32) : Int := elem ty j a + elem ty j b
def eSub (ty j : Nat) (a b _ : W32) : Int := elem ty j a - elem ty j b
def eMul (ty j : Nat) (a b _ : W32) : Int := elem ty j a * elem ty j b
def eMulHi (ty j : Nat) (a b _ : W32) : Int := elem ty j a * elem ty j b / 2 ^ elemBits ty
def eMad (ty j : Nat) (a b c : W32) : Int := elem ty j a * elem ty j b + elem ty j c
def eAnd (_ _ : Nat) (a b _ : W32) : Int := (a &&& b).toNat
def eOr (_ _ : Nat) (a b _ : W32) : Int := (a ||| b).toNat
def eXor (_ _ : Nat) (a b _ : W32) : Int := (a ^^^ b).toNat
def eShl (ty j : Nat) (a b _ : W32) : Int := elem ty j a * 2 ^ shiftCount ty j b
def eShr (ty j : Nat) (a b _ : W32) : Int := elem ty j a / 2 ^ shiftCount ty j b
def eMin (ty j : Nat) (a b _ : W32) : Int := min (elem ty j a) (elem ty j b)
def eMax (ty j : Nat) (a b _ : W32) : Int := max (elem ty j a) (elem ty j b)
def eAbs (ty j : Nat) (a _ _ : W32) : Int := (elem ty j a).natAbs

/-- Leading zero bits of an element (R431). -/
def eClz (ty j : Nat) (a _ _ : W32) : Int :=
  let u := elemU ty j a
  if u = 0 then elemBits ty else elemBits ty - 1 - u.log2

/-- One bits of an element (R431). -/
def ePopc (ty j : Nat) (a _ _ : W32) : Int :=
  ((List.range (elemBits ty)).filter (fun i => (elemU ty j a).testBit i)).length

/-- VMAD (R431). -/
def madOut (x : VIn) : VOut :=
  { v := [(x.d, perLane [x.a, x.b, x.c] (fun l => packed x.f eMad (x.a.lane l) (x.b.lane l) (x.c.lane l)))] }

/-- VCMP's condition (R434). -/
def vcmpCond (cond ty : Nat) (a b : W32) : Bool :=
  let x := elem ty 0 a
  let y := elem ty 0 b
  match cond with
  | 0 => x == y
  | 1 => x != y
  | 2 => decide (x < y)
  | 3 => decide (x ≤ y)
  | 4 => decide (x > y)
  | 5 => decide (x ≥ y)
  | _ => a &&& b != 0

/-- VCMP (R434). -/
def cmpOut (x : VIn) : VOut :=
  { p := [(x.d % 8, maskOf (fun l => vcmpCond (x.d / 8) (x.f.m 2 0) (x.a.lane l) (x.bImm.lane l)))] }

/-- A copied register: a dead source reads as zero of shape U (R93). -/
def VReg.copy : VReg → VReg
  | .dead => .uni 0
  | r => r

/-- VSEL (R435). -/
def selOut (x : VIn) : VOut :=
  if x.f.pred = 7 then { v := [(x.d, (if x.f.pneg then x.b else x.a).copy)] }
  else
    let q := if x.f.pneg then ~~~(x.r.p x.f.pred.toNat) else x.r.p x.f.pred.toNat
    { v := [(x.d, .ofLanes (fun l => if q.getLsbD l then x.a.lane l else x.b.lane l))] }

/-- VMOV (R435). -/
def movOut (x : VIn) : VOut := { v := [(x.d, if x.f.bs then x.b.copy else x.a.copy)] }

/-- VAFF (R436). -/
def affOut (x : VIn) : VOut :=
  let imm := (BitVec.ofNat 24 x.f.imm24).signExtend 32
  match x.b.affine, x.c.uniform with
  | some (b, st), true => { v := [(x.d, (VReg.aff b (st + x.c.lane 0 + imm)).norm)] }
  | _, _ =>
    { v := [(x.d, .ofLanes (fun l => x.b.lane l + (x.c.lane l + imm) * BitVec.ofNat 32 l))] }

/-- VBALLOT (R437). -/
def ballotOut (x : VIn) : VOut :=
  let q := x.r.p (x.f.a.toNat % 8)
  let m := x.act &&& (if x.f.a.getLsbD 3 then ~~~q else q)
  { v := [(x.d, .uni (if x.f.m 5 4 = 0 then m else BitVec.ofNat 32 (popc m)))] }

/-- VSHFL's source lane (R441). -/
def shflSrc (mode l n : Nat) : Nat :=
  match mode with
  | 0 => n % 32
  | 1 => if n ≤ l then l - n else l
  | 2 => if l + n ≤ 31 then l + n else l
  | _ => l ^^^ (n % 32)

/-- VSHFL (R441). -/
def shflOut (x : VIn) : VOut :=
  if x.a.uniform then { v := [(x.d, x.a.copy)] }
  else { v := [(x.d, .ofLanes (fun l => x.a.lane (shflSrc (x.f.m 5 4) l (x.b.lane l).toNat)))] }

/-! VREDUCE and VSCAN. -/

/-- The float format of a reduction type: 2 F32, 3 F16, 4 BF16 (R438). -/
def reduceFmt (ty : Nat) : Fmt := fmtOf (ty - 2)

/-- The identity of an operation and type (R438). -/
def reduceId (op ty : Nat) : Nat :=
  if ty ≥ 2 then
    let f := reduceFmt ty
    if op = 0 then f.sign true else if op = 1 then f.inf else f.sign true + f.inf
  else match op with
    | 1 => if ty = 0 then 0x7FFFFFFF else 0xFFFFFFFF
    | 2 => if ty = 0 then 0x80000000 else 0
    | 3 => 0xFFFFFFFF
    | _ => 0

/-- One step of an operation whose grouping does not matter (R438): everything but a float addition. -/
def reduceStep (op ty : Nat) (a b : Nat × BitVec 5) : Nat × BitVec 5 :=
  let x := BitVec.ofNat 32 a.1
  let y := BitVec.ofNat 32 b.1
  if ty ≥ 2 then
    let r := fpMinMax (reduceFmt ty) (op == 2) a.1 b.1
    (r.1, r.2 ||| a.2 ||| b.2)
  else
    let lt := if ty = 0 then x.slt y else x.ult y
    let r := match op with
      | 0 => x + y
      | 1 => if lt then x else y
      | 2 => if lt then y else x
      | 3 => x &&& y
      | 4 => x ||| y
      | _ => x ^^^ y
    (r.toNat, 0)

/-- The contribution of a lane: its value where it takes part, else the identity (R439). -/
def contribution (x : VIn) (op ty l : Nat) : Nat × BitVec 5 :=
  if x.act.getLsbD l then
    (if ty ≥ 2 then (x.a.lane l).toNat % 2 ^ (reduceFmt ty).width else (x.a.lane l).toNat, 0)
  else (reduceId op ty, 0)

/-- The invalid flag of signalling participants (R438). -/
def snanFlags (x : VIn) (ty : Nat) : BitVec 5 :=
  if ty ≥ 2 then laneFlags x.act (fun l => nanFlags [(reduceFmt ty).decode (x.a.lane l).toNat]) else 0

/-- The operation over a list of contributions, in order. -/
def reduceList (op ty : Nat) (l : List (Nat × BitVec 5)) : Nat × BitVec 5 :=
  l.foldl (reduceStep op ty) (reduceId op ty, 0)

/-- VREDUCE (R439). -/
def reduceOut (x : VIn) : VOut :=
  let op := x.f.m 5 3
  let ty := x.f.m 2 0
  let l := (List.range 32).map (contribution x op ty)
  let r := if ty ≥ 2 && op = 0 then treeSum (reduceFmt ty) 5 l else reduceList op ty l
  { v := [(x.d, .uni (BitVec.ofNat 32 r.1))]
    flags := if ty ≥ 2 then (if op = 0 then r.2 else snanFlags x ty) else 0 }

/-- The largest segment start at or below a lane (R440): `l + 1` lanes to look at. -/
def segStart (start : Nat → Bool) : Nat → Nat
  | 0 => 0
  | l + 1 => if start l then l else segStart start l

/-- One lane of VSCAN (R440). A sum over lane 0 alone is the lane's value, a NaN as the canonical one (R131): the identity is
added to it. -/
def scanLane (x : VIn) (l : Nat) : Nat × BitVec 5 :=
  let op := x.f.m 5 3
  let ty := x.f.m 2 0
  let excl := x.f.b.getLsbD 0
  let seg := x.f.b.getLsbD 1
  let q := x.r.p (bitsOf x.f.b.toNat 4 2)
  let st := segStart (fun k => k == 0 || (seg && q.getLsbD k)) (l + 1)
  let n := if excl then l else l + 1
  if n ≤ st then (reduceId op ty, 0)
  else
    let c := fun k => if k < st then (reduceId op ty, (0 : BitVec 5)) else contribution x op ty k
    if ty ≥ 2 && op = 0 then
      let r := blockSum (reduceFmt ty) n 6 ((List.range n).map c) none
      if n = 1 then rnAdd (reduceFmt ty) (reduceId op ty, 0) r else r
    else reduceList op ty ((List.range n).map c)

/-- VSCAN (R440). A signalling NaN sets FLAGS.invalid (R131) where the prefix of some delivered lane includes it (log 115). -/
def scanOut (x : VIn) : VOut :=
  let ty := x.f.m 2 0
  { v := [(x.d, .ofLanes (fun l => if x.act.getLsbD l then BitVec.ofNat 32 (scanLane x l).1 else 0))]
    flags := if ty ≥ 2 then laneFlags x.act (fun l => (scanLane x l).2) else 0 }

/-- The result of each vector integer instruction. -/
def vaddOut : VIn → VOut := addSub eAdd (fun a b => a + b)
def vsubOut : VIn → VOut := addSub eSub (fun a b => a - b)
def vmulOut : VIn → VOut := mulOut eMul

def execVadd (f : Fields) (s : State) : Host.Outcome State Fault Refusal := perform (.vadd f) (vecMeaning .vadd 4 vaddOut) s
def execVsub (f : Fields) (s : State) : Host.Outcome State Fault Refusal := perform (.vsub f) (vecMeaning .vsub 4 vsubOut) s
def execVmul (f : Fields) (s : State) : Host.Outcome State Fault Refusal := perform (.vmul f) (vecMeaning .vmul 6 vmulOut) s
def execVmulhi (f : Fields) (s : State) : Host.Outcome State Fault Refusal :=
  perform (.vmulhi f) (vecMeaning .vmulhi 6 (int2 eMulHi)) s
def execVmad (f : Fields) (s : State) : Host.Outcome State Fault Refusal := perform (.vmad f) (vecMeaning .vmad 6 madOut) s
def execVand (f : Fields) (s : State) : Host.Outcome State Fault Refusal := perform (.vand f) (vecMeaning .vand 4 (int2 eAnd)) s
def execVor (f : Fields) (s : State) : Host.Outcome State Fault Refusal := perform (.vor f) (vecMeaning .vor 4 (int2 eOr)) s
def execVxor (f : Fields) (s : State) : Host.Outcome State Fault Refusal := perform (.vxor f) (vecMeaning .vxor 4 (int2 eXor)) s
def execVshl (f : Fields) (s : State) : Host.Outcome State Fault Refusal := perform (.vshl f) (vecMeaning .vshl 4 (int2 eShl)) s
def execVshr (f : Fields) (s : State) : Host.Outcome State Fault Refusal := perform (.vshr f) (vecMeaning .vshr 4 (int2 eShr)) s
def execVmin (f : Fields) (s : State) : Host.Outcome State Fault Refusal := perform (.vmin f) (vecMeaning .vmin 4 (int2 eMin)) s
def execVmax (f : Fields) (s : State) : Host.Outcome State Fault Refusal := perform (.vmax f) (vecMeaning .vmax 4 (int2 eMax)) s
def execVabs (f : Fields) (s : State) : Host.Outcome State Fault Refusal := perform (.vabs f) (vecMeaning .vabs 4 (int1 eAbs)) s
def execVclz (f : Fields) (s : State) : Host.Outcome State Fault Refusal := perform (.vclz f) (vecMeaning .vclz 4 (int1 eClz)) s
def execVpopc (f : Fields) (s : State) : Host.Outcome State Fault Refusal :=
  perform (.vpopc f) (vecMeaning .vpopc 4 (int1 ePopc)) s
def execVcmp (f : Fields) (s : State) : Host.Outcome State Fault Refusal := perform (.vcmp f) (vecMeaning .vcmp 4 cmpOut) s
def execVsel (f : Fields) (s : State) : Host.Outcome State Fault Refusal := perform (.vsel f) (vecMeaning .vsel 4 selOut) s
def execVmov (f : Fields) (s : State) : Host.Outcome State Fault Refusal := perform (.vmov f) (vecMeaning .vmov 4 movOut) s
def execVaff (f : Fields) (s : State) : Host.Outcome State Fault Refusal := perform (.vaff f) (vecMeaning .vaff 4 affOut) s
def execVshfl (f : Fields) (s : State) : Host.Outcome State Fault Refusal := perform (.vshfl f) (vecMeaning .vshfl 8 shflOut) s
def execVreduce (f : Fields) (s : State) : Host.Outcome State Fault Refusal :=
  perform (.vreduce f) (vecMeaning .vreduce 8 reduceOut) s
def execVballot (f : Fields) (s : State) : Host.Outcome State Fault Refusal :=
  perform (.vballot f) { vecMeaning .vballot 8 ballotOut with reads := fun _ p => [.p (p.f.a.toNat % 8)] } s
def execVscan (f : Fields) (s : State) : Host.Outcome State Fault Refusal := 
  perform (.vscan f) { vecMeaning .vscan 8 scanOut with
    reads := fun _ p => .v p.f.a.toNat :: (if p.f.b.getLsbD 1 then [.p (bitsOf p.f.b.toNat 4 2)] else []) } s

end Sys2Proof.Machine
end

