-- ==== Sys2Proof/Machine/Callable.lean ====
section
/-!
DEFINITION. The callables of RESAMPLE (11 R272, R273): the 16-lane evaluator of Overlock, as a band of its own whose packets
run on a state of their own; it keeps nothing but the results of its lanes.
-/

namespace Sys2Proof.Machine

/-- The result of an instruction of a callable that touches registers only. -/
def callSem : Instr → Option (VIn → VOut)
  | .vadd _ => some vaddOut
  | .vsub _ => some vsubOut
  | .vmul _ => some vmulOut
  | .vmulhi _ => some (int2 eMulHi)
  | .vmad _ => some madOut
  | .vand _ => some (int2 eAnd)
  | .vor _ => some (int2 eOr)
  | .vxor _ => some (int2 eXor)
  | .vshl _ => some (int2 eShl)
  | .vshr _ => some (int2 eShr)
  | .vmin _ => some (int2 eMin)
  | .vmax _ => some (int2 eMax)
  | .vabs _ => some (int1 eAbs)
  | .vclz _ => some (int1 eClz)
  | .vpopc _ => some (int1 ePopc)
  | .vcmp _ => some cmpOut
  | .vsel _ => some selOut
  | .vmov _ => some movOut
  | .vaff _ => some affOut
  | .vshfl _ => some shflOut
  | .vreduce _ => some reduceOut
  | .vballot _ => some ballotOut
  | .vscan _ => some scanOut
  | .fadd _ => some (float2 fpAdd)
  | .fsub _ => some (float2 fpSub)
  | .fmul _ => some (float2 fpMul)
  | .ffma _ => some ffmaOut
  | .fmin _ => some (float2 (fun f _ _ a b => fpMinMax f false a b))
  | .fmax _ => some (float2 (fun f _ _ a b => fpMinMax f true a b))
  | .fcmp _ => some fcmpOut
  | .fclass _ => some (floatEx (fun f a => (fpClass f a, 0)))
  | .fcvt _ => some fcvtOut
  | .frnd _ => some (float1 fpRnd)
  | .fkey f => some (floatEx (fun t a => (fpKey t (f.b.getLsbD 0) a, 0)))
  | .frcp _ => some (floatEx fpRcp)
  | .frsq _ => some (floatEx fpRsq)
  | .fexp2 _ => some (floatEx fpExp2)
  | .flog2 _ => some (floatEx fpLog2)
  | .fsin _ => some (floatEx (fpTurn .sin))
  | .fcos _ => some (floatEx (fpTurn .cos))
  | .fsqrt _ => some (float1 fpSqrt)
  | .fdiv _ => some (float2 fpDiv)
  | .dxdec _ => some dxdecOut
  | .rng _ => some rngOut
  | .rngU _ => some rngOut
  | .rtstep _ => some rtstepOut
  | .dxenc _ => some dxencOut
  | .rthit _ => some rthitOut
  | _ => none

/-- The meaning of an instruction that a callable may hold (R272), as in a band; loads and EXIT are the evaluator's own. -/
def callMeaning? (i : Instr) : Option Meaning :=
  match callSem i with
  | some g =>
    some (match i with
      | .dxenc _ => dxencMeaning
      | _ => match (specOf .band i).lat with
        | .fixed l => vecMeaning (fun _ => i) l g
        | _ => vecLate (fun _ => i) g)
  | none =>
    match i with
    | .nop _ | .exit _ => some nopMeaning
    | .bjoin _ | .bjoinAll _ => some bjoinMeaning
    | .bra _ => some braMeaning
    | .brc _ => some brcMeaning
    | .ld _ => some (loadMeaning (fun f => f.m 2 0) (fun _ => 0))
    | .rtbox _ => some rtboxMeaning
    | .rttri _ => some rttriMeaning
    | _ => none

/-- What a load of an engine's command meets. -/
inductive Got where
  | bytes (bs : List Byte) (bad : Bool)
  | absent (va : W64) (level : Nat)
  | fault
  | hold

/-- Read a range for a command of Overlock: a page that a reply has denied is a fault, and so is an access that a peer or the host
fails (14 R311, log 18). -/
def State.overRead (s : State) (core cx : Nat) (c : Cmd) (va : W64) (n : Nat) : Got :=
  let ctx := s.ctxOf (ctxKey core cx)
  match s.meets core ctx false va n with
  | .fault => .fault
  | .absent a _ level => if c.denied.contains (pageOf a) then .fault else .absent a level
  | .ok =>
    if !(s.rangeLines core ctx va n).all (s.mine c.id) then .hold
    else if s.farFails core ctx va n then .fault
    else
      let got := s.engineRead core ctx va n
      .bytes (got.map Prod.fst) (anyBad got)

/-- What the loads of a packet meet: a page to wait for, a line that another command owns, or the words of each lane, none
where the lane ends, with whether by poison (R273). -/
inductive Loads where
  | absent (va : W64) (level : Nat)
  | hold
  | lanes (l : List (Nat × Option (List W32) × Bool))

/-- The loads of the lanes of a packet, each of `n` bytes at its address (R273). -/
def State.callLoads (s : State) (core cx : Nat) (c : Cmd) (align n : Nat) (at_ : Nat → W64) (g : Nat → List Byte → List W32) :
    List Nat → Loads
  | [] => .lanes []
  | l :: r =>
    match callLoads s core cx c align n at_ g r with
    | .lanes ls =>
      if (at_ l).toNat % align ≠ 0 then .lanes ((l, none, false) :: ls)
      else (match s.overRead core cx c (at_ l) n with
        | .bytes bs bad => .lanes ((l, if bad then none else some (g l bs), bad) :: ls)
        | .absent va level => .absent va level
        | .fault => .lanes ((l, none, false) :: ls)
        | .hold => .hold)
    | e => e

/-- The loads of an instruction of a callable: LD, RTBOX and RTTRI; a ray that is DONE reads nothing (10 R245). -/
def State.evalLoads (s : State) (core cx : Nat) (c : Cmd) (x : State) (p : Pkt) (i : Instr) : Option Loads :=
  let r := x.regs p.k
  let ray := fun (l : Nat) => rayOf (rayLanes r p.f.a.toNat) l
  match i with
  | .ld _ =>
    let n := sizeBytes (p.f.m 2 0)
    some (s.callLoads core cx c n n (laneAddr p.f r) (fun _ bs => loadWords (p.f.m 2 0) bs) (lanesOf p.act))
  | .rtbox _ =>
    let (idle, go) := (lanesOf p.act).partition (fun l => rayAction (ray l 15) == 3)
    some (match s.callLoads core cx c 64 64 (fun l => nodeAddr (r.s p.f.b.toNat) (ray l))
        (fun l bs => boxWords bs (ray l) (x.freeWord 5000 l)) go with
      | .lanes ls => .lanes (idle.map (fun l => (l, some (boxWords [] (ray l) (x.freeWord 5000 l)), false)) ++ ls)
      | e => e)
  | .rttri _ =>
    some (s.callLoads core cx c 16 48 (fun l => r.s p.f.b.toNat + 48 * ((r.v (p.f.d.toNat + 5)).lane l).zeroExtend 64)
      (fun l bs => triWords bs (ray l) (p.f.m 1 0) (fun j => x.freeWord (5001 + j) l)) (lanesOf p.act))
  | _ => none

/-- An invocation under way: the state on which its packets run, the backward branches that each lane has taken, and the
lanes that have ended, each with its result and the status that it adds (R273). -/
structure Eval where
  x : State
  back : Tbl Nat := []
  res : Tbl (W32 × BitVec 5) := []

/-- How an invocation goes: it goes on, its lanes have all ended, or it meets an absent page or a line that another command
owns; lanes that wait at a BJOIN for good never end (02 R31). -/
inductive Call where
  | on (e : Eval)
  | done (res : Tbl (W32 × BitVec 5))
  | absent (va : W64) (level : Nat)
  | hold

/-- The status that a lane adds as it ends early (R273): FAULT, and POISON where poison ends it. -/
def endStatus (poison : Bool) : BitVec 5 := if poison then 12 else 4

/-- Lanes end. -/
def Eval.finish (e : Eval) (key : Nat) (m : W32) (g : Nat → W32 × BitVec 5) : Eval :=
  { e with
    x := (Prog.agent key (fun a => (a.mapThreads m (fun _ t => { t with st := .exited })).checkJoin)).run e.x
    res := (lanesOf m).foldl (fun t l => t.put l (g l)) e.res }

/-- Lanes end early (R273). -/
def Eval.stop (e : Eval) (key : Nat) (m : W32) (poison : Bool) : Eval := e.finish key m (fun _ => (0, endStatus poison))

/-- A packet waits for its tokens (R91, R272): the results that they count are written, in time for it. -/
def Prog.evalWait (key : Nat) (f : Fields) : Prog :=
  .look fun x =>
    let a := x.agent key
    let named := fun (k : Nat) => f.wait.getLsbD k || (f.setEn && f.setK.toNat == k && decide (a.tok k ≥ 15))
    let due := (a.timers.filter (fun e => named e.1)).foldl (fun m e => max m e.2) x.t
    .all [
      .each (x.ops.filter (fun o => o.tok.any named)) (fun o => match o.kind with
        | .values ss vs flags => .writeValues o ss vs flags
        | _ => .skip),
      .act (.pass (due - x.t)),
      .agent key (fun a => { (a.timers.filter (fun e => named e.1)).foldl (fun a e => a.untok e.1 due) a with
        timers := a.timers.filter (fun e => !named e.1) })]

/-- The lanes of a packet that took a branch backwards, to a PC not above its own: one that waits at a BJOIN took none. -/
def Eval.backs (e : Eval) (p : Pkt) : List Nat :=
  (lanesOf p.lanes).filter (fun l =>
    let t := (e.x.agent p.k).thread l
    t.st == .ready && decide (t.pc ≤ p.pc))

/-- A packet has performed: its clocks pass (R89), and a lane that has branched backwards once too often ends (R272, R273). -/
def Eval.after (e : Eval) (p : Pkt) (x : State) : Eval :=
  let e := { e with x := (Prog.act (.pass (Config.clock * (1 + p.f.stall.toNat)))).run x }
  let bs := e.backs p
  let e := { e with back := bs.foldl (fun t l => t.put l (t.get l 0 + 1)) e.back }
  let past := bs.filter (fun l => decide (e.back.get l 0 > 4096))
  if past.isEmpty then e else e.stop p.k (maskOf past.contains) false

/-- The instruction of a packet that has passed its checks. -/
def State.evalPerform (s : State) (core cx : Nat) (c : Cmd) (e : Eval) (x : State) (p : Pkt) (i : Instr) (m : Meaning) : Call :=
  let sp := specOf .band i
  let d := (m.dests x p).map Prod.fst
  let run := fun (q : Prog) (stay : W32) => e.after p ((Prog.performPacket p sp d q stay).run x)
  if p.act = 0 then .on (run (.voidPacket p sp.lat) 0)
  else match i with
  | .exit _ => .on ((run .skip 0).finish p.k p.act (fun l => ((x.readV p.k 0).lane l, 0)))
  | _ =>
    match s.evalLoads core cx c x p i with
    | some (.absent va level) => .absent va level
    | some .hold => .hold
    | some (.lanes ls) =>
      let word := fun (j l : Nat) => match ls.find? (fun e => e.1 == l) with
        | some (_, some ws, _) => ws.getD j 0
        | _ => 0
      let v := (List.range d.length).filterMap (fun j =>
        if d.getD j 126 < 126 then some (d.getD j 126, VReg.ofLanes (word j)) else none)
      let good := maskOf (fun l => ls.any (fun e => e.1 == l && e.2.1.isSome))
      let bad := fun (poison : Bool) => maskOf (fun l => ls.any (fun e => e.1 == l && e.2.1.isNone && e.2.2 == poison))
      .on (((run (.addOp p (.values [] v 0) good false) 0).stop p.k (bad false) false).stop p.k (bad true) true)
    | none =>
      match m.body x p with
      | .go q stay => .on (run q stay)
      | _ => .on (e.stop p.k p.lanes false)

/-- A packet of a callable (R272): the lanes at the least PC; its fetch, its tokens, the checks of R120, its instruction. -/
def State.callStep (s : State) (core cx : Nat) (c : Cmd) (e : Eval) : Call :=
  let key := ctxKey core cx
  let a := e.x.agent key
  match a.readyPcs.head? with
  | none => if a.liveMask = 0 then .done e.res else .hold
  | some pc =>
    let lanes := a.packetAt pc
    match s.fetchAt key pc with
    | .trap code _ => .on (e.stop key lanes (code == 0x0A))
    | .absent _ => .on (e.stop key lanes false)
    | .bytes bs =>
      let i := fetched bs
      match opcodeOf i, callMeaning? i with
      | some (_, _, f), some m =>
        let x := (Prog.evalWait key f).run e.x
        let p := x.pkt key pc i f
        (match x.check i m p with
         | .pass => s.evalPerform core cx c e x p i m
         | _ => .on (e.stop key lanes false))
      | _, _ => .on (e.stop key lanes false)

/-- Run an invocation to its end. -/
def State.callRun (s : State) (core cx : Nat) (c : Cmd) : Nat → Eval → Call
  | 0, _ => .hold
  | n + 1, e =>
    match s.callStep core cx c e with
    | .on e => callRun s core cx c n e
    | r => r

/-- More packets than 4,096 backward branches of each lane allow over any code. -/
def callFuel : Nat := 2 ^ 80

/-- The evaluator's band at its entry (R272): `args` are V0 to V6 of each lane; `n` tells the invocations of a row apart, so
that each meets free values of its own. Its SEED is the control context's (log 119). -/
def State.evalStart (s : State) (key : Nat) (c : Cmd) (entry : W64) (n : Nat) (lanes : W32) (args : Nat → List W32) : Eval :=
  let ctl := s.agent key
  { x := { s with
      agents := [(key, {
        live := true
        crew := ctl.crew
        seed := ctl.seed
        n := 64
        g := 64
        threads := (lanesOf lanes).map (fun l => (l, { pc := entry, restart := entry, st := .ready }))
        v := (List.range 7).map (fun i => (i, VReg.ofLanes (fun l => (args l).getD i 0)))
        s := ((List.range 63).map (fun i => (i + 1, c.sregs.getD (i + 1) 0))) })]
      ops := []
      freeCtr := 2 ^ 128 * (s.freeCtr + 1) + 2 ^ 96 * n } }

/-- An invocation for lanes of a row (R272). -/
def State.invoke (s : State) (core cx : Nat) (c : Cmd) (entry : W64) (n : Nat) (lanes : W32) (args : Nat → List W32) : Call :=
  s.callRun core cx c callFuel (s.evalStart (ctxKey core cx) c entry n lanes args)

end Sys2Proof.Machine
end

