-- ==== Sys2Proof/Machine/Resample.lean ====
section
/-!
DEFINITION. RESAMPLE: its issue (11 R270, 22 R403), its start, its pixels (R271) with the invocations of its callables row
by row (R272), and its end.
-/

namespace Sys2Proof.Machine

/-! The command. -/

/-- MCAP, NBRS and RAD of a RESAMPLE's descriptor (R270). -/
def rsMcap (f : Fields) : Nat := f.x 29 14
def rsNbrs (f : Fields) : Nat := f.x 13 11
def rsRad (f : Fields) : Nat := f.x 10 5

/-- RESAMPLE at issue (R270, R403). -/
def resampleMeaning : Meaning where
  reads := fun _ p => (List.range (if p.f.mb 0 then 7 else 6)).map (fun i => .s (p.f.d.toNat + i)) ++ [.s p.f.scopeReg]
  body := fun s p =>
    let r := s.regs p.k
    let regs := (List.range 7).map (fun i => if i = 6 && !p.f.mb 0 then 0 else r.s (p.f.d.toNat + i)) ++ [r.s p.f.scopeReg]
    let core := coreOf p.k
    let cx := unitOf p.k - 64
    if badDesignator p.f.cnt || rsMcap p.f = 0 || rsRad p.f = 0 || rsRad p.f > 32 then .trap 0x11 1
    else issueCmd s p .resample p.f.cnt p.f.scopeReg regs true (fun id =>
      .cmd core false cx id (fun c => { c with sregs := (List.range 64).map r.s }))

/-- The surfaces of a command that has started: initial, previous, result; and the initial surface's map. -/
def Cmd.surface (c : Cmd) (i : Nat) : Option Surface := Surface.ofBytes ((c.data.drop (64 * i)).take 64)
def Cmd.map (c : Cmd) : List Byte := c.data.drop 192

/-- The tile of a command: its column and row (R270). -/
def Cmd.tileCol (c : Cmd) : Nat := bitsOf (c.regs.getD 4 0).toNat 15 0
def Cmd.tileRow (c : Cmd) : Nat := bitsOf (c.regs.getD 4 0).toNat 31 16

/-- RESAMPLE_START (R270, R403): the descriptors are read and checked. A poisoned descriptor or map, for which the spec gives no
row, ends the command with POISON and no pixel (log 109). -/
def resampleStart (core cx : Nat) : Prog :=
  .look fun s =>
    match (s.core core).queue false cx with
    | [] => .skip
    | c :: _ =>
      if !s.powered || c.kind != .resample || c.started || c.finished || c.wait.isSome || s.stopping core cx || s.ns < c.maxV then .skip
      else
        let desc := (List.range 3).map (fun i =>
          let va := c.regs.getD i 0
          if va.toNat % 64 ≠ 0 then Got.fault else s.overRead core cx c va 64)
        let stop := fun (l : List Got) (g : List (List Byte) → Prog) =>
          match l.find? (fun e => match e with | .bytes _ false => false | _ => true) with
          | some (.absent a level) => Prog.waitCmd core cx c 3 a 0 level
          | some .fault => .stopCmd core cx c 4
          | some .hold => .skip
          | some (.bytes _ _) => .stopCmd core cx c 8
          | none => g (l.filterMap (fun e => match e with | .bytes bs _ => some bs | _ => none))
        stop desc (fun bss =>
          match Surface.ofBytes (bss.getD 0 []), Surface.ofBytes (bss.getD 1 []), Surface.ofBytes (bss.getD 2 []) with
          | some a, some _, some _ =>
            let x := 16 * c.tileCol
            let y := 16 * c.tileRow
            if (c.regs.getD 4 0).toNat ≥ 2 ^ 32 || !a.inside x y then .stopCmd core cx c 4
            else stop [s.overRead core cx c a.map a.mapBytes] (fun m =>
              if a.die (m.getD 0 []) x y ≠ coreDie core then .stopCmd core cx c 4
              else .cmd core false cx c.id (fun q => { q with
                started := true, begun := s.t, denied := [], data := bss.flatten ++ m.getD 0 [] }))
          | _, _, _ => .stopCmd core cx c 4)

/-! A pixel (R271). -/

/-- Why a pixel is not computed now. -/
inductive Halt where
  | absent (va : W64) (level : Nat)
  | fault
  | hold

/-- The sector of local memory in which a record lies. -/
def State.sectorAt (s : State) (core cx : Nat) (va : W64) : Option Nat :=
  match s.xlatCore core (s.ctxOf (ctxKey core cx)) va with
  | .ok t => if t.place = .slice then some (t.addr / 32) else none
  | _ => none

/-- A record as Overlock reads it, with whether it is poisoned. One that the command has stored is the record of now, of before
or of after that store, freely (R271). -/
def State.recordOf (s : State) (core cx : Nat) (c : Cmd) (va : W64) : Except Halt (Rsv × Bool) :=
  match s.overRead core cx c va 32 with
  | .bytes bs bad =>
    let (bs, bad) := match (s.sectorAt core cx va).bind c.wrote.find with
      | some (old, new) => [(bs, bad), old, new].getD (Config.freeNat s.freeCtr 9700 (va.toNat / 32) % 3) (bs, bad)
      | none => (bs, bad)
    .ok (Rsv.ofWords (fun i => BitVec.ofNat 32 (leNat ((bs.drop (4 * i)).take 4))), bad)
  | .absent a level => .error (.absent a level)
  | .fault => .error .fault
  | .hold => .error .hold

/-- A candidate: its record, its pixel, whether it is spatial. -/
structure Cand where
  rec_ : Rsv
  x : Nat
  y : Nat
  spatial : Bool

/-- x + dx rounded to an integer, ties to even; none where dx is no number (R271). -/
def moved (x : Nat) (w : Nat) : Option Int :=
  match Fmt.f16.decode w with
  | .fin n m e => some (rnInt (dyAdd (x : Int) 0 (sgn n m) e))
  | _ => none

/-- The temporal candidate of a pixel (R271), with whether what it read was poisoned, and the record that it read. -/
def State.temporal (s : State) (core cx : Nat) (c : Cmd) (a b : Surface) (x y : Nat) : Except Halt (Option Cand × Bool × List W64) :=
  match s.overRead core cx c (c.regs.getD 3 0 + BitVec.ofNat 64 (4 * (y * a.width + x))) 4 with
  | .absent v level => .error (.absent v level)
  | .fault => .error .fault
  | .hold => .error .hold
  | .bytes bs bad =>
    let w := leNat bs
    match moved x (w % 2 ^ 16), moved y (w / 2 ^ 16) with
    | some px, some py =>
      if !b.inside px py then .ok (none, bad, [])
      else
        let va := b.base + BitVec.ofNat 64 (b.offset px.toNat py.toNat)
        match s.recordOf core cx c va with
        | .error h => .error h
        | .ok (r, bad') =>
          .ok (if r.isNull then none else some { rec_ := r, x := px.toNat, y := py.toNat, spatial := false }, bad || bad', [va])
    | _, _ => .ok (none, bad, [])

/-- Whether a pixel of the other die lies more than the halo width from the region of another pixel (R271). -/
def beyondHalo (h x y nx ny : Nat) : Bool :=
  let far := fun (p n : Nat) =>
    let lo := p / 256 * 256
    decide (n + h < lo) || decide (n > lo + 255 + h)
  far x nx || far y ny

/-- The place of a neighbour's record: none where it is no candidate (R271, R276). -/
def neighbour (a : Surface) (map : List Byte) (x y : Nat) (nx ny : Int) : Option W64 :=
  if !a.inside nx ny || (nx = x && ny = y) then none
  else
    let px := nx.toNat
    let py := ny.toNat
    let o := BitVec.ofNat 64 (a.offset px py)
    if a.die map px py = a.die map x y then some (a.base + o)
    else if beyondHalo a.halo x y px py then none
    else some (a.haloBase + o)

/-- The spatial candidates of a pixel, each with its draw (R271): none where the pixel drawn is no candidate; with whether one was
poisoned, and the records that they read. -/
def State.spatials (s : State) (core cx : Nat) (c : Cmd) (a : Surface) (x y : Nat) :
    Nat → Rsv → Except Halt (Rsv × List (Option Cand) × Bool × List W64)
  | 0, d => .ok (d, [], false, [])
  | n + 1, d =>
    let h := mix d.key d.ctr
    let d := { d with ctr := d.ctr + 1 }
    let k := 2 * rsRad c.f + 1
    let off := fun (v : Nat) => ((v % k : Nat) : Int) - (rsRad c.f : Int)
    let nx := (x : Int) + off (h.toNat / 2 ^ 16)
    let ny := (y : Int) + off (h.toNat % 2 ^ 16)
    let here : Except Halt (Option Cand × Bool × List W64) := match neighbour a c.map x y nx ny with
      | none => .ok (none, false, [])
      | some va => match s.recordOf core cx c va with
        | .error e => .error e
        | .ok (r, bad) =>
          .ok (if r.isNull then none else some { rec_ := r, x := nx.toNat, y := ny.toNat, spatial := true }, bad, [va])
    match here with
    | .error e => .error e
    | .ok (q, bad, vas) => match spatials s core cx c a x y n d with
      | .error e => .error e
      | .ok (d, l, bad', vas') => .ok (d, q :: l, bad || bad', vas ++ vas')

/-- A pixel of a row as its candidates are merged (R271): its column in the tile, the record, the age that the last selection gives
it, the status that its invocations add, whether a record that it read was poisoned, its candidates, the temporal first, and the
records that it read. -/
structure Merged where
  col : Nat
  d : Rsv
  age : Nat := 0
  status : BitVec 5 := 0
  bad : Bool := false
  cands : List (Option Cand) := []
  reads : List W64 := []

/-- The pixel of a column before its merges (R271). -/
def State.candidates (s : State) (core cx : Nat) (c : Cmd) (a b : Surface) (x y col : Nat) : Except Halt Merged :=
  let va := a.base + BitVec.ofNat 64 (a.offset (x + col) y)
  match s.recordOf core cx c va with
  | .error e => .error e
  | .ok (d, bad) => match s.temporal core cx c a b (x + col) y with
    | .error e => .error e
    | .ok (t, bad1, vas1) => match s.spatials core cx c a (x + col) y (rsNbrs c.f + 1) d with
      | .error e => .error e
      | .ok (d, l, bad2, vas2) => .ok { col, d, bad := bad || bad1 || bad2, cands := t :: l, reads := va :: (vas1 ++ vas2) }

/-- The last `n` pixels of a row before their merges, up to the first that is not computed now, with the reason; one that reads a
record which an earlier of them stores, in a sector of `sectors`, waits for that store (R271). -/
def State.rowCandidates (s : State) (core cx : Nat) (c : Cmd) (a b : Surface) (x y : Nat) :
    Nat → List Nat → List Merged × Option Halt
  | 0, _ => ([], none)
  | n + 1, sectors => match s.candidates core cx c a b x y (15 - n) with
    | .error e => ([], some e)
    | .ok m =>
      if m.reads.any (fun va => (s.sectorAt core cx va).any sectors.contains) then ([], none)
      else
        let mine := (c.surface 2).bind (fun q => s.sectorAt core cx (q.base + BitVec.ofNat 64 (q.offset (x + (15 - n)) y)))
        let r := rowCandidates s core cx c a b x y n (mine.toList ++ sectors)
        (m :: r.1, r.2)

/-- The candidates of a row at a step. -/
def candsAt (row : List Merged) (j l : Nat) : Option Cand := ((row.find? (fun m => m.col == l)).bind (fun m => m.cands[j]?)).join

/-- An invocation for the lanes of a row at one step (R272): each lane's result and status, +0 where it ended early (R273). -/
def State.rowCall (s : State) (core cx : Nat) (c : Cmd) (entry : W64) (n x y : Nat) (row : List Merged) (j : Nat) (lanes : W32) :
    Except Halt (Nat → W32 × BitVec 5) :=
  let w := fun (i : Nat) => BitVec.ofNat 32 i
  let args := fun (l : Nat) => match candsAt row j l with
    | some q => [q.rec_.ref0, q.rec_.ref1, w (x + l), w y, w q.x, w q.y, if q.spatial then 1 else 0]
    | none => []
  if lanes = 0 then .ok (fun _ => (0, 0))
  else match s.invoke core cx c entry n lanes args with
    | .done res => .ok (fun l => res.get l (0, 0))
    | .absent va level => .error (.absent va level)
    | _ => .error .hold

/-- The weight that a target callable gives (R271): a NaN, infinite or negative result counts as +0. -/
def targetWeight (w : W32) : W32 :=
  match Fmt.f32.decode w.toNat with
  | .fin n v _ => if n && v != 0 then 0 else w
  | _ => 0

/-- A pixel merges its candidate of a step with its weight (R271). -/
def Merged.merge (m : Merged) (c : Cmd) (q : Cand) (p : W32) (st : BitVec 5) : Merged :=
  let took := m.d.takes (mergeWeight q.rec_ p).1
  { m with
    d := (m.d.mergeRec q.rec_ p (rsMcap c.f)).1
    age := if took then (if q.spatial then 0 else min (q.rec_.mf.toNat / 2 ^ 24 + 1) 255) else m.age
    status := m.status ||| st }

/-- The steps of a row (R271): at each the target callable runs for the pixels that have a candidate, the visibility callable
for those whose weight is positive, and they merge. -/
def State.mergeRow (s : State) (core cx : Nat) (c : Cmd) (x y : Nat) : Nat → List Merged → Except Halt (List Merged)
  | 0, row => .ok row
  | k + 1, row =>
    match mergeRow s core cx c x y k row with
    | .error e => .error e
    | .ok row =>
      match s.rowCall core cx c (c.regs.getD 5 0) (2 * k) x y row k (maskOf (fun l => (candsAt row k l).isSome)) with
      | .error e => .error e
      | .ok g =>
        let p := fun (l : Nat) => targetWeight (g l).1
        let asks := maskOf (fun l => c.f.mb 0 && (candsAt row k l).isSome && positive (p l))
        match s.rowCall core cx c (c.regs.getD 6 0) (2 * k + 1) x y row k asks with
        | .error e => .error e
        | .ok v =>
          .ok (row.map (fun m => match candsAt row k m.col with
            | some q => m.merge c q (if asks.getLsbD m.col && (v m.col).1 == 0 then 0 else p m.col) ((g m.col).2 ||| (v m.col).2)
            | none => m))

/-- The record that a pixel stores (R271). -/
def Merged.result (m : Merged) : Rsv :=
  let n := m.d.normalise.1
  { n with mf := (n.mf &&& 0x00FFFFFF) ||| BitVec.ofNat 32 (2 ^ 24 * m.age) }

/-- The results of the pixels that come next in their row of the tile (R271, R272): for each its record, the status bits that it adds
and whether a record that it read was poisoned. They are computed at one instant (log 37), up to the first that cannot be
computed now. -/
def State.row (s : State) (core cx : Nat) (c : Cmd) (x y : Nat) : Except Halt (List (Rsv × BitVec 5 × Bool)) :=
  match c.surface 0, c.surface 1 with
  | some a, some b =>
    match s.rowCandidates core cx c a b x y (16 - c.done % 16) [] with
    | ([], some e) => .error e
    | ([], none) => .error .hold
    | (row, _) => match s.mergeRow core cx c x y (rsNbrs c.f + 2) row with
      | .error e => .error e
      | .ok row => .ok (row.map (fun m => (m.result, m.status, m.bad)))
  | _, _ => .error .fault

/-- The command that Overlock runs on a core (R403): the one whose tile it has begun, unless that waits for a page; else of those
started the first issued that waits for nothing. A crew that is stopping has none (13 R304). -/
def State.overTurn (s : State) (core : Nat) : Option Nat :=
  let here := (List.range 8).filterMap (fun cx => match (s.core core).queue false cx with
    | c :: _ => if c.kind = .resample && c.started && !c.finished && !s.stopping core cx then some (cx, c) else none
    | [] => none)
  match here.find? (fun e => some e.2.id == (s.core core).overOn) with
  | some e => if e.2.wait.isNone then some e.1 else none
  | none => (here.filter (fun e => e.2.wait.isNone)).foldl (fun (acc : Option (Nat × Cmd)) e => match acc with
      | some b => if e.2.id < b.2.id then some e else acc
      | none => some e) none |>.map Prod.fst

/-- A pixel's record is stored (R271, R198): its page is checked, and its V is not below that of the pixel before. -/
def Prog.storePixel (core cx : Nat) (c : Cmd) (x y : Nat) (r : Rsv) (status : BitVec 5) (bad : Bool) : Prog :=
  .look fun s =>
    match c.surface 2 with
    | none => .skip
    | some a =>
      let ctx := s.ctxOf (ctxKey core cx)
      let va := a.base + BitVec.ofNat 64 (a.offset x y)
      let bs := r.words.flatMap (fun w => leBytes 4 w.toNat)
      match s.meets core ctx true va 32 with
      | .fault => .stopCmd core cx c 4
      | .absent p _ level => if c.denied.contains (pageOf p) then .stopCmd core cx c 4 else .waitCmd core cx c 3 p 1 level
      | .ok =>
        if !(s.rangeLines core ctx va 32).all (s.mine c.id) then .skip
        else
          let ws := ((List.range 32).zip bs).map (fun e => ({ at_ := va + BitVec.ofNat 64 e.1, val := e.2, bad } : WByte))
          .all [
            .cmd core false cx c.id (fun q => { q with
              done := q.done + 1
              denied := []
              row := q.row.drop 1
              wrote := (s.sectorAt core cx va).elim q.wrote (fun sec =>
                q.wrote.put sec ((Memory.reads s.mem (32 * sec) 32, s.poison.contains sec), (bs, bad)))
              status := q.status ||| status ||| (if bad then 8 else 0) }),
            .core core (fun x => { x with overOn := some c.id }),
            .when (status &&& 4 != 0 && c.status &&& 4 == 0) (.recordFault c.scope 0x11 c.pc core (ctxKey core cx) (s.agent (ctxKey core cx)).det),
            .each (s.byLine core ctx ws) (fun g => .engineStore core cx c.id true g.1 g.2.1 g.2.2),
            .look fun s => .when (decide (c.done + 1 ≥ 256)) (
              match ((s.core core).queue false cx).head? with
              | some q => .stopCmd core cx q 0
              | none => .skip)]

/-- RESAMPLE_PIXEL (R271, R274): the next pixel, in row order; the results that stand computed are stored first, and are computed
anew after a restore. -/
def resamplePixel (core cx : Nat) : Prog :=
  .look fun s =>
    if !s.powered || s.overTurn core != some cx then .skip
    else match (s.core core).queue false cx with
      | [] => .skip
      | c :: _ =>
        let x := 16 * c.tileCol
        let y := 16 * c.tileRow + c.done / 16
        let store := fun (e : List W32 × BitVec 5 × Bool) =>
          Prog.storePixel core cx c (x + c.done % 16) y (.ofWords (fun i => e.1.getD i 0)) e.2.1 e.2.2
        match c.row.head? with
        | some e => store e
        | none =>
          match s.row core cx c x y with
          | .error .hold => .skip
          | .error .fault => .stopCmd core cx c 4
          | .error (.absent va level) => .waitCmd core cx c 3 va 0 level
          | .ok row =>
            let row := row.map (fun e => (e.1.words, e.2))
            .all [
              .cmd core false cx c.id (fun q => { q with row, denied := [] }),
              match row.head? with
              | some e => store e
              | none => .skip,
              .act .free]

/-- RESAMPLE_COMPLETE (R215, R270): every store is visible. -/
def resampleComplete (core cx : Nat) : Prog :=
  .look fun s =>
    match (s.core core).queue false cx with
    | [] => .skip
    | c :: _ =>
      if !s.powered || c.kind != .resample || !c.finished || s.ns < c.maxV || s.reqs.any (fun r => r.op == c.id) then .skip
      else .endCmd core cx c

/-- RESAMPLE (R270). -/
def execResample (f : Fields) (s : State) : Host.Outcome State Fault Refusal := perform (.resample f) resampleMeaning s

/-- RESAMPLE_START (R270). -/
def execResampleStart (core cx : Nat) (s : State) : Host.Outcome State Fault Refusal := done (resampleStart core cx) s

/-- RESAMPLE_PIXEL (R271). -/
def execResamplePixel (core cx : Nat) (s : State) : Host.Outcome State Fault Refusal := done (resamplePixel core cx) s

/-- RESAMPLE_COMPLETE (R270). -/
def execResampleComplete (core cx : Nat) (s : State) : Host.Outcome State Fault Refusal := done (resampleComplete core cx) s

end Sys2Proof.Machine
end

