-- ==== Sys2Proof/Machine/Preempt.lean ====
section
/-!
DEFINITION. Pre-emption, restore, context switch and the reclaim of accumulator tiles (13 R304 to R309, 09 R223, R235,
R238). The address of a save area is firmware's, a physical address of device memory (R305).
-/

namespace Sys2Proof.Machine

/-! What a pre-emption waits for. -/

/-- Whether a copy-engine command must finish before its crew is saved (R304, R223): a started copy into scratchpad, unless
it waits for a page (log 48); and a command whose work is over and whose writes are not yet visible. -/
def Cmd.mustEnd (c : Cmd) : Bool := c.finished || (c.started && c.kind == .copy && c.f.mb 1 && c.wait.isNone)

/-- Whether a crew may be saved now (R304): its copies into scratchpad have finished, no MWLOAD or MZERO of it runs (R235),
and no commit of an agent that is to land still waits for its result (R308, 02 R51). -/
def State.mayStop (s : State) (key : Nat) (c : Crew) : Bool :=
  let core := s.core c.core
  let cx := unitOf key - 64
  ((core.queue false cx) ++ (core.queue true cx)).all (fun x => !x.mustEnd) &&
    !(s.matRuns c.core).any (fun h => h.1 == cx && h.2.kind != .mmul && h.2.kind != .mdrain) &&
    (key :: c.bands).all (fun k => (s.agent k).landing.isNone || s.ops.all (fun o => o.agent != k || !o.owed))

/-- Whether an operation outlives the pre-emption of its agent: a commit instruction's (R304, R51). -/
def Op.outlives (o : Op) : Bool :=
  o.commit && match o.kind with
    | .values .. | .spawn .. | .qpush .. | .push .. | .carve .. | .atomic .. => true
    | _ => false

/-! The stop. -/

/-- A thread as it stops: one that waits in TASKGET stands before it (23 R424); one that waits for the reply of a commit
goes on waiting; one whose arrival at a GBAR stands stays there, and its restart point is that GBAR's PC since then (21 R381, R382). -/
def Thread.stopped (t : Thread) (stands asks owed : Bool) : Thread :=
  match t.st with
  | .exited | .parked .. => t
  | .gbar => if stands then { t with restart := t.pc } else { t with st := .ready }
  | .waiting => if asks then { t with restart := t.pc, st := .ready } else if owed then t else { t with st := .ready }
  | _ => { t with st := .ready }

/-- An agent as it stops (R304): no token counts (04 R92), and an arrival at a GBAR that stands (21 R382). -/
def Agent.stopped (a : Agent) (crew : Nat) (stands owed : Bool) : Agent :=
  { a with
    live := false
    crew
    threads := a.threads.map (fun e => (e.1, e.2.stopped stands a.taskWait.isSome owed))
    k := []
    timers := []
    recent := []
    flags := a.allFlags
    flagsDue := []
    runOpen := false
    runPackets := 0
    runStalls := 0
    stalled := false
    taskWait := none
    peeked := []
    gbarIn := stands && a.stMask (· == .gbar) != 0
    gbarDest := if stands then a.gbarDest.map (fun d => (d.1, none)) else [] }

/-- The saved form of a command (R223, R235, 11 R274): a copy keeps the segments, a RESAMPLE the pixels that it has
completed; a CCOPY, an MMUL and an MDRAIN run again from their start. -/
def Cmd.stopped (c : Cmd) : Cmd :=
  match c.kind with
  | .copy | .halo | .resample => { c with wait := none, tok := none, lines := [], met := [], row := [] }
  | _ => { c with wait := none, tok := none, started := false, done := 0, data := [], lines := [], met := [], first := none, overtook := false }

/-- The tiles of the commands that a pre-emption saves become EMPTY (R212, R235): those of MDRAINs, and of copies not yet
started. -/
def Prog.stopTiles (core cx : Nat) : Prog :=
  .look fun s =>
    let cmds := (s.core core).queue false cx ++ (s.core core).queue true cx
    .each (cmds.filter (fun c => c.kind == .mdrain || !c.started)) (fun c =>
      .each c.fills (fun n => .moveTile (ctxKey core cx) n 0 1))

/-- Saved commands that are requeued take the tiles that they fill again (R212, log 91). -/
def Prog.retakeTiles (key : Nat) (cmds : List Cmd) : Prog :=
  .each cmds (fun c => .each c.fills (fun n => .moveTile key n (if c.kind.isMatrix then 3 else 1) 1))

/-- Operations and requests of agents that outlive them move to their saved keys; the rest are discarded, but for stores
(R304). -/
def Prog.keepCommits (n : Nat) (ks : List Nat) : Prog :=
  .upd (fun s =>
    let ops := s.ops.filter (fun o => !ks.contains o.agent || o.outlives)
    let kept := fun (r : Req) => !ks.contains r.agent || r.access != .load || ops.any (fun o => o.id == r.op)
    { s with
      ops := ops.map (fun o => if ks.contains o.agent then { o with agent := savedKey n o.agent, tok := none } else o)
      reqs := (s.reqs.filter kept).map (fun r => if ks.contains r.agent then { r with agent := savedKey n r.agent } else r) })

/-- Save a crew whose engines have stopped (R304, R305): its agents that are to land do so (03 R75, R308); its area is
written; its resources are released but for its accumulator tiles (R307). -/
def Prog.saveCrew (key area : Nat) : Prog :=
  .look fun s =>
    match s.crew? key with
    | none => .skip
    | some c =>
      let ks := key :: c.bands
      let n := s.nextId
      let core := c.core
      let cx := unitOf key - 64
      let new := savedKey n key
      let runs := (s.matRuns core).any (fun h => h.1 == cx)
      .all [
        .each ks (fun k => .endRun k),
        .flushPad ks,
        .stopTiles core cx,
        .upd (fun s => { s with nextId := s.nextId + 1 }),
        .look fun s => .each ks (fun k =>
          .newAgent (savedKey n k)
            ((s.agent k).stopped new (s.atGbar k) (s.ops.any (fun o => o.agent == k && o.outlives)))),
        .keepCommits n ks,
        .look fun s =>
          let cmds := (((s.core core).queue false cx) ++ ((s.core core).queue true cx)).map Cmd.stopped
          let c := { c with bands := c.bands.map (savedKey n), saved := some area, cmds, stopping := none }
          let at_ := area + 2304 + 1024 * c.bands.length
          let pad := at_ + (s.areaTail c).length
          .all [
            .bytes area (s.areaHead c new ++ s.areaTiles c ++ s.areaTail c),
            .moveBytes (Space.scratchAt core c.scratchBase) pad c.scratchSize,
            .freeCrew key true,
            .core core (fun x => { x with
              running := if x.running = some cx then none else x.running
              matIdle := if runs then s.clocks else x.matIdle
              grantedAt := if runs then none else x.grantedAt
              shadows := x.shadows.drop cx
              latched := if x.latched.any (fun l => l.ctx == cx) then none else x.latched }),
            .upd (fun s => { s with
              agents := s.agents.filter (fun e => !ks.contains e.1)
              crews := (s.crews.drop key).put new { c with padImage := pad } })]]

/-- Pre-empt a crew (R304): its agents stop at once; it is saved once its engines allow it. -/
def Prog.preempt (key area : Nat) : Prog :=
  .look fun s =>
    match s.crew? key with
    | none => .skip
    | some c =>
      if c.saved.isSome then .skip
      else if s.mayStop key c then
        .all [
          .each (key :: c.bands) (fun k => .look fun s => match (s.agent k).landing with
            | some why => .land k why
            | none => .skip),
          .checkCrew key,
          .saveCrew key area]
      else
        .seq (.crew key (fun c => { c with stopping := some (c.stopping.getD s.t) }))
          (.each (key :: c.bands) (fun k => .seq (.agent k (fun a => { a with live := false })) (.endRun k)))

/-- Whether a save area of a size may stand at an address: 128 B aligned, in device memory (R305, log 49). -/
def State.areaOk (s : State) (area size : Nat) : Bool :=
  area % 128 == 0 && decide (area + size ≤ Space.pewter) && !s.withheldRange area size

/-- PREEMPTION (R304). -/
def preemption (key area : Nat) : Prog :=
  .look fun s =>
    match s.crew? key with
    | none => .skip
    | some c => .when (s.powered && s.areaOk area (s.areaSize c)) (.preempt key area)

/-! Restore. -/

/-- The bytes that a spilled accumulator tile takes (R307). -/
def spillBytes : Nat := 98368

/-- A spilled accumulator tile (R238). -/
def Acc.bytes (a : Acc) : List Byte :=
  leBytes 2 1 ++ leBytes 2 (BitVec.ofInt 16 a.e).toNat ++ leBytes 1 a.mode ++ leBytes 1 a.mark.toNat ++ leBytes 58 0 ++
    (List.range (128 * 128)).flatMap (fun i => leBytes 6 (BitVec.ofInt 48 (a.elems.get i 0)).toNat)

/-- The accumulator tile that spilled bytes give back (R238). -/
def Acc.ofBytes (b : List Byte) : Acc :=
  let n := fun (o k : Nat) => leNat ((b.drop o).take k)
  { elems := ((List.range (128 * 128)).map (fun i => (i, (BitVec.ofNat 48 (n (64 + 6 * i) 6)).toInt))).filter (fun e => e.2 != 0)
    e := (BitVec.ofNat 16 (n 2 2)).toInt
    mode := n 4 1
    mark := n 5 1 == 1 }

/-- The addresses of the register images of a save area. -/
def State.imageAt (s : State) : Nat → Nat → List Nat
  | 0, _ => []
  | n + 1, a => a :: State.imageAt s n (a + up128 (s.readNat (a + 8) 4))

/-- The agent that a crew's saved agent becomes at a new place. -/
def State.resumed (s : State) (old crew : Nat) (a : Agent) : Agent :=
  { a with
    live := true
    crew
    lastV := s.agentV old
    eligibleSince := s.t
    lastRunEnd := s.t
    ageSteps := 0
    priv := false }

/-- A crew comes to a core that a cancel has reached: its commands and its task meet their fates there (03 R66, R69). -/
def Prog.castHere (key core cx i : Nat) : Prog :=
  .seq (.castCmds core cx i)
    (.look fun s => .when ((s.crew? key).any (fun c => c.task.any (fun t => s.within t.scope i))) (.kill key))

/-- Place a saved crew on a core (R306): its agents from their records, its tiles, its scratchpad, its commands ahead of
new ones; a spilled accumulator tile is reloaded (R307). -/
def Prog.placeSaved (key target : Nat) (c : Crew) (area : Nat) (r : Room) : Prog :=
  .look fun s =>
    let new := ctxKey target r.ctx
    let keys := r.slots.map (agentAt target)
    let rec_ := fun (i : Nat) => s.readBytes (area + 256 + 1024 * i) 1024
    let tilesAt := area + 1280 + 1024 * c.bands.length
    let images := s.imageAt c.bands.length (tilesAt + 1024 + 128 * c.cmds.length)
    let decl := (c.tiles.map Prod.fst).zip r.tiles
    let cmds := c.cmds.map (fun x => { x with headSince := s.t })
    let chunk := fun (l : Launch) => if target = c.core then l else { l with
      chunks := (l.chunks.drop c.core).put target (l.chunks.get c.core (0, 0))
      queues := (l.queues.drop c.core).put target (l.queues.get c.core []) }
    .all [
      .upd (fun s => { s with
        crews := (s.crews.drop key).put new { c with
          core := target
          bands := keys
          ctx := r.ctx
          scratchBase := r.pad
          accs := r.accs
          tiles := decl.foldl (fun t e => t.put e.1 e.2) []
          saved := none
          droppedTask := false
          reclaimed := false
          cmds := [] }
        agents := s.agents.filter (fun e => e.2.crew != key) }),
      .each ((List.range keys.length).zip (c.bands.zip keys)) (fun e =>
        let a := restoredBand (s.agent e.2.1) (rec_ (e.1 + 1)) (s.readBytes (images.getD e.1 0) (up128 (s.readNat (images.getD e.1 0 + 8) 4)))
        .newAgent e.2.2 (s.resumed e.2.1 new a)),
      .newAgent new (s.resumed key new (restoredCtl (s.agent key) (rec_ 0))),
      .moveBytes c.padImage (Space.scratchAt target r.pad) c.scratchSize,
      .core target (fun x => { x with
        tiles := decl.foldl (fun t e =>
          t.put e.2 ((BitVec.ofNat 128 (s.readNat (tilesAt + 16 * e.1) 16) &&& ~~~(7#128 <<< 107)) ||| BitVec.ofNat 128 (2 ^ 107 * r.ctx))) x.tiles
        accs := if c.reclaimed then
            ((List.range r.accs.length).zip r.accs).foldl (fun t e =>
              t.put e.2 (Acc.ofBytes (s.readBytes (c.spill + spillBytes * e.1) spillBytes))) x.accs
          else x.accs
        copyQ := x.copyQ.put r.ctx (cmds.filter (fun q => !q.kind.isMatrix))
        matQ := x.matQ.put r.ctx (cmds.filter (fun q => q.kind.isMatrix)) }),
      .retakeTiles new cmds,
      .launch c.launch chunk,
      .each (new :: keys) (fun k => .look fun s => match (s.agent k).landing with
        | some why => .land k why
        | none => .skip),
      .each s.casts (fun x => .when (x.done.contains (16 + target)) (.castHere new target r.ctx x.scope)),
      .checkCrew new]

/-- RESTORE (R306, R307): on the same core while its accumulator tiles stand there, else on any that admits it, once every
result that it waits for has returned (R304). -/
def restore (key target : Nat) : Prog :=
  .look fun s =>
    match s.crew? key with
    | none => .skip
    | some c =>
      match c.saved, s.launch? c.launch with
      | some area, some l =>
        let ks := key :: c.bands
        let quiet := s.ops.all (fun o => !ks.contains o.agent) && s.reqs.all (fun r => !ks.contains r.agent)
        let inPlace := c.accs != [] && !c.reclaimed
        let free := !s.crews.any (fun e => e.1 != key && e.2.launch == c.launch && e.2.core == target)
        if !s.powered || !quiet || target % 128 ≥ Config.cores || target ≥ 256 || (s.core target).fenced || !free ||
            (inPlace && target != c.core) then .skip
        else match s.room target c.bands.length l.kernel.g c.scratchSize c.tiles.length c.accs.length
            (if inPlace then some c.accs else none) with
          | none => .skip
          | some r =>
            .seq (.upd (fun s => { s with ctxs := s.ctxs.put l.ctx { s.ctx l.ctx with out := false } }))
              (.placeSaved key target c area r)
      | _, _ => .skip

/-- ACCUMULATOR_RECLAIM (R307, R238): the tiles of a saved crew are spilled, and its header says so. -/
def accumulatorReclaim (key area : Nat) : Prog :=
  .look fun s =>
    match s.crew? key with
    | none => .skip
    | some c =>
      if !s.powered || c.saved.isNone || c.reclaimed || c.accs = [] || !s.areaOk area (spillBytes * c.accs.length) then .skip
      else
        .all [
          .each ((List.range c.accs.length).zip c.accs) (fun e =>
            .bytes (area + spillBytes * e.1) (((s.core c.core).accs.get e.2 {}).bytes)),
          .core c.core (fun x => { x with accs := x.accs.filter (fun e => !c.accs.contains e.1) }),
          .crew key (fun c => { c with reclaimed := true, spill := area }),
          .saveAgain key]

/-! Context switch. -/

/-- The crews of a context on the module, with the address of each one's area. -/
def State.crewsOut (s : State) (ctx area : Nat) : List (Nat × Nat) :=
  ((s.crews.filter (fun e => e.2.saved.isNone && ((s.launch? e.2.launch).any (fun l => l.ctx == ctx)))).foldl
    (fun (acc : Nat × List (Nat × Nat)) e => (acc.1 + up128 (s.areaSize e.2), (e.1, acc.1) :: acc.2)) (area, [])).2.reverse

/-- CONTEXT_SWITCH (R309): every crew of the context is pre-empted; its slots stop after their current packets; its tag
leaves every TLB. Where a crew is not ready to stop, the step is to be taken again. -/
def contextSwitch (ctx area : Nat) : Prog :=
  .look fun s =>
    let slots := s.slots.filter (fun (e : Nat × Slot) => e.2.en && e.2.ctx == ctx)
    .when (s.powered && s.areaOk area 0) (.all [
      .upd (fun s => { s with ctxs := s.ctxs.put ctx { s.ctx ctx with out := true } }),
      .each (s.crewsOut ctx area) (fun e => .preempt e.1 e.2),
      .each slots (fun (e : Nat × Slot) => .unmapSlot e.1 e.2.qctl),
      .upd (fun s => { s with
        cores := s.cores.map (fun c => (c.1, { c.2 with tlb := c.2.tlb.filter (fun e => e.ctx != ctx) })) })])

/-- PREEMPTION (R304). -/
def execPreemption (crew area : Nat) (s : State) : Host.Outcome State Fault Refusal := done (preemption crew area) s

/-- RESTORE (R306). -/
def execRestore (crew target : Nat) (s : State) : Host.Outcome State Fault Refusal := done (restore crew target) s

/-- CONTEXT_SWITCH (R309). -/
def execContextSwitch (ctx area : Nat) (s : State) : Host.Outcome State Fault Refusal := done (contextSwitch ctx area) s

/-- ACCUMULATOR_RECLAIM (R307). -/
def execAccumulatorReclaim (crew area : Nat) (s : State) : Host.Outcome State Fault Refusal :=
  done (accumulatorReclaim crew area) s

end Sys2Proof.Machine
end

