-- ==== Sys2Proof/Machine/ScopeIns.lean ====
section
/-!
DEFINITION. The scope instructions SCOPE, SCLOSE, CANCEL and SCWAIT (03 R60 to R65, 20 R355).
-/

namespace Sys2Proof.Machine

/-- The number of user scopes on the way up from a scope, itself included. -/
def State.userDepth (s : State) (i : Nat) : Nat :=
  ((i :: (s.scope i).path).filter (fun j => (s.scope j).level == 0 && j != 0)).length

/-- SCOPE (R61). -/
def scopeMeaning : Meaning where
  reads := fun _ p => [.s p.f.a.toNat]
  writes := fun _ p => [.s p.f.d.toNat]
  body := fun s p =>
    let ack := s.readS p.k p.f.a.toNat
    match s.taskScope p.k with
    | none => .trap 0x10 0x07
    | some parent =>
      if s.userDepth parent + 1 > 8 then .trap 0x10 0x02
      else if ack.toNat % 32 ≠ 0 then .trap 0x10 0x06
      else match s.freeScope with
        | none => .trap 0x10 0x01
        | some i =>
          .go (.all [
            .newScope i 0 parent (p.f.mb 0) ack (s.ctxOf p.k),
            .look fun s => .addOp p (.values [(p.f.d.toNat, s.handle i)] [] 0) p.act true,
            .settle i]) 0

/-- SCLOSE (R62). -/
def scloseMeaning : Meaning where
  reads := fun _ p => [.s p.f.a.toNat]
  body := fun s p =>
    let h := s.readS p.k p.f.a.toNat
    let i := hIndex h
    let e := s.scope i
    let launch := s.launchHome p.k
    let fin := Prog.addOp p (.values [] [] 0) p.act true
    if s.foreign h then .trap 0x10 0x05
    else if s.stale h || e.sealed || e.state == .cancelled || e.state == .closed then .go fin 0
    else if e.level ≠ 0 || !s.within i launch then .trap 0x10 0x05
    else .go (.all [.scope i (fun e => { e with sealed := true }), .settle i, fin]) 0

/-- CANCEL (R63, R355). One that comes before another of its clock in the order of R67 issues no later than that one: in
the clock after it. -/
def cancelMeaning : Meaning where
  reads := fun _ p => [.s p.f.a.toNat]
  writes := fun _ p => [.s p.f.d.toNat]
  body := fun s p =>
    let h := s.readS p.k p.f.a.toNat
    let i := hIndex h
    let job := s.launchJob p.k
    let det := (s.agent p.k).det
    let put := fun (w : W64) => Prog.addOp p (.values [(p.f.d.toNat, w)] [] 0) p.act true
    if s.foreign h then .trap 0x10 0x03
    else if s.stale h then .go (put (ticketWord 0 3 i)) 0
    else if (s.scope i).level = 4 || s.jobOf i != job then .trap 0x10 0x03
    else if !s.cancelTurn p.k then .hold
    else .go (.all [
      put (s.cancelTicket i det (job.getD 0)),
      .takePlace p.k,
      .cancel i det (job.getD 0) ((s.crewOf p.k).map (fun c => (dieOf p.k, c.launch, c.ordinal)))]) 0

/-- SCWAIT (R64). -/
def scwaitMeaning : Meaning where
  reads := fun _ p => [.s p.f.a.toNat]
  writes := fun _ p => [.s p.f.d.toNat]
  body := fun s p =>
    let h := s.readS p.k p.f.a.toNat
    let i := hIndex h
    let e := s.scope i
    let d := p.f.d.toNat
    let own := match s.taskScope p.k with
      | some t => s.within t i
      | none => false
    if s.foreign h || s.stale h then .go (.addOp p (.values [(d, 0x10)] [] 0) p.act false) 0
    else if own then .trap 0x10 0x04
    else if e.state == .cancelled || e.state == .closed then
      .go (.addOp p (.values [(d, e.outcome)] [] 0) p.act false) 0
    else .go (.addOp p (.scwait d i e.gen) p.act false) 0

/-- SCOPE (R61). -/
def execScope (f : Fields) (s : State) : Host.Outcome State Fault Refusal := perform (.scope f) scopeMeaning s

/-- SCLOSE (R62). -/
def execSclose (f : Fields) (s : State) : Host.Outcome State Fault Refusal := perform (.sclose f) scloseMeaning s

/-- CANCEL (R355). -/
def execCancel (f : Fields) (s : State) : Host.Outcome State Fault Refusal := perform (.cancel f) cancelMeaning s

/-- SCWAIT (R64). -/
def execScwait (f : Fields) (s : State) : Host.Outcome State Fault Refusal := perform (.scwait f) scwaitMeaning s

end Sys2Proof.Machine
end

