-- ==== Sys2Proof/Machine/Sync.lean ====
section
/-!
DEFINITION. Synchronisation: BAR (20 R346 to R348), GBAR (21 R380 to R382), FENCE (08 R188, R189, R200) and CWAIT
(20 R361).
-/

namespace Sys2Proof.Machine

/-- BAR (R347): it first meets FENCE.CREW's condition (R192). -/
def barMeaning : Meaning where
  body := fun s p =>
    if !s.crewFence p.k s.nextId then .wait
    else
      .go (.seq (.agent p.k (fun a => a.mapThreads p.act (fun _ t => { t with st := .bar })))
        (.checkBar (s.agent p.k).crew)) p.act

/-- GBAR (R380, R381): a crew that is no member receives NOTMEMBER at once. A GBAR that a restored agent repeats names its
result anew (13 R306). -/
def gbarMeaning : Meaning where
  writes := fun _ p => [.s p.f.d.toNat]
  body := fun s p =>
    let member := ((s.crewOf p.k).map Crew.member).getD false
    if !member then .go (.addOp p (.values [(p.f.d.toNat, 2)] [] 0) p.act false) 0
    else
      let tok := if p.f.setEn then some p.f.setK.toNat else none
      .go (.agent p.k (fun a =>
        { a.mapThreads p.act (fun _ t => { t with st := .gbar }) with
          gbarDest := a.gbarDest.filter (fun e => e != (p.f.d.toNat, none) || !a.gbarIn) ++
            (if p.f.setEn || p.f.d != 0 then [(p.f.d.toNat, tok)] else []) })) p.act

/-- FENCE (R188, R189): it issues once its condition holds. -/
def fenceMeaning (cond : State → Nat → Nat → Bool) : Meaning where
  body := fun s p => if cond s p.k s.nextId then .go .skip 0 else .wait

/-- The earliest in program order of the failed stores of an agent (R200). -/
def earliest (l : List (Nat × W64 × Bool)) : Option (Nat × W64 × Bool) :=
  l.foldl (fun m x => match m with
    | some y => if x.1 < y.1 then some x else some y
    | none => some x) none

/-- FENCE.SYS (R189, R200): failed posted stores are reported at one fence, by the earliest of them. -/
def fenceSysMeaning : Meaning where
  body := fun s p =>
    if !s.sysFence p.k s.nextId then .wait
    else match earliest (s.agent p.k).failed with
      | none => .go .skip 0
      | some (_, va, late) => .fail (if late then 0x0C else 0x0B) va (.agent p.k (fun a => { a with failed := [] }))

/-- The value of CWAIT.POLL (R361). -/
def pollWord (c : Counter) : W64 := BitVec.ofNat 64 (2 ^ 32 * c.count + c.status.toNat)

/-- CWAIT and CWAIT.POLL (R361). -/
def cwaitMeaning : Meaning where
  illegal := fun s p =>
    let w := (s.readS p.k p.f.a.toNat).toNat
    decide (w ≥ 2 ^ 16) || decide (w < 2 ^ 15)
  reads := fun _ p => [.s p.f.a.toNat]
  writes := fun _ p => [.s p.f.d.toNat]
  body := fun s p =>
    let d := p.f.d.toNat
    let i := (s.readS p.k p.f.a.toNat).toNat % 2 ^ 15
    let c := s.counter i
    let kind : OpKind :=
      if p.f.mb 0 && !(s.agent p.k).det then .values [(d, pollWord c)] [] 0
      else if c.count = 0 then .values [(d, BitVec.ofNat 64 c.status.toNat)] [] 0
      else .cwait d i
    .go (.addOp p kind p.act false) 0

/-- BAR (R347). -/
def execBar (f : Fields) (s : State) : Host.Outcome State Fault Refusal := perform (.bar f) barMeaning s

/-- GBAR (R381). -/
def execGbar (f : Fields) (s : State) : Host.Outcome State Fault Refusal := perform (.gbar f) gbarMeaning s

/-- FENCE.CREW (R189). -/
def execFenceCrew (f : Fields) (s : State) : Host.Outcome State Fault Refusal :=
  perform (.fenceCrew f) (fenceMeaning State.crewFence) s

/-- FENCE.DEV (R189). -/
def execFenceDev (f : Fields) (s : State) : Host.Outcome State Fault Refusal :=
  perform (.fenceDev f) (fenceMeaning State.devFence) s

/-- FENCE.SYS (R189, R200). -/
def execFenceSys (f : Fields) (s : State) : Host.Outcome State Fault Refusal := perform (.fenceSys f) fenceSysMeaning s

/-- CWAIT (R361). -/
def execCwait (f : Fields) (s : State) : Host.Outcome State Fault Refusal := perform (.cwait f) cwaitMeaning s

/-- CWAIT.POLL (R361). -/
def execCwaitPoll (f : Fields) (s : State) : Host.Outcome State Fault Refusal := perform (.cwaitPoll f) cwaitMeaning s

end Sys2Proof.Machine
end

