-- ==== Sys2Proof/Machine/Dispatch.lean ====
section
/-!
DEFINITION. One arm for each step of the opcode table: its meaning.
-/

namespace Sys2Proof.Machine

def exec (i : Instr) (s : State) : Host.Outcome State Fault Refusal :=
  match i with
  | .sadd f => Sys2Proof.Machine.execSadd f s
  | .ssub f => Sys2Proof.Machine.execSsub f s
  | .smul f => Sys2Proof.Machine.execSmul f s
  | .smulhi f => Sys2Proof.Machine.execSmulhi f s
  | .sand f => Sys2Proof.Machine.execSand f s
  | .sor f => Sys2Proof.Machine.execSor f s
  | .sxor f => Sys2Proof.Machine.execSxor f s
  | .sshl f => Sys2Proof.Machine.execSshl f s
  | .sshr f => Sys2Proof.Machine.execSshr f s
  | .smin f => Sys2Proof.Machine.execSmin f s
  | .smax f => Sys2Proof.Machine.execSmax f s
  | .scmp f => Sys2Proof.Machine.execScmp f s
  | .ssel f => Sys2Proof.Machine.execSsel f s
  | .smov f => Sys2Proof.Machine.execSmov f s
  | .sli f => Sys2Proof.Machine.execSli f s
  | .sld f => Sys2Proof.Machine.execSld f s
  | .sst f => Sys2Proof.Machine.execSst f s
  | .sread f => Sys2Proof.Machine.execSread f s
  | .sreadClr f => Sys2Proof.Machine.execSreadClr f s
  | .swriteSeed f => Sys2Proof.Machine.execSwriteSeed f s
  | .swriteCheck f => Sys2Proof.Machine.execSwriteCheck f s
  | .swriteDet f => Sys2Proof.Machine.execSwriteDet f s
  | .swriteMonitor f => Sys2Proof.Machine.execSwriteMonitor f s
  | .swritePrivcx f => Sys2Proof.Machine.execSwritePrivcx f s
  | .swriteMqprio f => Sys2Proof.Machine.execSwriteMqprio f s
  | .swriteTilelo f => Sys2Proof.Machine.execSwriteTilelo f s
  | .swriteTilehi f => Sys2Proof.Machine.execSwriteTilehi f s
  | .swriteFenced f => Sys2Proof.Machine.execSwriteFenced f s
  | .swriteFreply f => Sys2Proof.Machine.execSwriteFreply f s
  | .swriteIndir f => Sys2Proof.Machine.execSwriteIndir f s
  | .swritePewter f => Sys2Proof.Machine.execSwritePewter f s
  | .swriteRoute f => Sys2Proof.Machine.execSwriteRoute f s
  | .swriteNode f => Sys2Proof.Machine.execSwriteNode f s
  | .swriteHbeat f => Sys2Proof.Machine.execSwriteHbeat f s
  | .vadd f => Sys2Proof.Machine.execVadd f s
  | .vsub f => Sys2Proof.Machine.execVsub f s
  | .vmul f => Sys2Proof.Machine.execVmul f s
  | .vmulhi f => Sys2Proof.Machine.execVmulhi f s
  | .vmad f => Sys2Proof.Machine.execVmad f s
  | .vand f => Sys2Proof.Machine.execVand f s
  | .vor f => Sys2Proof.Machine.execVor f s
  | .vxor f => Sys2Proof.Machine.execVxor f s
  | .vshl f => Sys2Proof.Machine.execVshl f s
  | .vshr f => Sys2Proof.Machine.execVshr f s
  | .vmin f => Sys2Proof.Machine.execVmin f s
  | .vmax f => Sys2Proof.Machine.execVmax f s
  | .vabs f => Sys2Proof.Machine.execVabs f s
  | .vclz f => Sys2Proof.Machine.execVclz f s
  | .vpopc f => Sys2Proof.Machine.execVpopc f s
  | .vcmp f => Sys2Proof.Machine.execVcmp f s
  | .vsel f => Sys2Proof.Machine.execVsel f s
  | .vmov f => Sys2Proof.Machine.execVmov f s
  | .vaff f => Sys2Proof.Machine.execVaff f s
  | .vshfl f => Sys2Proof.Machine.execVshfl f s
  | .vreduce f => Sys2Proof.Machine.execVreduce f s
  | .vballot f => Sys2Proof.Machine.execVballot f s
  | .vscan f => Sys2Proof.Machine.execVscan f s
  | .fadd f => Sys2Proof.Machine.execFadd f s
  | .fsub f => Sys2Proof.Machine.execFsub f s
  | .fmul f => Sys2Proof.Machine.execFmul f s
  | .ffma f => Sys2Proof.Machine.execFfma f s
  | .fmin f => Sys2Proof.Machine.execFmin f s
  | .fmax f => Sys2Proof.Machine.execFmax f s
  | .fcmp f => Sys2Proof.Machine.execFcmp f s
  | .fclass f => Sys2Proof.Machine.execFclass f s
  | .fcvt f => Sys2Proof.Machine.execFcvt f s
  | .frnd f => Sys2Proof.Machine.execFrnd f s
  | .fkey f => Sys2Proof.Machine.execFkey f s
  | .frcp f => Sys2Proof.Machine.execFrcp f s
  | .frsq f => Sys2Proof.Machine.execFrsq f s
  | .fsqrt f => Sys2Proof.Machine.execFsqrt f s
  | .fdiv f => Sys2Proof.Machine.execFdiv f s
  | .fexp2 f => Sys2Proof.Machine.execFexp2 f s
  | .flog2 f => Sys2Proof.Machine.execFlog2 f s
  | .fsin f => Sys2Proof.Machine.execFsin f s
  | .fcos f => Sys2Proof.Machine.execFcos f s
  | .dxenc f => Sys2Proof.Machine.execDxenc f s
  | .dxdec f => Sys2Proof.Machine.execDxdec f s
  | .ld f => Sys2Proof.Machine.execLd f s
  | .st f => Sys2Proof.Machine.execSt f s
  | .lds f => Sys2Proof.Machine.execLds f s
  | .ldsT f => Sys2Proof.Machine.execLdsT f s
  | .sts f => Sys2Proof.Machine.execSts f s
  | .stsT f => Sys2Proof.Machine.execStsT f s
  | .ldrc f => Sys2Proof.Machine.execLdrc f s
  | .atom f => Sys2Proof.Machine.execAtom f s
  | .atoms f => Sys2Proof.Machine.execAtoms f s
  | .pref f => Sys2Proof.Machine.execPref f s
  | .rtbox f => Sys2Proof.Machine.execRtbox f s
  | .rttri f => Sys2Proof.Machine.execRttri f s
  | .rtstep f => Sys2Proof.Machine.execRtstep f s
  | .rthit f => Sys2Proof.Machine.execRthit f s
  | .ltwalk f => Sys2Proof.Machine.execLtwalk f s
  | .rsvld f => Sys2Proof.Machine.execRsvld f s
  | .rsvst f => Sys2Proof.Machine.execRsvst f s
  | .rsvupd f => Sys2Proof.Machine.execRsvupd f s
  | .rsvmrg f => Sys2Proof.Machine.execRsvmrg f s
  | .rsvnrm f => Sys2Proof.Machine.execRsvnrm f s
  | .rng f => Sys2Proof.Machine.execRng f s
  | .rngU f => Sys2Proof.Machine.execRngU f s
  | .bra f => Sys2Proof.Machine.execBra f s
  | .brc f => Sys2Proof.Machine.execBrc f s
  | .call f => Sys2Proof.Machine.execCall f s
  | .callt f => Sys2Proof.Machine.execCallt f s
  | .ret f => Sys2Proof.Machine.execRet f s
  | .bjoin f => Sys2Proof.Machine.execBjoin f s
  | .bjoinAll f => Sys2Proof.Machine.execBjoinAll f s
  | .exit f => Sys2Proof.Machine.execExit f s
  | .yield f => Sys2Proof.Machine.execYield f s
  | .nop f => Sys2Proof.Machine.execNop f s
  | .trap f => Sys2Proof.Machine.execTrap f s
  | .eret f => Sys2Proof.Machine.execEret f s
  | .eretNext f => Sys2Proof.Machine.execEretNext f s
  | .bar f => Sys2Proof.Machine.execBar f s
  | .gbar f => Sys2Proof.Machine.execGbar f s
  | .fenceCrew f => Sys2Proof.Machine.execFenceCrew f s
  | .fenceDev f => Sys2Proof.Machine.execFenceDev f s
  | .fenceSys f => Sys2Proof.Machine.execFenceSys f s
  | .cwait f => Sys2Proof.Machine.execCwait f s
  | .cwaitPoll f => Sys2Proof.Machine.execCwaitPoll f s
  | .spawn f => Sys2Proof.Machine.execSpawn f s
  | .taskget f => Sys2Proof.Machine.execTaskget f s
  | .taskend f => Sys2Proof.Machine.execTaskend f s
  | .scope f => Sys2Proof.Machine.execScope f s
  | .sclose f => Sys2Proof.Machine.execSclose f s
  | .cancel f => Sys2Proof.Machine.execCancel f s
  | .scwait f => Sys2Proof.Machine.execScwait f s
  | .qpush f => Sys2Proof.Machine.execQpush f s
  | .tmarkReady f => Sys2Proof.Machine.execTmarkReady f s
  | .tmarkEmpty f => Sys2Proof.Machine.execTmarkEmpty f s
  | .tstat f => Sys2Proof.Machine.execTstat f s
  | .copy f => Sys2Proof.Machine.execCopy f s
  | .ccopy f => Sys2Proof.Machine.execCcopy f s
  | .halo f => Sys2Proof.Machine.execHalo f s
  | .mwload f => Sys2Proof.Machine.execMwload f s
  | .mmul f => Sys2Proof.Machine.execMmul f s
  | .mdrain f => Sys2Proof.Machine.execMdrain f s
  | .mzero f => Sys2Proof.Machine.execMzero f s
  | .mzeroAuto f => Sys2Proof.Machine.execMzeroAuto f s
  | .resample f => Sys2Proof.Machine.execResample f s
  | .carve f => Sys2Proof.Machine.execCarve f s
  | .carveComplete core => Sys2Proof.Machine.execCarveComplete core s
  | .tokenRelease agent token => Sys2Proof.Machine.execTokenRelease agent token s
  | .stallElapsed agent => Sys2Proof.Machine.execStallElapsed agent s
  | .runEnd agent => Sys2Proof.Machine.execRunEnd agent s
  | .bandPriorityAgeing agent => Sys2Proof.Machine.execBandPriorityAgeing agent s
  | .loadReply req => Sys2Proof.Machine.execLoadReply req s
  | .sliceFetch req => Sys2Proof.Machine.execSliceFetch req s
  | .sliceStoreArrival req => Sys2Proof.Machine.execSliceStoreArrival req s
  | .storeVisible req => Sys2Proof.Machine.execStoreVisible req s
  | .leaseEnd core line => Sys2Proof.Machine.execLeaseEnd core line s
  | .l2BankService bank => Sys2Proof.Machine.execL2BankService bank s
  | .remoteReply req nack data => Sys2Proof.Machine.execRemoteReply req nack data s
  | .remoteTimeout req => Sys2Proof.Machine.execRemoteTimeout req s
  | .remoteRequest node r => Sys2Proof.Machine.execRemoteRequest node r s
  | .hostCompletion req ok data => Sys2Proof.Machine.execHostCompletion req ok data s
  | .hostCompletionTimeout req => Sys2Proof.Machine.execHostCompletionTimeout req s
  | .hostBar2Access write offset len data => Sys2Proof.Machine.execHostBar2Access write offset len data s
  | .hostBar4Access write offset len data => Sys2Proof.Machine.execHostBar4Access write offset len data s
  | .taskDelivery crew => Sys2Proof.Machine.execTaskDelivery crew s
  | .crewAdmission launch core => Sys2Proof.Machine.execCrewAdmission launch core s
  | .launchAgeing launch => Sys2Proof.Machine.execLaunchAgeing launch s
  | .launchSplit launch => Sys2Proof.Machine.execLaunchSplit launch s
  | .gbarRelease launch => Sys2Proof.Machine.execGbarRelease launch s
  | .cancelBroadcastArrival target scope => Sys2Proof.Machine.execCancelBroadcastArrival target scope s
  | .crewLanding agent => Sys2Proof.Machine.execCrewLanding agent s
  | .ackRecordWrite scope => Sys2Proof.Machine.execAckRecordWrite scope s
  | .peerCancelMessage node handle => Sys2Proof.Machine.execPeerCancelMessage node handle s
  | .peerAcknowledgement scope node => Sys2Proof.Machine.execPeerAcknowledgement scope node s
  | .peerAckTimeout scope node => Sys2Proof.Machine.execPeerAckTimeout scope node s
  | .copySegment core cx => Sys2Proof.Machine.execCopySegment core cx s
  | .copyComplete core cx => Sys2Proof.Machine.execCopyComplete core cx s
  | .ccopyCommit core cx => Sys2Proof.Machine.execCcopyCommit core cx s
  | .mwloadLatch core => Sys2Proof.Machine.execMwloadLatch core s
  | .mzeroExecute core => Sys2Proof.Machine.execMzeroExecute core s
  | .mmulKStep core => Sys2Proof.Machine.execMmulKStep core s
  | .mdrainComplete core => Sys2Proof.Machine.execMdrainComplete core s
  | .matrixPriorityAgeing core cx => Sys2Proof.Machine.execMatrixPriorityAgeing core cx s
  | .governorGrant core => Sys2Proof.Machine.execGovernorGrant core s
  | .resampleStart core cx => Sys2Proof.Machine.execResampleStart core cx s
  | .resamplePixel core cx => Sys2Proof.Machine.execResamplePixel core cx s
  | .resampleComplete core cx => Sys2Proof.Machine.execResampleComplete core cx s
  | .preemption crew area => Sys2Proof.Machine.execPreemption crew area s
  | .restore crew target => Sys2Proof.Machine.execRestore crew target s
  | .contextSwitch ctx area => Sys2Proof.Machine.execContextSwitch ctx area s
  | .accumulatorReclaim crew area => Sys2Proof.Machine.execAccumulatorReclaim crew area s
  | .qtailWrite slot value => Sys2Proof.Machine.execQtailWrite slot value s
  | .qctlWrite slot value => Sys2Proof.Machine.execQctlWrite slot value s
  | .packetRead slot => Sys2Proof.Machine.execPacketRead slot s
  | .queueAgeing slot => Sys2Proof.Machine.execQueueAgeing slot s
  | .pad slot => Sys2Proof.Machine.execPad slot s
  | .launch slot => Sys2Proof.Machine.execLaunch slot s
  | .tasks slot => Sys2Proof.Machine.execTasks slot s
  | .signalWrite slot => Sys2Proof.Machine.execSignalWrite slot s
  | .signalDec slot => Sys2Proof.Machine.execSignalDec slot s
  | .signalArm slot => Sys2Proof.Machine.execSignalArm slot s
  | .signalInc slot => Sys2Proof.Machine.execSignalInc slot s
  | .waitCounterZero slot => Sys2Proof.Machine.execWaitCounterZero slot s
  | .waitWordGe slot => Sys2Proof.Machine.execWaitWordGe slot s
  | .waitWordEq slot => Sys2Proof.Machine.execWaitWordEq slot s
  | .waitCheck slot => Sys2Proof.Machine.execWaitCheck slot s
  | .cancelPacket slot => Sys2Proof.Machine.execCancelPacket slot s
  | .fencePacketDev slot => Sys2Proof.Machine.execFencePacketDev slot s
  | .fencePacketSys slot => Sys2Proof.Machine.execFencePacketSys slot s
  | .scopeCreate slot => Sys2Proof.Machine.execScopeCreate slot s
  | .scopeSeal slot => Sys2Proof.Machine.execScopeSeal slot s
  | .scopeCloseJob slot => Sys2Proof.Machine.execScopeCloseJob slot s
  | .attest slot => Sys2Proof.Machine.execAttest slot s
  | .slewlimWrite die value => Sys2Proof.Machine.execSlewlimWrite die value s
  | .telemetryRecord die => Sys2Proof.Machine.execTelemetryRecord die s
  | .currentSample die => Sys2Proof.Machine.execCurrentSample die s
  | .monitorInterval core => Sys2Proof.Machine.execMonitorInterval core s
  | .eccRetry site place ok => Sys2Proof.Machine.execEccRetry site place ok s
  | .dieLinkLaneFailure link => Sys2Proof.Machine.execDieLinkLaneFailure link s
  | .tropexPortFailure port => Sys2Proof.Machine.execTropexPortFailure port s
  | .powerOn => Sys2Proof.Machine.execPowerOn s
  | .fwcmdStage die part => Sys2Proof.Machine.execFwcmdStage die part s
  | .stageEnd die part image => Sys2Proof.Machine.execStageEnd die part image s
  | .fwcmdReplace die part => Sys2Proof.Machine.execFwcmdReplace die part s
  | .fwcmdDiscard die part => Sys2Proof.Machine.execFwcmdDiscard die part s
  | .quiesceTimeout die part => Sys2Proof.Machine.execQuiesceTimeout die part s
  | .fwExport die part => Sys2Proof.Machine.execFwExport die part s
  | .fallback die part => Sys2Proof.Machine.execFallback die part s
  | .mailboxRequest die part entry => Sys2Proof.Machine.execMailboxRequest die part entry s
  | .leaseRenewal => Sys2Proof.Machine.execLeaseRenewal s
  | .leaderLeaseExpiry => Sys2Proof.Machine.execLeaderLeaseExpiry s
  | .leaderTakeover => Sys2Proof.Machine.execLeaderTakeover s
  | .handoff => Sys2Proof.Machine.execHandoff s
  | .registerWrite fn offset value => Sys2Proof.Machine.execRegisterWrite fn offset value s
  | .unassignedEncoding w => Sys2Proof.Machine.execUnassignedEncoding w s
  | .variableLatencyResult op => Sys2Proof.Machine.execVariableLatencyResult op s
  | .coreReset core => Sys2Proof.Machine.execCoreReset core s
  | .powerOff => Sys2Proof.Machine.execPowerOff s
  | .tlbInvalidation tag page => Sys2Proof.Machine.execTlbInvalidation tag page s
  | .monitorClear unit => Sys2Proof.Machine.execMonitorClear unit s

end Sys2Proof.Machine
end

