-- ==== Sys2Proof/Machine/Sched.lean ====
section
/-!
DEFINITION. Whose turn it is: eligible agents and the order of the ports (02 R28, R46, R47, 12 R294, 09 R204), the packet
that an agent issues (R28, R34), and the schedule that the model follows where its agenda is empty (log 1, log 2).
-/

namespace Sys2Proof.Machine

/-- Whether an agent is eligible (R28): in the clock in which its instruction has been found to wait it is not, so that it leaves
its port to another (R47, 09 R204). -/
def State.eligible (s : State) (k : Nat) : Bool :=
  s.mayIssue k && (s.agent k).waitedAt != some s.clocks && match s.packetPc k with
    | some pc => s.tokensOk k pc
    | none => false

/-- An agent's effective priority number (R294): steps of an earlier time of being eligible do not count. -/
def State.effPrio (s : State) (k : Nat) : Nat :=
  s.basePrio k - min (s.agent k).ageSteps (((s.eligibleFrom k).elim 0 (fun t0 => s.t - t0)) / (64 * Config.usec))

/-- Whether one eligible band goes before another on their port (R294). -/
def State.bandBefore (s : State) (x y : Nat) : Bool :=
  let px := s.effPrio x
  let py := s.effPrio y
  let ex := (s.agent x).lastRunEnd
  let ey := (s.agent y).lastRunEnd
  px < py || (px == py && (ex < ey || (ex == ey && x < y)))

/-- How far a control context stands after the one that ran last (R204). -/
def State.ctlTurn (s : State) (k : Nat) : Nat := (unitOf k - 64 + 8 - (s.core (coreOf k)).lastCtl - 1) % 8

/-- Whether an eligible agent goes before another of its port. -/
def State.goesBefore (s : State) (x y : Nat) : Bool :=
  if (s.agent y).kind = .band then s.bandBefore x y else s.ctlTurn x < s.ctlTurn y

/-- Whether two agents share an issue port. -/
def samePort (x y : Nat) : Bool := coreOf x == coreOf y && portOf x == portOf y && isSaved x == isSaved y

/-- Whether it is an agent's turn on its port: its run is open, or it is the port's choice (R46, R47). -/
def State.myTurn (s : State) (k : Nat) : Bool :=
  s.mayIssue k && ((s.agent k).runOpen ||
    (s.eligible k && s.agents.all (fun e => e.1 == k || !samePort e.1 k || !s.eligible e.1 || s.goesBefore k e.1)))

/-- The fetch at a PC meets an absent page: its threads park, unless no record can be taken (05 R103, 07 R172). -/
def Prog.parkFetch (k : Nat) (pc : W64) (level : Nat) : Prog :=
  .look fun s =>
    if s.faultFull (dieOf k) (coreOf k) && (s.openFault (dieOf k) (s.ctxOf k) pc).isNone then .yield k
    else
      let a := s.agent k
      .all [
        .takeSlot k 0,
        .park k (s.ctxOf k) pc (fun _ => pc) 3 level (a.packetAt pc),
        .look fun s => .when (s.runOver k false) (.endRun k)]

/-- The fetch at a PC traps. -/
def Prog.trapFetch (k : Nat) (pc : W64) (code : Nat) (taddr : W64) : Prog :=
  .look fun s => .trapThreads k ((s.agent k).packetAt pc) code pc (s.lengthAt k pc) taddr false

/-- The turn of an agent: it issues the instruction at its packet's PC. Where no packet may issue, its run ends (R47). -/
def issueTurn (k : Nat) (s : State) : Host.Outcome State Fault Refusal :=
  let s := { s with cur := k, curPc := none }
  if !s.myTurn k then .next s
  else match s.packetPc k with
    | none => done (.endRun k) s
    | some pc =>
      match s.fetchAt k pc with
      | .bytes bs => exec (fetched bs) { s with curPc := some pc }
      | .trap code ta => done (.trapFetch k pc code ta) s
      | .absent level => done (.parkFetch k pc level) s

/-! Time. -/

/-- The stores of local memory that are due (08 R181). -/
def State.dueStore (s : State) : Option Req :=
  s.reqs.find? (fun r => s.powered && r.stage == .arrived && decide (r.v ≤ s.ns))

/-- Whether a carve-out's 20 µs are over (07 R158). -/
def Core.carveOver (c : Core) (now : Nat) : Bool := c.carving.any (fun v => decide (v.since + 20 * Config.usec ≤ now))

/-- Whether a row of the table is a step of the device and no instruction. -/
def isDevice (i : Instr) : Bool :=
  match i with
  | .unassignedEncoding _ => false
  | i => (opcodeOf i).isNone

/-- The state that an outcome leaves. -/
def stateOf (o : Host.Outcome State Fault Refusal) (s : State) : State :=
  match o with
  | .next t => t
  | _ => s

/-- Whether a step of the device does anything now. -/
def State.enabled (s : State) (i : Instr) : Bool := isDevice i && decide (stateOf (exec i s) s ≠ s)

/-- The time of an agent's, a launch's or a queue's next ageing step (12 R290, R294). -/
def ageTime (since steps : Nat) : Nat := since + (steps + 1) * 64 * Config.usec

/-- The timeouts of requests, pushes and cancels (14 R311, R316, 03 R68), with their times. -/
def State.timeouts (s : State) : List (Nat × Instr) :=
  s.reqs.flatMap (fun r => match r.place with
    | .node _ => if r.stage = .sent then [(r.sentAt + 100 * Config.usec, .remoteTimeout r.id)] else []
    | .host => if r.stage = .sent && r.access != .store then [(r.sentAt + 10 * Config.msec, .hostCompletionTimeout r.id)] else []
    | _ => []) ++
  s.ops.flatMap (fun o => match o.kind with
    | .push _ _ since _ => [(since + 100 * Config.usec, .remoteTimeout o.id)]
    | _ => []) ++
  s.scopes.flatMap (fun (e : Nat × Scope) => e.2.remote.flatMap (fun p =>
    p.sent.toList.map (fun t => (t + 100 * Config.usec, .peerAckTimeout e.1 p.node))))

/-- The splits of launches and the ageing of launches, queues, bands and matrix commands (12 R290, R294, 09 R225), with
their times. -/
def State.ageings (s : State) : List (Nat × Instr) :=
  s.launches.flatMap (fun (e : Nat × Launch) =>
    [(if s.splitDue e.1 e.2 then s.t else e.2.startAt + 50 * Config.usec, .launchSplit e.1),
      (ageTime e.2.processed e.2.ageSteps, .launchAgeing e.1)]) ++
  s.slots.map (fun (e : Nat × Slot) => (ageTime e.2.since e.2.ageSteps, .queueAgeing e.1)) ++
  (s.agents.filter (fun e => decide (e.2.ageSteps < s.basePrio e.1))).map (fun (e : Nat × Agent) =>
    (ageTime e.2.eligibleSince e.2.ageSteps, .bandPriorityAgeing e.1)) ++
  s.cores.flatMap (fun (e : Nat × Core) => e.2.matQ.flatMap (fun (q : Nat × List Cmd) =>
    (q.2.take 1).map (fun c => (c.headSince + (c.ageSteps + 1) * 32 * Config.usec, .matrixPriorityAgeing e.1 q.1))))

/-- When an agent of a die reads a global time: 4 ns before the earliest moment that can be (01 R15) while that is to come, which is
then looked at again. -/
def State.readsAt (s : State) (die ns : Nat) : Nat :=
  if s.t + 12 < Config.tick * ns then Config.tick * ns - 12 else Config.tick * nsAt die ns

/-- The deadlines of the firmware complex (15 R326, R332, R334), with their times: what comes at a partition's deadline is
still in time. -/
def State.fwDeadlines (s : State) : List (Nat × Instr) :=
  [0, 1].flatMap (fun d =>
    (if (s.fw d).leads then [(s.readsAt d (s.fw d).leaseEnd, .leaderLeaseExpiry)]
     else [(s.readsAt d ((s.fw d).leaseEnd + 1000000), .leaderTakeover)]) ++
    [0, 1, 2].flatMap (fun p => match (s.part d p).phase with
      | .quiesce => [((s.part d p).quiesceAt + 5 * Config.msec + 1, .quiesceTimeout d p)]
      | .probation => [((s.part d p).deadline + 1, .fallback d p)]
      | _ => []))

/-- The steps of the device that have a time of their own, with those times. -/
def State.timed (s : State) : List (Nat × Instr) :=
  if s.powered then s.timeouts ++ s.ageings ++ s.fwDeadlines else []

/-- What is due at this instant and goes before all else: a store that becomes visible (08 R181), a current sample, a
telemetry record (14 R318), the end of a monitor interval (R322), a carve-out (07 R158), a timeout, a split, a step of
ageing, a deadline of firmware. -/
def State.dueStep (s : State) : Option Instr :=
  match s.dueStore with
  | some r => some (.storeVisible r.id)
  | none =>
    if !s.powered then none
    else match [0, 1].find? (fun d => decide ((s.powerOf d).sampleAt ≤ s.t)), [0, 1].find? s.recordDue with
      | some d, _ => some (.currentSample d)
      | none, some d => some (.telemetryRecord d)
      | none, none =>
        match s.cores.find? (fun e => decide (e.1 % 128 < Config.cores) && decide (e.1 < 256) && s.intervalOver e.1) with
        | some e => some (.monitorInterval e.1)
        | none =>
          match s.cores.find? (fun e => e.2.carveOver s.t) with
          | some e => some (.carveComplete e.1)
          | none => (s.timed.find? (fun e => decide (e.1 ≤ s.t) && s.enabled e.2)).map Prod.snd

/-- The times at which something is due. -/
def State.dueTimes (s : State) : List Nat :=
  (s.reqs.filter (fun r => r.stage == .arrived)).map (fun r => Config.tick * r.v) ++
    [0, 1].flatMap (fun d => [(s.powerOf d).sampleAt, (s.powerOf d).recordAt]) ++
    s.cores.flatMap (fun (e : Nat × Core) =>
      (s.t / Config.msec + 1) * Config.msec :: (e.2.carving.toList.map (fun v => v.since + 20 * Config.usec))) ++
    (s.timed.map Prod.fst).filter (s.t < ·)

/-- The clocks that pass: at most `n`, and none beyond the first at which something is due. -/
def State.passes (s : State) (n : Nat) : Nat :=
  if !s.powered then n
  else s.dueTimes.foldl (fun m t => min m (max 1 ((t - s.t + Config.clock - 1) / Config.clock))) n

/-- Clocks pass. -/
def passClocks (n : Nat) : Prog := .look fun s => .act (.pass (Config.clock * s.passes n))

/-! The schedule. -/

/-- The steps that the device takes by itself, request by request and unit by unit. -/
def State.ownSteps (s : State) : List Instr :=
  s.reqs.flatMap (fun r => [.sliceFetch r.id, .sliceStoreArrival r.id, .loadReply r.id, .hostCompletionTimeout r.id,
    .remoteTimeout r.id]) ++
  s.ops.flatMap (fun o => [.variableLatencyResult o.id, .remoteTimeout o.id]) ++
  s.agents.flatMap (fun (e : Nat × Agent) => e.2.timers.map (fun t => .tokenRelease e.1 t.1) ++
    [.stallElapsed e.1, .runEnd e.1, .bandPriorityAgeing e.1, .crewLanding e.1]) ++
  s.cores.flatMap (fun (e : Nat × Core) => e.2.l1.map (fun l => .leaseEnd e.1 l.line) ++
    [.carveComplete e.1, .mwloadLatch e.1, .mzeroExecute e.1, .mdrainComplete e.1, .governorGrant e.1, .mmulKStep e.1,
      .monitorInterval e.1] ++
    (List.range 8).flatMap (fun cx => [.copyComplete e.1 cx, .ccopyCommit e.1 cx, .copySegment e.1 cx,
      .resampleComplete e.1 cx, .resamplePixel e.1 cx, .resampleStart e.1 cx, .matrixPriorityAgeing e.1 cx])) ++
  s.casts.flatMap (fun c => (s.castLeft c).map (fun t => .cancelBroadcastArrival t c.scope)) ++
  s.scopes.flatMap (fun (e : Nat × Scope) => .ackRecordWrite e.1 :: (e.2.remote.flatMap (fun p =>
    (if p.node = 0x1FF then [.peerAcknowledgement e.1 p.node] ++
        (if p.sent.isSome && !p.settled && (s.scope (hIndex p.handle)).state == .opened then [.peerCancelMessage 0x1FF p.handle] else [])
      else []) ++ [.peerAckTimeout e.1 p.node]))) ++
  s.slots.flatMap (fun (e : Nat × Slot) => [.packetRead e.1, .pad e.1, .launch e.1, .tasks e.1, .signalWrite e.1,
    .signalDec e.1, .signalArm e.1, .signalInc e.1, .waitCounterZero e.1, .waitWordGe e.1, .waitWordEq e.1, .waitCheck e.1,
    .cancelPacket e.1, .fencePacketDev e.1, .fencePacketSys e.1, .scopeCreate e.1, .scopeSeal e.1, .scopeCloseJob e.1,
    .attest e.1, .queueAgeing e.1]) ++
  s.launches.flatMap (fun (e : Nat × Launch) => [.launchSplit e.1, .gbarRelease e.1, .launchAgeing e.1] ++
    [0, 1].flatMap (fun d => (List.range Config.cores).map (fun c => .crewAdmission e.1 (128 * d + c)))) ++
  s.crews.map (fun e => .taskDelivery e.1) ++
  [0, 1].flatMap (fun d => [.currentSample d, .telemetryRecord d] ++
    [0, 1, 2].flatMap (fun p => [.quiesceTimeout d p, .fallback d p] ++
      (if (s.part d p).phase == .exporting || (s.part d p).phase == .switching then [.fwExport d p] else []))) ++
  [.leaderLeaseExpiry, .leaderTakeover, .leaseRenewal, .handoff]

/-- Whether an agent's turn does anything now: an instruction that is held, or waits, leaves the state as it is (R47). -/
def State.acts (s : State) (k : Nat) : Bool :=
  s.myTurn k && decide ({ stateOf (issueTurn k s) s with cur := s.cur, curPc := s.curPc } ≠ s)

/-- What happens where the agenda says nothing (log 2): a step of the device that is due, else the turn of an agent that
acts, else one clock passes. -/
def State.defaultTurn (s : State) : Turn :=
  match s.ownSteps.find? s.enabled with
  | some i => .event i
  | none =>
    match s.agents.find? (fun e => s.acts e.1) with
    | some e => .issue e.1
    | none => .pass 1

/-- The next turn: what is due goes first, then the agenda (log 1). -/
def State.turn (s : State) : Turn :=
  match s.dueStep with
  | some i => .event i
  | none =>
    match s.agenda with
    | t :: _ => t
    | [] => s.defaultTurn

/-- The state once its turn is taken from the agenda. -/
def State.popped (s : State) : State :=
  match s.dueStep with
  | some _ => s
  | none => { s with agenda := s.agenda.tail }

/-- Take a turn: a step of the device, the issue of an agent, or clocks that pass. -/
def takeTurn (t : Turn) (s : State) : Host.Outcome State Fault Refusal :=
  match t with
  | .event i => if isDevice i then exec i s else .next s
  | .issue k => issueTurn k s
  | .pass n => done (passClocks n) s

end Sys2Proof.Machine
end

