-- ==== Sys2Proof/Machine/Place.lean ====
section
/-!
DEFINITION. Placing one instruction where the next step fetches it (log 1): a crew on core 0 of die 0 with a launch, its
scopes and a task, an identity page of 1 GiB, and the instruction's bytes in memory and in the launch's code; for SWRITE,
a firmware partition with the bytes in its SRAM.
-/

namespace Sys2Proof.Machine

/-- The agent that issues an instruction: a firmware partition for SWRITE, the one that owns the target (22 R422); a control
context for domain 11, opcodes 0x80 to 0x88 (05 R118); else a band. -/
def placeAgent (i : Instr) : Nat :=
  match opcodeOf i with
  | some (0, 0x19, f) =>
    let c := f.d.toNat
    agentKey 0 255 (if c ≤ 8 then 1 else if c = 0x0C || c = 0x0D then 2 else 0)
  | some (3, o, _) => if 0x80 ≤ o && o ≤ 0x88 then 64 else 0
  | _ => 0

/-- The address of the instruction. -/
def placePc : Nat := 0x10000

/-- The tables of an identity page of 1 GiB with every permission (07 R163, R164): root, level 3, level 2. -/
def placeTables : List (Nat × Nat) :=
  [(0x1000, 0x2000 + 1), (0x2000, 0x3000 + 1), (0x3000, 2 ^ 54 * 0x1FF + 0x3D)]

/-- The bytes that an instruction's bits `w` of `nbits` bits stand for, with zeros after them. -/
def placeBytes (nbits w : Nat) : List Byte := leBytes 16 (w % 2 ^ nbits)

/-- The launch of the crew. -/
def placeLaunch (bytes : List Byte) : Launch :=
  { scope := 3
    gen := 0
    job := 5
    id := 1
    die := 0
    slot := 0
    ctx := 0
    prio := 0
    kernel := {
      entry := BitVec.ofNat 64 placePc
      control := BitVec.ofNat 64 placePc
      landing := BitVec.ofNat 64 placePc
      handler := BitVec.ofNat 64 (placePc + 0x100)
      bands := 1
      n := 126
      g := 126 }
    code := Memory.writes [] placePc bytes
    phase := .running
    split := true
    formed := true
    crewsOf := [(0, 1)] }

/-- The crew, which holds a task. -/
def placeCrewRec : Crew :=
  { core := 0
    launch := 1
    bands := [0]
    hasCtl := true
    task := some { kind := 1, scope := 3, payload := [0, 0, 0, 0], seq := 0 } }

/-- An agent of the crew. -/
def placeBand (kind : AgentKind) (lanes now : Nat) : Agent :=
  { kind
    live := true
    crew := 64
    received := true
    priv := kind == .ctl
    n := 126
    g := 126
    threads := (List.range lanes).map (fun i =>
      (i, { pc := BitVec.ofNat 64 placePc, restart := BitVec.ofNat 64 placePc, st := .ready }))
    eligibleSince := now
    lastRunEnd := now }

/-- The scopes of the launch: its job, phase, graph and launch scope (03 R55). -/
def placeScopes : Tbl Scope :=
  [(5, { used := true, level := 4, outstanding := 1 }),
    (1, { used := true, level := 3, parent := 5, path := [5], outstanding := 1 }),
    (2, { used := true, level := 2, parent := 1, path := [1, 5], outstanding := 1 }),
    (3, { used := true, level := 1, parent := 2, path := [2, 1, 5], outstanding := 1 })]

/-- Nothing but a store is due: the samples, records, intervals and carve-outs that are due count from now. -/
def State.undue (s : State) : State :=
  { s with
    power := [0, 1].foldl (fun t d =>
      let p := s.powerOf d
      if p.sampleAt ≤ s.t ∨ p.recordAt ≤ s.t then t.put d { p with lastSample := max p.lastSample s.t, lastRecord := max p.lastRecord s.t }
      else t) s.power
    cores := s.cores.map (fun e => (e.1, { e.2 with
      intervalAt := max e.2.intervalAt (s.t / Config.msec * Config.msec)
      carving := if e.2.carveOver s.t then none else e.2.carving })) }

/-- Stores that are due become visible first, so that the next turn is the agenda's. -/
def settleDue : Nat → State → State
  | 0, s => s
  | n + 1, s =>
    match s.dueStore with
    | some r => settleDue n (stateOf (exec (.storeVisible r.id) s) s)
    | none => s

/-- Place an instruction for a band or a control context. -/
def State.placeCode (s : State) (k : Nat) (bytes : List Byte) : State :=
  let mem := placeTables.foldl (fun m e => Memory.writes m e.1 (leBytes 8 e.2)) s.mem
  { s with
    powered := true
    mem := Memory.writes mem placePc bytes
    poison := []
    ctxs := s.ctxs.put 0 { root := 0x1000, hasRoot := true }
    launches := s.launches.put 1 (placeLaunch bytes)
    crews := s.crews.put 64 placeCrewRec
    scopes := placeScopes.foldl (fun t e => t.put e.1 e.2) s.scopes
    cores := s.cores.put 0 { intervalAt := s.t / Config.msec * Config.msec }
    agents := Tbl.put (Tbl.put (s.agents.filter (fun (e : Nat × Agent) => !(coreOf e.1 == 0 && decide (unitOf e.1 < 72)))) 0
      (placeBand .band (if k = 0 then 32 else 0) s.t)) 64 (placeBand .ctl (if k = 64 then 1 else 0) s.t)
    ops := s.ops.filter (fun o => coreOf o.agent != 0)
    agenda := [.issue k] }

/-- Place an instruction for a firmware partition of die 0: at the entry of the image in the slot from which it runs. -/
def State.placeFw (s : State) (k : Nat) (bytes : List Byte) : State :=
  let p := s.part 0 (unitOf k)
  let pc := BitVec.ofNat 64 (slotOff (unitOf k) p.running + 512)
  { s with
    powered := true
    parts := s.parts.put (unitOf k) { p with images := p.images.put p.running (List.replicate 512 0 ++ bytes) }
    agents := s.agents.put k { bootAgent (unitOf k) with
      threads := [(0, { pc, restart := pc, st := .ready })], n := 126, g := 126, eligibleSince := s.t, lastRunEnd := s.t }
    ops := s.ops.filter (fun o => o.agent != k)
    cores := s.cores.put (coreOf k) { intervalAt := s.t / Config.msec * Config.msec }
    agenda := [.issue k] }

/-- Place the instruction of a word where the next step fetches it. -/
def State.place (s : State) (nbits w : Nat) : State :=
  let s := (settleDue (s.reqs.length + 64 * s.heldPeers.length) { s with powered := true }).undue
  let bytes := placeBytes nbits w
  let k := placeAgent (fetched bytes)
  if coreNo k = 255 then s.placeFw k bytes else s.placeCode k bytes

end Sys2Proof.Machine
end

