-- ==== Sys2Proof/Machine/Step.lean ====
section
/-!
DEFINITION. One step of the module: the next turn of its schedule (log 1). Every turn is a whole, indivisible step of the
spec's table, or clocks that pass.
-/

namespace Sys2Proof.Machine

/-- One step of the module: its next turn. -/
def step (s : State) : Host.Outcome State Fault Refusal := takeTurn s.turn s.popped

/-- The state with the instruction of a word where the next step fetches it. -/
def State.withFetchWord (s : State) (nbits w : Nat) : State := s.place nbits w

end Sys2Proof.Machine
end

