-- ==== Sys2Proof/Safety.lean ====
section
/-!
DEFINITION. The terms that the statements are made in: the invariant of every step, when an agent issues an instruction and
performs it, and what an issue leaves alone.
-/

namespace Sys2Proof.Machine

/-- The invariant of every step: memory keeps its canonical form. -/
def State.inv (s : State) : Prop := Memory.wf s.mem = true

/-- The packet that the agent of the turn issues for an instruction with the fields `f` (02 R28). -/
def State.pktOf (s : State) (i : Instr) (f : Fields) : Pkt := s.pkt s.cur (s.issuePc.getD 0) i f

/-- Whether the agent of the turn may issue an instruction now: its run, STALL count and port allow it (02 R28, R46), the
tokens of WAIT are at zero and the one of SET may rise (04 R91), and a packet stands at its PC. -/
def State.issues (s : State) (i : Instr) (f : Fields) : Bool :=
  s.issuePc.isSome && (s.pktOf i f).lanes != 0 && s.mayIssue s.cur && (s.agent s.cur).waitOk f && (s.agent s.cur).setOk f

/-- Whether the words pass the encoding checks for the agent, the instruction is the one that they name, and it lies in its fetch
block (05 R120). -/
def State.encodingOk (s : State) (i : Instr) (f : Fields) : Bool :=
  i.formOk && !crosses (s.issuePc.getD 0) f &&
    (checkWords (s.agent s.cur).kind (s.agent s.cur).priv (s.agent s.cur).n i).isNone

/-- Whether the agent of the turn performs an instruction that reads and writes the given registers and has the given V
results: it issues it, some thread's guard is true (04 R81), and the checks of 05 R120 pass: the encoding, the rule on
scalar writes (02 R34), checking mode (04 R96) and the general slots (04 R88). -/
def State.performs (s : State) (i : Instr) (f : Fields) (reads writes : List Reg) (dests : List (Nat × Bool)) : Bool :=
  let p := s.pktOf i f
  let a := s.agent s.cur
  s.issues i f && s.encodingOk i f && p.act != 0 &&
    (!needsFull a.kind i f || s.split s.cur p.pc p.lanes == .go) &&
    (!a.check || (s.checking s.cur (.p f.pred.toNat :: reads) writes).isNone) &&
    (dests == [] ||
      decide (s.demand s.cur (p.lastUse.filter (fun n => !(dests.map Prod.fst).contains n)) dests ≤ a.g))

/-- A thread after its packet has gone on (02 R26): its PC is the next instruction's, unless it stays; a region start and a
commit move its restart point (02 R49, R51). -/
def Pkt.moved (p : Pkt) (commit : Bool) (stay : W32) (e : Nat × Thread) : Nat × Thread :=
  if p.lanes.getLsbD e.1 then
    (e.1, { e.2 with
      pc := if stay.getLsbD e.1 then e.2.pc else p.next
      restart := if commit && !stay.getLsbD e.1 then p.next else if p.f.rs then p.pc else e.2.restart })
  else e

/-- The clocks after which an instruction of fixed latency writes its result (04 R89). -/
def latencyOf (i : Instr) : Nat :=
  match (specOf .band i).lat with
  | .fixed l => l
  | _ => 0

/-- An agent without its threads and the state of its issue. -/
def Agent.apart (a : Agent) : Agent :=
  { a with
    threads := []
    k := []
    tokAt := []
    runOpen := false
    runPackets := 0
    runStalls := 0
    stalled := false
    stallEnd := 0
    timers := []
    recent := []
    eligibleSince := 0
    lastRunEnd := 0
    ageSteps := 0 }

/-- The agent `b` has what `a` has, but for the V-, S- and P-registers that are named, the flags with those of results still to come,
its threads and the state of its issue. -/
def Agent.keeps (a b : Agent) (vs ss ps : List Nat) : Prop :=
  b.apart = { a.apart with v := b.v, s := b.s, p := b.p, flags := b.flags, flagsDue := b.flagsDue } ∧
    (∀ n, n ∉ vs → b.rawV n = a.rawV n) ∧ (∀ n, n ∉ ss → b.rawS n = a.rawS n) ∧ (∀ n, n ∉ ps → b.rawP n = a.rawP n)

/-- The agent of the turn takes the flags of an instruction when its result comes, and keeps every other flag (06 R133, 22 R418). -/
def State.flagsCome (s t : State) (i : Instr) (fl : BitVec 5) : Prop :=
  ∀ now, (t.agent s.cur).flagsAt now =
    (s.agent s.cur).flagsAt now ||| if s.t + Config.clock * latencyOf i ≤ now then fl else 0

/-- The agent of the turn keeps its flags. -/
def State.flagsStay (s t : State) : Prop := ∀ now, (t.agent s.cur).flagsAt now = (s.agent s.cur).flagsAt now

/-- Nothing but the agent `k`, the issue ports of its core, the operations in flight and the counters has changed: every byte
of memory, every other agent, every other core and every other register of the part is as before. -/
def State.onlyAgent (s t : State) (k : Nat) : Prop :=
  { t with agents := s.agents, cores := s.cores, ops := s.ops, nextId := s.nextId, freeCtr := s.freeCtr } = s ∧
    (∀ j, j ≠ k → t.agents.find j = s.agents.find j) ∧
    (∀ c, c ≠ coreOf k → t.cores.find c = s.cores.find c) ∧
    { t.core (coreOf k) with
      ports := (s.core (coreOf k)).ports
      portAt := (s.core (coreOf k)).portAt
      lastCtl := (s.core (coreOf k)).lastCtl } = s.core (coreOf k)

/-- The agent of the packet after the issue: its threads have become what `g` makes of them, the token of SET has risen by one
(04 R91), and the agent is stalled for the slot and the STALL count (04 R89, counted from the end of the slot: log 5). -/
def State.threadsGo (s t : State) (p : Pkt) (g : Nat × Thread → Nat × Thread) : Prop :=
  (t.agent p.k).threads = (s.agent p.k).threads.map g ∧
    (∀ j, (t.agent p.k).tok j = (s.agent p.k).tok j + if p.f.setEn ∧ p.f.setK.toNat = j then 1 else 0) ∧
    (t.agent p.k).stalled = true ∧ (t.agent p.k).stallEnd = s.t + Config.clock * (p.f.stall.toNat + 1)

/-- The packet's threads go on (02 R26), but for those that stay. -/
def State.wentOn (s t : State) (p : Pkt) (commit : Bool) (stay : W32) : Prop := s.threadsGo t p (p.moved commit stay)

/-- The operations in flight are as before, but for what they note of registers that are written meanwhile. -/
def State.sameOps (s t : State) : Prop :=
  t.ops.map (fun o => { o with clash := [] }) = s.ops.map (fun o => { o with clash := [] }) ∧ t.nextId = s.nextId

/-- An instruction of fixed latency has been performed, and of the registers only those that are named, and those that last
use frees (04 R93), have changed. -/
def State.performed (s t : State) (p : Pkt) (vs ss ps : List Nat) : Prop :=
  s.onlyAgent t p.k ∧ s.wentOn t p false 0 ∧ s.sameOps t ∧
    (s.agent p.k).keeps (t.agent p.k) (vs ++ p.lastUse) ss ps

/-! What the rules say that instructions compute, written from the rules' own words. -/

/-- An exact integer brought into the range of signed 64-bit numbers, as a word (22 R409). -/
def satSigned64 (x : Int) : W64 := BitVec.ofInt 64 (max (-2 ^ 63) (min (2 ^ 63 - 1) x))

/-- The scalar instructions that write Sd from Sa and Sb, with their result (22 R409). -/
def scalarRules (f : Fields) : List (Instr × (W64 → W64 → W64)) := [
  (.sadd f, fun a b => match f.m 1 0 with
    | 1 => satSigned64 (a.toInt + b.toInt)
    | 2 => BitVec.ofNat 64 (min (2 ^ 64 - 1) (a.toNat + b.toNat))
    | _ => a + b),
  (.ssub f, fun a b => match f.m 1 0 with
    | 1 => satSigned64 (a.toInt - b.toInt)
    | 2 => BitVec.ofNat 64 (a.toNat - b.toNat)
    | _ => a - b),
  (.smul f, fun a b => BitVec.ofNat 64 (a.toNat * b.toNat)),
  (.smulhi f, fun a b =>
    if f.mb 0 then BitVec.ofInt 64 (a.toInt * b.toInt / 2 ^ 64) else BitVec.ofNat 64 (a.toNat * b.toNat / 2 ^ 64)),
  (.sand f, fun a b => a &&& b),
  (.sor f, fun a b => a ||| b),
  (.sxor f, fun a b => a ^^^ b),
  (.sshl f, fun a b => if b.toNat < 64 then BitVec.ofNat 64 (a.toNat * 2 ^ b.toNat) else 0),
  (.sshr f, fun a b =>
    if f.mb 0 then (if b.toNat < 64 then BitVec.ofInt 64 (a.toInt / 2 ^ b.toNat) else if a.toInt < 0 then -1 else 0)
    else if b.toNat < 64 then BitVec.ofNat 64 (a.toNat / 2 ^ b.toNat) else 0),
  (.smin f, fun a b => if f.mb 0 then (if a.toInt ≤ b.toInt then a else b) else if a.toNat ≤ b.toNat then a else b),
  (.smax f, fun a b => if f.mb 0 then (if a.toInt ≤ b.toInt then b else a) else if a.toNat ≤ b.toNat then b else a),
  (.smov f, fun a _ => a)]

/-- Whether a vector result takes a general slot (04 R86, R87): the write does not cover every non-exited thread, or the shapes of
the sources give neither a uniform nor an affine result. -/
def generalResult (x : VIn) (srcs : List VReg) (affine : Bool) : Bool := !(x.covers && (srcs.all VReg.uniform || affine))

/-- Whether a shape is U or A; a dead register reads as a uniform zero (04 R86, R93). -/
def VReg.flat (r : VReg) : Bool := !r.general

/-- Bits of an element of an integer type (05 R111). -/
def typeBits (ty : Nat) : Nat := if ty ≤ 1 then 32 else if ty ≤ 3 then 16 else 8

/-- The exact value of an element: signed for the I types (23 R432). -/
def exactElem {w : Nat} (ty : Nat) (x : BitVec w) : Int := if ty % 2 = 0 then x.toInt else x.toNat

/-- An exact element result as an element: saturated, or mod 2^w (23 R432). -/
def elemResult (ty : Nat) (sat : Bool) (r : Int) : BitVec (typeBits ty) :=
  BitVec.ofInt _ (if !sat then r
    else if ty % 2 = 0 then max (-2 ^ (typeBits ty - 1)) (min (2 ^ (typeBits ty - 1) - 1) r)
    else max 0 (min (2 ^ typeBits ty - 1) r))

/-- A vector integer instruction: its sources, whether R86 gives it an affine result, and the exact result of an element from the
elements of its sources (23 R431). -/
structure IntRule where
  i : Instr
  srcs : VIn → VReg × VReg × VReg
  affine : VIn → Bool := fun _ => false
  elem : (w ty : Nat) → BitVec w → BitVec w → BitVec w → Int

/-- The sources of an instruction as a list; an operand that it does not have is a uniform zero. -/
def IntRule.sources (r : IntRule) (x : VIn) : List VReg := [(r.srcs x).1, (r.srcs x).2.1, (r.srcs x).2.2]

/-- The sources of a unary, a binary and a ternary instruction. -/
def srcs1 (x : VIn) : VReg × VReg × VReg := (x.a, .uni 0, .uni 0)
def srcs2 (x : VIn) : VReg × VReg × VReg := (x.a, x.bImm, .uni 0)
def srcs3 (x : VIn) : VReg × VReg × VReg := (x.a, x.b, x.c)

/-- Whether the type and mode keep an affine shape: I32 or N32 without saturation (04 R86). -/
def wraps32 (f : Fields) : Bool := f.m 2 0 ≤ 1 && !f.mb 3

/-- The vector integer instructions (23 R431). -/
def intRules (f : Fields) : List IntRule := [
  ⟨.vadd f, srcs2, fun x => wraps32 f && x.a.flat && x.bImm.flat, fun _ ty a b _ => exactElem ty a + exactElem ty b⟩,
  ⟨.vsub f, srcs2, fun x => wraps32 f && x.a.flat && x.bImm.flat, fun _ ty a b _ => exactElem ty a - exactElem ty b⟩,
  ⟨.vmul f, srcs2, fun x => wraps32 f && ((x.a.flat && x.bImm.uniform) || (x.a.uniform && x.bImm.flat)),
    fun _ ty a b _ => exactElem ty a * exactElem ty b⟩,
  ⟨.vmulhi f, srcs2, fun _ => false, fun w ty a b _ => exactElem ty a * exactElem ty b / 2 ^ w⟩,
  ⟨.vmad f, srcs3, fun _ => false, fun _ ty a b c => exactElem ty a * exactElem ty b + exactElem ty c⟩,
  ⟨.vand f, srcs2, fun _ => false, fun _ _ a b _ => (a &&& b).toNat⟩,
  ⟨.vor f, srcs2, fun _ => false, fun _ _ a b _ => (a ||| b).toNat⟩,
  ⟨.vxor f, srcs2, fun _ => false, fun _ _ a b _ => (a ^^^ b).toNat⟩,
  ⟨.vshl f, srcs2, fun _ => false, fun _ ty a b _ => exactElem ty a * 2 ^ b.toNat⟩,
  ⟨.vshr f, srcs2, fun _ => false, fun _ ty a b _ => exactElem ty a / 2 ^ b.toNat⟩,
  ⟨.vmin f, srcs2, fun _ => false, fun _ ty a b _ => min (exactElem ty a) (exactElem ty b)⟩,
  ⟨.vmax f, srcs2, fun _ => false, fun _ ty a b _ => max (exactElem ty a) (exactElem ty b)⟩,
  ⟨.vabs f, srcs1, fun _ => false, fun _ ty a _ _ => (exactElem ty a).natAbs⟩,
  ⟨.vclz f, srcs1, fun _ => false, fun w _ a _ _ => (((List.range w).reverse).takeWhile (fun i => !a.getLsbD i)).length⟩,
  ⟨.vpopc f, srcs1, fun _ => false, fun w _ a _ _ => ((List.range w).filter (fun i => a.getLsbD i)).length⟩]

/-- A vector instruction with one V result: its own condition on the operands, whether the shapes of its sources make the result
general, the word of a lane, and the flags. -/
structure LaneRule where
  i : Instr
  ok : VIn → Bool := fun _ => true
  general : VIn → Bool
  word : VIn → Nat → W32
  flags : VIn → BitVec 5 := fun _ => 0

/-- The largest lane up to `l` with a condition; lane 0 where none has it. -/
def lastStart (start : Nat → Bool) (l : Nat) : Nat := ((List.range (l + 1)).filter start).getLastD 0

/-- The source lane of VSHFL (23 R441). -/
def shuffleSource (mode l n : Nat) : Nat :=
  if mode = 0 then n % 32
  else if mode = 1 then (if n ≤ l then l - n else l)
  else if mode = 2 then (if l + n ≤ 31 then l + n else l)
  else Nat.xor l (n % 32)

/-- The vector instructions that move and select (23 R435 to R437, R441). -/
def moveRules (f : Fields) : List LaneRule := [
  { i := .vsel f
    general := fun x => if f.pred = 7 then (if f.pneg then x.b else x.a).general else true
    word := fun x l =>
      if (if f.pred = 7 then true else (x.r.p f.pred.toNat).getLsbD l) != f.pneg then x.a.lane l else x.b.lane l },
  { i := .vmov f
    general := fun x => (if f.bs then x.b else x.a).general
    word := fun x l => (if f.bs then x.b else x.a).lane l },
  { i := .vaff f
    general := fun x => !(x.b.flat && x.c.uniform)
    word := fun x l => x.b.lane l + (x.c.lane l + (BitVec.ofNat 24 f.imm24).signExtend 32) * BitVec.ofNat 32 l },
  { i := .vshfl f
    general := fun x => !x.a.uniform
    word := fun x l => x.a.lane (shuffleSource (f.m 5 4) l (x.b.lane l).toNat) },
  { i := .vballot f
    general := fun _ => false
    word := fun x _ =>
      let m := maskOf (fun l => x.act.getLsbD l && ((x.r.p (f.a.toNat % 8)).getLsbD l != f.a.getLsbD 3))
      if f.m 5 4 = 0 then m else BitVec.ofNat 32 (lanesOf m).length }]

/-- The integer and bitwise operations of VREDUCE and VSCAN with their identities (23 R438). -/
def reduceOp (op ty : Nat) : W32 × (W32 → W32 → W32) :=
  let less : W32 → W32 → Bool := fun a b => if ty = 0 then decide (a.toInt < b.toInt) else decide (a.toNat < b.toNat)
  match op with
  | 0 => (0, fun a b => a + b)
  | 1 => (if ty = 0 then 0x7FFFFFFF else 0xFFFFFFFF, fun a b => if less b a then b else a)
  | 2 => (if ty = 0 then 0x80000000 else 0, fun a b => if less a b then b else a)
  | 3 => (0xFFFFFFFF, fun a b => a &&& b)
  | 4 => (0, fun a b => a ||| b)
  | _ => (0, fun a b => a ^^^ b)

/-- The reduction of the words of some lanes (23 R438). -/
def reduceOver (op ty : Nat) (x : VReg) (lanes : List Nat) : W32 :=
  (lanes.map x.lane).foldl (reduceOp op ty).2 (reduceOp op ty).1

/-- VREDUCE and VSCAN (23 R439, R440); a float type takes the model's sums (06 R143, R144) and extremes (06 R138). -/
def reduceRules (f : Fields) : List LaneRule := [
  { i := .vreduce f
    general := fun _ => false
    word := fun x _ =>
      if f.m 2 0 ≤ 1 then reduceOver (f.m 5 3) (f.m 2 0) x.a (lanesOf x.act)
      else (((reduceOut x).v.map Prod.snd).getD 0 .dead).lane 0
    flags := fun x => if f.m 2 0 ≤ 1 then 0 else (reduceOut x).flags },
  { i := .vscan f
    general := fun _ => true
    word := fun x l =>
      if f.m 2 0 ≤ 1 then
        let s := lastStart (fun k => k == 0 || (f.b.getLsbD 1 && (x.r.p (bitsOf f.b.toNat 4 2)).getLsbD k)) l
        reduceOver (f.m 5 3) (f.m 2 0) x.a
          ((List.range (if f.b.getLsbD 0 then l else l + 1)).filter (fun k => s ≤ k && x.act.getLsbD k))
      else BitVec.ofNat 32 (scanLane x l).1
    flags := fun x => if f.m 2 0 ≤ 1 then 0 else laneFlags x.act (fun l => (scanLane x l).2) }]

/-- A float instruction whose lanes each take a word and flags from the sources (21 R368, 06 R133). -/
def floatRule (i : Instr) (srcs : VIn → List VReg) (g : VIn → Nat → Nat × BitVec 5) : LaneRule :=
  { i
    general := fun x => !(srcs x).all VReg.uniform
    word := fun x l => BitVec.ofNat 32 (g x l).1
    flags := fun x => laneFlags x.act (fun l => (g x l).2) }

/-- A float instruction on A and B. -/
def float2Rule (i : Instr) (f : Fields) (g : Fmt → Nat → W32 → Nat → Nat → Nat × BitVec 5) : LaneRule :=
  floatRule i (fun x => [x.a, x.bImm])
    (fun x l => g (fmtOf (f.m 2 0)) (f.m 5 3) x.seed (x.a.lane l).toNat (x.bImm.lane l).toNat)

/-- A float instruction on A. -/
def float1Rule (i : Instr) (f : Fields) (g : Fmt → Nat → W32 → Nat → Nat × BitVec 5) : LaneRule :=
  floatRule i (fun x => [x.a]) (fun x l => g (fmtOf (f.m 2 0)) (f.m 5 3) x.seed (x.a.lane l).toNat)

/-- The float instructions of fixed latency (21 R367 to R379, 06 R139), on the model's exact arithmetic. -/
def floatRules (f : Fields) : List LaneRule := [
  float2Rule (.fadd f) f fpAdd,
  float2Rule (.fsub f) f fpSub,
  float2Rule (.fmul f) f fpMul,
  floatRule (.ffma f) (fun x => [x.a, x.b, x.c]) (fun x l =>
    fpFma (fmtOf (f.m 2 0)) (f.m 5 3) x.seed (x.a.lane l).toNat (x.b.lane l).toNat (x.c.lane l).toNat),
  float2Rule (.fmin f) f (fun t _ _ a b => fpMinMax t false a b),
  float2Rule (.fmax f) f (fun t _ _ a b => fpMinMax t true a b),
  float1Rule (.fclass f) f (fun t _ _ a => (fpClass t a, 0)),
  floatRule (.fcvt f) (fun x => [x.a]) (fun x l =>
    let r := fpCvt (f.m 2 0) (bitsOf f.b.toNat 2 0) (f.m 5 3) x.seed (x.a.lane l)
    (r.1.toNat, r.2)),
  float1Rule (.frnd f) f fpRnd,
  float1Rule (.fkey f) f (fun t _ _ a => (fpKey t (f.b.getLsbD 0) a, 0)),
  float1Rule (.frcp f) f (fun t _ _ a => fpRcp t a),
  float1Rule (.frsq f) f (fun t _ _ a => fpRsq t a),
  float1Rule (.fexp2 f) f (fun t _ _ a => fpExp2 t a),
  float1Rule (.flog2 f) f (fun t _ _ a => fpLog2 t a),
  float1Rule (.fsin f) f (fun t _ _ a => fpTurn .sin t a),
  float1Rule (.fcos f) f (fun t _ _ a => fpTurn .cos t a)]

/-- The block encoder and decoder (20 R362 to R364). DXENC takes no shift above 15 from an S-register. -/
def blockRules (f : Fields) : List LaneRule := [
  { i := .dxenc f
    ok := fun x => !(f.bs && decide ((x.r.s f.b.toNat).toNat ≥ 16))
    general := fun _ => true
    word := fun x l => BitVec.ofNat 32 ((dxEncode (f.m 1 0) (if f.mb 4 then srMode else rneMode) x.seed false (dxencShift x)
      ((List.range 32).map (fun l => (fmtOf (f.m 3 2)).decode (x.a.lane l).toNat))).1 / 2 ^ (32 * l))
    flags := fun x => (dxEncode (f.m 1 0) (if f.mb 4 then srMode else rneMode) x.seed false (dxencShift x)
      ((List.range 32).map (fun l => (fmtOf (f.m 3 2)).decode (x.a.lane l).toNat))).2 },
  { i := .dxdec f
    general := fun _ => true
    word := fun x l =>
      BitVec.ofNat 32 (dxOut (fmtOf (f.m 3 2)) (dxElem (f.m 1 0) (dxImage (f.m 1 0) x.a) l)) }]

/-- What a vector instruction of one V result and fixed latency does (04 R86 to R89): it goes on, and each lane of the packet whose
guard is true holds its word. -/
def LaneRule.holds (e : LaneRule) (f : Fields) (s : State) : Prop :=
  s.performs e.i f (specReads (specOf .band e.i) f) [.v f.d.toNat]
      [(f.d.toNat, !(s.vin (s.pktOf e.i f)).covers || e.general (s.vin (s.pktOf e.i f)))] = true →
    e.ok (s.vin (s.pktOf e.i f)) = true →
    ∃ t, exec e.i s = .next t ∧
      s.performed t (s.pktOf e.i f) [f.d.toNat] [] [] ∧
      s.flagsCome t e.i (e.flags (s.vin (s.pktOf e.i f))) ∧
      (f.d.toNat < 126 → (s.agent s.cur).early (.v f.d.toNat) s.t = none →
        ∀ l < 32, (s.pktOf e.i f).act.getLsbD l = true →
          ((t.agent s.cur).rawV f.d.toNat).lane l = e.word (s.vin (s.pktOf e.i f)) l)

/-- The condition of a comparison of signed or unsigned numbers: 0 EQ, 1 NE, 2 LT, 3 LE, 4 GT, 5 GE. -/
def compares (c : Nat) (a b : Int) : Bool :=
  match c with
  | 0 => a == b
  | 1 => a != b
  | 2 => decide (a < b)
  | 3 => decide (a ≤ b)
  | 4 => decide (b < a)
  | _ => decide (b ≤ a)

/-- A comparison that writes a predicate: its sources' registers, the condition in a lane, and the flags. -/
structure CompareRule where
  i : Instr
  reads : List Reg
  bit : State → VIn → Nat → Bool
  flags : VIn → BitVec 5 := fun _ => 0

/-- The nodes of the tree in which a float VREDUCE adds its lanes (06 R143): node i of level k over the values of the lanes. -/
def treeNode (f : Fmt) (v : Nat → Nat) : Nat → Nat → Nat
  | 0, i => v i
  | k + 1, i => (fpAdd f 0 0 (treeNode f v k (2 * i)) (treeNode f v k (2 * i + 1))).1

/-- A finite F32 word as a count of 2^−149 (06 R129). -/
def f32Units (x : W32) : Int :=
  let e := x.toNat / 2 ^ 23 % 2 ^ 8
  let n : Nat := if e = 0 then x.toNat % 2 ^ 23 else (2 ^ 23 + x.toNat % 2 ^ 23) * 2 ^ (e - 1)
  if x.toNat < 2 ^ 31 then (n : Int) else -(n : Int)

/-- An offered weight or target that counts as none (11 R264): NaN, infinite or below −0. -/
def noWeight (x : W32) : Prop := 0x7F800000 ≤ x.toNat % 2 ^ 31 ∨ 0x80000000 < x.toNat

/-- The comparisons (22 R410, 23 R434, 21 R371). -/
def compareRules (f : Fields) : List CompareRule := [
  { i := .scmp f
    reads := [.s f.a.toNat, .s f.b.toNat]
    bit := fun s _ _ =>
      let a := s.readS s.cur f.a.toNat
      let b := s.readS s.cur f.b.toNat
      let c := f.d.toNat / 8
      if c ≤ 5 then compares c a.toInt b.toInt
      else if c ≤ 9 then compares (c - 4) a.toNat b.toNat
      else a &&& b != 0 },
  { i := .vcmp f
    reads := specReads (specOf .band (.vcmp f)) f
    bit := fun _ x l =>
      let a := x.a.lane l
      let b := x.bImm.lane l
      let c := f.d.toNat / 8
      if c ≤ 5 then (if f.m 2 0 = 0 then compares c a.toInt b.toInt else compares c a.toNat b.toNat)
      else a &&& b != 0 },
  { i := .fcmp f
    reads := specReads (specOf .band (.fcmp f)) f
    bit := fun _ x l => (fpCmp (fmtOf (f.m 2 0)) (f.d.toNat / 8) (x.a.lane l).toNat (x.b.lane l).toNat).1
    flags := fun x => laneFlags x.act (fun l =>
      (fpCmp (fmtOf (f.m 2 0)) (f.d.toNat / 8) (x.a.lane l).toNat (x.b.lane l).toNat).2) }]

/-- The operation that an instruction of variable latency puts in flight (04 R90): its threads with a true guard, its token, the
threads that wait for its replies, and the registers that last use frees then. -/
def Pkt.opOf (p : Pkt) (kind : OpKind) (lanes : W32) (commit : Bool) (held : W32) (lu : List Nat) (id : Nat) : Op :=
  { id
    agent := p.k
    kind
    lanes
    pkt := p.lanes
    tok := if p.f.setEn then some p.f.setK.toNat else none
    covers := lanes == p.live
    commit
    pc := p.pc
    held
    next := p.next
    lu }

/-- An instruction of variable latency has been performed: one operation more is in flight, of the registers only those that last
use frees (04 R93) have changed, and the threads have gone on. -/
def State.sent (s t : State) (p : Pkt) (kind : OpKind) (commit : Bool) : Prop :=
  s.onlyAgent t p.k ∧ s.wentOn t p commit 0 ∧
    t.ops = s.ops ++ [p.opOf kind p.act commit 0 [] s.nextId] ∧ t.nextId = s.nextId + 1

/-- Whether an instruction has an ILLEGAL condition of its own on the contents of its S-registers or its threads (check 11 of 05
R120). -/
def ownCheck : Instr → Bool
  | .carve _ | .taskend _ | .qpush _ | .dxenc _ | .cwait _ | .cwaitPoll _ | .eret _ | .eretNext _ | .swriteSeed _ | .swriteCheck _
  | .swriteDet _ | .swriteMonitor _ | .swritePrivcx _ | .swriteMqprio _ | .swriteTilelo _ | .swriteTilehi _ | .swriteFenced _
  | .swriteIndir _ | .swriteRoute _ | .swriteNode _ | .swritePewter _ | .swriteHbeat _ | .swriteFreply _ => true
  | _ => false

/-- The agent of the turn issues an instruction that no thread's guard lets act, and the checks that do not depend on the guard
pass (05 R120, R121): the encoding, the rule on scalar writes (02 R34), checking mode of the predicate (04 R96). -/
def State.voids (s : State) (i : Instr) (f : Fields) : Bool :=
  let p := s.pktOf i f
  let a := s.agent s.cur
  s.issues i f && s.encodingOk i f && p.act == 0 &&
    (!needsFull a.kind i f || s.split s.cur p.pc p.lanes == .go) && (!a.check || (s.checking s.cur [.p f.pred.toNat] []).isNone)

/-! Accesses to memory. -/

/-- Nothing but the agent `k`, its core, the operations and requests in flight and the counters has changed: every byte of memory,
every other agent and every other core is as before. -/
def State.onlyAccess (s t : State) (k : Nat) : Prop :=
  { t with agents := s.agents, cores := s.cores, ops := s.ops, reqs := s.reqs, nextId := s.nextId, freeCtr := s.freeCtr } = s ∧
    (∀ j, j ≠ k → t.agents.find j = s.agents.find j) ∧ (∀ c, c ≠ coreOf k → t.cores.find c = s.cores.find c)

/-- An access of `n` bytes of one line at a virtual address is served by this module's memory (07 R170): its page is present and
permits it, and it reads no poisoned sector. -/
def State.serves (s : State) (k n : Nat) (acc : Access) (op : Nat) (va : W64) : Bool :=
  !s.walkPoisoned (s.ctxOf k) va &&
    match s.xlatCore (coreOf k) (s.ctxOf k) va with
    | .ok t => permits acc t op && t.place == .slice && (acc == .store || !s.poisoned t.addr n)
    | _ => false

/-- An aligned access is served. -/
def State.reaches (s : State) (k n : Nat) (acc : Access) (op : Nat) (va : W64) : Bool :=
  va.toNat % n == 0 && s.serves k n acc op va

/-- The physical address of a virtual one (07 R160, R163). -/
def State.physical (s : State) (k : Nat) (va : W64) : Nat :=
  match s.xlatCore (coreOf k) (s.ctxOf k) va with
  | .ok t => t.addr
  | _ => 0

/-- A request of operation `op` is in flight that carries an access of a lane (07 R167): it has been sent, or waits for a miss
slot (07 R168). -/
def State.requested (t : State) (op : Nat) (acc : Access) (lane : Nat) (va : W64) (addr len : Nat) (data : List Byte) : Prop :=
  ∃ r ∈ t.reqs, r.op = op ∧ r.access = acc ∧ (r.stage = .sent ∨ r.stage = .queued) ∧ r.line = lineOf addr ∧
    ∃ q ∈ r.parts, q.lane = lane ∧ q.va = va ∧ q.addr = addr ∧ q.len = len ∧ q.data = data

/-- An instruction that accesses global memory lane by lane: what it reads and writes, its V results, the access, the bytes of a
lane, the operation in flight, and the bytes that a lane stores. -/
structure AccessRule where
  i : Instr
  ok : State → Bool := fun _ => true
  reads : List Reg
  writes : List Reg := []
  dests : List (Nat × Bool) := []
  acc : Access
  bytes : Nat
  kind : OpKind
  commit : Bool := false
  data : Regs → Nat → List Byte := fun _ _ => []
  op : Nat := 0

/-- The loads, stores and atomics of bands (21 R384, R386, 22 R419, 11 R263, 20 R339). Under deterministic mode a float addition
traps (12 R297). -/
def accessRules (f : Fields) : List AccessRule := [
  { i := .ld f
    reads := [.v f.a.toNat, .s f.b.toNat]
    writes := groupRegs f.d.toNat (sizeRegs (f.m 2 0))
    dests := groupDests f.d.toNat (sizeRegs (f.m 2 0))
    acc := .load
    bytes := sizeBytes (f.m 2 0)
    kind := .load f.d.toNat (f.m 2 0) },
  { i := .ldrc f
    reads := [.v f.a.toNat, .s f.b.toNat]
    writes := groupRegs f.d.toNat (sizeRegs (f.m 2 0))
    dests := groupDests f.d.toNat (sizeRegs (f.m 2 0))
    acc := .load
    bytes := sizeBytes (f.m 2 0)
    kind := .load f.d.toNat (f.m 2 0) },
  { i := .rsvld f
    reads := [.v f.a.toNat, .s f.b.toNat]
    writes := groupRegs f.d.toNat 8
    dests := groupDests f.d.toNat 8
    acc := .load
    bytes := 32
    kind := .load f.d.toNat 7 },
  { i := .st f
    reads := groupRegs f.d.toNat (sizeRegs (f.m 2 0)) ++ [.v f.a.toNat, .s f.b.toNat]
    acc := .store
    bytes := sizeBytes (f.m 2 0)
    kind := .store
    data := fun r l => storeBytesOf r f.d.toNat (f.m 2 0) l },
  { i := .rsvst f
    reads := groupRegs f.d.toNat 8 ++ [.v f.a.toNat, .s f.b.toNat]
    acc := .store
    bytes := 32
    kind := .store
    data := fun r l => storeBytesOf r f.d.toNat 7 l },
  { i := .atom f
    ok := fun s => !(f.m 3 0 == 11 && (s.agent s.cur).det)
    reads := atomRegs f ++ [.v f.a.toNat, .s f.b.toNat]
    writes := [.v f.d.toNat]
    dests := [(f.d.toNat, true)]
    acc := .atomic
    bytes := 4
    kind := .atomic f.d.toNat (f.m 3 0)
    commit := true
    data := fun r l => leBytes 4 (atomData f r l).1.toNat
    op := f.m 3 0 }]

/-- A lane of a packet is the lowest with a true guard that meets a condition. -/
def Pkt.lowestWith (p : Pkt) (c : Nat → Bool) (l : Nat) : Prop :=
  l < 32 ∧ p.act.getLsbD l = true ∧ c l = true ∧ ∀ j < l, p.act.getLsbD j = true → c j = false

/-- No lane with a true guard meets a condition. -/
def Pkt.noneWith (p : Pkt) (c : Nat → Bool) : Prop := ∀ l < 32, p.act.getLsbD l = true → c l = false

/-- The guarded lanes that meet a condition. -/
def Pkt.having (p : Pkt) (c : Nat → Bool) : W32 := maskOf (fun l => p.act.getLsbD l && c l)

/-- The fault record that lanes at an address of an absent page leave (07 R172), `level` the level at which the walk ended. -/
def State.faultRecord (s : State) (k : Nat) (va : W64) (access level : Nat) (lanes : W32) : FaultRec :=
  let a := s.agent k
  { die := dieOf k
    serial := s.faultSerial.get (dieOf k) 0
    va
    ctx := s.ctxOf k
    core := coreNo k
    agent := if a.kind = .band then 0 else 1
    access
    slot := if a.kind = .band then unitOf k else unitOf k - 64
    level
    time := s.ns
    lanes }

/-! Scratchpad. -/

/-- Nothing but the agent `k`, its core's ports, the operations in flight, the counters and bytes of memory has changed; an error is
logged only where sectors are poisoned (14 R320). -/
def State.onlyStores (s t : State) (k : Nat) : Prop :=
  { t with
    agents := s.agents
    cores := s.cores
    ops := s.ops
    nextId := s.nextId
    freeCtr := s.freeCtr
    mem := s.mem
    poison := s.poison
    errors := s.errors } = s ∧ (s.poison = [] → t.errors = s.errors) ∧
    (∀ j, j ≠ k → t.agents.find j = s.agents.find j) ∧
    (∀ c, c ≠ coreOf k → t.cores.find c = s.cores.find c)

/-- Where a plain scratchpad access of a lane goes (07 R156, 21 R388): it is aligned, it lies within the crew's allocation, and it
reads no poisoned sector. -/
def State.padAddr (s : State) (p : Pkt) (n : Nat) (reads : Bool) (l : Nat) : Option Nat :=
  let off := (laneAddr p.f (s.regs p.k) l).toNat
  let (base, size) := s.scratchOf p.k
  if off % n = 0 && decide (off + n ≤ size) && !(reads && s.poisoned (base + off) n) then some (base + off) else none

/-- Where a tile access of a lane goes (21 R388, 22 R421): the tile is valid and READY for a load, EMPTY for a store, no event of a
later place has come on it in this clock (23 R428), and the access is aligned, lies within the tile, and reads no poisoned sector. -/
def State.tileAddr (s : State) (p : Pkt) (n : Nat) (reads : Bool) (l : Nat) : Option Nat :=
  match s.tile? (s.agent p.k).crew (p.f.b.toNat % 64) with
  | none => none
  | some t =>
    let rel : Int := (((s.regs p.k).v p.f.a.toNat).lane l).toNat * 2 ^ p.f.m 5 4 + p.f.sx24.toInt
    let a := (s.scratchOf p.k).1 + tOffset t + rel.toNat
    if s.tileTurn (s.agent p.k).crew (p.f.b.toNat % 64) (tilePlace p.k) && tState t = (if reads then 2 else 0) && decide (0 ≤ rel) && rel.toNat % n == 0 && decide (rel.toNat + n ≤ tBytes t) &&
        !(reads && s.poisoned a n) then some a else none

/-- A state with a core's notes of this clock's events on tiles as another has them. -/
def State.notesOf (t s : State) (c : Nat) : State :=
  { t with cores := t.cores.put c { t.core c with tileAt := (s.core c).tileAt, tileEvents := (s.core c).tileEvents } }

/-- A plain scratchpad access: what it reads and writes, its V results, its bytes, and whether it reads the words. -/
structure PadRule where
  i : Instr
  reads : List Reg
  writes : List Reg
  dests : List (Nat × Bool)
  bytes : Nat
  loads : Bool

/-- LDS, STS and ATOMS (21 R388, 22 R421, 20 R343). -/
def padRules (f : Fields) : List PadRule :=
  let n := sizeRegs (f.m 2 0)
  [{ i := .lds f
     reads := [.v f.a.toNat, .s f.b.toNat]
     writes := groupRegs f.d.toNat n
     dests := groupDests f.d.toNat n
     bytes := sizeBytes (f.m 2 0)
     loads := true },
   { i := .sts f
     reads := groupRegs f.d.toNat n ++ [.v f.a.toNat, .s f.b.toNat]
     writes := []
     dests := []
     bytes := sizeBytes (f.m 2 0)
     loads := false },
   { i := .atoms f
     reads := atomRegs f ++ [.v f.a.toNat, .s f.b.toNat]
     writes := [.v f.d.toNat]
     dests := [(f.d.toNat, true)]
     bytes := 4
     loads := true }]

/-- The plain and the tile form of an access, with the registers of its address. -/
def padForms (f : Fields) (plain tile : Instr) :
    List (Instr × List Reg × (State → Pkt → Nat → Bool → Nat → Option Nat)) := [
  (plain, [.v f.a.toNat, .s f.b.toNat], State.padAddr), (tile, [.v f.a.toNat], State.tileAddr)]

/-! Ray, reservoir and random instructions. -/

/-- A vector instruction of several V results: the registers that it reads, whether all its sources are uniform, the words of its
results, and the flags. -/
structure GroupRule where
  i : Instr
  reads : List Reg
  srcs : VIn → List VReg
  general : VIn → Nat → Bool := fun x _ => !(srcs x).all VReg.uniform
  words : VIn → List (Nat × (Nat → W32))
  flags : VIn → BitVec 5 := fun _ => 0

/-- The V results of a group instruction, with whether each is general (04 R86, R87). -/
def GroupRule.dests (e : GroupRule) (x : VIn) : List (Nat × Bool) :=
  (e.words x).map (fun r => (r.1, !x.covers || e.general x r.1))

/-- The registers of a record in D, and the flags of its new value: a record instruction (11 R262). -/
def recordRule (i : Instr) (f : Fields) (extra : List Reg) (srcs : VIn → List VReg) (g : VIn → Nat → Rsv × BitVec 5) : GroupRule :=
  { i
    reads := (List.range 8).map (fun j => Reg.v (f.d.toNat + j)) ++ extra
    srcs := fun x => (List.range 8).map (fun j => x.r.v (f.d.toNat + j)) ++ srcs x
    words := fun x => (List.range 8).map (fun j => (f.d.toNat + j, fun l => (g x l).1.words.getD j 0))
    flags := fun x => laneFlags x.act (fun l => (g x l).2) }

/-- RTSTEP and RTHIT (10 R247, R251), RSVUPD, RSVMRG and RSVNRM (11 R264 to R266), RNG and RNG.U (11 R261). -/
def groupRules (f : Fields) : List GroupRule := [
  { i := .rtstep f
    reads := groupRegs f.a.toNat 7
    srcs := fun x => (List.range 7).map (fun j => x.r.v (f.a.toNat + j))
    words := fun x =>
      let o := fun (l : Nat) => rayStep (fun j =>
        ((List.range 7).map (fun j => x.r.v (f.a.toNat + j)) |>.getD j .dead).lane l)
      [(f.d.toNat + 8, fun l => (o l).node), (f.d.toNat + 9, fun l => (o l).trailLo),
        (f.d.toNat + 10, fun l => (o l).trailHi), (f.d.toNat + 15, fun l => (o l).w15), (f.b.toNat, fun l => (o l).leaf)] },
  { i := .rthit f
    reads := groupRegs f.a.toNat 4 ++
      [.v (f.d.toNat + 6), .v (f.d.toNat + 7), .v (f.d.toNat + 11), .v (f.d.toNat + 12), .v (f.d.toNat + 15)] ++
      [if f.imm24 % 2 = 1 then (if f.cs then .s f.cReg else .v f.cReg) else .v (f.a.toNat + 4)]
    srcs := fun x =>
      [6, 7, 11, 12, 13, 14, 15].map (fun j => x.r.v (f.d.toNat + j)) ++
        [0, 1, 2, 3].map (fun j => x.r.v (f.a.toNat + j)) ++ [if f.imm24 % 2 = 1 then x.c else x.r.v (f.a.toNat + 4)]
    words := fun x =>
      let ray := fun (j l : Nat) => (x.r.v (f.d.toNat + j)).lane l
      let cand := fun (j l : Nat) => (x.r.v (f.a.toNat + j)).lane l
      let inst := fun (l : Nat) => (if f.imm24 % 2 = 1 then x.c else x.r.v (f.a.toNat + 4)).lane l
      let take := fun (l : Nat) => hitAccepts (cand 0 l) (ray 6 l) (ray 7 l) (inst l ++ cand 3 l : W64).toNat
        (ray 11 l ++ ray 12 l : W64).toNat
      let put := fun (j : Nat) (g : Nat → W32) => (f.d.toNat + j, fun l => if take l then g l else ray j l)
      [put 7 (cand 0), put 11 inst, put 12 (cand 3), put 13 (cand 1), put 14 (cand 2),
        put 15 (fun l => ray 15 l ||| 0x400)] },
  recordRule (.rsvupd f) f (specReads (specOf .band (.rsvupd f)) f)
    (fun x => (List.range 4).map (fun j => x.r.v (f.a.toNat + j)))
    (fun x l =>
      let c := fun (j : Nat) => (x.r.v (f.a.toNat + j)).lane l
      (recordAt x.r f.d.toNat l).update (c 0) (c 1) (c 2) (c 3) (f.imm24 % 2 ^ 16)),
  recordRule (.rsvmrg f) f (specReads (specOf .band (.rsvmrg f)) f)
    (fun x => x.b :: (List.range 8).map (fun j => x.r.v (f.a.toNat + j)))
    (fun x l => (recordAt x.r f.d.toNat l).mergeRec (recordAt x.r f.a.toNat l) (x.b.lane l) (f.imm24 % 2 ^ 16)),
  recordRule (.rsvnrm f) f (specReads (specOf .band (.rsvnrm f)) f) (fun _ => [])
    (fun x l => (recordAt x.r f.d.toNat l).normalise),
  { i := .rng f
    reads := specReads (specOf .band (.rng f)) f
    srcs := fun x => [x.r.v f.a.toNat, x.r.v (f.a.toNat + 1)]
    general := fun x n =>
      if n = f.d.toNat then !([x.r.v f.a.toNat, x.r.v (f.a.toNat + 1)].all VReg.uniform) else (x.r.v f.a.toNat).general
    words := fun x => [
      (f.d.toNat, fun l => mix ((x.r.v (f.a.toNat + 1)).lane l) ((x.r.v f.a.toNat).lane l)),
      (f.a.toNat, fun l => (x.r.v f.a.toNat).lane l + 1)] },
  { i := .rngU f
    reads := specReads (specOf .band (.rngU f)) f
    srcs := fun x => [x.r.v f.a.toNat, x.r.v (f.a.toNat + 1)]
    general := fun x n =>
      if n = f.d.toNat then !([x.r.v f.a.toNat, x.r.v (f.a.toNat + 1)].all VReg.uniform) else (x.r.v f.a.toNat).general
    words := fun x => [
      (f.d.toNat, fun l =>
        let u := (mix ((x.r.v (f.a.toNat + 1)).lane l) ((x.r.v f.a.toNat).lane l)).toNat / 2 ^ 8
        BitVec.ofNat 32 (roundTo Fmt.f32 rneMode 0 k32 false (.rat u 1 (-24))).1),
      (f.a.toNat, fun l => (x.r.v f.a.toNat).lane l + 1)] }]

/-- The bytes that an agent reads at a virtual address (08 R182, R185). -/
def State.bytesAt (s : State) (k : Nat) (va : W64) (n : Nat) : List Byte :=
  match s.xlatCore (coreOf k) (s.ctxOf k) va with
  | .ok t => s.readOwn k t n
  | _ => []

/-- The light-tree node that a lane of LTWALK stands at (11 R268). -/
def State.walkNode (s : State) (p : Pkt) (l : Nat) : LightNode :=
  lightNode (s.bytesAt p.k (lightAddr ((s.regs p.k).s p.f.b.toNat) (walkerOf (s.regs p.k) p.f l).node) 32)

/-- A lane of LTWALK walks on: its light is still to be found (11 R269). -/
def State.walks (s : State) (p : Pkt) (l : Nat) : Bool := (walkerOf (s.regs p.k) p.f l).light == 0xFFFFFFFF

/-- A lane of LTWALK can step now: its node can be read and, below an inner node, the pair of children loaded (07 R170, 08
R195). -/
def State.walkReady (s : State) (p : Pkt) (l : Nat) : Bool :=
  let base := (s.regs p.k).s p.f.b.toNat
  let q := walkerOf (s.regs p.k) p.f l
  let node := s.walkNode p l
  let open_ := fun (va : W64) => ((s.lineRec (lineOf (s.physical p.k va))).owners).isEmpty
  q.light != 0xFFFFFFFF ||
    (s.reaches p.k 32 .load 0 (lightAddr base q.node) && open_ (lightAddr base q.node) &&
      (node.leaf || (!node.index.getLsbD 0 && s.reaches p.k 64 .load 0 (lightAddr base node.index))))

/-- What the operation of RTBOX, RTTRI or LTWALK writes once its replies are in (10 R245, R249, 11 R269): its first register, their
number, whether every source was uniform, and the words of a lane. -/
def State.groupResult (s : State) (o : Op) : Option (Nat × Nat × Bool × (Nat → List W32)) :=
  let bytes := laneBytes (s.reqs.filter (fun r => r.op == o.id))
  match o.kind with
  | .rtbox d rays u => some (d, 7, u, fun l => boxWords (bytes l) (rayOf rays l) (s.freeWord 5000 l))
  | .rttri d cull rays u => some (d, 5, u, fun l => triWords (bytes l) (rayOf rays l) cull (fun i => s.freeWord (5001 + i) l))
  | .walk d src nodes u => some (d, 5, u, fun l => (walkStep (.ofWords (src.getD l [])) (nodes.getD l []) (bytes l)).1.words)
  | _ => none

/-- The flags that LTWALK raises (11 R269); RTBOX and RTTRI raise none. -/
def State.groupFlags (s : State) (o : Op) : BitVec 5 :=
  match o.kind with
  | .walk _ src nodes _ => laneFlags o.lanes (fun l => (walkStep (.ofWords (src.getD l [])) (nodes.getD l [])
      (laneBytes (s.reqs.filter (fun r => r.op == o.id)) l)).2)
  | _ => 0

/-! Control flow. -/

/-- A thread after a taken branch: its PC is the destination of its lane. -/
def Pkt.jumped (p : Pkt) (taken : W32) (dest : Nat → W64) (e : Nat × Thread) : Nat × Thread :=
  let m := p.moved false 0 e
  if taken.getLsbD e.1 then (m.1, { m.2 with pc := dest e.1 }) else m

/-- A branch has been performed: the threads of `taken` are at their destinations and the others of the packet have gone on; of
the registers only those that are named have changed. -/
def State.branched (s t : State) (p : Pkt) (taken : W32) (dest : Nat → W64) (vs ss : List Nat) : Prop :=
  s.onlyAgent t p.k ∧ s.threadsGo t p (p.jumped taken dest) ∧ s.sameOps t ∧
    (s.agent p.k).keeps (t.agent p.k) (vs ++ p.lastUse) ss [] ∧ s.flagsStay t

/-- The threads that BRC takes, of the packet's guarded ones (20 R352): each with a true condition, all where any has it, all where
all have it. -/
def branchTaken (mode : Nat) (act : W32) (c : Nat → Bool) : W32 :=
  maskOf (fun l => act.getLsbD l &&
    if mode = 0 then c l else if mode = 1 then (lanesOf act).any c else (lanesOf act).all c)

/-- A thread waits at the BJOIN at a PC (02 R30). -/
def joinWaits (ts : List (Nat × Thread)) (l : Nat) (pc : W64) : Prop :=
  ∃ e ∈ ts, e.1 = l ∧ e.2.st.joining.isSome = true ∧ e.2.pc = pc

/-- The condition of the BJOIN at a PC (02 R30): each non-exited thread of its mask waits there. -/
def joinMet (ts : List (Nat × Thread)) (pc : W64) : Prop :=
  ∃ e ∈ ts, e.2.pc = pc ∧ ∃ m, e.2.st.joining = some m ∧
    ∀ x ∈ ts, x.2.st ≠ .exited → m.getLsbD x.1 = true → joinWaits ts x.1 pc

/-! Traps. -/

/-- The handler of an agent's launch (13 R300). -/
def State.handler (s : State) (k : Nat) : W64 := ((s.launchOf k).map (fun l => l.kernel.handler)).getD 0

/-- A trap of the agent enters a handler: it is no firmware partition, no thread of it is in the handler, and its launch has one at
an aligned address (13 R300). -/
def State.handles (s : State) (k : Nat) : Bool :=
  (s.agent k).kind != .fw && (s.agent k).hmask == 0 && s.handler k != 0 && (s.handler k).toNat % 4 == 0

/-- A trap has been taken (13 R300): TCODE, TPC, TADDR and the handler mask say what it was, the packet's threads are READY at the
handler, and no other thread, register, agent or byte of memory has changed. -/
def State.trapped (s t : State) (p : Pkt) (code : Nat) (taddr : W64) : Prop :=
  s.onlyAgent t p.k ∧ t.ops = s.ops ∧ t.nextId = s.nextId ∧ (t.agent p.k).k = (s.agent p.k).k ∧
    (t.agent p.k).threads = (s.agent p.k).threads.map (fun e =>
      if p.lanes.getLsbD e.1 then (e.1, { pc := s.handler p.k, restart := s.handler p.k, st := .ready }) else e) ∧
    (t.agent p.k).apart = { (s.agent p.k).apart with
      tcode := BitVec.ofNat 8 code, tpc := p.pc, tlen := BitVec.ofNat 64 (lenBytes p.f.len), taddr := taddr
      hmask := p.lanes }

/-! Special registers. -/

/-- The special registers whose content the agent and the module hold (04 R97, R98), with their codes. -/
def specialRules (s : State) (k : Nat) : List (Nat × W64) :=
  let a := s.agent k
  let n := fun (x : Nat) => BitVec.ofNat 64 x
  let task := if a.received && !a.ended then (s.crewOf k).bind Crew.task else none
  (match a.kind with
   | .band => [(0x00, a.liveMask.zeroExtend 64), (0x01, n a.band)]
   | .ctl => [(0x00, 1), (0x01, 0xFFFFFFFFFFFFFFFF)]
   | .fw => []) ++
  (if a.kind = .fw then [] else [(0x02, n (unitOf a.crew - 64)), (0x03, n (coreNo k))]) ++
  [(0x08, (task.map (fun t => s.handle t.scope)).getD 0), (0x09, (task.map Task.seq).getD 0xFFFFFFFFFFFFFFFF)] ++
  ((s.launchOf k).map (fun l => [(0x10, n l.id.toNat), (0x11, n l.dimX), (0x12, n l.dimY), (0x13, n l.dimZ)])).getD [] ++
  [(0x04, BitVec.ofNat 64 (dieOf k)), (0x05, s.node.zeroExtend 64), (0x06, BitVec.ofNat 64 (s.t / 2)),
    (0x0A, (a.flagsAt s.t).zeroExtend 64),
    (0x0B, BitVec.ofNat 64 (a.reason.toNat + 2 ^ 8 * a.nullcall.toNat + 2 ^ 9 * a.det.toNat + 2 ^ 10 * a.check.toNat)),
    (0x0C, a.tcode.zeroExtend 64), (0x0D, a.tpc), (0x0E, a.taddr), (0x0F, a.detSticky)]

/-- An SWRITE of a register of an agent (22 R422): the index and value that it takes, its target, and the register's new value. -/
structure WriteRule where
  i : Instr
  ok : W64 → W64 → Bool
  target : Nat → W64 → Nat
  put : W64 → Agent → Agent

/-- The agent at a unit of the core that bits [6:0] of an index name, on the writer's die (22 R422). -/
def unitNamed (k : Nat) (b : W64) (unit : Nat) : Nat := dieOf k * 2 ^ 20 + (b.toNat % 128) * 2 ^ 12 + unit

/-- The SWRITEs of bands and control contexts (22 R422): band slot in index bits [13:8], control context in bits [18:16]. -/
def agentWrites (f : Fields) : List WriteRule :=
  let core := fun (b : W64) => decide (b.toNat % 128 < Config.cores)
  let band := fun (k : Nat) (b : W64) => unitNamed k b (b.toNat / 2 ^ 8 % 64)
  let ctl := fun (k : Nat) (b : W64) => unitNamed k b (64 + b.toNat / 2 ^ 16 % 8)
  [{ i := .swriteSeed f
     ok := fun b a => core b && decide (a.toNat < 2 ^ 32)
     target := band
     put := fun a x => { x with seed := a.setWidth 32 } },
   { i := .swriteCheck f
     ok := fun b a => core b && decide (a.toNat < 2)
     target := band
     put := fun a x => { x with check := a == 1 } },
   { i := .swriteDet f
     ok := fun b a => core b && decide (a.toNat < 2)
     target := fun k b => if b.toNat / 2 ^ 20 % 2 = 1 then ctl k b else band k b
     put := fun a x => { x with det := a == 1 } },
   { i := .swriteMonitor f
     ok := fun b a => core b && decide (a.toNat < 64)
     target := band
     put := fun a x => { x with monitor := a.setWidth 6 } },
   { i := .swritePrivcx f
     ok := fun b a => core b && decide (a.toNat < 2)
     target := ctl
     put := fun a x => { x with priv := a == 1 } },
   { i := .swriteMqprio f
     ok := fun b a => core b && decide (a.toNat < 8)
     target := ctl
     put := fun a x => { x with mqprio := a.toNat } }]

/-- The partition for which an agent writes: a firmware partition its own, a control context the scheduler's (22 R422). -/
def State.writer (s : State) : Nat := if (s.agent s.cur).kind = .fw then unitOf s.cur else 1

/-- The issue of an SWRITE has gone on: its agent, its core's ports and the operations in flight apart, only `f` has changed the
state, and every other agent is as before. -/
def State.wrote (s t : State) (p : Pkt) (f : State → State) : Prop :=
  { t with
    agents := (f s).agents
    cores := (f s).cores
    ops := s.ops
    nextId := s.nextId
    freeCtr := s.freeCtr } = f s ∧
    s.wentOn t p false 0 ∧ (s.agent p.k).keeps (t.agent p.k) p.lastUse [] [] ∧
    s.flagsStay t ∧ (∀ j, j ≠ p.k → t.agents.find j = s.agents.find j) ∧
    (∀ j, j ≠ coreOf p.k → t.cores.find j = (f s).cores.find j) ∧
    { t.core (coreOf p.k) with
      ports := ((f s).core (coreOf p.k)).ports
      portAt := ((f s).core (coreOf p.k)).portAt
      lastCtl := ((f s).core (coreOf p.k)).lastCtl } = (f s).core (coreOf p.k)

/-! Commands of the engines. -/

/-- A command has been put at the end of its queue (09 R206, R207): it holds what its instruction read, its scope's count has risen
by one, the threads have gone on, and no byte of memory and no other agent, queue or scope has changed. -/
def State.enqueued (s t : State) (p : Pkt) (kind : CmdKind) (cnt : Nat) (regs : List W64) (i : Nat)
    (sregs : List W64 := []) : Prop :=
  let c := coreOf p.k
  let cx := unitOf p.k - 64
  (t.core c).queue kind.isMatrix cx = (s.core c).queue kind.isMatrix cx ++ [{
    id := s.nextId
    kind
    pc := p.pc
    f := p.f
    regs
    scope := i
    cnt
    tok := if p.f.setEn then some p.f.setK.toNat else none
    issued := s.t
    headSince := s.t
    maxV := (s.agent p.k).lastV
    weights := (s.agent p.k).bound
    sregs }] ∧
    (∀ m x, (m, x) ≠ (kind.isMatrix, cx) → (t.core c).queue m x = (s.core c).queue m x) ∧
    (∀ j, t.scope j = if j = i then { s.scope i with outstanding := (s.scope i).outstanding + 1 } else s.scope j) ∧
    s.wentOn t p true 0 ∧ t.mem = s.mem ∧ t.reqs = s.reqs ∧ t.ops = s.ops ∧ t.nextId = s.nextId + 1 ∧
    (∀ j, j ≠ p.k → t.agents.find j = s.agents.find j) ∧ (∀ j, j ≠ c → j ∉ s.crews.map (fun e => e.2.core) → t.cores.find j = s.cores.find j)

/-- A command of an engine: what its instruction reads, whether its own checks pass and its tiles are ready, the registers that it
takes, and its SCOPE and counter. -/
structure CmdRule where
  i : Instr
  kind : CmdKind
  reads : List Reg
  ok : State → Pkt → Bool
  cnt : State → Nat := fun _ => 0
  scopeReg : Nat := 0
  regs : State → Pkt → List W64 := fun _ _ => []

/-- The commands that control contexts issue (09 R216 to R222, R228 to R233, 20 R357 to R360, 21 R383, R390 to R395, 22 R403). -/
def cmdRules (f : Fields) : List CmdRule :=
  let ends := fun (ccopy : Bool) => (List.range 4).map (fun i => Reg.s (f.d.toNat + i)) ++
    (if f.mb 0 then [] else [.s f.a.toNat]) ++ (if f.mb 1 then [] else [.s f.b.toNat]) ++ [.s f.scopeReg] ++
    (if ccopy then [.s (f.x 11 6), .s (f.x 5 0)] else [])
  let tiles := fun (s : State) (p : Pkt) => (!f.mb 0 || s.tileIs (s.agent p.k).crew (f.x 57 52) 2) &&
    (!f.mb 1 || s.tileIs (s.agent p.k).crew (f.x 51 46) 0)
  [{ i := .copy f
     kind := .copy
     reads := ends false
     ok := fun s p => (copyTrap s p false).isNone && tiles s p
     cnt := fun _ => f.cnt
     scopeReg := f.scopeReg
     regs := fun s p => copyRegs s p false },
   { i := .ccopy f
     kind := .ccopy
     reads := ends true
     ok := fun s p => (copyTrap s p true).isNone && tiles s p
     cnt := fun _ => f.cnt
     scopeReg := f.scopeReg
     regs := fun s p => copyRegs s p true },
   { i := .halo f
     kind := .halo
     reads := [.s f.d.toNat, .s f.a.toNat, .s f.scopeReg]
     ok := fun s _ =>
       let w := (s.readS s.cur f.d.toNat).toNat
       let h := w / 2 ^ 36 % 64
       (f.cnt = 0 || decide (2 ^ 15 ≤ f.cnt)) && decide (1 ≤ h ∧ h ≤ 32) && decide (w < 2 ^ 42)
     cnt := fun _ => f.cnt
     scopeReg := f.scopeReg
     regs := fun s _ => [s.readS s.cur f.d.toNat, s.readS s.cur f.a.toNat, s.readS s.cur f.scopeReg] },
   { i := .mwload f
     kind := .mwload
     reads := []
     ok := fun s p => (mwloadTrap s p).isNone && s.tileIs (s.agent p.k).crew (f.imm24 % 64) 2 },
   { i := .mmul f
     kind := .mmul
     reads := [.s f.scopeReg]
     ok := fun s p => (mmulTrap s p).isNone && s.tileIs (s.agent p.k).crew (f.x 57 52) 2
     cnt := fun _ => f.cnt
     scopeReg := f.scopeReg
     regs := fun s _ => [s.readS s.cur f.scopeReg] },
   { i := .mdrain f
     kind := .mdrain
     reads := [.s f.a.toNat, .s f.b.toNat] ++ (if f.cs then [.s f.cReg] else [])
     ok := fun s p => (mdrainTrap s p).isNone &&
       (s.tileIs (s.agent p.k).crew (f.imm24 % 64) 0 ||
         (s.tileIs (s.agent p.k).crew (f.imm24 % 64) 2 && !s.tileHeld (s.agent p.k).crew (f.imm24 % 64)))
     cnt := fun s => (s.readS s.cur f.a.toNat).toNat
     regs := fun s _ => [s.readS s.cur f.a.toNat, s.readS s.cur f.b.toNat, if f.cs then s.readS s.cur f.cReg else 0] },
   { i := .mzero f
     kind := .mzero false
     reads := [.s f.a.toNat]
     ok := fun s p => (s.accIndex (s.agent p.k).crew f.d.toNat).isSome
     regs := fun s _ => [s.readS s.cur f.a.toNat] },
   { i := .mzeroAuto f
     kind := .mzero true
     reads := []
     ok := fun s p => (s.accIndex (s.agent p.k).crew f.d.toNat).isSome
     regs := fun _ _ => [0] }]

/-! Steps of the device. -/

/-- A load has been served at its slice (08 R180 to R182): its reply holds the bytes of this instant, with those of its agent's own
earlier stores of the line, and the lease that the slice has recorded. -/
def State.fetchedBy (s t : State) (r : Req) : Prop :=
  ∃ q, t.req? r.id = some q ∧ q.stage = .fetched ∧ q.parts = r.parts ∧ q.op = r.op ∧ q.agent = r.agent ∧
    q.got = r.parts.map (s.readPart r) ∧
    ((∀ x ∈ s.reqs, x.agent = r.agent → x.access = .store → x.line = r.line → r.op ≤ x.op) →
      q.got = r.parts.map (fun p => s.readBytes p.addr p.len)) ∧
    q.leaseEnd ≤ s.ns + r.lease ∧ (r.lease = 0 ∨ r.noL1 = true → q.leaseEnd = 0) ∧
    (∀ x ∈ s.reqs, x.place = .slice → x.line = r.line → x.stage = .arrived → s.ns < x.v → q.leaseEnd ≤ x.v) ∧
    q.leaseEnd ≤ (t.lineRec r.line).leaseEnd ∧ t.mem = s.mem ∧ t.ops = s.ops ∧ t.reqs.map Req.id = s.reqs.map Req.id

/-- A store or atomic has its V (08 R181), which FENCE.DEV waits for, 2 ns longer where the home is the other die's (R189); memory is as
before. -/
def State.arrivedBy (s t : State) (r : Req) : Prop :=
  let v := max (max s.ns (max (s.lineRec r.line).leaseEnd (s.lineRec r.line).nextV)) (s.agentV r.agent)
  ∃ q, t.req? r.id = some q ∧ q.stage = .arrived ∧ q.v = v ∧ q.parts = r.parts ∧ q.access = r.access ∧ q.op = r.op ∧
    q.agent = r.agent ∧ (t.lineRec r.line).nextV = v + 1 ∧ t.mem = s.mem ∧
    ((s.agents.find r.agent).isSome = true → (t.agent r.agent).lastV = v ∧
      (t.agent r.agent).fenceAt = max (s.agent r.agent).fenceAt (if homeDie (128 * r.line) = dieOf r.agent then v else v + 2))

/-- Only the agent `k` has changed, and it is `b`. -/
def State.agentBecomes (s t : State) (k : Nat) (b : Agent) : Prop :=
  { t with agents := s.agents } = s ∧ t.agent k = b ∧ ∀ j, j ≠ k → t.agents.find j = s.agents.find j

/-- Only the core `c` has changed, and it is `b`. -/
def State.coreBecomes (s t : State) (c : Nat) (b : Core) : Prop :=
  { t with cores := s.cores } = s ∧ t.core c = b ∧ ∀ j, j ≠ c → t.cores.find j = s.cores.find j

/-- Nothing waits for a store to become visible: no decrement of a counter, and no event. -/
def State.noWaiters (s : State) : Prop := s.decs = [] ∧ ∀ e ∈ s.evqs, e.2.posted = []

/-- No two agents of a list of their new keys fall together, and none of them is a saved one (log 46). -/
def freshKeys (n : Nat) (ks : List Nat) : Prop := 0 < n ∧ ks.Nodup ∧ ∀ k ∈ ks, k < 2 ^ 24

/-- A command of a control context can leave its queue without a consequence elsewhere: its scope has other work, the counter that
it names is not down to it, none of its stores is pending, and its crew has a participant that goes on. -/
def State.endsQuietly (s : State) (key : Nat) (c : Cmd) : Prop :=
  s.decs = [] ∧ 2 ≤ (s.scope c.scope).outstanding ∧ (∀ d, counterOf c.cnt = some d → 2 ≤ (s.counter d).count) ∧
    (∀ r ∈ s.reqs, r.op ≠ c.id) ∧
    ∀ w, s.crew? key = some w → ∃ k ∈ w.parts key, (s.agent k).liveMask ≠ 0 ∧ (w.task = none ∨ s.partDone w k = false)

/-- A command has left its queue (09 R207, R214, R215): its scope's count and its counter have dropped by one, the counter has
its status, and its token's count has fallen by one. -/
def State.cmdEnded (s t : State) (core cx : Nat) (c : Cmd) : Prop :=
  ((t.core core).queue c.kind.isMatrix cx).map Cmd.id =
      (((s.core core).queue c.kind.isMatrix cx).map Cmd.id).filter (fun i => i != c.id) ∧
    t.scope c.scope = { s.scope c.scope with outstanding := (s.scope c.scope).outstanding - 1 } ∧
    (∀ d, counterOf c.cnt = some d → t.counter d =
      { s.counter d with count := (s.counter d).count - 1, status := (s.counter d).status ||| c.status }) ∧
    ∀ j, (t.agent (ctxKey core cx)).tok j = (s.agent (ctxKey core cx)).tok j - if c.tok = some j then 1 else 0

/-- A command at the head of its control context's queue. -/
def State.heads (s : State) (core : Nat) (m : Bool) (cx : Nat) (c : Cmd) : Prop := ∃ r, (s.core core).queue m cx = c :: r

/-- The address at which an engine of a core finds a byte of a context. -/
def State.placed (s : State) (core ctx : Nat) (va : W64) : Nat :=
  match s.xlatCore core ctx va with
  | .ok t => t.addr
  | _ => 0

/-- Requests carry a byte of a command to the memory of this module or elsewhere. -/
def State.carries (t : State) (id : Nat) (va : W64) (a : Nat) (b : Byte) : Prop :=
  ∃ r ∈ t.reqs, r.op = id ∧ r.access = .store ∧ ∃ p ∈ r.parts, p.va = va ∧ p.addr = a ∧ p.data = [b]

/-- A slot as it is once its current packet is over or waits: one that is to be unmapped is unmapped then (12 R280). -/
def Slot.onward (x : Slot) : Slot :=
  match x.leaving with
  | none => x
  | some v => { x with
      en := false
      state := .unmapped
      cause := 0
      cur := none
      leaving := none
      wait := none
      denied := []
      ctx := v.toNat / 2 ^ 20 % 2 ^ 12
      prio := v.toNat / 2 ^ 9 % 8
      head := 0
      tail := 0 }

/-- A slot has become `y`, or has been unmapped at that moment and its queue keeps its head and tail (12 R280); no other slot has
changed. -/
def State.slotOnward (s t : State) (i : Nat) (y : Slot) : Prop :=
  t.slot i = y.onward ∧ (y.leaving.isSome = true → t.queues.find y.queue.toNat = some (y.head, y.tail)) ∧
    ∀ j, j ≠ i → t.slots.find j = s.slots.find j

/-- A packet of a slot has been processed (12 R283): the head stands past it, the slot reads on, and what it left to complete is
with its queue's packets (12 R280). -/
def State.packetPassed (s t : State) (i : Nat) (p : Packet) (opened : List OpenPacket) : Prop :=
  s.slotOnward t i { s.slot i with
    head := (s.slot i).head + BitVec.ofNat 32 (pkLen p.units)
    cur := none
    denied := []
    state := .running
    since := s.t } ∧
    t.opens.get (s.slot i).queue.toNat [] = s.opens.get (s.slot i).queue.toNat [] ++ opened

/-- A cancel of a scope has been accepted (03 R66, R67): it and its OPEN descendants are CANCELLING with one ticket, and every
other scope is as before. -/
def State.cancelledBy (s t : State) (i : Nat) : Prop :=
  ∀ j x, s.scopes.find j = some x →
    if x.used ∧ x.state = .opened ∧ (j = i ∨ i ∈ x.path) then
      (t.scope j).state = .cancelling ∧ (t.scope j).ticket = BitVec.ofNat 64 (2 ^ 32 * s.serialFor (s.detNear i) (s.hostJob i) + i)
    else t.scope j = x

/-- A store of a front end is on its way with its bytes, or has its V (08 R181). -/
def State.sentBytes (s t : State) (ctx : Nat) (va : W64) (bs : List Byte) : Prop :=
  ∀ tg, s.xlat ctx va = .ok tg → tg.w = true →
    ∃ r ∈ t.reqs, r.access = .store ∧ r.place = tg.place ∧ r.parts.map (fun p => (p.addr, p.data)) = [(tg.addr, bs)] ∧
      (r.stage = .sent ∨ (r.stage = .arrived ∧ s.ns ≤ r.v))

end Sys2Proof.Machine
end

