-- ==== Sys2Proof/Certificates/Slice0/Obligations.lean ====
section
/-!
DEFINITION. The statements for the provers.
-/

open Sys2Proof Sys2Proof.Machine

/-- R409: each scalar ALU instruction writes its result to Sd once per packet and goes on; it sets no flag, and a destination of
S0 discards the result. An earlier result to Sd that is still to come may come after it (R89).
R415, R411: SLI writes its immediate and SSEL one of its two sources, by the predicate over the packet's guarded threads. A STALL counts from the clock
after issue: log 5. -/
def Obligations.ScalarInstructionsWriteTheirResult : Prop :=
  (∀ (f : Fields) (s : State), ∀ e ∈ scalarRules f,
     s.performs e.1 f [.s f.a.toNat, .s f.b.toNat] [.s f.d.toNat] [] = true →
     ∃ t, exec e.1 s = .next t ∧
       s.performed t (s.pktOf e.1 f) [] [f.d.toNat] [] ∧ s.flagsStay t ∧
       (f.d = 0 → (t.agent s.cur).rawS 0 = 0) ∧
       (f.d ≠ 0 → (s.agent s.cur).early (.s f.d.toNat) s.t = none →
         (t.agent s.cur).rawS f.d.toNat = e.2 (s.readS s.cur f.a.toNat) (s.readS s.cur f.b.toNat))) ∧
  ((∀ (f : Fields) (s : State),
     s.performs (.sli f) f [] [.s f.d.toNat] [] = true →
     ∃ t, exec (.sli f) s = .next t ∧ s.performed t (s.pktOf (.sli f) f) [] [f.d.toNat] [] ∧
       s.flagsStay t ∧
       (f.d ≠ 0 → (s.agent s.cur).early (.s f.d.toNat) s.t = none →
         (t.agent s.cur).rawS f.d.toNat =
           if f.len = 3 then f.ext
           else if f.mb 0 then BitVec.ofInt 64 f.imm32.toInt else BitVec.ofNat 64 f.imm32.toNat)) ∧
   (∀ (f : Fields) (s : State),
     s.performs (.ssel f) f [.p (f.m 2 0), .s f.a.toNat, .s f.b.toNat] [.s f.d.toNat] [] = true →
     ∃ t, exec (.ssel f) s = .next t ∧ s.performed t (s.pktOf (.ssel f) f) [] [f.d.toNat] [] ∧
       s.flagsStay t ∧
       (f.d ≠ 0 → (s.agent s.cur).early (.s f.d.toNat) s.t = none →
         (t.agent s.cur).rawS f.d.toNat =
           if (if f.mb 4 then (lanesOf (s.pktOf (.ssel f) f).act).all else (lanesOf (s.pktOf (.ssel f) f).act).any)
               (fun l => (s.readP s.cur (f.m 2 0)).getLsbD l != f.mb 3)
           then s.readS s.cur f.a.toNat else s.readS s.cur f.b.toNat)))

/-- R431, R432: each vector integer instruction writes, in every lane of the packet whose guard is true, each element of Vd as
the exact result of the elements of its sources, saturated or mod 2^w; it sets no flag, and a destination of 126 discards. A STALL counts from the clock
after issue: log 5. -/
def Obligations.VectorIntegerWritesEachElement : Prop :=
  ∀ (f : Fields) (s : State), ∀ e ∈ intRules f,
    s.performs e.i f (specReads (specOf .band e.i) f) [.v f.d.toNat]
      [(f.d.toNat, generalResult (s.vin (s.pktOf e.i f)) (e.sources (s.vin (s.pktOf e.i f))) (e.affine (s.vin (s.pktOf e.i f))))] = true →
    ∃ t, exec e.i s = .next t ∧
      s.performed t (s.pktOf e.i f) [f.d.toNat] [] [] ∧ s.flagsStay t ∧
      (f.d.toNat < 126 → (s.agent s.cur).early (.v f.d.toNat) s.t = none →
        ∀ l < 32, (s.pktOf e.i f).act.getLsbD l = true → ∀ j, typeBits (f.m 2 0) * j < 32 →
          (((t.agent s.cur).rawV f.d.toNat).lane l).extractLsb' (typeBits (f.m 2 0) * j) (typeBits (f.m 2 0)) =
            elemResult (f.m 2 0) (f.mb 3) (e.elem (typeBits (f.m 2 0)) (f.m 2 0)
              (((e.srcs (s.vin (s.pktOf e.i f))).1.lane l).extractLsb' (typeBits (f.m 2 0) * j) _)
              (((e.srcs (s.vin (s.pktOf e.i f))).2.1.lane l).extractLsb' (typeBits (f.m 2 0) * j) _)
              (((e.srcs (s.vin (s.pktOf e.i f))).2.2.lane l).extractLsb' (typeBits (f.m 2 0) * j) _)))

/-- R435 to R437, R441: VSEL, VMOV, VAFF, VSHFL and VBALLOT write, in every lane whose guard is true (every lane of the packet for
VSEL), the word that their rule gives.
R439, R440: VREDUCE writes the reduction of the participants' words to each of them, and VSCAN the reduction over the lanes of
its prefix. R143, R144: a float sum is the pairwise tree of RNE additions over the 32 lanes, a lane that takes no part being −0.0, and
the inclusive prefix of lane 6 is RN(RN(n2[0] + n1[2]) + v[6]); lane 31 receives the whole tree.
R362 to R364: DXENC writes the block image of the 32 lanes, DXDEC the 32 elements of a block. A STALL counts from the clock
after issue: log 5. -/
def Obligations.VectorLanesMovedReducedAndCoded : Prop :=
  (∀ (f : Fields) (s : State), ∀ e ∈ moveRules f, e.holds f s) ∧
  ((∀ (f : Fields) (s : State), ∀ e ∈ reduceRules f, e.holds f s) ∧
   ∀ (x : VIn), 2 ≤ x.f.m 2 0 → x.f.m 5 3 = 0 →
     let t := fmtOf (x.f.m 2 0 - 2)
     let v := fun (l : Nat) => if x.act.getLsbD l then (x.a.lane l).toNat % 2 ^ t.width else t.sign true
     let n := treeNode t v
     let rn := fun (a b : Nat) => (fpAdd t 0 0 a b).1
     (((reduceOut x).v.map Prod.snd).getD 0 .dead).lane 0 = BitVec.ofNat 32 (n 5 0) ∧
     (x.f.b.getLsbD 0 = false → x.f.b.getLsbD 1 = false →
       (scanLane x 31).1 = n 5 0 ∧ (scanLane x 6).1 = rn (rn (n 2 0) (n 1 2)) (v 6))) ∧
  (∀ (f : Fields) (s : State), ∀ e ∈ blockRules f, e.holds f s)

/-- R368 to R379, R139: each float instruction of fixed latency writes, in every lane whose guard is true, the word that the model's
exact arithmetic gives, and ORs its flags into FLAGS. R136, R138, R141, R368, R374, R378, R379: that
arithmetic gives the values that the rules work out. A STALL counts from the clock
after issue: log 5. -/
def Obligations.FloatInstructionsWriteTheirLanes : Prop :=
  (∀ (f : Fields) (s : State), ∀ e ∈ floatRules f, e.holds f s) ∧
  ([(5, 0x3F808000), (5, 0x3F800001), (0, 0x3F808000), (4, 0x3F808000)] : List (Nat × W32)).map (fun e => (fpCvt 2 0 e.1 0 e.2).1) =
    [0x3F81, 0x3F80, 0x3F80, 0x3F81] ∧
  ([0x40200000, 0xC0600000, 0x4F32D05E, 0x7FC00000] : List W32).map (fun a => (fpCvt 3 0 0 0 a).1) = [2, 0xFFFFFFFC, 0x7FFFFFFF, 0] ∧
  [(0, 0xC0200000), (0, 0xBE99999A), (4, 0xC0200000), (3, 0xBE99999A)].map (fun e => (fpRnd .f32 e.1 0 e.2).1) =
    [0xC0000000, 0x80000000, 0xC0400000, 0xBF800000] ∧
  (fpMinMax .f32 false 0 0x80000000).1 = 0x80000000 ∧ (fpMinMax .f32 true 0x80000000 0).1 = 0 ∧
  (fpSub .f32 0 0 0x3F800000 0x3F800000).1 = 0 ∧ (fpSub .f32 3 0 0x3F800000 0x3F800000).1 = 0x80000000 ∧
  (fpRcp .f32 0x40000000).1 = 0x3F000000

/-- R410, R434, R371: a comparison writes its bit of Pd in each lane of the packet whose guard is true, and other lanes keep theirs;
a Pd of P7 discards the result (R81). A STALL counts from the clock
after issue: log 5. -/
def Obligations.ComparisonsWriteAPredicate : Prop :=
  ∀ (f : Fields) (s : State), ∀ e ∈ compareRules f,
    s.performs e.i f e.reads [.p (f.d.toNat % 8)] [] = true →
    ∃ t, exec e.i s = .next t ∧
      s.performed t (s.pktOf e.i f) [] [] [f.d.toNat % 8] ∧
      s.flagsCome t e.i (e.flags (s.vin (s.pktOf e.i f))) ∧
      (f.d.toNat % 8 = 7 → (t.agent s.cur).rawP 7 = 0xFFFFFFFF ∧ (t.agent s.cur).p = (s.agent s.cur).p) ∧
      (f.d.toNat % 8 ≠ 7 → (s.agent s.cur).early (.p (f.d.toNat % 8)) s.t = none → ∀ l < 32,
        ((t.agent s.cur).rawP (f.d.toNat % 8)).getLsbD l =
          if (s.pktOf e.i f).act.getLsbD l then e.bit s (s.vin (s.pktOf e.i f)) l
          else ((s.agent s.cur).rawP (f.d.toNat % 8)).getLsbD l)

/-- R384, R386, R263, R419, R339, with R167, R168 and R170: where every guarded lane's access passes the checks and is served by
this module's memory, and the agent finds a miss slot, LD, LDRC, RSVLD, ST, RSVST and ATOM put their operation in flight with a
request that carries each lane's access, and go on; no byte of memory changes yet.
R170, R172, R33: of such an access the first check that fails decides, and TADDR is the address of the lowest lane that it
meets: one that is not aligned raises MISALIGN, a malformed walk or leaf and then a leaf that does not permit the access ACCESS, and,
with every page present, a poisoned line that is read MEM-POISON. Lanes on an absent page park, with one record of their page, and
the instruction performs for the others. Of a walk that meets poison nothing is said (log 85).
R397, R398, R168: PREF sends a request for each line that it may prefetch while its agent finds a miss slot, changes no register
but those that last use frees and no byte of memory, and goes on. A STALL counts from the clock
after issue: log 5. -/
def Obligations.MemoryAndPrefetchSendTheirAccesses : Prop :=
  (∀ (f : Fields) (s : State), ∀ e ∈ accessRules f,
     s.performs e.i f e.reads e.writes e.dests = true → e.ok s = true → s.slotFor s.cur ≠ .none →
     (∀ l < 32, (s.pktOf e.i f).act.getLsbD l = true → s.reaches s.cur e.bytes e.acc e.op (laneAddr f (s.regs s.cur) l) = true) →
     ∃ t, exec e.i s = .next t ∧ s.onlyAccess t s.cur ∧ s.wentOn t (s.pktOf e.i f) e.commit 0 ∧
       (s.agent s.cur).keeps (t.agent s.cur) (s.pktOf e.i f).lastUse [] [] ∧
       s.flagsStay t ∧
       t.ops = s.ops ++ [(s.pktOf e.i f).opOf e.kind (s.pktOf e.i f).act e.commit 0 [] s.nextId] ∧
       ∀ l < 32, (s.pktOf e.i f).act.getLsbD l = true →
         t.requested s.nextId e.acc l (laneAddr f (s.regs s.cur) l) (s.physical s.cur (laneAddr f (s.regs s.cur) l))
           e.bytes (e.data (s.regs s.cur) l)) ∧
  (∀ (f : Fields) (s : State), ∀ e ∈ accessRules f,
     let p := s.pktOf e.i f
     let va := laneAddr f (s.regs s.cur)
     let page := fun (l : Nat) => s.xlatCore (coreOf s.cur) (s.ctxOf s.cur) (va l)
     let bent := fun (l : Nat) => (va l).toNat % e.bytes != 0
     let broken := fun (l : Nat) => page l == .access
     let barred := fun (l : Nat) => match page l with
       | .ok t => !permits e.acc t e.op
       | _ => false
     let absent := fun (l : Nat) => match page l with
       | .absent _ => true
       | _ => false
     let bad := fun (l : Nat) => match page l with
       | .ok t => e.acc != .store && t.place == .slice && s.poisoned t.addr e.bytes
       | _ => false
     let traps := fun (code l : Nat) => s.handles s.cur = true → ∃ t, exec e.i s = .next t ∧ s.trapped t p code (va l)
     s.performs e.i f e.reads e.writes e.dests = true → e.ok s = true → s.slotFor s.cur ≠ .none →
     (∀ l < 32, p.act.getLsbD l = true → s.walkPoisoned (s.ctxOf s.cur) (va l) = false) →
     (∀ l, p.lowestWith bent l → traps 0x07 l) ∧
     (p.noneWith bent →
       (∀ l, p.lowestWith broken l → traps 0x09 l) ∧
       (p.noneWith broken → (∀ l, p.lowestWith barred l → traps 0x09 l) ∧
         (p.noneWith barred →
           (p.noneWith absent → ∀ l, p.lowestWith bad l → traps 0x0A l) ∧
           (p.noneWith bad → ∀ l level, p.lowestWith absent l → page l = .absent level →
             (∀ j < 32, p.act.getLsbD j = true → absent j = true → pageOf (va j) = pageOf (va l)) →
             (∀ j < 32, p.act.getLsbD j = true → absent j = false → s.reaches s.cur e.bytes e.acc e.op (va j) = true) →
             s.openFault (dieOf s.cur) (s.ctxOf s.cur) (va l) = none → s.queued (dieOf s.cur) < 4096 →
             let m := p.having absent
             let go := p.act &&& ~~~m
             ∃ t, exec e.i s = .next t ∧ t.mem = s.mem ∧
               t.faults = s.faults ++ [s.faultRecord s.cur (va l) e.acc.code level m] ∧
               s.threadsGo t p (fun x =>
                 let w := p.moved e.commit m x
                 if m.getLsbD w.1 then (w.1, { w.2 with st := .parked (dieOf s.cur) (s.faultSerial.get (dieOf s.cur) 0) (va w.1) })
                 else w) ∧
               t.ops = s.ops ++ [p.opOf (if go = 0 then .values [] [] 0 else e.kind) go e.commit 0 [] s.nextId] ∧
               ∀ j < 32, go.getLsbD j = true →
                 t.requested s.nextId e.acc j (va j) (s.physical s.cur (va j)) e.bytes (e.data (s.regs s.cur) j)))))) ∧
  (∀ (f : Fields) (s : State),
     let i := Instr.pref f
     let p := s.pktOf i f
     s.performs i f [.v f.a.toNat, .s f.b.toNat] [] [] = true →
     ∃ t, exec i s = .next t ∧ s.onlyAccess t s.cur ∧ s.wentOn t p false 0 ∧
       (s.agent s.cur).keeps (t.agent s.cur) p.lastUse [] [] ∧ s.flagsStay t ∧
       (∀ e ∈ s.prefHits p (s.ctxOf s.cur),
         (t.requested s.nextId .pref e.1.lane e.1.va e.1.addr 1 [] ∨ t.slotFor s.cur = .none) ∧ e.2.lease ≠ 0 ∧ e.2.place = .slice))

/-- R387, R388, R421, R343: LDS, STS, their tile forms and ATOMS, whose lanes' addresses pass their checks, put their access to the
scratchpad in flight with each lane's address, and go on; no byte of memory changes yet. A tile form is an event on its tile (R428), and
does not issue where one of a later place has come in its clock (log 100).
R388, R421, R343, R156: of a plain scratchpad access the first check that fails decides, and TADDR is the offset of the lowest lane
that it meets: one that is not aligned raises MISALIGN, one beyond the allocation ACCESS, and a poisoned sector that is read MEM-POISON
(once the agent's earlier accesses, which may clear it, have performed: log 25). A tile form raises TILE 3 for an entry that is not
valid.
R191, R341, R388, R421: a scratchpad access performs after the earlier ones of its agent. A load reads each aligned word as it
stands, or as it stood before another agent's write in the same clock. A store's bytes stand in memory. An atomic reads the
word that stands in memory, and replaces it with the operation's result; no other byte changes. Where parts of one access
overlap, nothing is said of them here; when after its issue an access performs is the model's choice (log 25). A STALL counts from the clock
after issue: log 5. -/
def Obligations.ScratchpadAccessesAct : Prop :=
  (∀ (f : Fields) (s : State) (addr : Nat → Nat),
     let n := sizeBytes (f.m 2 0)
     let group := sizeRegs (f.m 2 0)
     let goes := fun (i : Instr) (kind : OpKind) (commit : Bool) => ∃ t, exec i s = .next t ∧
       s.sent (if i = .ldsT f ∨ i = .stsT f then t.notesOf s (coreOf s.cur) else t) (s.pktOf i f) kind commit ∧
       (s.agent s.cur).keeps (t.agent s.cur) (s.pktOf i f).lastUse [] [] ∧ s.flagsStay t
     (∀ e ∈ padForms f (.lds f) (.ldsT f),
       let p := s.pktOf e.1 f
       s.performs e.1 f e.2.1 (groupRegs f.d.toNat group) (groupDests f.d.toNat group) = true →
       (∀ l < 32, p.act.getLsbD l = true → e.2.2 s p n true l = some (addr l)) →
       goes e.1 (.lds f.d.toNat (f.m 2 0) ((lanesOf p.act).map (fun l => (l, addr l)))) false) ∧
     (∀ e ∈ padForms f (.sts f) (.stsT f),
       let p := s.pktOf e.1 f
       s.performs e.1 f (groupRegs f.d.toNat group ++ e.2.1) [] [] = true →
       (∀ l < 32, p.act.getLsbD l = true → e.2.2 s p n false l = some (addr l)) →
       goes e.1 (.sts ((lanesOf p.act).map (fun l => (addr l, storeBytesOf (s.regs s.cur) f.d.toNat (f.m 2 0) l)))) false) ∧
     (let p := s.pktOf (.atoms f) f
      s.performs (.atoms f) f (atomRegs f ++ [.v f.a.toNat, .s f.b.toNat]) [.v f.d.toNat] [(f.d.toNat, true)] = true →
      (f.m 3 0 == 11 && (s.agent s.cur).det) = false →
      (∀ l < 32, p.act.getLsbD l = true → s.padAddr p 4 true l = some (addr l)) →
      goes (.atoms f) (.atoms f.d.toNat (f.m 3 0) ((lanesOf p.act).map (fun l => (l, addr l, atomData f (s.regs s.cur) l)))) true)) ∧
  (∀ (f : Fields) (s : State), s.handles s.cur = true →
     (∀ e ∈ padRules f,
       let p := s.pktOf e.i f
       let off := laneAddr f (s.regs s.cur)
       let bent := fun (l : Nat) => (off l).toNat % e.bytes != 0
       let past := fun (l : Nat) => decide ((s.scratchOf s.cur).2 < (off l).toNat + e.bytes)
       let bad := fun (l : Nat) => e.loads && s.poisoned ((s.scratchOf s.cur).1 + (off l).toNat) e.bytes
       let traps := fun (code l : Nat) => ∃ t, exec e.i s = .next t ∧ s.trapped t p code (off l)
       s.performs e.i f e.reads e.writes e.dests = true → (e.i = .atoms f → (f.m 3 0 == 11 && (s.agent s.cur).det) = false) →
       (∀ l, p.lowestWith bent l → traps 0x07 l) ∧
       (p.noneWith bent → (∀ l, p.lowestWith past l → traps 0x09 l) ∧
         (p.noneWith past → ∀ l, p.lowestWith bad l → s.padDone s.cur s.nextId = true → traps 0x0A l))) ∧
     ∀ e ∈ [(Instr.ldsT f, [Reg.v f.a.toNat], groupRegs f.d.toNat (sizeRegs (f.m 2 0)), groupDests f.d.toNat (sizeRegs (f.m 2 0))),
         (.stsT f, groupRegs f.d.toNat (sizeRegs (f.m 2 0)) ++ [.v f.a.toNat], [], [])],
       s.performs e.1 f e.2.1 e.2.2.1 e.2.2.2 = true → f.mb 3 = true → s.tile? (s.agent s.cur).crew (f.b.toNat % 64) = none →
       ∃ t, exec e.1 s = .next t ∧ s.trapped t (s.pktOf e.1 f) 0x0E (BitVec.ofNat 64 (3 + 256 * (f.b.toNat % 64)))) ∧
  (∀ (s : State) (id : Nat) (o : Op) (a : Agent), s.inv → s.powered = true → s.op? id = some o → s.agents.find o.agent = some a →
     s.padDone o.agent id = true → a.liveMask ≠ 0 →
     let i := Instr.variableLatencyResult id
     (∀ d size ps, o.kind = .lds d size ps → (∀ e ∈ ps, s.poisoned e.2 (sizeBytes size) = false) →
       ∃ (t : State) (v : List (Nat × VReg)) (bs : Nat → List Byte), exec i s = .next t ∧ { t with ops := s.ops, freeCtr := s.freeCtr } = s ∧
         t.op? id = some { o with kind := .values [] v 0 } ∧
         v.map Prod.fst = (if d ≥ 126 then [] else (List.range (sizeRegs size)).map (fun i => d + i)) ∧
         (∀ (n : Nat) (x : Nat × VReg), v[n]? = some x → ∀ l < 32, (atLane ps l).isSome = true →
           x.2.lane l = (loadWords size (bs l)).getD n 0) ∧
         ∀ l at_, atLane ps l = some at_ → (bs l).length = sizeBytes size ∧
           ∀ w ∈ wordsOf at_ (sizeBytes size), ∃ c ∈ s.padChoices (coreOf o.agent) o.agent w,
             ∀ j < sizeBytes size, (at_ + j) / 4 = w → (bs l).getD j 0 = (leBytes 4 c.toNat).getD ((at_ + j) % 4) 0) ∧
     (∀ ps, o.kind = .sts ps →
       ∃ t, exec i s = .next t ∧ s.onlyStores t o.agent ∧ t.op? id = none ∧ a.keeps (t.agent o.agent) [] [] [] ∧
         (t.agent o.agent).threads = a.threads ∧ (t.agent o.agent).flags = a.flags ∧ (t.agent o.agent).flagsDue = a.flagsDue ∧
         (∀ j, (t.agent o.agent).tok j = a.tok j - if o.tok = some j then 1 else 0) ∧
         (∀ x, (∀ e ∈ ps, x < e.1 ∨ e.1 + e.2.length ≤ x) → Memory.read t.mem x = Memory.read s.mem x) ∧
         ∀ e ∈ ps, ps.count e = 1 → (∀ q ∈ ps, q ≠ e → q.1 + q.2.length ≤ e.1 ∨ e.1 + e.2.length ≤ q.1) →
           s.poisoned e.1 e.2.length = false → t.readBytes e.1 e.2.length = e.2) ∧
     (∀ d op ps, o.kind = .atoms d op ps → (∀ e ∈ ps, s.poisoned e.2.1 4 = false) →
       ∃ t v fl, exec i s = .next t ∧ s.onlyStores t o.agent ∧ t.agents = s.agents ∧
         t.op? id = some { o with kind := .values [] v fl } ∧ v.map Prod.fst = (if d ≥ 126 then [] else [d]) ∧
         (∀ x, (∀ e ∈ ps, x < e.2.1 ∨ e.2.1 + 4 ≤ x) → Memory.read t.mem x = Memory.read s.mem x) ∧
         ∀ e ∈ ps, ps.count e = 1 → (∀ q ∈ ps, q ≠ e → q.1 ≠ e.1 ∧ (q.2.1 + 4 ≤ e.2.1 ∨ e.2.1 + 4 ≤ q.2.1)) →
           let old := BitVec.ofNat 32 (s.readNat e.2.1 4)
           (e.1 < 32 → ∀ x ∈ v, x.2.lane e.1 = old) ∧
           t.readNat e.2.1 4 = (atomNew op old e.2.2.1 e.2.2.2).1.toNat))

/-- R413, R414: SLD and SST of a band or control context make one access, of the bytes that MOD names, at Sa plus the immediate;
a firmware partition reaches its part of its die's private SRAM at the offset that the address names, where SST stores at once, and no
other byte of the SRAM changes (log 14). A STALL counts from the clock
after issue: log 5. -/
def Obligations.ScalarLoadsAndStoresAccessMemory : Prop :=
  ∀ (f : Fields) (s : State),
    let a := s.readS s.cur f.a.toNat + f.imm32.signExtend 64
    let n := sBytes (f.m 2 0)
    let die := dieOf s.cur
    let own := fun (write : Bool) => s.sramOpen die (unitOf s.cur) a.toNat n write = true
    (s.performs (.sld f) f [.s f.a.toNat] [.s f.d.toNat] [] = true →
      ((s.agent s.cur).kind ≠ .fw → s.slotFor s.cur ≠ .none → s.reaches s.cur n .load 0 a = true →
        ∃ t, exec (.sld f) s = .next t ∧ s.onlyAccess t s.cur ∧ s.wentOn t (s.pktOf (.sld f) f) false 0 ∧
          t.ops = s.ops ++ [(s.pktOf (.sld f) f).opOf (.sload f.d.toNat (f.m 2 0)) (s.pktOf (.sld f) f).act false 0 []
            s.nextId] ∧
          t.requested s.nextId .load 0 a (s.physical s.cur a) n []) ∧
      ((s.agent s.cur).kind = .fw → a.toNat % n = 0 → own false →
        ∃ t, exec (.sld f) s = .next t ∧
          s.sent t (s.pktOf (.sld f) f) (.values [(f.d.toNat, sloadWord (f.m 2 0) (s.sramRead die a.toNat n))] [] 0) false)) ∧
    (s.performs (.sst f) f [.s f.a.toNat, .s f.b.toNat] [] [] = true →
      ((s.agent s.cur).kind ≠ .fw → s.slotFor s.cur ≠ .none → s.reaches s.cur n .store 0 a = true →
        ∃ t, exec (.sst f) s = .next t ∧ s.onlyAccess t s.cur ∧ s.wentOn t (s.pktOf (.sst f) f) false 0 ∧
          t.ops = s.ops ++ [(s.pktOf (.sst f) f).opOf .store (s.pktOf (.sst f) f).act false 0 [] s.nextId] ∧
          t.requested s.nextId .store 0 a (s.physical s.cur a) n (leBytes n (s.readS s.cur f.b.toNat).toNat)) ∧
      ((s.agent s.cur).kind = .fw → unitOf s.cur < 3 → a.toNat % n = 0 → own true →
        ∃ t, exec (.sst f) s = .next t ∧ s.onlyAgent { t with parts := s.parts } s.cur ∧
          s.wentOn t (s.pktOf (.sst f) f) false 0 ∧
          (∀ x < 15 * 2 ^ 20, x < a.toNat ∨ a.toNat + n ≤ x → t.sramByte die x = s.sramByte die x) ∧
          t.sramRead die a.toNat n = leBytes n (s.readS s.cur f.b.toNat).toNat))

/-- R247, R251, R261, R264 to R266: RTSTEP, RTHIT, the record instructions and RNG write, in every lane whose guard is true, each
word of their results, and OR their flags into FLAGS. RTSTEP's words are those of R247's steps (ASCEND at depth 0, log 117, apart);
the record arithmetic gives the values that R264 and R407 work out. A STALL counts from the clock
after issue: log 5. -/
def Obligations.RayRecordAndRandomResults : Prop :=
  (∀ (f : Fields) (s : State), ∀ e ∈ groupRules f,
    let p := s.pktOf e.i f
    let x := s.vin p
    s.performs e.i f e.reads ((e.words x).map (fun r => .v r.1)) (e.dests x) = true →
    ∃ t, exec e.i s = .next t ∧ s.performed t p ((e.words x).map Prod.fst) [] [] ∧
      s.flagsCome t e.i (e.flags x) ∧
      ∀ r ∈ e.words x, r.1 < 126 → (s.agent s.cur).early (.v r.1) s.t = none → ∀ l < 32, p.act.getLsbD l = true →
        ((t.agent s.cur).rawV r.1).lane l = r.2 l) ∧
  (∀ (v : Nat → W32),
    let w := (v 6).toNat
    let d := w % 256
    let trail := (v 4).toNat + 2 ^ 32 * (v 5).toNat
    let sum := (v 0).toNat
    let first := if (v 6).getLsbD 11 then 0 else trail / 4 ^ d % 4 + 1
    let child := fun (p : Nat) => if sum.testBit 12 then 3 - p else p
    let leaf := fun (p : Nat) => sum.testBit (4 + child p)
    let count := fun (p : Nat) => sum / 2 ^ (16 + 4 * child p) % 16
    let good := fun (p : Nat) => sum.testBit (child p) = true ∧ ¬ (leaf p = true ∧ count p = 0)
    let least := fun (p : Nat) => first ≤ p ∧ p ≤ 3 ∧ good p ∧ ∀ q, first ≤ q → q < p → ¬ good q
    let keep := if (v 6).getLsbD 10 then 0x400 else 0
    let is := fun (node : W32) (t depth w15 : Nat) (l : W32) => rayStep v = {
      node, trailLo := BitVec.ofNat 32 t, trailHi := BitVec.ofNat 32 (t / 2 ^ 32)
      w15 := BitVec.ofNat 32 (depth + keep + w15), leaf := l }
    (w / 256 % 4 = 3 → rayStep v = { node := v 3, trailLo := v 4, trailHi := v 5, w15 := v 6, leaf := 0 }) ∧
    (w / 256 % 4 ≠ 3 → d < 32 →
      (∀ p, least p →
        let t := trail - 4 ^ d * (trail / 4 ^ d % 4) + 4 ^ d * p
        (leaf p = true → is (v 3) t d (0x100 + 4096 * count p) (v 1 + BitVec.ofNat 32 (16 * child p))) ∧
        (leaf p = false → d = 31 → is (v 3) trail 32 0x300 0) ∧
        (leaf p = false → d < 31 → is (v 1 + BitVec.ofNat 32 (child p)) t (d + 1) 0x800 0)) ∧
      ((∀ p, ¬ least p) →
        (v 2 = 0xFFFFFFFF → is (v 3) trail d 0x300 0) ∧ (v 2 ≠ 0xFFFFFFFF → 0 < d → is (v 2) trail (d - 1) 0x200 0)))) ∧
  (∀ (r : Rsv) (ref0 ref1 w p : W32) (cap : Nat),
    let bad := noWeight w ∨ noWeight p
    let u : Nat := (mix r.key r.ctr).toNat / 2 ^ 8
    ∀ x : W32, (bad → x = 0) → (¬ bad → x = if w = 0x80000000 then 0 else w) →
      let sum := fpAdd .f32 0 0 r.wsum.toNat x.toNat
      let big := sum.1 = 0x7F800000
      ∀ s : W32, (big → s = 0x7F7FFFFF) → (¬ big → s.toNat = sum.1) →
        let dead := 0x7F800000 ≤ s.toNat % 2 ^ 31
        let v := (r.update ref0 ref1 w p cap).1
        v.wsum = s ∧ v.ctr = r.ctr + 1 ∧ v.key = r.key ∧ v.w = r.w ∧ v.mf >>> 24 = r.mf >>> 24 ∧ v.isNorm = false ∧
        v.m = min (min (r.m + 1) cap) 65535 ∧
        (¬ dead ∧ x ≠ 0 ∧ u * f32Units s < f32Units x * 2 ^ 24 →
          v.ref0 = ref0 ∧ v.ref1 = ref1 ∧ v.phat = p ∧ v.isNull = false) ∧
        (dead ∨ x = 0 ∨ f32Units x * 2 ^ 24 ≤ u * f32Units s →
          v.ref0 = r.ref0 ∧ v.ref1 = r.ref1 ∧ v.phat = r.phat ∧ v.isNull = r.isNull) ∧
        ((r.update ref0 ref1 w p cap).2.getLsbD 0 = true ↔ bad ∨ sum.2.getLsbD 0 = true ∨ dead) ∧
        ((r.update ref0 ref1 w p cap).2.getLsbD 2 = true ↔ big ∨ sum.2.getLsbD 2 = true) ∧
        ((r.update ref0 ref1 w p cap).2.getLsbD 4 = true ↔ big ∨ sum.2.getLsbD 4 = true)) ∧
  (let r : Rsv := { ref0 := 1, ref1 := 0, phat := 0, wsum := 0, w := 0, mf := 0, ctr := 1, key := 0 }
   let u := (r.update 9 0 0x3F000000 0x40000000 20).1
   u.ref0 = 9 ∧ u.phat = 0x40000000 ∧ u.wsum = 0x3F000000 ∧ u.ctr = 2) ∧
  (let d := ({ ref0 := 11, ref1 := 0, phat := 0x40400000, wsum := 0x40800000, w := 0, mf := 0, ctr := 5, key := 0 } : Rsv).setMf false false 4
   let src := ({ ref0 := 7, ref1 := 0, phat := 0, wsum := 0, w := 0x3E800000, mf := 0, ctr := 0, key := 0 } : Rsv).setMf true false 8
   let m := (d.mergeRec src 0x40000000 20).1
   m.wsum = 0x41000000 ∧ m.ref0 = 11 ∧ m.phat = 0x40400000 ∧ m.m = 12 ∧ m.ctr = 6 ∧
     m.normalise.1.w = 0x3E638E39 ∧ m.normalise.1.isNorm = true ∧ m.normalise.1.normalise.1 = m.normalise.1)

/-- R245, R249: RTBOX reads the node of each guarded lane whose ray is not DONE, and RTTRI the three parts of each guarded lane's
record; their operation is in flight with the ray words that they read.
R269: LTWALK reads the node of each walker, at one instant when it issues (log 11) with no prefetch of its core pending, sends for the pair of children of each inner
one, and puts the walkers in flight with their nodes; no byte of memory changes.
R245, R249, R269, with R86: once every reply of RTBOX, RTTRI or LTWALK has arrived, the words of the lanes are written, its flags
are in FLAGS and its token's count falls by one; a lane's words follow from its bytes and what the instruction read (from those of the
lowest lane where every source was uniform). A STALL counts from the clock
after issue: log 5. -/
def Obligations.RayTestsAndLightTreeWalk : Prop :=
  ((∀ (f : Fields) (s : State),
     let p := s.pktOf (.rtbox f) f
     let ray := rayLanes (s.regs s.cur) f.a.toNat
     let u := (boxReads f).all (fun n => (s.readV s.cur n).uniform)
     let va := fun (l : Nat) => s.readS s.cur f.b.toNat + 64 * (rayOf ray l 8).zeroExtend 64
     s.performs (.rtbox f) f ((boxReads f).map Reg.v ++ [.s f.b.toNat]) (groupRegs f.d.toNat 7)
       ((List.range 7).map (fun i => (f.d.toNat + i, !p.covers || !u))) = true → s.slotFor s.cur ≠ .none →
     (∀ l < 32, p.act.getLsbD l = true → rayAction (rayOf ray l 15) ≠ 3 → s.reaches s.cur 64 .load 0 (va l) = true) →
     ∃ t, exec (.rtbox f) s = .next t ∧ s.onlyAccess t s.cur ∧ s.wentOn t p false 0 ∧
       t.ops = s.ops ++ [p.opOf (.rtbox f.d.toNat ray u) p.act false 0 [] s.nextId] ∧
       ∀ l < 32, p.act.getLsbD l = true → rayAction (rayOf ray l 15) ≠ 3 →
         t.requested s.nextId .load l (va l) (s.physical s.cur (va l)) 64 []) ∧
   (∀ (f : Fields) (s : State),
     let p := s.pktOf (.rttri f) f
     let u := (triReads f).all (fun n => (s.readV s.cur n).uniform)
     let va := fun (l i : Nat) =>
       s.readS s.cur f.b.toNat + 48 * ((s.readV s.cur (f.d.toNat + 5)).lane l).zeroExtend 64 + BitVec.ofNat 64 (16 * i)
     s.performs (.rttri f) f ((triReads f).map Reg.v ++ [.s f.b.toNat]) (groupRegs f.d.toNat 5)
       ((List.range 5).map (fun i => (f.d.toNat + i, !p.covers || !u))) = true → s.slotFor s.cur ≠ .none →
     (∀ l < 32, p.act.getLsbD l = true → ∀ i < 3, s.reaches s.cur 16 .load 0 (va l i) = true) →
     ∃ t, exec (.rttri f) s = .next t ∧ s.onlyAccess t s.cur ∧ s.wentOn t p false 0 ∧
       t.ops = s.ops ++ [p.opOf (.rttri f.d.toNat (f.m 1 0) (rayLanes (s.regs s.cur) f.a.toNat) u) p.act false 0 []
         s.nextId] ∧
       ∀ l < 32, p.act.getLsbD l = true → ∀ i < 3,
         t.requested s.nextId .load l (va l i) (s.physical s.cur (va l i)) 16 [])) ∧
  (∀ (f : Fields) (s : State),
     let p := s.pktOf (.ltwalk f) f
     let u := walkUniform (s.regs s.cur) f
     let base := s.readS s.cur f.b.toNat
     let a := s.agent s.cur
     s.performs (.ltwalk f) f (groupRegs f.d.toNat 5 ++ groupRegs f.a.toNat 3 ++ [.s f.b.toNat]) (groupRegs f.d.toNat 5)
       ((List.range 5).map (fun i => (f.d.toNat + i, !p.covers || !u))) = true → s.slotFor s.cur ≠ .none →
     base.toNat % 64 = 0 → s.loadsDone s.cur = true → (∀ x ∈ s.reqs, x.access = .pref → x.core ≠ coreOf s.cur) → (∀ l < 32, p.act.getLsbD l = true → s.walkReady p l = true) →
     ∃ t, exec (.ltwalk f) s = .next t ∧ s.wentOn t p false 0 ∧
       { t with
         agents := s.agents, cores := s.cores, ops := s.ops, reqs := s.reqs, lines := s.lines, nextId := s.nextId
         freeCtr := s.freeCtr } = s ∧
       (∀ j, j ≠ s.cur → t.agents.find j = s.agents.find j) ∧ (∀ c, c ≠ coreOf s.cur → t.cores.find c = s.cores.find c) ∧
       ({ a with peeked := (t.agent s.cur).peeked, lastInst := (t.agent s.cur).lastInst } : Agent).keeps (t.agent s.cur) p.lastUse [] [] ∧
       s.flagsStay t ∧
       t.ops = s.ops ++ [p.opOf (.walk f.d.toNat ((List.range 32).map (fun l => (walkerOf (s.regs s.cur) f l).words))
         ((List.range 32).map (fun l => if p.act.getLsbD l && s.walks p l then
           s.bytesAt s.cur (lightAddr base (walkerOf (s.regs s.cur) f l).node) 32 else [])) u) p.act false 0 [] s.nextId] ∧
       ∀ l < 32, p.act.getLsbD l = true → s.walks p l = true → (s.walkNode p l).leaf = false →
         let va := lightAddr base (s.walkNode p l).index
         t.requested s.nextId .load l va (s.physical s.cur va) 64 []) ∧
  (∀ (s : State) (id d n : Nat) (u : Bool) (g : Nat → List W32) (o : Op) (a : Agent), s.powered = true → s.op? id = some o →
     s.groupResult o = some (d, n, u, g) → s.agents.find o.agent = some a → isSaved o.agent = false → o.held = 0 → o.clash = [] →
     (∀ r ∈ s.reqs, r.op = id → r.stage = .answered ∧ r.access = .load ∧ r.failed = false) →
     ∃ t, exec (.variableLatencyResult id) s = .next t ∧ t.mem = s.mem ∧ t.ops = s.ops.filter (fun x => x.id != id) ∧
       a.keeps { t.agent o.agent with k := a.k } ((List.range n).map (fun i => d + i)) [] [] ∧
       (t.agent o.agent).threads = a.threads ∧ (t.agent o.agent).flags = a.flags ||| s.groupFlags o ∧
       (t.agent o.agent).flagsDue = a.flagsDue ∧
       (∀ j, (t.agent o.agent).tok j = a.tok j - if o.tok = some j then 1 else 0) ∧
       ∀ i < n, d + i < 126 → ∀ l < 32, o.lanes.getLsbD l = true →
         ((t.agent o.agent).rawV (d + i)).lane l = (g (if u then (lowest o.lanes (fun _ => true)).getD 0 else l)).getD i 0)

/-- R375, R369: FSQRT and FDIV put the rounded result of each guarded lane in flight, with its flags. A STALL counts from the clock
after issue: log 5. -/
def Obligations.RootsAndQuotientsAreInFlight : Prop :=
  ∀ (f : Fields) (s : State), ∀ e ∈ [float1Rule (.fsqrt f) f fpSqrt, float2Rule (.fdiv f) f fpDiv],
    let p := s.pktOf e.i f
    s.performs e.i f (specReads (specOf .band e.i) f) [.v f.d.toNat]
      [(f.d.toNat, !p.covers || e.general (s.vin p))] = true →
    ∃ t x, exec e.i s = .next t ∧ s.sent t p (.values [] [(f.d.toNat, x)] (e.flags (s.vin p))) false ∧
      (s.agent s.cur).keeps (t.agent s.cur) p.lastUse [] [] ∧ s.flagsStay t ∧
      ∀ l < 32, p.act.getLsbD l = true → x.lane l = e.word (s.vin p) l

/-- R418, R97, R99: SREAD puts the register's value in flight: of the registers that the agent, its task, its launch and the module
hold, their content, and zero for a timing register under DET, which DETSTICKY notes. Where MOD[0] is set, SREAD clears the sticky
bits that the register holds, but for the flags of results that are still to come. A STALL counts from the clock
after issue: log 5. -/
def Obligations.SpecialReadsGiveTheRegister : Prop :=
  ∀ (f : Fields) (s : State), ∀ i ∈ [Instr.sread f, .sreadClr f],
    let p := s.pktOf i f
    let a := s.agent s.cur
    let c := f.a.toNat
    let timed := a.det && [3, 4, 5, 6, 7, 0x14].contains c
    let w := if timed then 0 else s.special s.cur c
    s.performs i f [] [.s f.d.toNat] [] = true →
    ∃ t, exec i s = .next t ∧ s.onlyAgent t s.cur ∧ s.wentOn t p false 0 ∧
      t.ops = s.ops ++ [p.opOf (.values [(f.d.toNat, w)] [] 0) p.act false 0 [] s.nextId] ∧
      (timed = false → ∀ e ∈ specialRules s s.cur, c = e.1 → w = e.2) ∧
      ({ a with
          nullcall := if f.mb 0 && c == 0x0B then false else a.nullcall
          detSticky := if f.mb 0 && c == 0x0F then 0 else if timed then a.detSticky ||| 1 <<< c else a.detSticky } : Agent).keeps
        (t.agent s.cur) p.lastUse [] [] ∧
      (∀ now, (t.agent s.cur).flagsAt now = (if f.mb 0 && c == 0x0A then a.clearFlags s.t else a).flagsAt now) ∧
      (f.mb 0 = true → c = 0x0A → (t.agent s.cur).flagsAt s.t = 0)

/-- R422: SWRITE by the scheduler's partition of SEED, CHECK, DET, MONITOR, PRIVCX and MQPRIO sets that register of the agent that
the index names, and nothing else.
R422, R208, R23, R174, R175, R314: SWRITE of TILELO, TILEHI, FENCED, INDIR, ROUTE and NODE sets that register, and nothing else; the
partition that owns the target writes it. Firmware's move of a piece changes no byte and no poison; where an entry is flipped that
was not copying to the new piece, the bytes of the frame's piece change, and no others (log 41). That a tile entry's reserved bits
read zero and that a state of 1 or 3 is not written is the model's (log 58); so is that a privileged control context writes as the
scheduler, and that the write acts at issue (log 57). A STALL counts from the clock
after issue: log 5. -/
def Obligations.SpecialWritesSetRegisters : Prop :=
  (∀ (f : Fields) (s : State), ∀ e ∈ agentWrites f,
     let p := s.pktOf e.i f
     let v := s.readS s.cur f.a.toNat
     let b := s.readS s.cur f.b.toNat
     let k := e.target s.cur b
     s.performs e.i f [.s f.a.toNat, .s f.b.toNat] [] [] = true → s.writer = 1 → e.ok b v = true →
     ∃ t, exec e.i s = .next t ∧ s.wentOn t p false 0 ∧
       { t with agents := s.agents, cores := s.cores, ops := s.ops, nextId := s.nextId, freeCtr := s.freeCtr } = s ∧
       (∀ j, j ≠ s.cur → t.agents.find j = if j = k then (s.agents.find j).map (e.put v) else s.agents.find j) ∧
       ((if s.cur = k then e.put v else id) (s.agent s.cur)).keeps (t.agent s.cur) p.lastUse [] [] ∧
       s.flagsStay t) ∧
  (∀ (f : Fields) (s : State),
     let v := s.readS s.cur f.a.toNat
     let b := s.readS s.cur f.b.toNat
     let c := 128 * dieOf s.cur + b.toNat % 128
     let entry := b.toNat / 2 ^ 8 % 256
     let old := (s.core c).tiles.get entry 0
     let tile := fun (s : State) (x : BitVec 128) =>
       { s with cores := s.cores.put c { s.core c with tiles := (s.core c).tiles.put entry x } }
     let does := fun (i : Instr) (w : State → State) =>
       s.performs i f [.s f.a.toNat, .s f.b.toNat] [] [] = true → ∃ t, exec i s = .next t ∧ s.wrote t (s.pktOf i f) w
     (s.writer = 1 → b.toNat % 128 < Config.cores → entry < 128 →
       does (.swriteTilelo f) (fun s => tile s (old.extractLsb' 64 64 ++ (v &&& 0x001FFFFF001FFFFF))) ∧
       does (.swriteTilehi f) (fun s => tile s
         ((if v.toNat / 2 ^ 46 % 2 = 0 then v &&& 0xFEF0FFFFFFFF
           else (v &&& 0x3EF0FFFFFFFF) ||| (old.extractLsb' 64 64 &&& 0xC00000000000)) ++ old.extractLsb' 0 64))) ∧
     (s.writer = 1 → b.toNat % 128 < Config.cores → v.toNat < 2 →
       does (.swriteFenced f) (fun s => { s with cores := s.cores.put c { s.core c with fenced := v == 1 } })) ∧
     (s.writer = 0 → v.toNat < 2 ^ 33 →
       let die := dieOf s.cur
       let ctrl := b.toNat % 32
       let frame := b.toNat / 2 ^ 16 % 2 ^ 16
       let was := s.indirOf die ctrl frame
       let put := fun (s : State) => { s with indir := s.indir.put (die * 2 ^ 21 + ctrl * 2 ^ 16 + frame) v }
       let copies := indirCopying was = true ∧ ¬(indirCopying v = true ∧ indirNew v = indirNew was)
       (indirPiece v = indirPiece was → ¬copies → does (.swriteIndir f) put) ∧
       (copies → (indirPiece v = indirPiece was ∨ indirPiece v = indirNew was) →
         s.performs (.swriteIndir f) f [.s f.a.toNat, .s f.b.toNat] [] [] = true →
         ∃ t, exec (.swriteIndir f) s = .next t ∧ s.wrote t (s.pktOf (.swriteIndir f) f) (fun s => { put s with pieces := t.pieces })) ∧
       (s.performs (.swriteIndir f) f [.s f.a.toNat, .s f.b.toNat] [] [] = true → ∃ t, exec (.swriteIndir f) s = .next t ∧
         s.wrote t (s.pktOf (.swriteIndir f) f) (fun s => { put s with mem := t.mem, poison := t.poison, pieces := t.pieces }) ∧
         ∀ x, inPiece die ctrl frame x = false → Memory.read t.mem x = Memory.read s.mem x)) ∧
     (s.writer = 2 → v.toNat < 2 ^ 18 →
       does (.swriteRoute f) (fun s => { s with routes := s.routes.put (b.toNat % 512) (v.setWidth 18) })) ∧
     (s.writer = 2 → v.toNat ≤ 383 → does (.swriteNode f) (fun s => { s with node := v.setWidth 9 })))

/-- R422, R161, R329, R332, R335, R173: SWRITE PEWTER carves the die's Pewter, which then reads zero (log 59); SWRITE HBEAT sets HBEAT of
the writer's partition; in time, it is the first heartbeat of a new image, a later one, or at or after 500 ms from the first the one
that commits it, which the log receives (a heartbeat at its deadline is in time: log 68). SWRITE FREPLY with RESOLVED makes the threads
that wait for the record READY; with DENIED or ABSENT those that stand at one instruction trap with ACCESS or PAGE and the address of the
lowest. A STALL counts from the clock
after issue: log 5. -/
def Obligations.SpecialWritesCarveBeatAndReply : Prop :=
  ∀ (f : Fields) (s : State),
    let v := s.readS s.cur f.a.toNat
    let die := dieOf s.cur
    let lo := 2 ^ 38 + die * 2 ^ 37
    let part := s.part die s.writer
    let performs := fun (i : Instr) => s.performs i f [.s f.a.toNat, .s f.b.toNat] [] [] = true
    (performs (.swritePewter f) → s.writer = 0 → v.toNat ≤ 8 →
      ∃ t, exec (.swritePewter f) s = .next t ∧ s.wentOn t (s.pktOf (.swritePewter f) f) false 0 ∧
        t.pewter.get die 0 = v.toNat ∧
        (s.pewter.get die 0 ≠ v.toNat → ∀ x, lo ≤ x → x < lo + 2 ^ 30 → Memory.read t.mem x = 0) ∧
        (∀ x, x < lo ∨ lo + 2 ^ 30 ≤ x → Memory.read t.mem x = Memory.read s.mem x)) ∧
    (performs (.swriteHbeat f) →
      (part.phase ≠ .probation ∨ part.imported = false →
        ∃ t, exec (.swriteHbeat f) s = .next t ∧ s.wrote t (s.pktOf (.swriteHbeat f) f) (fun s => { s with
          parts := s.parts.put (4 * die + s.writer) { part with hbeat := v } })) ∧
      (part.phase = .probation → part.imported = true → s.t ≤ part.switchAt + 60000000 → part.firstBeat = none →
        ∃ t, exec (.swriteHbeat f) s = .next t ∧ s.wentOn t (s.pktOf (.swriteHbeat f) f) false 0 ∧
          t.part die s.writer = { part with hbeat := v, firstBeat := some s.t, lastBeat := s.t }) ∧
      (∀ t0 i, part.phase = .probation → part.imported = true → part.firstBeat = some t0 → part.staged = some i →
        s.t ≤ part.lastBeat + 6000000 →
        ∃ t, exec (.swriteHbeat f) s = .next t ∧ s.wentOn t (s.pktOf (.swriteHbeat f) f) false 0 ∧
          (s.t < t0 + 1500000000 → t.fw die = s.fw die ∧ t.part die s.writer = { part with hbeat := v, lastBeat := s.t }) ∧
          (t0 + 1500000000 ≤ s.t →
            t.part die s.writer = { part with
              hbeat := v, slot := 1 - part.slot, active := i, staged := none, phase := .idle, outcome := 1 } ∧
            (t.fw die).entries.getLast? = some
              { index := (s.fw die).count, die, kind := s.writer, event := 4, time := s.ns, version := i.version
                digest := i.digest }))) ∧
    (performs (.swriteFreply f) → s.writer = 0 → v.toNat / 2 ^ 32 = 1 → ∀ r, s.faultNamed die (v.toNat % 2 ^ 32) = some r →
      ∃ t, exec (.swriteFreply f) s = .next t ∧ s.wentOn t (s.pktOf (.swriteFreply f) f) false 0 ∧ t.mem = s.mem ∧ r ∉ t.faults ∧
        ∀ k, k ≠ s.cur → (s.agent k).live = true → (s.agent k).landing = none → (t.agent k).threads =
          (s.agent k).threads.map (fun e =>
            if ((s.agent k).waitingFor die (v.toNat % 2 ^ 32)).getLsbD e.1 then (e.1, { e.2 with st := .ready }) else e)) ∧
    (performs (.swriteFreply f) → s.writer = 0 → ∀ e ∈ [(2, 9), (3, 8)], v.toNat / 2 ^ 32 = e.1 →
      ∀ r, s.faultNamed die (v.toNat % 2 ^ 32) = some r →
      let mine := some (die, v.toNat % 2 ^ 32)
      (∀ c ∈ s.cores, ∀ q ∈ c.2.copyQ, ∀ x ∈ q.2, x.wait ≠ mine) → (∀ x ∈ s.scopes, x.2.ackWait ≠ mine) →
      (∀ x ∈ s.launches, x.2.traceWait.find die ≠ some (v.toNat % 2 ^ 32)) →
      ∃ t, exec (.swriteFreply f) s = .next t ∧ s.wentOn t (s.pktOf (.swriteFreply f) f) false 0 ∧
        ∀ k, k ≠ s.cur → (s.agent k).live = true → (s.agent k).landing = none → s.handles k = true →
          let m := (s.agent k).waitingFor die (v.toNat % 2 ^ 32)
          ∀ l pc, (lanesOf m).head? = some l → (∀ j < 32, m.getLsbD j = true → ((s.agent k).thread j).pc = pc) →
            (t.agent k).tcode.toNat = e.2 ∧ (t.agent k).tpc = pc ∧ (t.agent k).taddr = (s.agent k).parkedVa l ∧
            (t.agent k).hmask = m ∧
            (t.agent k).threads = (s.agent k).threads.map (fun x =>
              if m.getLsbD x.1 then (x.1, { pc := s.handler k, restart := s.handler k, st := .ready }) else x))

/-- R351 to R353, R404: BRA takes every guarded thread to its target; BRC those that its condition takes; CALL does it with a link to
the instruction after it; RET goes to the link. A STALL counts from the clock
after issue: log 5. -/
def Obligations.BranchesCallsAndReturns : Prop :=
  ∀ (f : Fields) (s : State),
    let pc := s.issuePc.getD 0
    let target := fun (off : Int) (_ : Nat) => pc + BitVec.ofInt 64 (4 * off)
    let band := (s.agent s.cur).kind = .band
    (let p := s.pktOf (.bra f) f
     s.performs (.bra f) f [] [] [] = true →
     ∃ t, exec (.bra f) s = .next t ∧ s.branched t p p.act (target f.off28) [] []) ∧
    (let p := s.pktOf (.brc f) f
     s.performs (.brc f) f [.p (f.m 2 0)] [] [] = true →
     ∃ t, exec (.brc f) s = .next t ∧
       s.branched t p (branchTaken (f.m 5 4) p.act (fun l => (s.readP s.cur (f.m 2 0)).getLsbD l != f.mb 3)) (target f.off22) [] []) ∧
    (let p := s.pktOf (.call f) f
     let d := f.d.toNat
     s.performs (.call f) f [] (linkRegs p d) (linkDests p) = true →
     ∃ t, exec (.call f) s = .next t ∧
       s.branched t p p.act (target f.off21) (if band then [d, d + 1] else []) (if band then [] else [d]) ∧
       (band → ∀ i < 2, d + i < 126 → (s.agent s.cur).early (.v (d + i)) s.t = none → ∀ l < 32, p.act.getLsbD l = true →
         ((t.agent s.cur).rawV (d + i)).lane l = (pc + 8).extractLsb' (32 * i) 32) ∧
       (¬band → d ≠ 0 → (s.agent s.cur).early (.s d) s.t = none → (t.agent s.cur).rawS d = pc + 8)) ∧
    (let p := s.pktOf (.ret f) f
     let n := f.a.toNat
     s.performs (.ret f) f (linkRegs p n) [] [] = true →
     ∃ t, exec (.ret f) s = .next t ∧ s.branched t p p.act
       (fun l => if band then (s.readV s.cur (n + 1)).lane l ++ (s.readV s.cur n).lane l else s.readS s.cur n) [] [])

/-- R354: CALLT waits at the instruction for the shader records of its lanes with an index other than zero; an index at or above the
table's limit traps. A STALL counts from the clock
after issue: log 5. -/
def Obligations.TableCallsReadTheirRecords : Prop :=
  ∀ (f : Fields) (s : State),
    let i := Instr.callt f
    let p := s.pktOf i f
    let index := calltIndex p (s.regs s.cur)
    let calling := p.act &&& maskOf (fun l => index l != 0)
    let va := fun (l : Nat) => (s.shaderTable s.cur).1 + 8 * (index l).zeroExtend 64
    s.performs i f (if p.kind = .band then [.v f.a.toNat] else [.s f.a.toNat]) (linkRegs p f.d.toNat) (linkDests p) = true →
    ((∀ l < 32, p.act.getLsbD l = true → (index l).toNat < (s.shaderTable s.cur).2) →
      s.slotFor s.cur ≠ .none → (∀ l < 32, calling.getLsbD l = true → s.reaches s.cur 8 .load 0 (va l) = true) →
      ∃ t, exec i s = .next t ∧ s.onlyAccess t s.cur ∧
        s.threadsGo t p (fun e => if p.lanes.getLsbD e.1 then (e.1, { (p.moved false p.lanes e).2 with st := .waiting }) else e) ∧
        (s.agent s.cur).keeps (t.agent s.cur) [] [] [] ∧ s.flagsStay t ∧
        t.ops = s.ops ++ [p.opOf (.callt f.d.toNat calling (p.act &&& ~~~calling)) p.act false p.lanes p.lastUse s.nextId] ∧
        ∀ l < 32, calling.getLsbD l = true → t.requested s.nextId .load l (va l) (s.physical s.cur (va l)) 8 []) ∧
    (∀ l < 32, p.act.getLsbD l = true → (s.shaderTable s.cur).2 ≤ (index l).toNat →
      (∀ j < l, p.act.getLsbD j = true → (index j).toNat < (s.shaderTable s.cur).2) → s.handles s.cur = true →
      ∃ t, exec i s = .next t ∧ s.trapped t p 0x0D ((index l).zeroExtend 64))

/-- R349, R350, R30: the guarded threads of BJOIN's mask wait at it, and every thread that waits at a BJOIN whose condition holds goes on:
each live thread of the mask waits there. The others wait on. In a control context or firmware partition BJOIN only advances. A STALL counts from the clock
after issue: log 5. -/
def Obligations.JoinsReleaseTogether : Prop :=
  ∀ (f : Fields) (s : State), ∀ i ∈ [Instr.bjoin f, .bjoinAll f],
    let p := s.pktOf i f
    let a := s.agent s.cur
    let m : W32 := if f.mb 0 then 0xFFFFFFFF else (s.readS s.cur f.a.toNat).setWidth 32
    let stop : W32 := if a.kind = .band then p.act &&& m else 0
    let arrives := fun (e : Nat × Thread) =>
      let w := p.moved false stop e
      if stop.getLsbD w.1 then (w.1, { w.2 with st := .bjoin m }) else w
    s.performs i f (if f.mb 0 then [] else [.s f.a.toNat]) [] [] = true →
    ∃ (t : State) (r : W32), exec i s = .next t ∧ s.onlyAgent t s.cur ∧ s.sameOps t ∧ a.keeps (t.agent s.cur) p.lastUse [] [] ∧
      s.flagsStay t ∧
      s.threadsGo t p (fun e =>
        let w := arrives e
        if BitVec.getLsbD r w.1 then (w.1, { w.2 with pc := w.2.pc + 8, st := .ready }) else w) ∧
      ∀ l < 32, (r.getLsbD l = true ↔ ∃ pc, joinMet (a.threads.map arrives) pc ∧ joinWaits (a.threads.map arrives) l pc)

/-- R347, R348: the guarded threads of BAR wait at it; while another participant with live threads has not arrived, nothing else
changes, and when the last arrives with all its threads, every participant's threads go on.
R380, R381, R306: GBAR gives a crew that is no member of the launch's barrier NOTMEMBER at once; a member's guarded threads wait,
with the destination noted, once where a restored agent repeats its arrival. A STALL counts from the clock
after issue: log 5. -/
def Obligations.BarriersReleaseAndAnswer : Prop :=
  (∀ (f : Fields) (s : State) (c : Crew),
     let i := Instr.bar f
     let p := s.pktOf i f
     let a := s.agent s.cur
     let ps := c.parts a.crew
     let all := p.act ||| a.stMask (· == .bar)
     s.performs i f [] [] [] = true → s.crewFence s.cur s.nextId = true → s.crew? a.crew = some c → s.cur ∈ ps →
     ((∃ k ∈ ps, k ≠ s.cur ∧ (s.agent k).liveMask ≠ 0 ∧ (s.agent k).atBar = false) →
       ∃ t, exec i s = .next t ∧ s.onlyAgent t s.cur ∧ s.sameOps t ∧ a.keeps (t.agent s.cur) [] [] [] ∧
         s.threadsGo t p (fun e =>
           if p.act.getLsbD e.1 then (e.1, { (p.moved false p.act e).2 with st := .bar }) else p.moved false p.act e)) ∧
     ((∀ k ∈ ps, k ≠ s.cur → (s.agent k).liveMask ≠ 0 → (s.agent k).atBar = true) →
       (∀ e ∈ a.threads, e.2.st ≠ .exited → all.getLsbD e.1 = true) →
       ∃ t, exec i s = .next t ∧ t.mem = s.mem ∧
         s.threadsGo t p (fun e =>
           let w := p.moved false p.act e
           if all.getLsbD w.1 then (w.1, { w.2 with pc := w.2.pc + 8, st := .ready }) else w) ∧
         (∀ k ∈ ps, k ≠ s.cur → (s.agent k).liveMask ≠ 0 → (t.agent k).threads = (s.agent k).threads.map (fun e =>
           if ((s.agent k).stMask (· == .bar)).getLsbD e.1 then (e.1, { e.2 with pc := e.2.pc + 8, st := .ready }) else e)))) ∧
  (∀ (f : Fields) (s : State),
     let i := Instr.gbar f
     let p := s.pktOf i f
     let a := s.agent s.cur
     s.performs i f [] [.s f.d.toNat] [] = true →
     (((s.crewOf s.cur).map Crew.member).getD false = false →
       ∃ t, exec i s = .next t ∧ s.sent t p (.values [(f.d.toNat, 2)] [] 0) false) ∧
     (((s.crewOf s.cur).map Crew.member).getD false = true →
       ∃ t, exec i s = .next t ∧ s.onlyAgent t s.cur ∧ s.sameOps t ∧
         ({ a with gbarDest := (t.agent s.cur).gbarDest } : Agent).keeps (t.agent s.cur) [] [] [] ∧
         s.threadsGo t p (fun e =>
           if p.act.getLsbD e.1 then (e.1, { (p.moved false p.act e).2 with st := .gbar }) else p.moved false p.act e) ∧
         (t.agent s.cur).gbarDest = a.gbarDest.filter (fun e => e != (f.d.toNat, none) || !a.gbarIn) ++
           if f.setEn || f.d != 0 then [(f.d.toNat, if f.setEn then some f.setK.toNat else none)] else []))

/-- R188, R189, R200: a fence whose condition holds changes no register and goes on; one whose condition does not hold leaves its
threads where they are. FENCE.SYS with failed stores of the agent traps with the address of the earliest of them. The condition of
CREW is that every earlier scratchpad access of the agent has performed, every earlier load of the module's memory has its value, and
every earlier store and atomic of it has its V; of DEV, that time has come to the largest V that the agent has received, and a control
context's earlier scope and queue accesses have been made (R376); of SYS, that every earlier remote and host access has completed. A STALL counts from the clock
after issue: log 5. -/
def Obligations.FencesWaitForTheirCondition : Prop :=
  (∀ (s : State) (k op : Nat),
    let before := fun (r : Req) => r ∈ s.reqs ∧ r.agent = k ∧ r.op < op
    let mine := fun (o : Op) => o ∈ s.ops ∧ o.agent = k ∧ o.id < op
    (s.crewFence k op = true ↔
      (∀ o, mine o → o.kind.onPad = false) ∧
      ∀ r, before r → r.place = .slice →
        (r.access = .load → r.stage = .answered) ∧
        (r.access = .store ∨ r.access = .atomic → r.stage ≠ .queued ∧ r.stage ≠ .sent)) ∧
    (s.devFence k op = true ↔
      s.crewFence k op = true ∧ (s.agent k).fenceAt ≤ s.ns ∧
      ((s.agent k).kind = .ctl → ∀ o, mine o → match o.kind with
        | .spawn .. | .qpush .. => False
        | _ => True)) ∧
    (s.sysFence k op = true ↔
      s.devFence k op = true ∧ (∀ r, before r → r.place ≠ .slice → r.stage = .answered) ∧
      ((s.agent k).kind = .ctl → ∀ o, mine o → match o.kind with
        | .push .. => False
        | _ => True))) ∧
  (∀ (f : Fields) (s : State), ∀ e ∈ [(Instr.fenceCrew f, s.crewFence s.cur s.nextId), (.fenceDev f, s.devFence s.cur s.nextId),
      (.fenceSys f, s.sysFence s.cur s.nextId)],
    let p := s.pktOf e.1 f
    s.performs e.1 f [] [] [] = true →
    (e.2 = false → ∃ t, exec e.1 s = .next t ∧ t.mem = s.mem ∧ t.ops = s.ops ∧
      (t.agent s.cur).threads = (s.agent s.cur).threads ∧ (t.agent s.cur).runOpen = false) ∧
    (e.2 = true → e.1 ≠ .fenceSys f ∨ (s.agent s.cur).failed = [] →
      ∃ t, exec e.1 s = .next t ∧ s.performed t p [] [] [] ∧ s.flagsStay t) ∧
    (e.2 = true → e.1 = .fenceSys f → s.handles s.cur = true → ∀ n va late pre post,
      (s.agent s.cur).failed = pre ++ (n, va, late) :: post → (∀ x ∈ pre, n < x.1) → (∀ x ∈ post, n ≤ x.1) →
      ∃ t, exec e.1 s = .next t ∧ (t.agent s.cur).failed = [] ∧ (t.agent s.cur).taddr = va ∧ (t.agent s.cur).tpc = p.pc ∧
        (t.agent s.cur).tcode = if late then 0x0C else 0x0B))

/-- R361: CWAIT answers its counter's status once the count is zero; CWAIT.POLL answers the count and status at once, but under
DET. A STALL counts from the clock
after issue: log 5. -/
def Obligations.CounterWaitsAnswerTheStatus : Prop :=
  ∀ (f : Fields) (s : State), ∀ i ∈ [Instr.cwait f, .cwaitPoll f],
    let p := s.pktOf i f
    let w := (s.readS s.cur f.a.toNat).toNat
    let c := s.counter (w % 2 ^ 15)
    s.performs i f [.s f.a.toNat] [.s f.d.toNat] [] = true → 2 ^ 15 ≤ w → w < 2 ^ 16 →
    ∃ t, exec i s = .next t ∧ s.sent t p
      (if f.mb 0 ∧ (s.agent s.cur).det = false then
         .values [(f.d.toNat, BitVec.ofNat 64 (2 ^ 32 * c.count + c.status.toNat))] [] 0
       else if c.count = 0 then .values [(f.d.toNat, c.status.zeroExtend 64)] [] 0
       else .cwait f.d.toNat (w % 2 ^ 15)) false

/-- R396, R442: NOP and YIELD change no register and go on; YIELD ends the run of a band or control context.
R366: EXIT ends its guarded threads; while another thread of the agent is READY, in no handler, the agent goes on.
R81, R90, R91, R105, R121, R430: a packet in which no thread's guard is true goes on, and performs nothing, whatever its instruction:
its PCs advance, its last uses free their registers, and where it sets a token and has variable latency the token is released as its
result would have been. One whose instruction has an ILLEGAL condition of its own may raise that instead (R121); no other register,
flag, agent or byte of memory changes. A STALL counts from the clock
after issue: log 5. -/
def Obligations.NopYieldAndExit : Prop :=
  (∀ (f : Fields) (s : State), ∀ i ∈ [Instr.nop f, .yield f],
     s.performs i f [] [] [] = true →
     ∃ t, exec i s = .next t ∧ s.performed t (s.pktOf i f) [] [] [] ∧ s.flagsStay t ∧
       (i = .yield f → (s.agent s.cur).kind ≠ .fw → (t.agent s.cur).runOpen = false)) ∧
  (∀ (f : Fields) (s : State) (c : Crew),
     let i := Instr.exit f
     let p := s.pktOf i f
     let a := s.agent s.cur
     s.performs i f [] [] [] = true → s.crew? a.crew = some c → s.cur ∈ c.parts a.crew → a.hmask = 0 →
     a.ended = false → (a.received = true ∨ c.killed = false) → s.decs = [] → (∀ e ∈ a.threads, e.2.st.joining = none) →
     (∃ l, (a.readyMask &&& ~~~p.act &&& ~~~(a.stMask (· == .bar))).getLsbD l = true) →
     ∃ t, exec i s = .next t ∧ s.onlyAgent t s.cur ∧ s.sameOps t ∧ a.keeps (t.agent s.cur) p.lastUse [] [] ∧
       s.threadsGo t p (fun e =>
         let w := p.moved false 0 e
         if p.act.getLsbD w.1 then (w.1, { w.2 with st := .exited }) else w)) ∧
  (∀ (i : Instr) (f : Fields) (dom opc : Nat) (s : State),
     let p := s.pktOf i f
     let sp := specOf (s.agent s.cur).kind i
     let goes := ∃ t, exec i s = .next t ∧ s.onlyAgent t s.cur ∧ s.wentOn t p sp.commit 0 ∧
       (s.agent s.cur).keeps (t.agent s.cur) p.lastUse [] [] ∧ s.flagsStay t ∧
       (∀ n, sp.lat = .fixed n → s.sameOps t) ∧
       ((∀ n, sp.lat ≠ .fixed n) →
         t.ops = s.ops ++ if f.setEn then [p.opOf (.values [] [] 0) 0 false 0 [] s.nextId] else [])
     opcodeOf i = some (dom, opc, f) → (∀ w, i ≠ .unassignedEncoding w) → s.voids i f = true →
     (ownCheck i = false → goes) ∧
     (ownCheck i = true → s.handles s.cur = true → goes ∨ ∃ t, exec i s = .next t ∧ s.trapped t p 1 0x0A))

/-- R430, R300: TRAP enters the handler with code 0x12 and Sa as TADDR.
R120: an instruction whose words fail an encoding check traps with code 1 and the sub-code as TADDR, and one that crosses its
fetch block with code 2 and its PC, before any other effect.
R117, R120: a word that names no instruction traps: with LEN 0 code 1 and sub-code 1, where it crosses its fetch block code 2, else
code 1 and sub-code 2. A STALL counts from the clock
after issue: log 5. -/
def Obligations.TrapsEnterTheHandler : Prop :=
  (∀ (f : Fields) (s : State),
     s.performs (.trap f) f [.s f.a.toNat] [] [] = true → s.handles s.cur = true →
     ∃ t, exec (.trap f) s = .next t ∧ s.trapped t (s.pktOf (.trap f) f) 0x12 (s.readS s.cur f.a.toNat)) ∧
  (∀ (i : Instr) (f : Fields) (dom opc : Nat) (s : State),
     opcodeOf i = some (dom, opc, f) → (∀ w, i ≠ .unassignedEncoding w) → s.issues i f = true → s.handles s.cur = true →
     (crosses (s.issuePc.getD 0) f = true →
       ∃ t, exec i s = .next t ∧ s.trapped t (s.pktOf i f) 2 (s.issuePc.getD 0)) ∧
     (crosses (s.issuePc.getD 0) f = false →
       ∀ sub, checkWords (s.agent s.cur).kind (s.agent s.cur).priv (s.agent s.cur).n i = some sub →
       ∃ t, exec i s = .next t ∧ s.trapped t (s.pktOf i f) 1 (BitVec.ofNat 64 sub))) ∧
  (∀ (w : W64) (s : State) (pc : W64),
     let k := s.cur
     let len := w.toNat % 4
     s.issuePc = some pc → (s.agent k).packetAt pc ≠ 0 → s.mayIssue k = true → s.handles k = true →
     ∃ t, exec (.unassignedEncoding w) s = .next t ∧ s.trapped t (s.pktOf (.unassignedEncoding w) (fieldsOf w 0))
       (if len = 0 then 1 else if pc.toNat % 4 ≠ 0 ∨ 32 < pc.toNat % 32 + (4 + 4 * len) then 2 else 1)
       (if len = 0 then 1 else if pc.toNat % 4 ≠ 0 ∨ 32 < pc.toNat % 32 + (4 + 4 * len) then pc else 2))

/-- R365, R302: ERET returns its guarded threads to the address in TPC, ERET.NEXT to the one after that instruction, with the length that
it was fetched with; when no thread is
left in the handler, the threads that waited behind it are READY.
R365, R302, R121: an ERET or ERET.NEXT of a packet with a thread outside the handler raises ILLEGAL 0x0A, whatever its guard. A STALL counts from the clock
after issue: log 5. -/
def Obligations.ReturnsFromTheHandler : Prop :=
  (∀ (f : Fields) (s : State), ∀ i ∈ [Instr.eret f, .eretNext f],
     let p := s.pktOf i f
     let a := s.agent s.cur
     let dest := if f.mb 0 then a.tpc + a.tlen else a.tpc
     let left := a.hmask &&& ~~~p.act
     s.performs i f [] [] [] = true → p.lanes &&& ~~~a.hmask = 0 → a.landing = none →
     ∃ t, exec i s = .next t ∧ s.onlyAgent t s.cur ∧ s.sameOps t ∧
       ({ a with hmask := left } : Agent).keeps (t.agent s.cur) p.lastUse [] [] ∧ (t.agent s.cur).runOpen = false ∧
       s.threadsGo t p (fun e =>
         let w := p.moved false 0 e
         let b : Nat × Thread := if p.act.getLsbD w.1 then (w.1, { w.2 with pc := dest, restart := dest }) else w
         if left = 0 ∧ (a.stMask (· == .held)).getLsbD b.1 then (b.1, { b.2 with st := .ready }) else b)) ∧
  (∀ (f : Fields) (s : State), ∀ i ∈ [Instr.eret f, .eretNext f],
     s.issues i f = true → s.encodingOk i f = true → (s.pktOf i f).lanes &&& ~~~(s.agent s.cur).hmask ≠ 0 → s.handles s.cur = true →
     ∃ t, exec i s = .next t ∧ s.trapped t (s.pktOf i f) 1 0x0A)

/-- R416, R417: SPAWN puts its spawn in flight with its scope's handle, or none for that of the task that it holds when it performs, and
its 32 bytes. It performs once FENCE.DEV's condition holds, and an agent that holds no task then is refused with status 5.
R399, R400: QPUSH reads its packet's image, at one instant when it issues (log 11), and puts the push in flight with its handle. A STALL counts from the clock
after issue: log 5. -/
def Obligations.SpawnsAndPushesAreInFlight : Prop :=
  (∀ (f : Fields) (s : State),
     let i := Instr.spawn f
     let p := s.pktOf i f
     let w := if f.cs then (s.readS s.cur f.cReg).toNat % 2 ^ 16 else 0
     s.performs i f ((List.range 4).map (fun i => .s (f.a.toNat + i)) ++ [.s f.b.toNat] ++ if f.cs then [.s f.cReg] else [])
       [.s f.d.toNat] [] = true →
     (w = 0 ∨ 2 ^ 15 ≤ w) →
     (∃ t, exec i s = .next t ∧ s.sent t p
       (.spawn f.d.toNat (if f.b = 0 then none else some (s.readS s.cur f.b.toNat))
         ((List.range 4).map (fun i => s.readS s.cur (f.a.toNat + i))) (if w = 0 then none else some (w - 2 ^ 15))) true) ∧
     ∀ id o d h body b, s.powered = true → s.op? id = some o → o.kind = .spawn d h body b →
       (s.devFence o.agent o.id = false → exec (.variableLatencyResult id) s = .next s) ∧
       ∀ lid l n, s.devFence o.agent o.id = true → s.opCrew o.agent = some (lid, l, n) → l.replay = false →
         s.gate l (coreDie (coreOf o.agent)) = .go → s.holdsTask o.agent = false →
         ∃ t, exec (.variableLatencyResult id) s = .next t ∧ (t.op? id).map Op.kind = some (.values [(d, 5)] [] 0)) ∧
  (∀ (f : Fields) (s : State),
     let i := Instr.qpush f
     let p := s.pktOf i f
     let h := s.readS s.cur f.a.toNat
     let va := s.readS s.cur f.b.toNat + f.sx24
     let head := unitsOf 1 (s.bytesAt s.cur va 8)
     let n := if pkLen head ≤ 128 then 8 * (pkLen head - 1) else 0
     let rest := rangeParts 0 (va + 8) n
     let open_ := fun (va : W64) => ((s.lineRec (lineOf (s.physical s.cur va))).owners).isEmpty = true
     s.performs i f [.s f.a.toNat, .s f.b.toNat] [.s f.d.toNat] [] = true →
     h.toNat / 2 ^ 57 = 0 → h.toNat / 2 ^ 32 % 2 ^ 16 = 0 → s.loadsDone s.cur = true → s.slotFor s.cur ≠ .none →
     (∀ x ∈ s.reqs, x.access = .pref → x.core ≠ coreOf s.cur) → s.reaches s.cur 8 .load 0 va = true → open_ va →
     (∀ e ∈ rest, s.serves s.cur e.len .load 0 e.va = true ∧ open_ e.va) →
     ∃ t, exec i s = .next t ∧ s.wentOn t p true 0 ∧ t.mem = s.mem ∧ t.ops = s.ops ++
       [p.opOf (.qpush f.d.toNat h (head ++ unitsOf (n / 8) (rest.flatMap (fun e => s.bytesAt s.cur e.va e.len))) none false) p.act
         true 0 [] s.nextId])

/-- R423, R39: TASKGET of a crew without a task waits at the instruction, its destination and token are noted, and its crew asks for a
task; no byte of memory changes.
R425, R426: TASKEND ends its participant's part and notes the counter; while another participant's part goes on, the task
stands. A STALL counts from the clock
after issue: log 5. -/
def Obligations.TaskRequestsAndEnds : Prop :=
  (∀ (f : Fields) (s : State) (c : Crew),
     let i := Instr.taskget f
     let p := s.pktOf i f
     s.performs i f [] ((List.range 5).map (fun i => .s (f.d.toNat + i))) [] = true →
     s.crew? (s.agent s.cur).crew = some c → c.task = none → c.endGiven = false →
     ∃ t, exec i s = .next t ∧ t.crews = s.crews.put (s.agent s.cur).crew { c with asked := true } ∧ t.mem = s.mem ∧
       (t.agent s.cur).taskWait = some { dest := f.d.toNat, tok := f.setK.toNat } ∧
       (∀ j, j ≠ s.cur → t.agents.find j = s.agents.find j) ∧
       s.threadsGo t p (fun e => if p.lanes.getLsbD e.1 then (e.1, { (p.moved true p.lanes e).2 with st := .waiting }) else e)) ∧
  (∀ (f : Fields) (s : State) (c : Crew) (task : Task),
     let i := Instr.taskend f
     let p := s.pktOf i f
     let a := s.agent s.cur
     let w := (s.readS s.cur f.a.toNat).toNat
     s.performs i f [.s f.a.toNat] [] [] = true → (w = 0 ∨ (2 ^ 15 ≤ w ∧ w < 2 ^ 16)) → a.ended = false →
     s.crew? a.crew = some c → c.task = some task → s.cur ∈ c.parts a.crew → s.decs = [] →
     a.stMask (· == .bar) = 0 → (∃ k ∈ c.parts a.crew, k ≠ s.cur ∧ s.partDone c k = false) →
     ∃ t, exec i s = .next t ∧ (t.agent s.cur).ended = true ∧ s.wentOn t p true 0 ∧ t.mem = s.mem ∧
       t.crew? a.crew = some { c with dones := if w = 0 then c.dones else c.dones ++ [w] } ∧
       (∀ k, k ≠ a.crew → t.crew? k = s.crew? k) ∧ (∀ j, j ≠ s.cur → t.agents.find j = s.agents.find j))

/-- R61, R62: SCOPE creates an OPEN entry under the task's scope and puts its handle in flight; SCLOSE seals a user scope of the
launch that still has work, and nothing else of it changes.
R63, R66, R67, R355: CANCEL of an OPEN scope of the job makes it and its OPEN descendants CANCELLING with one ticket, which it
puts in flight; no other scope changes. One that comes before another of its clock in R67's order waits for the next. R64: SCWAIT answers a final scope's outcome, and waits for one that is not final. A STALL counts from the clock
after issue: log 5. -/
def Obligations.ScopesOpenSealAndCancel : Prop :=
  (∀ (f : Fields) (s : State),
     (let p := s.pktOf (.scope f) f
      let ack := s.readS s.cur f.a.toNat
      s.performs (.scope f) f [.s f.a.toNat] [.s f.d.toNat] [] = true → ∀ parent, s.taskScope s.cur = some parent → parent ≠ 0 →
      (s.scope parent).state = .opened → s.userDepth parent + 1 ≤ 8 → ack.toNat % 32 = 0 →
      ∀ i, s.freeScope = some i → i ≠ parent →
      ∃ t, exec (.scope f) s = .next t ∧ s.wentOn t p true 0 ∧ t.mem = s.mem ∧
        t.ops = s.ops ++ [p.opOf (.values [(f.d.toNat, s.handle i)] [] 0) p.act true 0 [] s.nextId] ∧
        ((t.scope i).used = true ∧ (t.scope i).state = .opened ∧ (t.scope i).level = 0 ∧ (t.scope i).parent = parent ∧
          (t.scope i).autocancel = f.mb 0 ∧ (t.scope i).ackaddr = (ack.setWidth 57).signExtend 64 ∧ (t.scope i).outstanding = 0 ∧
          (t.scope i).gen = (s.scope i).gen) ∧
        t.scope parent = (s.scope parent).adopt ∧ (t.scope parent).outstanding = (s.scope parent).outstanding + 1 ∧
        ∀ j, j ≠ i → j ≠ parent → t.scope j = s.scope j) ∧
     (let p := s.pktOf (.sclose f) f
      let h := s.readS s.cur f.a.toNat
      let i := h.toNat % 2 ^ 16
      s.performs (.sclose f) f [.s f.a.toNat] [] [] = true → s.foreign h = false → s.stale h = false → (s.scope i).sealed = false →
      (s.scope i).state = .opened → (s.scope i).level = 0 →
      s.within i (s.launchHome s.cur) = true → 0 < (s.scope i).outstanding →
      ∃ t, exec (.sclose f) s = .next t ∧ s.wentOn t p true 0 ∧ t.mem = s.mem ∧
        t.scope i = { s.scope i with sealed := true } ∧ (∀ j, j ≠ i → t.scope j = s.scope j) ∧
        t.ops = s.ops ++ [p.opOf (.values [] [] 0) p.act true 0 [] s.nextId])) ∧
  (∀ (f : Fields) (s : State),
     let h := s.readS s.cur f.a.toNat
     let i := h.toNat % 2 ^ 16
     let e := s.scope i
     (let p := s.pktOf (.cancel f) f
      let ticket := BitVec.ofNat 64 (2 ^ 32 * s.cancelSerial.toNat + i)
      s.performs (.cancel f) f [.s f.a.toNat] [.s f.d.toNat] [] = true → s.foreign h = false → s.stale h = false →
      e.state = .opened → e.level ≠ 4 → s.jobOf i = s.launchJob s.cur → (s.agent s.cur).det = false →
      (s.cancelTurn s.cur = false → exec (.cancel f) s = .next s) ∧
      (s.cancelTurn s.cur = true →
      ∃ t, exec (.cancel f) s = .next t ∧ s.wentOn t p true 0 ∧ t.mem = s.mem ∧
        t.ops = s.ops ++ [p.opOf (.values [(f.d.toNat, ticket)] [] 0) p.act true 0 [] s.nextId] ∧
        (∀ j x, s.scopes.find j = some x →
          if x.used ∧ x.state = .opened ∧ (j = i ∨ i ∈ x.path) then
            (t.scope j).state = .cancelling ∧ (t.scope j).ticket = ticket
          else t.scope j = x))) ∧
     (let p := s.pktOf (.scwait f) f
      s.performs (.scwait f) f [.s f.a.toNat] [.s f.d.toNat] [] = true → s.foreign h = false → s.stale h = false →
      (∀ x, s.taskScope s.cur = some x → s.within x i = false) →
      (∃ t, exec (.scwait f) s = .next t ∧ s.sent t p
        (if e.state = .cancelled ∨ e.state = .closed then .values [(f.d.toNat, BitVec.ofNat 64
           ((if e.state = .cancelled then 2 else 3) + (if e.remoteLost then 4 else 0) +
             (match e.fault with
              | some x => 8 + 2 ^ 8 * x.tcode
              | none => 0)))] [] 0
         else .scwait f.d.toNat i e.gen) false)))

/-- R427, R429, R212: TMARK moves a tile to READY from EMPTY, or to EMPTY from READY where no command holds it; TSTAT puts bits
[127:64] of the crew's entry in flight, and zero where it has none. R428: in a clock in which the tile has met an event of a
later place a TMARK does not issue, nor a TSTAT in one in which it has met any: they wait for the next clock (log 100). A STALL counts from the clock
after issue: log 5. -/
def Obligations.TileMarksAndStates : Prop :=
  ∀ (f : Fields) (s : State),
    let key := (s.agent s.cur).crew
    let n := f.d.toNat
    (∀ e ∈ [(Instr.tmarkReady f, false, 0, 2), (.tmarkEmpty f, true, 2, 0)],
      let p := s.pktOf e.1 f
      s.performs e.1 f [] [] [] = true → s.padDone s.cur s.nextId = true → ∀ c idx, s.crew? key = some c → s.tileIndex key n = some idx →
      (s.tileTurn key n (tilePlace s.cur) = false → exec e.1 s = .next s) ∧
      (s.tileTurn key n (tilePlace s.cur) = true → tState ((s.core c.core).tiles.get idx 0) = e.2.2.1 → (e.2.1 = true → s.tileHeld key n = false) →
      ∃ t, exec e.1 s = .next t ∧ s.wentOn t p true 0 ∧ t.mem = s.mem ∧
        (t.core c.core).tiles.get idx 0 =
          (((s.core c.core).tiles.get idx 0) &&& ~~~(3#128 <<< 110)) ||| (BitVec.ofNat 128 e.2.2.2 <<< 110) ∧
        (∀ j, j ≠ idx → (t.core c.core).tiles.get j 0 = (s.core c.core).tiles.get j 0) ∧
        t.ops = s.ops ++ [p.opOf (.values [] [] 0) p.act true 0 [] s.nextId])) ∧
    (s.performs (.tstat f) f [] [.s f.d.toNat] [] = true → s.tileNow key f.mod.toNat ≠ [] → exec (.tstat f) s = .next s) ∧
    (s.performs (.tstat f) f [] [.s f.d.toNat] [] = true → s.tileNow key f.mod.toNat = [] →
      ∃ t, exec (.tstat f) s = .next t ∧ s.sent t (s.pktOf (.tstat f) f)
        (.values [(f.d.toNat, match s.tile? key f.mod.toNat with
          | some x => x.extractLsb' 64 64
          | none => 0)] [] 0) false)

/-- R206, R207, R216, R222, R228 to R233, R383, R391: a command of an engine whose checks pass, whose tiles are ready and whose queue
has room stands at the end of its control context's queue with what it read at issue; that an MWLOAD is the context's bound load from
its issue on is log 73.
R270, R403: RESAMPLE with a legal descriptor and a counter that exists stands at the end of the copy queue with its registers. -/
def Obligations.EngineCommandsJoinTheirQueues : Prop :=
  (∀ (f : Fields) (s : State) (i : Nat), ∀ e ∈ cmdRules f,
     let p := s.pktOf e.i f
     s.performs e.i f e.reads [] [] = true → e.ok s p = true → s.cmdScope s.cur e.scopeReg = .queued i →
     ((s.core (coreOf s.cur)).queue e.kind.isMatrix (unitOf s.cur - 64)).length < 16 →
     (∀ n, s.tileTurn (s.agent s.cur).crew n 0 = true) →
     ∃ t, exec e.i s = .next t ∧ s.enqueued t p e.kind (e.cnt s) (e.regs s p) i ∧
       (e.kind = .mwload → (t.agent s.cur).bound = some (f.imm24 % 64)) ∧
       (∀ n st, (e.kind = .copy ∧ f.mb 1 ∧ n = f.x 51 46 ∧ st = 1) ∨ (e.kind = .mdrain ∧ n = f.imm24 % 64 ∧ st = 3) →
         ∀ c idx, s.crew? (s.agent s.cur).crew = some c → s.tileIndex (s.agent s.cur).crew n = some idx →
           tState ((t.core c.core).tiles.get idx 0) = st)) ∧
  (∀ (f : Fields) (s : State) (i : Nat),
     let e := Instr.resample f
     let p := s.pktOf e f
     let n := if f.mb 0 then 7 else 6
     s.performs e f ((List.range n).map (fun i => .s (f.d.toNat + i)) ++ [.s f.scopeReg]) [] [] = true →
     f.cnt = 0 ∨ 2 ^ 15 ≤ f.cnt → f.x 29 14 ≠ 0 → 1 ≤ f.x 10 5 → f.x 10 5 ≤ 32 → s.cmdScope s.cur f.scopeReg = .queued i →
     ((s.core (coreOf s.cur)).queue false (unitOf s.cur - 64)).length < 16 →
     (∀ c ∈ (s.core (coreOf s.cur)).queue false (unitOf s.cur - 64), c.id ≠ s.nextId) →
     ∃ t, exec e s = .next t ∧ s.enqueued t p .resample f.cnt
       ((List.range 7).map (fun j => if j = 6 ∧ f.mb 0 = false then 0 else s.readS s.cur (f.d.toNat + j)) ++
         [s.readS s.cur f.scopeReg]) i ((List.range 64).map (s.readS s.cur)))

/-- R356, R157, R158: CARVE answers 0 where the ways stay, shrinks at once where no crew's scratchpad lies in the ways that leave and is
BUSY (1) where one does, and starts to grow otherwise: from then on L1 takes no line into the ways that leave it (R158). One that comes
before an earlier one of its core has written its status waits. A STALL counts from the clock
after issue: log 5. -/
def Obligations.CarveMovesTheWays : Prop :=
  ∀ (f : Fields) (s : State),
    let i := Instr.carve f
    let p := s.pktOf i f
    let core := coreOf s.cur
    let c := s.core core
    let w := (s.readS s.cur f.a.toNat).toNat
    s.performs i f [.s f.a.toNat] [.s f.d.toNat] [] = true → w ≤ 8 →
    ((c.carving.isSome ∨ ∃ n, c.carveOp = some n ∧ (s.op? n).isSome) →
      ∃ t, exec i s = .next t ∧ t.mem = s.mem ∧ t.ops = s.ops ∧ (t.agent s.cur).threads = (s.agent s.cur).threads ∧
        (t.core core).w = c.w ∧ (t.core core).carving = c.carving) ∧
    (c.carving = none → (∀ n, c.carveOp = some n → s.op? n = none) →
    ∃ t, exec i s = .next t ∧ s.wentOn t p true 0 ∧ t.mem = s.mem ∧
      t.ops = s.ops ++ [p.opOf
        (if c.w < w then .carve f.d.toNat
         else .values [(f.d.toNat, if w < c.w ∧ s.padEnd core > w * 2 ^ 18 then 1 else 0)] [] 0) p.act true 0 [] s.nextId] ∧
      (t.core core).w = (if w < c.w ∧ s.padEnd core ≤ w * 2 ^ 18 then w else c.w) ∧
      (t.core core).carving = (if c.w < w then some { target := w, op := s.nextId, since := s.t } else none) ∧
      (c.w < w → (t.core core).l1Ways = (w, 16 - w)))

/-- R89 to R91, R46, R294: a due token's count falls by one; a STALL that has elapsed lets its agent issue again; a run ends at 24
packets or 64 STALL clocks; an eligible band ages by one step for each 64 µs that it waits.
R90, R91: the result of an operation whose value is known is written to its register, and its token's count falls by one. -/
def Obligations.TimersAndLateResultsAct : Prop :=
  (∀ (s : State) (k : Nat) (a : Agent), s.powered = true → s.agents.find k = some a →
     (∀ n, (∃ e ∈ a.timers, e.1 = n ∧ e.2 ≤ s.t) →
       ∃ t, exec (.tokenRelease k n) s = .next t ∧ ∃ e ∈ a.timers, e.1 = n ∧ e.2 ≤ s.t ∧
         s.agentBecomes t k { a with
           k := a.k.put n (a.tok n - 1), tokAt := (t.agent k).tokAt, timers := a.timers.erase e }) ∧
     (a.stalled = true → a.stallEnd ≤ s.t →
       ∃ t, exec (.stallElapsed k) s = .next t ∧ s.agentBecomes t k { a with
         stalled := false
         eligibleSince := s.t
         recent := a.recent.filter (fun r => decide (s.t < r.due)) }) ∧
     (a.live = true → a.runOpen = true → 24 ≤ a.runPackets ∨ 64 ≤ a.runStalls →
       ∃ t, exec (.runEnd k) s = .next t ∧ s.onlyAgent t k ∧
         t.agent k = { a with runOpen := false, runPackets := 0, runStalls := 0, lastRunEnd := s.t } ∧
         (t.core (coreOf k)).ports.find (portOf k) ≠ some k) ∧
     (∀ since, s.eligibleFrom k = some since → since + (a.ageSteps + 1) * 192000 ≤ s.t → a.ageSteps < s.basePrio k →
       ∃ t, exec (.bandPriorityAgeing k) s = .next t ∧ s.agentBecomes t k { a with ageSteps := a.ageSteps + 1 })) ∧
  (∀ (s : State) (id n : Nat) (o : Op) (a : Agent), s.powered = true → s.op? id = some o → s.agents.find o.agent = some a →
     isSaved o.agent = false → o.clash = [] → (o.commit = false ∨ a.liveMask ≠ 0) →
     ((∃ w, o.kind = .values [(n, w)] [] 0) ∨ ∃ x, o.kind = .values [] [(n, x)] 0) →
     ∃ t, exec (.variableLatencyResult id) s = .next t ∧ t.mem = s.mem ∧ t.ops = s.ops.filter (fun x => x.id != id) ∧
       (∀ w, o.kind = .values [(n, w)] [] 0 →
         a.keeps { t.agent o.agent with k := a.k } [] [n] [] ∧ (n ≠ 0 → (t.agent o.agent).rawS n = w)) ∧
       (∀ x, o.kind = .values [] [(n, x)] 0 →
         a.keeps { t.agent o.agent with k := a.k } [n] [] [] ∧ (n < 126 → ∀ l < 32, o.lanes.getLsbD l = true →
           ((t.agent o.agent).rawV n).lane l = x.lane l)) ∧
       (∀ j, (t.agent o.agent).tok j = a.tok j - if o.tok = some j then 1 else 0))

/-- R384, R385, R91, R170, R180: with the last reply of an LD that its packet has gone past, from a slice or from its core's L1, each lane's
word of each of its requests is written to its registers and its token's count falls by one; until then no register changes: that the
results are written together is the model's (log 7), for a line still to be read may be poisoned (R170). A STALL counts from the clock
after issue: log 5. -/
def Obligations.LoadRepliesWriteTheirLanes : Prop :=
  ∀ (s : State) (id d size : Nat) (r : Req) (o : Op) (a : Agent), s.powered = true → s.req? id = some r →
    r.stage = .fetched ∨ (r.stage = .sent ∧ r.access = .load ∧ s.hits r = true ∧ s.loadTurn r = true) →
    r.place = .slice → (∀ x ∈ s.reqs, x.op = r.op → x.access = .load ∧ x.failed = false) → s.op? r.op = some o →
    o.kind = .load d size → o.held = 0 → o.clash = [] → isSaved o.agent = false → s.agents.find o.agent = some a →
    ((∃ x ∈ s.reqs, x.op = r.op ∧ x.id ≠ id ∧ x.stage ≠ .answered) →
      ∃ t, exec (.loadReply id) s = .next t ∧ t.mem = s.mem ∧ t.ops = s.ops ∧
        ({ a with lastInst := (t.agent o.agent).lastInst } : Agent).keeps (t.agent o.agent) [] [] []) ∧
    ((∀ x ∈ s.reqs, x.op = r.op → x.id ≠ id → x.stage = .answered) →
      ∃ t, exec (.loadReply id) s = .next t ∧ t.mem = s.mem ∧ t.op? r.op = none ∧
        (∀ j, (t.agent o.agent).tok j = a.tok j - if o.tok = some j then 1 else 0) ∧
        ∀ x ∈ s.reqs, x.op = r.op → (x = r ∨ x.id ≠ id) →
          let got := if x.id = id ∧ r.stage ≠ .fetched then r.parts.map (s.readPart r) else x.got
          ∀ l < 32, (∀ y ∈ s.reqs, y.op = r.op → y ≠ x → ∀ p ∈ y.parts, p.lane ≠ l) →
            ∀ e, (x.parts.zip got).find? (fun e => e.1.lane == l) = some e →
              ∀ i < sizeRegs size, d + i < 126 → ((t.agent o.agent).rawV (d + i)).lane l = (loadWords size e.2).getD i 0)

/-- R181, R169: a store or atomic whose turn has come takes as V at its slice the latest of now, the end of the line's latest lease,
one ns after the V of the line's last store, and the V of its agent's last store; memory does not change yet. So does one that its
bank serves as the oldest that may be served (log 13).
R180 to R183, R169: a load whose turn has come takes the bytes of memory of that instant at its slice, or those of its band's own
pending stores, under a lease that ends no later than its page's length from now and no later than V of a store that waits on the
line; so does one that its bank serves as the oldest that may be served (log 13).
At V a store's bytes stand in memory, and an atomic replaces each word with the operation's result and keeps the old one for its
reply (R186, R341); every other byte is as before. Where parts of one request overlap, nothing is said of them here.
What is due goes before every other step: a store whose V has come first of all (log 1). No store becomes visible before its V, and
clocks that pass stop at the first instant that is not before V (clocks are 2/3 ns, log 10). -/
def Obligations.StoresWaitAndBecomeVisible : Prop :=
  (∀ (s : State) (r : Req), s.powered = true → s.req? r.id = some r → (r.access = .store ∨ r.access = .atomic) →
     s.servable r = true → s.bankTurn r = true → (∀ x ∈ s.reqs, x.op = r.op → x.failed = false) →
     (∀ o ∈ s.ops, o.id = r.op → o.held = 0 ∧ isSaved o.agent = false) →
     (∃ t, exec (.sliceStoreArrival r.id) s = .next t ∧ s.arrivedBy t r) ∧
     (∀ pre post, s.reqs = pre ++ r :: post → (∀ x ∈ pre, bankOf x.line = bankOf r.line → s.servable x = false) →
       ∃ t, exec (.l2BankService (bankOf r.line)) s = .next t ∧ s.arrivedBy t r)) ∧
  (∀ (s : State) (r : Req), s.powered = true → s.req? r.id = some r → r.access = .load → s.servable r = true → s.bankTurn r = true →
     (∀ p ∈ r.parts, s.poisoned p.addr p.len = false) →
     (∃ t, exec (.sliceFetch r.id) s = .next t ∧ s.fetchedBy t r) ∧
     (∀ pre post, s.reqs = pre ++ r :: post → (∀ x ∈ pre, bankOf x.line = bankOf r.line → s.servable x = false) →
       (s.reqs.filter (fun x => bankOf x.line == bankOf r.line && s.servable x)).length ≤ 32 →
       ∃ t, exec (.l2BankService (bankOf r.line)) s = .next t ∧ s.fetchedBy t r)) ∧
  (∀ (s : State) (id : Nat) (r : Req), s.inv → s.powered = true → s.noWaiters → s.poison = [] →
     s.req? id = some r → r.stage = .arrived → r.v ≤ s.ns →
     let alone := fun (p : Part) => r.parts.count p = 1 ∧
       ∀ q ∈ r.parts, q ≠ p → q.addr + q.data.length ≤ p.addr ∨ p.addr + p.data.length ≤ q.addr
     (r.access = .store → (∀ p ∈ r.parts, p.op ≠ 1) →
       ∃ t, exec (.storeVisible id) s = .next t ∧ (s.heldPeers = [] → t.req? id = none) ∧
         (∀ p ∈ r.parts, alone p → t.readBytes p.addr p.data.length = p.data) ∧
         ∀ x, (∀ p ∈ r.parts, x < p.addr ∨ p.addr + p.data.length ≤ x) → Memory.read t.mem x = Memory.read s.mem x) ∧
     (∀ op, r.access = .atomic → (∀ p ∈ r.parts, p.op = op ∧ p.data.length = 4) →
       ∃ (t : State) (g : List (List Byte)), exec (.storeVisible id) s = .next t ∧
         (∀ p ∈ r.parts, alone p → t.readBytes p.addr 4 = leBytes 4 (atomNew op (BitVec.ofNat 32 (leNat (s.readBytes p.addr 4)))
           (BitVec.ofNat 32 (leNat p.data)) p.cmp).1.toNat) ∧
         ((s.op? r.op).isSome = true → t.req? id = some { r with stage := .visible, got := g }) ∧
         (∀ (n : Nat) (p : Part), r.parts[n]? = some p → alone p → g[n]? = some (s.readBytes p.addr 4)) ∧
         ∀ x, (∀ p ∈ r.parts, x < p.addr ∨ p.addr + 4 ≤ x) → Memory.read t.mem x = Memory.read s.mem x)) ∧
  (∀ (s : State) (r : Req),
     (∀ i, s.dueStep = some i → step s = exec i s) ∧
     (s.dueStore = some r → s.dueStep = some (.storeVisible r.id)) ∧
     (s.req? r.id = some r → s.ns < r.v → exec (.storeVisible r.id) s = .next s) ∧
     (∀ n rest, s.powered = true → s.dueStep = none → s.agenda = .pass n :: rest → r ∈ s.reqs → r.stage = .arrived →
       ∃ t, step s = .next t ∧ t.t ≤ 3 * r.v + 1 ∧ t.mem = s.mem ∧ t.reqs = s.reqs))

/-- R320: a store that writes all 32 bytes of a poisoned sector clears the poison at its V and stores normally; one that writes a part of
it stores nothing, the sector stays poisoned, and the event is logged; no thread traps. What the log entry holds is the model's choice
(log 99). -/
def Obligations.StoresToPoisonedSectors : Prop :=
  ∀ (s : State) (id a : Nat) (data : List Byte) (r : Req), s.inv → s.powered = true → s.noWaiters → s.heldPeers = [] →
    s.req? id = some r → r.access = .store → r.stage = .arrived → r.v ≤ s.ns →
    r.parts.map (fun p => (p.addr, p.data)) = [(a, data)] → (∀ p ∈ r.parts, p.op ≠ 1) → a / 32 ∈ s.poison →
    (a % 32 = 0 → data.length = 32 → ∃ t, exec (.storeVisible id) s = .next t ∧ t.req? id = none ∧ t.agents = s.agents ∧
      (∀ x, x ∈ t.poison ↔ x ∈ s.poison ∧ x ≠ a / 32) ∧ t.errors = s.errors ∧ t.readBytes a 32 = data ∧
      ∀ x, x < a ∨ a + 32 ≤ x → Memory.read t.mem x = Memory.read s.mem x) ∧
    (0 < data.length → data.length < 32 → a % 32 + data.length ≤ 32 → ∃ t e, exec (.storeVisible id) s = .next t ∧
      t.req? id = none ∧ t.agents = s.agents ∧ t.mem = s.mem ∧ t.poison = s.poison ∧ t.errors = s.errors ++ [e] ∧
      e.place = 32 * (a / 32) ∧ e.lasting = false ∧ e.time = s.ns)

/-- R180, R166: a lease that has ended leaves its core's L1; an invalidation takes the tag's page out of every TLB. -/
def Obligations.CachesGiveLinesUp : Prop :=
  ∀ (s : State), s.powered = true →
    (∀ c line, ∃ t, exec (.leaseEnd c line) s = .next t ∧ s.coreBecomes t c { s.core c with
      l1 := (s.core c).l1.filter (fun l => !(l.line == line && decide (l.leaseEnd ≤ s.ns))) }) ∧
    (∀ tag page, ∃ t, exec (.tlbInvalidation tag page) s = .next t ∧ { t with cores := s.cores } = s ∧
      ∀ c, t.cores.find c = (s.cores.find c).map (fun x => { x with tlb := x.tlb.filter (fun e =>
        !(e.ctx == tag && decide (e.va < (page + 1) * 65536) && decide (page * 65536 < e.va + e.size))) }))

/-- R303, R311, R316, R200, R401: a reply of a peer within 100 µs, or of the host within 10 ms, gives each lane of a load its bytes; a
NACK, an error or a timeout makes the threads whose access failed trap at the load. A posted remote store that fails is kept for
the next FENCE.SYS. A push has the peer's result, or TIMEOUT. A STALL counts from the clock
after issue: log 5. -/
def Obligations.PeersAndHostAnswer : Prop :=
  (∀ (s : State) (id : Nat) (r : Req) (o : Op) (a : Agent) (d size : Nat), s.powered = true → s.req? id = some r →
    r.stage = .sent → s.op? r.op = some o → o.kind = .load d size → o.clash = [] → s.agents.find r.agent = some a →
    o.agent = r.agent → s.away r.agent = false → o.commit = false → (∀ x ∈ s.reqs, x.op = r.op → x.id = id) →
    r.access = .load → r.bad = false → r.parts ≠ [] → (∀ p ∈ r.parts, o.held.getLsbD p.lane = true) →
    let lanes := partLanes r.parts
    let gone := fun (t : State) => t.mem = s.mem ∧ t.req? id = none ∧ t.op? r.op = none ∧
      ∀ j, (t.agent r.agent).tok j = a.tok j - if o.tok = some j then 1 else 0
    let good := fun (t : State) (data : List Byte) => gone t ∧
      (∀ i < sizeRegs size, d + i < 126 → d + i ∉ o.lu → ∀ l < 32, ∀ e,
        (r.parts.zip (cutParts r.parts data)).find? (fun e => e.1.lane == l) = some e →
          ((t.agent r.agent).rawV (d + i)).lane l = (loadWords size e.2).getD i 0) ∧
      (t.agent r.agent).threads = a.threads.map (fun e =>
        if o.held.getLsbD e.1 then (e.1, { e.2 with st := .ready, pc := o.next }) else e)
    let bad := fun (t : State) (code : BitVec 8) => gone t ∧ (t.agent r.agent).tcode = code ∧ (t.agent r.agent).tpc = o.pc ∧
      (t.agent r.agent).hmask = lanes ∧
      (∃ p ∈ r.parts, (t.agent r.agent).taddr = p.va ∧ ∀ q ∈ r.parts, p.lane ≤ q.lane) ∧
      (t.agent r.agent).threads = a.threads.map (fun e =>
        if lanes.getLsbD e.1 then (e.1, { pc := s.handler r.agent, restart := s.handler r.agent, st := .ready })
        else if o.held.getLsbD e.1 then (e.1, { e.2 with st := .ready, pc := o.next }) else e)
    (∀ n, r.place = .node n →
      (s.reachable n = true → s.t < r.sentAt + 300000 →
        (∀ data, ∃ t, exec (.remoteReply id false data) s = .next t ∧ good t data) ∧
        (s.handles r.agent = true → ∃ t, exec (.remoteReply id true []) s = .next t ∧ bad t 0x0B)) ∧
      (r.sentAt + 300000 ≤ s.t → s.handles r.agent = true → ∃ t, exec (.remoteTimeout id) s = .next t ∧ bad t 0x0C)) ∧
    (r.place = .host →
      (s.t < r.sentAt + 30000000 →
        (∀ data, ∃ t, exec (.hostCompletion id true data) s = .next t ∧ good t data) ∧
        (s.handles r.agent = true → ∃ t, exec (.hostCompletion id false []) s = .next t ∧ bad t 0x09)) ∧
      (r.sentAt + 30000000 ≤ s.t → s.handles r.agent = true →
        ∃ t, exec (.hostCompletionTimeout id) s = .next t ∧ bad t 0x09))) ∧
  (∀ (s : State) (id n : Nat) (r : Req) (a : Agent), s.powered = true → s.req? id = some r → r.stage = .sent → r.access = .store →
    s.agents.find r.agent = some a → s.away r.agent = false → r.scope = none → s.decs = [] →
    (∀ o, s.op? r.op = some o → o.kind = .store ∧ o.held = 0 ∧ o.agent = r.agent) → (∀ x ∈ s.reqs, x.op = r.op → x.failed = false) →
    let kept := fun (t : State) (late : Bool) => t.mem = s.mem ∧ t.req? id = none ∧
      (t.agent r.agent).failed = a.failed ++ [(r.op, (r.parts.head?.map Part.va).getD 0, late)]
    (r.place = .node n → s.reachable n = true → s.t < r.sentAt + 300000 →
      (∃ t, exec (.remoteReply id true []) s = .next t ∧ kept t false) ∧
      ∃ t, exec (.remoteReply id false []) s = .next t ∧ t.mem = s.mem ∧ t.req? id = none ∧ (t.agent r.agent).failed = a.failed) ∧
    (r.place = .node n → r.sentAt + 300000 ≤ s.t → ∃ t, exec (.remoteTimeout id) s = .next t ∧ kept t true) ∧
    (r.place = .host → ∀ ok data, ∃ t, exec (.hostCompletion id ok data) s = .next t ∧ t.mem = s.mem ∧ t.req? id = none ∧
      (t.agent r.agent).failed = a.failed)) ∧
  (∀ (s : State) (id d n since status off : Nat) (o : Op), s.powered = true → s.req? id = none → s.op? id = some o →
    o.kind = .push d n since none → status < 6 → off < 2 ^ 32 →
    (s.reachable n = true → s.t < since + 300000 → ∃ t, exec (.remoteReply id false (leBytes 8 (status + 2 ^ 32 * off))) s = .next t ∧
      t.op? id = some { o with kind := .values [(d, pushWord status off)] [] 0 }) ∧
    (since + 300000 ≤ s.t → ∃ t, exec (.remoteTimeout id) s = .next t ∧
      t.op? id = some { o with kind := .values [(d, 6)] [] 0 }))

/-- R310, R311, R315, R199: a host write within one line of device memory or Pewter and a peer's store to a page that takes it are on
their way to their slice with their bytes; memory does not change before their V. A host read behind the host's stores is answered
with the bytes, or as poisoned; what lies past the end of BAR2 is not taken, and past the end of Pewter, or in a frame that firmware
withholds (R23, log 96), a read is unsupported. A STALL counts from the clock
after issue: log 5. -/
def Obligations.HostAndPeerStoresAreSent : Prop :=
  ∀ (s : State) (a : Nat) (data : List Byte), s.powered = true → data ≠ [] → a % 128 + data.length ≤ 128 →
    let n := data.length
    let pewter := 2 ^ 38 + a / 2 ^ 30 * 2 ^ 37 + a % 2 ^ 30
    let sent := fun (t : State) (a : Nat) => t.mem = s.mem ∧ ∃ r, t.reqs = s.reqs ++ [r] ∧ r.place = .slice ∧ r.access = .store ∧
      r.line = a / 128 ∧ (r.stage = .sent ∨ (r.stage = .arrived ∧ s.ns ≤ r.v)) ∧
      r.parts.map (fun p => (p.addr, p.data)) = [(a, data)]
    let read := fun (t : State) (a : Nat) => { t with hostOut := s.hostOut } = s ∧
      t.hostOut = s.hostOut ++ [if s.poisoned a n then .poisoned else .data (s.readBytes a n)]
    let quiet := fun (a : Nat) => (∀ r ∈ s.reqs, r.agent ≠ hostKey) ∧ (s.lineRec (a / 128)).owners = []
    (a + n ≤ 2 ^ min s.bar2 38 →
      (s.withheldRange a n = false → (∃ t, exec (.hostBar2Access true a n data) s = .next t ∧ sent t a) ∧
        (quiet a → ∃ t, exec (.hostBar2Access false a n []) s = .next t ∧ read t a)) ∧
      (s.withheldRange a n = true → exec (.hostBar2Access true a n data) s = .next s ∧
        exec (.hostBar2Access false a n []) s = .next { s with hostOut := s.hostOut ++ [.unsupported] })) ∧
    (2 ^ min s.bar2 38 < a + n → ∀ w, exec (.hostBar2Access w a n data) s = .next s) ∧
    (a < 2 ^ 31 →
      (a % 2 ^ 30 + n ≤ s.pewterSize (a / 2 ^ 30) → (∃ t, exec (.hostBar4Access true a n data) s = .next t ∧ sent t pewter) ∧
        (quiet pewter → ∃ t, exec (.hostBar4Access false a n []) s = .next t ∧ read t pewter)) ∧
      (s.pewterSize (a / 2 ^ 30) < a % 2 ^ 30 + n → exec (.hostBar4Access true a n data) s = .next s ∧
        exec (.hostBar4Access false a n []) s = .next { s with hostOut := s.hostOut ++ [.unsupported] })) ∧
    (∀ node ctx va tg, node < 384 → s.heldPeers = [] → s.xlat ctx va = .ok tg → tg.place = .slice → tg.w = true → tg.addr = a →
      va.toNat % 128 = a % 128 → s.poisoned a n = false →
      ∃ t, exec (.remoteRequest node (.store ctx va data)) s = .next t ∧ sent t a)

/-- R317, R318, R322, R22: SLEWLIM takes a STEP from 1 to 40; a current sample is taken every 1 µs, of at most 2,000 A (log 50); a telemetry
record, with the number after TLMSEQ (log 71), ends each 1 ms interval; clearing a unit's monitors empties them; each 1 ms monitor 5
samples the prefetches used over those issued and monitor 6 the early ones over those used, but for a zero divisor, and the interval
begins anew. -/
def Obligations.PowerAndMonitorsAct : Prop :=
  ∀ (s : State) (die : Nat), s.powered = true → die < 2 →
    let p := s.powerOf die
    (∀ v : W64, 1 ≤ v.toNat % 64 → v.toNat % 64 ≤ 40 →
      ∃ t, exec (.slewlimWrite die v) s = .next t ∧ (t.powerOf die).step = v.toNat % 64 ∧
        { t with power := s.power } = s ∧ ∀ d, d ≠ die → t.power.find d = s.power.find d) ∧
    (p.lastSample + 3000 ≤ s.t → ∃ t v, exec (.currentSample die) s = .next t ∧ (t.powerOf die).samples = p.samples ++ [v] ∧
      v ≤ 2000000 ∧ (t.powerOf die).lastSample = p.lastSample + 3000 ∧ { t with power := s.power, freeCtr := s.freeCtr } = s) ∧
    (p.lastRecord + 3000000 ≤ s.t → p.tlmBase.toNat / 4096 = 0 →
      ∃ t, exec (.telemetryRecord die) s = .next t ∧ t.mem = s.mem ∧ (t.powerOf die).samples = p.samples.drop 1000 ∧
        (t.powerOf die).lastRecord = p.lastRecord + 3000000 ∧ (t.powerOf die).tlmSeq = p.tlmSeq) ∧
    (p.lastRecord + 3000000 ≤ s.t → p.tlmBase.toNat / 4096 ≠ 0 → p.tlmBase.getLsbD 0 = false → s.poison = [] → s.inv →
      let a := p.tlmBase.toNat / 4096 * 4096 + 64 * (p.tlmSeq.toNat % 2 ^ p.tlmSize.toNat)
      a < 2 ^ 38 → s.withheld a = false → s.lineOpen (a / 128) = true →
      ∃ t, exec (.telemetryRecord die) s = .next t ∧ (t.powerOf die).tlmSeq = p.tlmSeq + 1 ∧
        (t.powerOf die).lastRecord = p.lastRecord + 3000000 ∧
        t.readBytes a 12 = leBytes 8 ((p.lastRecord + 3000000) / 3) ++ leBytes 4 (p.tlmSeq + 1).toNat ∧
        ∀ x, x < a ∨ a + 64 ≤ x → Memory.read t.mem x = Memory.read s.mem x) ∧
    (∀ c, c < 256 → c % 128 < Config.cores → (s.core c).intervalAt / 3000000 < s.t / 3000000 →
      ∃ t, exec (.monitorInterval c) s = .next t ∧ (t.core c).intervalAt = s.t / 3000000 * 3000000 ∧
        (t.core c).prefAt = ((s.core c).prefIssued, (s.core c).prefUsed, (s.core c).prefEarly) ∧ t.mem = s.mem ∧
        (let b := s.core c
         let issued := (b.prefIssued - b.prefAt.1).toNat
         let used := (b.prefUsed - b.prefAt.2.1).toNat
         let early := (b.prefEarly - b.prefAt.2.2).toNat
         let old := fun (q : Nat) => b.monitors.get q {}
         (t.core c).monitors.get 5 {} = (if issued = 0 then old 5 else (old 5).sample (65536 * used / issued)) ∧
         (t.core c).monitors.get 6 {} = (if used = 0 then old 6 else (old 6).sample (65536 * early / used)) ∧
         ∀ q, q ≠ 5 → q ≠ 6 → (t.core c).monitors.get q {} = old q) ∧
        ∀ j, j ≠ c → t.cores.find j = s.cores.find j) ∧
    (∀ c, c < 256 → ∃ t, exec (.monitorClear c) s = .next t ∧ s.coreBecomes t c { s.core c with monitors := [] })

/-- R319, R320, R321, R313, R314, R302, R76, R23: an error is logged, and a corrected one counted; one that lasts raises the physical
function's vector 1, and poisons its sector of memory or scratchpad (log 85 for a table entry), takes its sector from L1, a dirty one
poisoned in L2, or, in a register file, store, tile table or control core, aborts the crew's task and is recorded in its scope. How a step
names the structure and the place is log 71; while a packet past its checks is still to read the sector, the error waits (log 86). A die-link module that loses a lane runs at 32, and a Tropex port that fails carries nothing. -/
def Obligations.ErrorsAndLinkFailuresAct : Prop :=
  ∀ (s : State), s.powered = true →
    (∀ site place ok, site ≤ 11 → (ok = true ∨ site ≤ 2 ∨ site = 5 ∨ site = 11) → (ok = true ∨ s.eccWaits site place = false) →
      ∃ t e, exec (.eccRetry site place ok) s = .next t ∧ t.mem = s.mem ∧ t.errors = s.errors ++ [e] ∧ e.site = site ∧
        e.place = place ∧ e.lasting = !ok ∧ e.time = s.ns ∧ t.msi = (if ok then s.msi else s.msi ++ [(0, 1)]) ∧
        ∀ x, x ∈ t.poison ↔ x ∈ s.poison ∨ (ok = false ∧ x = place / 32)) ∧
    (∀ site place, site ≤ 11 → ∃ t e, exec (.eccRetry (16 + site) place true) s = .next t ∧
      t.errors = s.errors ++ [e] ∧ e.site = site ∧ e.place = place ∧ e.corrected = true ∧ e.lasting = false ∧ e.time = s.ns ∧
      (let n := 16 * eccDie site place + site
       t.correctable.get n 0 = s.correctable.get n 0 + 1) ∧
      { t with errors := s.errors, correctable := s.correctable } = s) ∧
    (∀ site c a, site = 3 ∨ site = 4 → a < 2 ^ 40 → s.eccWaits site (2 ^ 40 * c + a) = false →
      ∃ t, exec (.eccRetry site (2 ^ 40 * c + a) false) s = .next t ∧ t.mem = s.mem ∧ t.msi = s.msi ++ [(0, 1)] ∧
        (t.core c).l1 = ((s.core c).l1.map (fun l =>
          if l.line = a / 128 then { l with sectors := l.sectors &&& ~~~(1#4 <<< (a / 32 % 4)) } else l)).filter
            (fun l => l.sectors != 0) ∧
        (∀ j, j ≠ c → t.cores.find j = s.cores.find j) ∧
        ∀ x, x ∈ t.poison ↔ x ∈ s.poison ∨ (site = 4 ∧ x = a / 32)) ∧
    (∀ site k off c task, 6 ≤ site → site ≤ 10 → off < 2 ^ 32 → s.crew? (s.agent k).crew = some c → c.task = some task →
      k ∈ c.parts (s.agent k).crew → s.holds k = true → s.decs = [] →
      ∃ t, exec (.eccRetry site (2 ^ 32 * k + off) false) s = .next t ∧ t.mem = s.mem ∧ t.msi = s.msi ++ [(0, 1)] ∧
        (∀ j ∈ c.parts (s.agent k).crew, s.holds j = true → (s.agent j).landing = none → (t.agent j).landing = some .fault) ∧
        ((s.scope (s.faultScope k)).used = true → (s.scope (s.faultScope k)).level ≤ 1 → (s.scope (s.faultScope k)).fault = none →
          ((t.scope (s.faultScope k)).fault.map FirstFault.tcode) = some 0x0A)) ∧
    (∀ link, link < 24 → ∃ t, exec (.dieLinkLaneFailure link) s = .next t ∧ t.links.find link = some 32 ∧
      { t with links := s.links } = s ∧ ∀ j, j ≠ link → t.links.find j = s.links.find j) ∧
    (∀ port, port < 18 → ∃ t, exec (.tropexPortFailure port) s = .next t ∧ { t with portsDown := s.portsDown } = s ∧
      ∀ x, x ∈ t.portsDown ↔ x ∈ s.portsDown ∨ x = port)

/-- R24, R155, R158, R4, R5, R310: power-on leaves the state after reset, but for the schedule and the counter of the free values; power-off
only ends power; a core reset, of a core without a crew, which keeps FENCED and clears the rest (log 30), or the end of a growth zeroes
the ways that become scratchpad; the host's writes of configuration space (log 108) size BAR2 and enable virtual functions; a write of a queue's size register by
firmware sets it, and its reserved bits read as zero; the write-only FWCMD reads as zero. -/
def Obligations.PowerCyclesAndResets : Prop :=
  ∀ (s : State),
    (s.powered = false → exec .powerOn s = .next { State.reset with agenda := s.agenda, freeCtr := s.freeCtr }) ∧
    (∃ t, exec .powerOff s = .next t ∧ t.powered = false ∧ { t with powered := s.powered } = s) ∧
    (∀ c, s.powered = true → (∀ e ∈ s.crews, e.2.core ≠ c) →
      ∃ t, exec (.coreReset c) s = .next t ∧ t.core c = { fenced := (s.core c).fenced } ∧
        (∀ x, 2 ^ 40 + c * 2 ^ 21 ≤ x → x < 2 ^ 40 + (c + 1) * 2 ^ 21 → Memory.read t.mem x = 0) ∧
        ∀ x, x < 2 ^ 40 + c * 2 ^ 21 ∨ 2 ^ 40 + (c + 1) * 2 ^ 21 ≤ x → Memory.read t.mem x = Memory.read s.mem x) ∧
    (∀ c v, s.powered = true → (s.core c).carving = some v → (s.core c).w ≤ v.target →
      let lo := 2 ^ 40 + c * 2 ^ 21 + (s.core c).w * 2 ^ 18
      let hi := 2 ^ 40 + c * 2 ^ 21 + v.target * 2 ^ 18
      ∃ t, exec (.carveComplete c) s = .next t ∧ (t.core c).w = v.target ∧ (t.core c).carving = none ∧
        (∀ o d, s.op? v.op = some o → o.kind = .carve d → t.op? v.op = some { o with kind := .values [(d, 0)] [] 0 }) ∧
        (∀ l ∈ (t.core c).l1, l ∈ (s.core c).l1 ∧ (l.way < (s.core c).w ∨ v.target ≤ l.way)) ∧
        (∀ x, lo ≤ x → x < hi → Memory.read t.mem x = 0) ∧
        ∀ x, x < lo ∨ hi ≤ x → Memory.read t.mem x = Memory.read s.mem x) ∧
    (∀ i v, s.powered = true → i < 512 → ∃ t, exec (.registerWrite 4096 (0x100000 + 64 * i + 8) v) s = .next t ∧
      t.slot i = { s.slot i with size := v &&& 0x1F } ∧ (∀ j, j ≠ i → t.slots.find j = s.slots.find j) ∧
      t.readRegister 0 (0x100000 + 64 * i + 8) = v &&& 0x1F) ∧
    (∀ v : W64, s.powered = true → (8 ≤ v.toNat → v.toNat ≤ 18 →
        exec (.registerWrite 4097 0 v) s = .next { s with bar2 := 20 + v.toNat }) ∧
      (v.toNat ≤ 63 → exec (.registerWrite 4097 8 v) s = .next { s with vfs := v.toNat })) ∧
    (∀ die part, die < 2 → part < 3 → s.readRegister 0 (0x2000 + 0x100 * die + 0x40 * part + 0x18) = 0)

/-- R39, R40, R292, R293: a crew that asks for a task, whose core still has coordinates of its chunk, is handed the next position as
a DISPENSED task of the launch scope: every participant that waits in TASKGET, and is not about to land, takes the record's five
words and goes on. No cancel of the launch has reached the core, and its graph is not CANCELLED. -/
def Obligations.TasksAreHandedToTheirCrews : Prop :=
  ∀ (s : State) (key lo hi : Nat) (c : Crew) (l : Launch), s.powered = true → s.crew? key = some c →
    s.launch? c.launch = some l → c.saved = none → c.asked = true → c.task = none → c.endGiven = false →
    (s.ctx l.ctx).out = false → l.traceWait.find (coreDie c.core) = none → l.traceHeld.get (coreDie c.core) [] = [] →
    (s.core c.core).fenced = false →
    l.replay = false → l.map = false → l.queue c.core = [] → l.chunks.find c.core = some (lo, hi) → lo < hi →
    s.past l = false → s.known (16 + c.core) l.scope = false →
    let p := l.coord lo
    let task : Task := { kind := 1, scope := l.scope, seq := BitVec.ofNat 64 lo
                         payload := [BitVec.ofNat 64 p.1, BitVec.ofNat 64 p.2.1, BitVec.ofNat 64 p.2.2, 0] }
    (l.morton = false → p = (lo % l.dimX, lo / l.dimX % l.dimY, lo / (l.dimX * l.dimY))) ∧
    ∃ t, exec (.taskDelivery key) s = .next t ∧ t.mem = s.mem ∧
      t.crews = s.crews.put key { c with task := some task, asked := false, killed := false, dones := [] } ∧
      t.launches = s.launches.put c.launch { l with
        chunks := l.chunks.put c.core (lo + 1, hi)
        handed := l.handed.put (coreDie c.core) (l.handed.get (coreDie c.core) 0 + 1) } ∧
      t.scope l.scope = { s.scope l.scope with outstanding := (s.scope l.scope).outstanding + 1 } ∧
      (∀ j, j ≠ l.scope → t.scope j = s.scope j) ∧ (∀ k, k ∉ c.parts key → t.agents.find k = s.agents.find k) ∧
      (∀ k ∈ c.parts key, (s.agent k).landing ≠ none → t.agents.find k = s.agents.find k) ∧
      ∀ k ∈ c.parts key, ∀ w, (s.agent k).taskWait = some w → (s.agent k).landing = none →
        (t.agent k).taskWait = none ∧ (t.agent k).received = true ∧ (t.agent k).ended = false ∧
        (∀ i < 5, w.dest + i ≠ 0 → (s.agent k).early (.s (w.dest + i)) s.t = none → (t.agent k).rawS (w.dest + i) =
          ((BitVec.ofNat 64 (1 + 2 ^ 16 * l.scope)) :: task.payload).getD i 0) ∧
        (∀ j, (t.agent k).tok j = (s.agent k).tok j - if w.tok = j then 1 else 0) ∧
        ∀ pc, (∃ e ∈ (s.agent k).threads, e.2.st = .waiting) → (∀ e ∈ (s.agent k).threads, e.2.st = .waiting → e.2.pc = pc) →
          (t.agent k).threads = (s.agent k).threads.map (fun e => if e.2.st = .waiting ∨ e.2.st = .exited then
            (e.1, { pc := pc + 8, restart := pc + 8, st := .ready }) else e)

/-- R36, R37, R156, R290: the first launch in order (effective priority, then processing order, in one clock by die and slot) that
has room on a core is admitted there, from the clock after its start (R45): a crew with its bands, each with 32
READY threads at the kernel's entry, its control context, a zeroed scratchpad and zeroed accumulator tiles. It is a member of the
launch's GBAR if the split has not been made (R381; before it the members are those so far, log 95). -/
def Obligations.CrewsAreAdmitted : Prop :=
  ∀ (s : State) (id core : Nat) (l : Launch) (r : Room), s.powered = true → core < 256 → core % 128 < Config.cores →
    s.launch? id = some l → s.waitsOn id l core = true → s.roomFor core l.kernel = some r →
    (∀ e ∈ s.launches, s.waitsOn e.1 e.2 core = true → (s.roomFor core e.2.kernel).isSome = true →
      l.effPrio < e.2.effPrio ∨ (l.effPrio = e.2.effPrio ∧ (l.processed < e.2.processed ∨ (l.processed = e.2.processed ∧
        (l.die < e.2.die ∨ (l.die = e.2.die ∧ (l.slot < e.2.slot ∨ (l.slot = e.2.slot ∧ id ≤ e.1)))))))) →
    r.slots.Nodup → (∀ n ∈ r.slots, n < 64) →
    let k := l.kernel
    let key := ctxKey core r.ctx
    let lo := 2 ^ 40 + core * 2 ^ 21 + r.pad
    let thread := fun (pc : W64) (i : Nat) => (i, ({ pc, restart := pc, st := .ready } : Thread))
    ∃ t tiles, exec (.crewAdmission id core) s = .next t ∧
      t.crew? key = some {
        core
        launch := id
        bands := r.slots.map (agentAt core)
        ordinal := l.crewsOf.get (core / 128) 0
        hasCtl := k.control != 0
        ctx := r.ctx
        scratchBase := r.pad
        scratchSize := k.scratch
        accs := r.accs
        tiles
        member := !l.formed } ∧
      (∀ b n, r.slots[b]? = some n → ∃ a, t.agents.find (agentAt core n) = some a ∧ a.live = true ∧ a.kind = .band ∧
        a.crew = key ∧ a.band = b ∧ a.threads = (List.range 32).map (thread k.entry) ∧ a.seed = l.seed ∧ a.check = l.check ∧
        a.det = l.det ∧ a.monitor = l.monitor ∧ a.n = k.n ∧ a.g = k.g ∧ a.v = [] ∧ a.s = [] ∧ a.p = [] ∧ a.k = []) ∧
      (∃ a, t.agents.find key = some a ∧ a.live = true ∧ a.kind = .ctl ∧ a.crew = key ∧
        a.threads = if k.control = 0 then [] else [thread k.control 0]) ∧
      t.launch? id = some { l with
        phase := .running
        admitted := core :: l.admitted
        crewsOf := l.crewsOf.put (core / 128) (l.crewsOf.get (core / 128) 0 + 1) } ∧
      (∀ i ∈ r.accs, (t.core core).accs.find i = some {}) ∧
      (∀ x, lo ≤ x → x < lo + k.scratch → Memory.read t.mem x = 0) ∧
      ∀ x, x < lo ∨ lo + k.scratch ≤ x → Memory.read t.mem x = Memory.read s.mem x

/-- R290: a launch that waits ages by one step for each 64 µs; 50 µs after its start its coordinates are split by the cores that
have admitted it, those of a MAP launch by their map. R381: once every counted participant has arrived, a launch's GBAR completes
its generation and all go on, not before the split fixes the members (log 95); of a cancelled launch every waiter goes on with
CANCELLED, once the cancel has reached every unit (log 102). -/
def Obligations.LaunchesAgeSplitAndMeet : Prop :=
  ∀ (s : State) (id : Nat) (l : Launch), s.powered = true → s.launch? id = some l →
    ((l.phase = .waiting ∨ l.phase = .running) → l.processed + (l.ageSteps + 1) * 192000 ≤ s.t → l.ageSteps < l.prio →
      ∃ t, exec (.launchAgeing id) s = .next t ∧ { t with launches := s.launches } = s ∧
        t.launches = s.launches.put id { l with ageSteps := l.ageSteps + 1 }) ∧
    (l.formed = false → l.phase = .running → l.replay = false → s.gone l = false →
      let c0 := l.crewsOf.get 0 0
      let c1 := l.crewsOf.get 1 0
      let count := l.dimX * l.dimY * l.dimZ
      let n0 := count * c0 / (c0 + c1)
      l.startAt + 150000 ≤ s.t → 0 < c0 + c1 →
      ∃ t, exec (.launchSplit id) s = .next t ∧ t.mem = s.mem ∧
        t.launches = s.launches.put id { l with
          formed := true
          split := true
          ranges := if l.map then l.ranges else [(0, (0, n0)), (1, (n0, count))] } ∧
        ∀ k c, s.crews.find k = some c → t.crews.find k = some (if c.launch = id then { c with member := true } else c)) ∧
    (let cs := s.gbarCrews id
     let ks := cs.flatMap (fun e => (e.2.parts e.1).filter (fun k => (s.agent k).liveMask != 0))
     let gone := s.gone l
     let casting := (s.home l).any s.casting
     ((gone = true ∧ casting = true) ∨ (gone = false ∧ l.formed = false) → exec (.gbarRelease id) s = .next s) ∧
     ((if gone then casting = false else l.formed = true ∧ ∀ k ∈ ks, s.atGbar k = true) →
      (∃ k ∈ ks, (if (s.agent k).gbarIn then (s.agent k).liveMask else (s.agent k).stMask (· == .gbar)) ≠ 0) →
      (∀ e ∈ cs, e.2.saved = none) →
      ∃ t, exec (.gbarRelease id) s = .next t ∧ t.mem = s.mem ∧
        t.launches = (if gone then s.launches else s.launches.put id { l with gbarGen := l.gbarGen + 1 }) ∧
        (∀ k, k ∉ ks → t.agents.find k = s.agents.find k) ∧
        ∀ k ∈ ks, (t.agent k).gbarDest = [] ∧ (t.agent k).gbarIn = false ∧
          (t.agent k).threads = (s.agent k).threads.map (fun e =>
            if (if (s.agent k).gbarIn then (s.agent k).liveMask else (s.agent k).stMask (· == .gbar)).getLsbD e.1 then
              (e.1, { pc := e.2.pc + 8, restart := e.2.pc + 8, st := .ready }) else e) ∧
          ∀ d tok, (s.agent k).gbarDest = [(d, tok)] → d ≠ 0 →
            (t.agent k).rawS d = if gone then 1 else BitVec.ofNat 64 ((l.gbarGen + 1) % 2 ^ 32 * 2 ^ 32)))

/-- R66, R69: a cancel that reaches a core kills the task of its crew in the subtree: each participant that holds it lands at its next
kill point. R48, R71: an agent at its kill point lands: every thread is READY at the landing address, its tokens are zero, and its
pending results are discarded. -/
def Obligations.CancelsKillTasksAndAgentsLand : Prop :=
  (∀ (s : State) (i core key : Nat) (c : Cast) (crew : Crew) (task : Task), s.powered = true →
    s.casts.find? (fun x => x.scope == i) = some c → (∃ u < 4, u ∉ c.done) →
    s.replayDue (core / 128) i = true → s.replayRuns core c = false →
    (∀ e ∈ s.crews, coreDie e.2.core = core / 128 → (s.launch? e.2.launch).any Launch.replay = true → e.1 = key) →
    s.crews.filter (fun e => e.2.core == core) = [(key, crew)] →
    s.crew? key = some crew → crew.saved = none → crew.killed = false → crew.task = some task →
    s.within task.scope i = true → s.decs = [] →
    (s.core core).queue false (unitOf key - 64) ++ (s.core core).queue true (unitOf key - 64) = [] →
    (∃ k ∈ crew.parts key, s.holds k = true ∧ (s.agent k).atBar = false) →
    ∃ t, exec (.cancelBroadcastArrival (16 + core) i) s = .next t ∧ t.mem = s.mem ∧
      t.crews = s.crews.put key { crew with killed := true } ∧
      (t.scope task.scope).killed = min 0xFFFFFFFF ((s.scope task.scope).killed + 1) ∧
      (∀ j, j ≠ task.scope → t.scope j = s.scope j) ∧
      (∀ k ∈ crew.parts key, s.holds k = true →
        t.agent k = { s.agent k with landing := some ((s.agent k).landing.getD .cancelled) }) ∧
      (∀ k, (k ∉ crew.parts key ∨ s.holds k = false) → t.agents.find k = s.agents.find k) ∧
      t.casts = s.casts.map (fun x => if x = c then { x with done := (16 + core) :: x.done } else x)) ∧
  (∀ (s : State) (k : Nat) (why : Reason) (l : Launch) (c : Crew) (task : Task),
    let a := s.agent k
    let pc := if a.kind = .ctl then l.kernel.control else l.kernel.landing
    s.powered = true → a.landing = some why → a.runOpen = false → (∀ o ∈ s.ops, o.agent = k → o.owed = false) →
    s.cmdsMet k why = true → s.crew? a.crew = some c → s.launch? c.launch = some l → c.task = some task →
    k ∈ c.parts a.crew → (∃ j ∈ c.parts a.crew, j ≠ k ∧ s.partDone c j = false) → s.decs = [] → a.liveMask ≠ 0 →
    ∃ t, exec (.crewLanding k) s = .next t ∧ t.mem = s.mem ∧ t.crews = s.crews ∧
      (t.agent k).threads = a.threads.map (fun e => (e.1, { pc, restart := pc, st := .ready })) ∧
      (t.agent k).reason = why.code ∧ (t.agent k).landing = none ∧ (t.agent k).ended = a.received ∧ (t.agent k).hmask = 0 ∧
      (∀ j, (t.agent k).tok j = 0) ∧
      (why = .exit → (t.agent k).v = a.v ∧ (t.agent k).s = a.s ∧ (t.agent k).p = a.p) ∧
      t.ops = s.ops.filter (fun o => o.agent != k) ∧ ∀ j, j ≠ k → t.agents.find j = s.agents.find j)

/-- R72, R73: an acknowledgement record is stored once the stores that were pending are visible, at a later time, and then the scope
is final; a record in host or peer memory is sent, and the scope is final once its write has completed (R199). A scope that names no
place for its record is final without one. The record comes at least 1 ns after those stores (log 66). R68: a peer's cancel cancels
the scope that it names and the peer is told once that scope is final, at once if it is; a peer's acknowledgement, or its timeout
(TPC 0 and core 0xFF in the first fault then are the model's, log 89), ends its place; a link to a scope of this module (node 0x1FF)
is acknowledged once that scope is final. A STALL counts from the clock
after issue: log 5. -/
def Obligations.ScopesAcknowledgeAndPeersSettle : Prop :=
  ∀ (s : State) (i : Nat), s.powered = true →
    let e := s.scope i
    let n := fun (x : Nat) => if e.state = .cancelling then x else 0
    let record := leBytes 2 i ++ leBytes 1 e.level ++
      leBytes 1 ((if e.state = .cancelling then 2 else 3) + (if e.remoteLost then 4 else 0) + (if e.fault.isSome then 8 else 0)) ++
      leBytes 4 (n e.killed) ++ leBytes 4 (n e.dropped) ++ leBytes 2 (n e.copies) ++ leBytes 2 (n e.matrix) ++
      leBytes 8 (n e.ticket.toNat) ++ leBytes 8 (if s.detScope i then 0 else (e.zeroAt.getD 0) / 3)
    (e.used = true → e.zeroAt.isSome = true → (e.state = .opened ∨ e.state = .cancelling) → e.ackWait = none →
      e.outstanding = 0 → (∀ r ∈ e.after, ∀ q, s.req? r = some q → q.stage = .visible ∨ q.stage = .answered) →
      (e.ackaddr ≠ 0 → e.ackReq = none → e.quietAt = none → ∃ t, exec (.ackRecordWrite i) s = .next t ∧ t.mem = s.mem ∧
        t.scope i = { e with quietAt := some s.ns } ∧ ∀ j, j ≠ i → t.scope j = s.scope j) ∧
      (∀ q tg, e.ackaddr ≠ 0 → e.ackReq = none → e.quietAt = some q → q < s.ns → s.reachStore e.ctx e.ackaddr = .now tg → tg.place ≠ .slice →
        ∃ t, exec (.ackRecordWrite i) s = .next t ∧ t.mem = s.mem ∧ t.scope i = { e with ackReq := some s.nextId } ∧
          ∃ r, t.reqs = s.reqs ++ [r] ∧ r.id = s.nextId ∧ r.access = .store ∧ r.stage = .sent ∧ r.place = tg.place ∧
            r.parts.map (fun x => (x.addr, x.data)) = [(tg.addr, record)]) ∧
      (s.decs = [] → s.launchAt i = none → e.level ≠ 4 → e.parent ≠ 0 → e.parent ≠ i → (s.scope e.parent).parent ≠ i →
        2 ≤ (s.scope e.parent).outstanding →
        (∀ q tg, e.ackaddr ≠ 0 → e.ackReq = none → e.quietAt = some q → q < s.ns → s.inv → s.poison = [] →
          s.reachStore e.ctx e.ackaddr = .now tg → tg.place = .slice →
          ∃ t, exec (.ackRecordWrite i) s = .next t ∧ t.readBytes tg.addr 32 = record ∧
            (∀ x, x < tg.addr ∨ tg.addr + 32 ≤ x → Memory.read t.mem x = Memory.read s.mem x) ∧
            (t.scope i).state = (if e.state = .cancelling then .cancelled else .closed) ∧
            (t.scope e.parent).outstanding = (s.scope e.parent).outstanding - 1) ∧
        ((e.ackaddr = 0 ∨ ∃ r, e.ackReq = some r ∧ s.req? r = none) →
          ∃ t, exec (.ackRecordWrite i) s = .next t ∧ t.mem = s.mem ∧
            (t.scope i).state = (if e.state = .cancelling then .cancelled else .closed) ∧
            (t.scope e.parent).outstanding = (s.scope e.parent).outstanding - 1 ∧
            t.peerOut = s.peerOut ++ e.watchers.map (fun w => (w, .settled (s.farHandle i)))))) ∧
    (∀ node h, s.foreign h = false →
      (s.stale h = false → (s.scope (h.toNat % 2 ^ 16)).state = .opened →
        ∃ t, exec (.peerCancelMessage node h) s = .next t ∧ t.mem = s.mem ∧ s.cancelledBy t (h.toNat % 2 ^ 16) ∧
          (node ≠ 0x1FF → node ∈ (t.scope (h.toNat % 2 ^ 16)).watchers)) ∧
      (s.stale h = true → node ≠ 0x1FF → ∃ t, exec (.peerCancelMessage node h) s = .next t ∧
        t.peerOut = s.peerOut ++ [(node, .settled h)] ∧ { t with peerOut := s.peerOut } = s)) ∧
    (∀ node p, s.peerOf i node = some p → e.used = true →
      let same := fun (x : Peer) => x.node == p.node && x.handle == p.handle && !x.settled
      let settled := e.remote.map (fun x => if same x then { x with settled := true } else x)
      let links := (e.remote.filter same).length
      links < e.outstanding →
      ((if node = 0x1FF then s.stale p.handle = true ∨ (s.scope (hIndex p.handle)).final = true else s.reachable node = true) →
        ∃ t, exec (.peerAcknowledgement i node) s = .next t ∧ t.mem = s.mem ∧
        t.scope i = { e with remote := settled, outstanding := e.outstanding - links }) ∧
      (∀ sent, p.sent = some sent → sent + 300000 ≤ s.t →
        ∃ t, exec (.peerAckTimeout i node) s = .next t ∧ t.mem = s.mem ∧ t.scope i = { e with
          remote := settled
          outstanding := e.outstanding - links
          remoteLost := true
          fault := some (e.fault.getD { tcode := 0x0C, tpc := 0, core := 0xFF, time := s.ns }) }))

/-- R217, R218: a segment of a COPY into scratchpad stores each byte of its source at its place, and nothing else; one into global
memory sends its bytes; it reads each source line once (R196), while no other agent's command owns it (R195, log 103). R215: a command whose writes are visible leaves its queue. R221: a CCOPY whose version word holds the value
that it expects applies its bytes and the next version at once; one that finds another ends with MISMATCH and stores nothing. A
CCOPY commits at one instant (log 29), and not while its crew is being stopped (R304). R217: a COPY or CCOPY of no rows or no bytes completes at once. -/
def Obligations.CopiesMoveTheirBytes : Prop :=
  ∀ (s : State) (core cx : Nat) (c : Cmd), s.inv → s.powered = true → s.poison = [] → s.heads core false cx c →
    let key := ctxKey core cx
    let ctx := s.ctxOf key
    let base := s.padBase key
    let p := s.plan core cx c
    let ps := p.pieces c.done
    let srcLines := if p.srcPad then [] else ps.flatMap (fun e => s.rangeLines core ctx e.1 e.2.2)
    let src := fun (e : W64 × W64 × Nat) => if p.srcPad then s.readBytes (base + e.1.toNat) e.2.2
      else (s.sourceBytes (s.readLines c.lines srcLines) core ctx e.1 e.2.2).map Prod.fst
    (c.kind = .copy → s.copyNext core = some cx → ps ≠ [] → s.segMeets core ctx p ps = .ok → p.srcPad ≠ p.dstPad →
      (p.srcPad = false → ∀ e ∈ ps, s.farFails core ctx e.1 e.2.2 = false) →
      (∀ l ∈ srcLines, c.lines.find l = none → s.opened core c l = true) →
      (p.dstPad = false → ∀ e ∈ ps, ∀ l ∈ s.rangeLines core ctx e.2.1 e.2.2, (s.lineRec l).owners.head? = some c.id) →
      ∃ t x, exec (.copySegment core cx) s = .next t ∧ ((t.core core).queue false cx).head? = some x ∧ x.id = c.id ∧
        x.done = c.done + 1 ∧ x.started = true ∧ x.finished = (c.finished || (p.pieces (c.done + 1)).isEmpty) ∧
        (∀ l ∈ srcLines, x.lines.find l = some ((c.lines.find l).getD ((List.range 128).map (fun i =>
          (Memory.read s.mem (128 * l + i), s.poisoned (128 * l + i) 1))))) ∧
        (p.dstPad = true →
          (∀ a, (∀ e ∈ ps, ∀ j < e.2.2, a ≠ base + (e.2.1 + BitVec.ofNat 64 j).toNat) →
            Memory.read t.mem a = Memory.read s.mem a) ∧
          ∀ e, ps = [e] → ∀ j < (src e).length, j < e.2.2 → e.2.1.toNat + e.2.2 ≤ 2 ^ 64 →
            Memory.read t.mem (base + (e.2.1 + BitVec.ofNat 64 j).toNat) = (src e).getD j 0) ∧
        (p.dstPad = false → t.mem = s.mem ∧ ∀ e ∈ ps, ∀ j < (src e).length, ∀ tg,
          s.xlatCore core ctx (e.2.1 + BitVec.ofNat 64 j) = .ok tg →
          t.carries c.id (e.2.1 + BitVec.ofNat 64 j) tg.addr ((src e).getD j 0))) ∧
    (c.kind ≠ .resample → c.kind.isMatrix = false →
      ((c.finished = true ∧ c.maxV ≤ s.ns) ∨ (c.finished = false ∧ (c.kind = .copy ∨ c.kind = .ccopy) ∧ p.rows = 0 ∧ s.stopping core cx = false)) →
      s.endsQuietly key c → (∀ n ∈ c.tiles, s.tileTurn key n 1 = true) →
      ∃ t, exec (.copyComplete core cx) s = .next t ∧ s.cmdEnded t core cx c ∧ (c.f.mb 2 = false → t.mem = s.mem) ∧
        (c.kind = .copy → c.f.mb 1 = true → ∀ w i, s.crew? key = some w → s.tileIndex key (c.f.x 51 46) = some i →
          tState ((t.core w.core).tiles.get i 0) = if c.status &&& 5 = 0 then 2 else 0)) ∧
    (c.kind = .ccopy → c.started = true → c.finished = false → c.wait = none → s.stopping core cx = false → p.pieces c.done = [] → c.status &&& 8 = 0 →
      s.ccopyPlace core ctx p c = .ok →
      (∀ l ∈ s.ccopyLines core ctx p c, (s.lineRec l).leaseEnd ≤ s.ns ∧
        (s.lineRec l).nextV ≤ s.ns ∧ s.mine c.id l = true) →
      let va := c.regs.getD 7 0
      let got := (s.engineRead core ctx va 8).map Prod.fst
      let at_ := fun (j : Nat) => s.placed core ctx (va + BitVec.ofNat 64 j)
      let vas := (List.range c.done).flatMap (fun i => (p.pieces i).flatMap (fun e =>
        (List.range e.2.2).map (fun j => e.2.1 + BitVec.ofNat 64 j)))
      let dsts := vas.map (s.placed core ctx)
      (BitVec.ofNat 64 (leNat got) = c.regs.getD 8 0 → (∀ j < 8, at_ j = at_ 0 + j) →
        (∀ d ∈ dsts, d < at_ 0 ∨ at_ 0 + 8 ≤ d) →
        ∃ t, exec (.ccopyCommit core cx) s = .next t ∧ t.readBytes (at_ 0) 8 = leBytes 8 (leNat got + 1) ∧
          (dsts.Nodup → ∀ n < c.data.length, n < vas.length → p.touches (vas.getD n 0) = false →
            Memory.read t.mem (dsts.getD n 0) = c.data.getD n 0) ∧
          ∀ a, a ∉ dsts → a < at_ 0 ∨ at_ 0 + 8 ≤ a → Memory.read t.mem a = Memory.read s.mem a) ∧
      (BitVec.ofNat 64 (leNat got) ≠ c.regs.getD 8 0 →
        ∃ t x, exec (.ccopyCommit core cx) s = .next t ∧ t.mem = s.mem ∧
          ((t.core core).queue false cx).head? = some x ∧ x.finished = true ∧ x.status = c.status ||| 2))

/-- R148, R228, R231, R232: MWLOAD latches its tile's format and its first rows in the array, MZERO sets its accumulator tile to zero,
MDRAIN stores its tile's bytes. R150, R230, R234: a k-step adds its products, with the weights in the array, to the command's own view
of the tile, and the last one commits it. The end of a command waits for its turn among the events of its tiles (R429, log 100). R225: a head that does not run ages each 32 µs.
R236: a grant takes a start's share of the die's budget. -/
def Obligations.MatrixCommandsRun : Prop :=
  (∀ (s : State) (core cx : Nat) (c : Cmd), s.powered = true → s.endsQuietly (ctxKey core cx) c →
    (∀ n ∈ c.tiles, s.tileTurn (ctxKey core cx) n 1 = true) →
    let key := ctxKey core cx
    let tile := c.f.imm24 % 64
    (s.matReady core (· == .mwload) (fun _ _ => 128) = some (cx, c) →
      ∃ t, exec (.mwloadLatch core) s = .next t ∧ s.cmdEnded t core cx c ∧ t.mem = s.mem ∧
        (∀ w, s.tile? key tile = some w → (t.core core).latched = some {
          ctx := cx
          fmt := tFmt w
          row := 0
          rows := (List.range (128 * fmtP (tFmt w))).map (fun i => s.tileRow (s.padBase key) w i) }) ∧
        (t.core core).matIdle = s.clocks ∧ (t.agents.find key).map Agent.loaded = (s.agents.find key).map (fun _ => some tile)) ∧
    (s.matReady core (fun k => k == .mzero true || k == .mzero false) (fun _ _ => 128) = some (cx, c) →
      ∃ t, exec (.mzeroExecute core) s = .next t ∧ s.cmdEnded t core cx c ∧ t.mem = s.mem ∧
        ∀ i, s.accIndex key c.acc = some i → (t.core core).accs.find i = some (if c.kind = .mzero true then { mode := 1 }
          else { mode := 0, e := ((c.regs.getD 0 0).extractLsb' 0 16).toInt })) ∧
    (s.inv → s.poison = [] → s.matReady core (· == .mdrain)
        (fun cx c => (tBytes ((s.tile? (ctxKey core cx) (c.f.imm24 % 64)).getD 0) + 255) / 256) = some (cx, c) →
      let a := s.padBase key + tOffset ((s.tile? key tile).getD 0)
      let bs := s.drainBytes core cx c
      ∃ t, exec (.mdrainComplete core) s = .next t ∧ s.cmdEnded t core cx c ∧ t.readBytes a bs.length = bs ∧
        (∀ x, x < a ∨ a + bs.length ≤ x → Memory.read t.mem x = Memory.read s.mem x) ∧
        ∀ w i, s.crew? key = some w → s.tileIndex key tile = some i → tState ((t.core w.core).tiles.get i 0) = 2)) ∧
  (∀ (s : State) (core cx b : Nat) (c : Cmd), s.powered = true → s.matReady core (· == .mmul) (s.kClocks core) = some (cx, c) →
    s.kBegin core = some b → b + s.kClocks core cx c ≤ s.clocks →
    let key := ctxKey core cx
    let view := if c.done = 0 then s.acc key c.acc else (s.core core).shadows.get cx {}
    let next := view.kStep (s.kSums (s.mmShape core cx c) (s.kWeights core cx c) (mmM c.f) c.done)
    (c.done + 1 < mmKs c.f →
      ∃ t x, exec (.mmulKStep core) s = .next t ∧ t.mem = s.mem ∧ (t.core core).shadows.get cx {} = next ∧
        (t.core core).accs = (s.core core).accs ∧ ((t.core core).queue true cx).head? = some x ∧ x.id = c.id ∧
        x.done = c.done + 1 ∧ (t.core core).running = some cx ∧
        (s.kClocks core cx c ≠ 8 → (t.core core).latched = some (s.kWeights core cx c))) ∧
    (mmKs c.f ≤ c.done + 1 → s.endsQuietly key c → (∀ n ∈ c.tiles, s.tileTurn key n 1 = true) →
      ∃ t, exec (.mmulKStep core) s = .next t ∧ t.mem = s.mem ∧ s.cmdEnded t core cx c ∧
        ∀ i, s.accIndex key c.acc = some i → (t.core core).accs.find i = some next)) ∧
  (∀ (a : Acc) (sums : Sums), a.mode ≠ 1 → (∀ x ∈ sums, x.2.isSome = true) → a.fits sums = true →
    (sums.map (fun x => accAt x.1.1 x.1.2)).Nodup →
    (a.kStep sums).e = a.e ∧ ∀ x ∈ sums, ∀ v, x.2 = some v → (a.kStep sums).at_ x.1.1 x.1.2 =
      if a.at_ x.1.1 x.1.2 = accMarker then accMarker else a.at_ x.1.1 x.1.2 + accTerm v a.e) ∧
  (∀ (s : State) (core cx : Nat) (c : Cmd), s.powered = true → s.heads core true cx c →
    (∀ y d, s.matRuns core = some (y, d) → y ≠ cx) →
    ((s.core core).running = none ∨ ∀ b y d, s.matNow core = some (b, y, d) → (s.core core).running = some y) →
    c.headSince + (c.ageSteps + 1) * 96000 ≤ s.t → c.ageSteps < (s.agent (ctxKey core cx)).mqprio →
    ∃ t x, exec (.matrixPriorityAgeing core cx) s = .next t ∧ t.mem = s.mem ∧ t.agents = s.agents ∧
      ((t.core core).queue true cx).head? = some x ∧ x = { c with ageSteps := c.ageSteps + 1 }) ∧
  (∀ (s : State) (core since : Nat), s.powered = true → s.startAsked core = some since → 1500 ≤ s.budget (core / 128) →
    (∀ i u, i < Config.cores → s.startAsked (128 * (core / 128) + i) = some u →
      since < u ∨ (since = u ∧ core ≤ 128 * (core / 128) + i)) →
    ∃ t, exec (.governorGrant core) s = .next t ∧ t.mem = s.mem ∧ (t.core core).grantedAt = some s.clocks ∧
      (t.powerOf (core / 128)).budget = s.budget (core / 128) - 1500 ∧ (t.powerOf (core / 128)).budgetAt = s.t)

/-- R270, R271, R403: a RESAMPLE whose descriptors and tile are legal starts; each pixel's result, the next of the results that
have been computed, or the first of those computed now for the pixels of its row that come after it as well (log 37), is sent to
its place in the result surface, and the command moves to the next; the tile whose turn it is goes on until it ends (R403); with every store visible it leaves its queue. -/
def Obligations.OverlockResamples : Prop :=
  ∀ (s : State) (core cx : Nat) (c : Cmd), s.powered = true → s.heads core false cx c → c.kind = .resample →
    let ctx := s.ctxOf (ctxKey core cx)
    let x := 16 * c.tileCol
    let y := 16 * c.tileRow
    (∀ (bs : List (List Byte)) (a : Surface) (m : List Byte), bs.length = 3 → c.started = false → c.finished = false → c.wait = none →
      s.stopping core cx = false → c.maxV ≤ s.ns →
      (∀ i < 3, (c.regs.getD i 0).toNat % 64 = 0 ∧ s.overRead core cx c (c.regs.getD i 0) 64 = .bytes (bs.getD i []) false ∧
        (Surface.ofBytes (bs.getD i [])).isSome = true) →
      Surface.ofBytes (bs.getD 0 []) = some a → (c.regs.getD 4 0).toNat < 2 ^ 32 → a.inside x y = true →
      s.overRead core cx c a.map a.mapBytes = .bytes m false → a.die m x y = core / 128 →
      ∃ t q, exec (.resampleStart core cx) s = .next t ∧ t.mem = s.mem ∧ t.agents = s.agents ∧
        ((t.core core).queue false cx).head? = some q ∧
        q = { c with started := true, begun := s.t, denied := [], data := bs.flatten ++ m }) ∧
    (∀ (r : List W32) (st : BitVec 5) (a : Surface), s.overTurn core = some cx → c.surface 2 = some a →
      (c.row.head? = some (r, st, false) ∨ (c.row = [] ∧ ∃ rows d,
        s.row core cx c x (y + c.done / 16) = .ok rows ∧ rows.head? = some (d, st, false) ∧ r = Rsv.words d)) →
      let va := a.base + BitVec.ofNat 64 (a.offset (x + c.done % 16) (y + c.done / 16))
      s.meets core ctx true va 32 = .ok → (∀ l ∈ s.rangeLines core ctx va 32, s.mine c.id l = true) →
      ∃ t q, exec (.resamplePixel core cx) s = .next t ∧ t.mem = s.mem ∧ t.agents = s.agents ∧
        ((t.core core).queue false cx).head? = some q ∧ q.id = c.id ∧ q.done = c.done + 1 ∧ q.status = c.status ||| st ∧
        q.finished = (c.finished || decide (256 ≤ c.done + 1)) ∧
        ∀ j < 32, ∀ tg, s.xlatCore core ctx (va + BitVec.ofNat 64 j) = .ok tg →
          t.carries c.id (va + BitVec.ofNat 64 j) tg.addr
            (((List.range 8).flatMap (fun i => leBytes 4 (r.getD i 0).toNat)).getD j 0)) ∧
    (c.finished = true → c.maxV ≤ s.ns → s.endsQuietly (ctxKey core cx) c →
      ∃ t, exec (.resampleComplete core cx) s = .next t ∧ s.cmdEnded t core cx c ∧ t.mem = s.mem)

/-- R304, R305: a pre-empted crew leaves its core; its header and its agents' records stand in its save area, its agents keep their
registers (beside the area, log 46), and no byte outside the area changes. The area stands at a multiple of 128 in device
memory (log 49). R309: a context switch leaves no entry of the context in a TLB, takes its idle slots
away, and those with a packet that goes on once it is over. R307: reclaimed accumulator tiles stand in their area and are free. -/
def Obligations.PreemptionSavesACrew : Prop :=
  (∀ (s : State) (key area : Nat) (c : Crew) (task : Task),
    let ks := key :: c.bands
    let n := s.nextId
    let new := savedKey n key
    let core := s.core c.core
    let cx := unitOf key - 64
    s.inv → s.powered = true → s.crew? key = some c → c.saved = none → s.areaOk area (s.areaSize c) = true →
    s.mayStop key c = true → (∀ k ∈ ks, (s.agent k).landing = none) → (∀ o ∈ s.ops, o.agent ∈ ks → o.kind.padStores = false) →
    freshKeys n ks → s.decs = [] → c.task = some task →
    task.payload.length = 4 → (∃ k ∈ c.parts key, s.partDone c k = false) →
    (∃ k ∈ c.parts key, (s.agent k).liveMask ≠ 0 ∧ (s.agent k).atBar = false) →
    ∃ t d, exec (.preemption key area) s = .next t ∧ t.crew? key = none ∧ t.crew? new = some d ∧ d.saved = some area ∧
      d.task = c.task ∧ d.launch = c.launch ∧ d.bands = c.bands.map (savedKey n) ∧
      d.cmds = (core.queue false cx ++ core.queue true cx).map Cmd.stopped ∧
      (∀ k ∈ ks, t.agents.find k = none ∧
        let a := s.agent k
        let b := t.agent (savedKey n k)
        b.live = false ∧ b.v = a.v ∧ b.s = a.s ∧ b.p = a.p ∧ b.flags = a.allFlags ∧ b.hmask = a.hmask ∧ b.tcode = a.tcode ∧
        b.tpc = a.tpc ∧ b.taddr = a.taddr ∧ b.received = a.received ∧ ∀ j, b.tok j = 0) ∧
      t.readBytes area 256 = crewHeader d new ∧ t.readBytes (area + 256) 1024 = ctlRecord (t.agent new) ∧
      (∀ b k, d.bands[b]? = some k → t.readBytes (area + 1280 + 1024 * b) 1024 = bandRecord (t.agent k)) ∧
      ∀ x, x < area ∨ area + 2304 + 1024 * c.bands.length + (t.areaTail d).length + c.scratchSize ≤ x →
        Memory.read t.mem x = Memory.read s.mem x) ∧
  (∀ (s : State) (ctx area : Nat), s.powered = true → s.areaOk area 0 = true → s.crewsOut ctx area = [] →
    ∃ t, exec (.contextSwitch ctx area) s = .next t ∧ t.mem = s.mem ∧ (t.ctx ctx).out = true ∧
      (∀ core, ∀ e ∈ (t.core core).tlb, e.ctx ≠ ctx) ∧
      ∀ i x, s.slots.find i = some x → x.en = true → x.ctx = ctx → (x.cur = none → (t.slot i).en = false) ∧
        (s.packetGoesOn i = true → (t.slot i).leaving.isSome = true)) ∧
  (∀ (s : State) (key area saved : Nat) (c : Crew), s.inv → s.powered = true → s.crew? key = some c → c.saved = some saved →
    c.reclaimed = false → c.accs ≠ [] → s.areaOk area (98368 * c.accs.length) = true →
    (∀ task, c.task = some task → task.payload.length = 4) →
    let pad := saved + 2304 + 1024 * c.bands.length + (s.areaTail c).length
    c.padImage = pad → (area + 98368 * c.accs.length ≤ saved ∨ pad + c.scratchSize ≤ area) →
    ∃ t d, exec (.accumulatorReclaim key area) s = .next t ∧ t.crew? key = some d ∧ d.reclaimed = true ∧ d.spill = area ∧
      (∀ i ∈ c.accs, (t.core c.core).accs.find i = none) ∧
      ∀ m i, c.accs[m]? = some i →
        t.readBytes (area + 98368 * m) 98368 = Acc.bytes ((s.core c.core).accs.get i {}))

/-- R306: a saved crew that has room on a core stands there again: its bands take their scalar registers and their restart points from
their records, and its scratchpad its image; what the area does not hold is kept beside it (log 46). R100, R305, R238: a record, a register image and a spilled accumulator tile give back
what they were made from. -/
def Obligations.RestoreGivesBackACrew : Prop :=
  (∀ (s : State) (key target area : Nat) (c : Crew) (l : Launch) (r : Room) (task : Task),
    let ks := key :: c.bands
    let new := ctxKey target r.ctx
    let record := fun (b : Nat) => s.readBytes (area + 1280 + 1024 * b) 1024
    let word := fun (b o n : Nat) => leNat (((record b).drop o).take n)
    let pad := 2 ^ 40 + target * 2 ^ 21 + r.pad
    s.inv → s.powered = true → s.crew? key = some c → c.saved = some area → s.launch? c.launch = some l → target < 256 →
    target % 128 < Config.cores → (s.core target).fenced = false → (∀ o ∈ s.ops, o.agent ∉ ks) → (∀ q ∈ s.reqs, q.agent ∉ ks) →
    (∀ e ∈ s.crews, e.1 ≠ key → e.2.launch = c.launch → e.2.core ≠ target) →
    (c.accs ≠ [] → c.reclaimed = false → target = c.core) →
    s.room target c.bands.length l.kernel.g c.scratchSize c.tiles.length c.accs.length
      (if c.accs != [] && !c.reclaimed then some c.accs else none) = some r →
    r.slots.Nodup → (∀ n ∈ r.slots, n < 64) → r.slots.length = c.bands.length → r.ctx < 8 → 2 ^ 24 ≤ key →
    (∀ k ∈ ks, (s.agent k).landing = none) → (∀ x ∈ s.casts, 16 + target ∉ x.done) → s.decs = [] → c.task = some task →
    (∃ b k, c.bands[b]? = some k ∧ (s.agent k).ended = false ∧ ((s.agent k).received = true ∨ c.killed = false) ∧
      word b 256 4 ≠ 0xFFFFFFFF) →
    ∃ t tiles, exec (.restore key target) s = .next t ∧ t.crew? key = none ∧
      t.crew? new = some { c with
        core := target
        bands := r.slots.map (agentAt target)
        ctx := r.ctx
        scratchBase := r.pad
        accs := r.accs
        tiles
        saved := none
        droppedTask := false
        reclaimed := false
        cmds := [] } ∧
      (∀ b n k, r.slots[b]? = some n → c.bands[b]? = some k →
        let a := t.agent (agentAt target n)
        a.live = true ∧ a.crew = new ∧
        (∀ i < 63, a.rawS (i + 1) = BitVec.ofNat 64 (word b (336 + 8 * i) 8)) ∧
        ∀ j < 32, (BitVec.ofNat 32 (word b 256 4)).getLsbD j = false →
          a.thread j = { pc := BitVec.ofNat 64 (word b (8 * j) 8), restart := BitVec.ofNat 64 (word b (8 * j) 8), st := .ready }) ∧
      (∀ i < c.scratchSize, Memory.read t.mem (pad + i) = Memory.read s.mem (c.padImage + i)) ∧
      ∀ x, x < pad ∨ pad + c.scratchSize ≤ x → Memory.read t.mem x = Memory.read s.mem x) ∧
  (∀ (a : Agent), a.n ≤ 126 →
    let b := restoredBand a (bandRecord a) (imageBytes a)
    (∀ i < 64, b.rawS i = a.rawS i) ∧ (∀ i < 7, b.rawP i = a.rawP i) ∧
    (∀ n < a.n, ∀ l < 32, (b.rawV n).lane l = (a.rawV n).lane l) ∧ b.tcode = a.tcode ∧ b.tpc = a.tpc ∧ b.taddr = a.taddr ∧
    b.flags = a.flags ∧ b.hmask = a.hmask ∧ b.seed = a.seed ∧ b.check = a.check ∧ b.det = a.det ∧ b.monitor = a.monitor ∧
    ∀ l < 32, (b.thread l).restart = (a.thread l).restart) ∧
  (∀ (a : Acc), (∀ i < 128, ∀ j < 128, -2 ^ 47 ≤ a.at_ i j ∧ a.at_ i j < 2 ^ 47) → -2 ^ 15 ≤ a.e → a.e < 2 ^ 15 → a.mode < 256 →
    let b := Acc.ofBytes a.bytes
    b.e = a.e ∧ b.mode = a.mode ∧ b.mark = a.mark ∧ ∀ i < 128, ∀ j < 128, b.at_ i j = a.at_ i j)

/-- R278 to R281, R285, R294: QTAIL takes its value, and one past the ring stops the slot with cause 7, or
unmaps the queue if that waited for its packet; QCTL maps, resumes and
unmaps a queue (a queue keeps its head and tail by its number, log 34; a slot finishes its current packet first, log 93; a mapping
whose units exceed the ring stops it with cause 7, log 93); the packet at the
head of the next slot is read, and one that fails a check stops the slot with that check's cause; a readable packet ages each 64 µs. -/
def Obligations.QueueSlotsAct : Prop :=
  ∀ (s : State) (i : Nat), s.powered = true → i < 512 →
    let x := s.slot i
    let only := fun (t : State) => t.mem = s.mem ∧ ∀ j, j ≠ i → t.slots.find j = s.slots.find j
    (∀ v : W64,
      let tail : W32 := v.extractLsb' 0 32
      ((x.en = false ∨ x.state = .stopped ∨ (tail - x.head).toNat ≤ x.units) →
        ∃ t after, exec (.qtailWrite i v) s = .next t ∧ only t ∧ t.slot i = { x with
          tail
          tailAt := s.t
          tails := x.tailsWith tail s.t
          since := if s.packetWaits i then x.since else s.t
          after }) ∧
      (x.en = true → x.state ≠ .stopped → x.units < (tail - x.head).toNat →
        ∃ t, exec (.qtailWrite i v) s = .next t ∧ only t ∧
          (x.leaving = none → (t.slot i).state = .stopped ∧ (t.slot i).cause = 7 ∧ (t.slot i).head = x.head) ∧
          (x.leaving ≠ none → (t.slot i).en = false ∧ (t.slot i).state = .unmapped ∧
            t.queues.find x.queue.toNat = some (x.head, tail)))) ∧
    (∀ v : W64,
      let lg := x.size.toNat % 32
      (v.getLsbD 0 = true → x.base.toNat % 4096 = 0 → 12 ≤ lg → lg ≤ 28 →
        (x.en = false ∨ x.state = .stopped) →
        ∃ t, exec (.qctlWrite i v) s = .next t ∧ only t ∧ (t.slot i).en = true ∧
          (if ((t.slot i).tail - (t.slot i).head).toNat ≤ x.units then (t.slot i).state = .running ∧ (t.slot i).cause = 0
           else (t.slot i).state = .stopped ∧ (t.slot i).cause = 7) ∧
          (t.slot i).ctx = v.toNat / 2 ^ 20 % 2 ^ 12 ∧ (t.slot i).prio = v.toNat / 2 ^ 9 % 8 ∧
          (x.en = true → (t.slot i).head = x.head ∧ (t.slot i).tail = x.tail ∧ (t.slot i).queue = x.queue)) ∧
      (v.getLsbD 0 = false → x.en = true →
        ∃ t, exec (.qctlWrite i v) s = .next t ∧ only t ∧ if s.packetGoesOn i then t.slot i = { x with leaving := some v }
          else (t.slot i).en = false ∧ (t.slot i).state = .unmapped ∧ t.queues.find x.queue.toNat = some (x.head, x.tail))) ∧
    (let va := x.base + BitVec.ofNat 64 x.offset
     let u := s.headUnits x
     let us := unitsOf (pkLen u) (s.ringBytes x x.offset (8 * pkLen u))
     let n := min (8 * pkLen u) (x.bytes - x.offset)
     let stops := fun (k : Nat) => ∃ t, exec (.packetRead i) s = .next t ∧ only t ∧ (t.slot i).state = .stopped ∧ (t.slot i).cause = k
     s.nextSlot (i / 256) = some i → x.leaving = none →
     (x.refuses va 8 = true ∨ s.reach x.ctx false va 8 = .fail → stops 8) ∧
     (x.refuses va 8 = false → s.reach x.ctx false va 8 = .ok →
       (∀ k, lengthFault x u = some k → stops k) ∧
       (lengthFault x u = none → x.refuses va n = true ∨ s.reach x.ctx false va n = .fail → stops 8) ∧
       (lengthFault x u = none → x.refuses va n = false → s.reach x.ctx false va n = .ok →
        (∀ k, headerFault x u = some k → stops k) ∧
        (headerFault x u = none → reservedOk us = false → stops 5) ∧
        (headerFault x u = none → reservedOk us = true →
         ∃ t, exec (.packetRead i) s = .next t ∧ only t ∧ t.slot i = { x with
           ageSteps := 0
           cur := some {
             offset := x.offset
             units := us
             written := x.writtenAt (pkLen u)
             code := if pkType us = 1 then s.mem.filter (fun c => c.1 < 2 ^ 40) else [] } })))) ∧
    (s.packetWaits i = true → x.since + (x.ageSteps + 1) * 192000 ≤ s.t → x.ageSteps < x.prio →
      ∃ t, exec (.queueAgeing i) s = .next t ∧ only t ∧ t.slot i = { x with ageSteps := x.ageSteps + 1 })

/-- R283, R284, R287: a PAD passes; a SIGNAL writes its word or decrements, arms or increments its counter; a WAIT passes once its
condition holds and waits otherwise; a CANCEL cancels its scope and stores its ticket; a FENCE completes after what came before it, and so does
a SIGNAL that writes: either is passed at once and stays open (log 54). A slot that is to be unmapped is unmapped once its packet
is over or waits (R280, log 93). -/
def Obligations.PacketsAct : Prop :=
  ∀ (s : State) (i : Nat) (p : Packet), s.powered = true → s.decs = [] →
    let x := s.slot i
    let u := unitAt p.units
    let arg := pkArg p.units
    let opens := fun (kind : OpenKind) => [({ slot := i, ctx := x.ctx, offset := p.offset, event := pkEvent p.units, kind } : OpenPacket)]
    let passes := fun (e : Instr) => ∃ t, exec e s = .next t ∧ t.mem = s.mem ∧ s.packetPassed t i p []
    let waits := fun (e : Instr) => ∃ t, exec e s = .next t ∧ t.mem = s.mem ∧
      s.slotOnward t i { x with state := .waiting, checked := s.t }
    (s.packetOf i 0 = some p → passes (.pad i)) ∧
    (s.packetOf i 3 = some p →
      (arg = 0 → (u 1).toNat % 8 = 0 → x.refuses (u 1) 8 = false → s.reach x.ctx true (u 1) 8 = .ok →
        (s.openOf i = [] → ∃ t, exec (.signalWrite i) s = .next t ∧ t.mem = s.mem ∧ s.packetPassed t i p [] ∧
          s.sentBytes t x.ctx (u 1) (leBytes 8 (u 2).toNat)) ∧
        (s.openOf i ≠ [] → ∃ t, exec (.signalWrite i) s = .next t ∧ t.mem = s.mem ∧
          s.packetPassed t i p (opens (.write (u 1) (u 2))))) ∧
      ∀ d, counterOf (u 1).toNat = some d →
        let c := s.counter d
        (arg = 1 → 2 ≤ c.count → ∃ t, exec (.signalDec i) s = .next t ∧ t.mem = s.mem ∧ s.packetPassed t i p [] ∧
          t.counter d = { c with count := c.count - 1 }) ∧
        (arg = 2 → c.count = 0 → c.bind = none → 1 ≤ (u 2).toNat → (u 2).toNat < 2 ^ 32 →
          ∃ t, exec (.signalArm i) s = .next t ∧ t.mem = s.mem ∧ s.packetPassed t i p [] ∧
            t.counter d = { c with count := (u 2).toNat, status := 0 }) ∧
        (arg = 3 → ∃ t, exec (.signalInc i) s = .next t ∧ t.mem = s.mem ∧ s.packetPassed t i p [] ∧
          t.counter d = { c with count := min (2 ^ 32 - 1) (c.count + (u 2).toNat) })) ∧
    (s.packetOf i 4 = some p →
      (∀ d, arg = 0 → counterOf (u 1).toNat = some d → ∀ e ∈ [Instr.waitCounterZero i, .waitCheck i],
        (e = .waitCounterZero i → x.state = .running) →
        (e = .waitCheck i → x.state = .waiting ∧ (x.checked + 6000 ≤ s.t ∨ x.checked < x.tailAt)) →
        ((s.counter d).count = 0 → passes e) ∧ ((s.counter d).count ≠ 0 → waits e)) ∧
      (x.state = .running → (u 1).toNat % 8 = 0 → x.refuses (u 1) 8 = false → s.reach x.ctx false (u 1) 8 = .ok →
        let w := leNat (s.dieRead x.ctx (u 1) 8)
        (arg = 1 → ((u 2).toNat ≤ w → passes (.waitWordGe i)) ∧ (w < (u 2).toNat → waits (.waitWordGe i))) ∧
        (arg = 2 → (w = (u 2).toNat → passes (.waitWordEq i)) ∧ (w ≠ (u 2).toNat → waits (.waitWordEq i))))) ∧
    (s.packetOf i 5 = some p → s.foreign (u 1) = false → s.stale (u 1) = false →
      let j := (u 1).toNat % 2 ^ 16
      (s.scope j).state = .opened →
      (u 2 = 0 ∨ ((u 2).toNat % 8 = 0 ∧ x.refuses (u 2) 8 = false ∧ s.reach x.ctx true (u 2) 8 = .ok)) →
      ∃ t, exec (.cancelPacket i) s = .next t ∧ t.mem = s.mem ∧ s.packetPassed t i p [] ∧ s.cancelledBy t j ∧
        (u 2 ≠ 0 → s.sentBytes t x.ctx (u 2) (leBytes 8 (BitVec.ofNat 64 (2 ^ 32 * s.serialFor (s.detNear j) (s.hostJob j) + j)).toNat))) ∧
    (∀ e ∈ [(false, Instr.fencePacketDev i), (true, .fencePacketSys i)],
      (s.packetOf i 6 = some p → (arg = 1 ↔ e.1 = true) → ∃ t, exec e.2 s = .next t ∧ t.mem = s.mem ∧
        s.packetPassed t i p (opens (.fence e.1 none))) ∧
      (∀ q o r ids, s.packetOf i 6 = none → s.openHead i (OpenKind.fences e.1) = some (q, o) → s.opens.get q [] = o :: r →
        o.kind = .fence e.1 (some ids) →
        (∀ n ∈ ids, s.req? n = none) → ∃ t, exec e.2 s = .next t ∧ t.mem = s.mem ∧ t.opens.get q [] = r)) ∧
    (∀ q o r va v, s.packetOf i 3 = none → s.openHead i OpenKind.writes = some (q, o) → s.opens.get q [] = o :: r → o.kind = .write va v → o.wait = none →
      o.denied = false → s.reach o.ctx true va 8 = .ok →
      ∃ t, exec (.signalWrite i) s = .next t ∧ t.mem = s.mem ∧ t.opens.get q [] = r ∧ s.sentBytes t o.ctx va (leBytes 8 v.toNat))

/-- R284, R55, R58: SCOPE CREATE makes an entry under the scope that it names; SEAL and CLOSE-JOB seal a scope that still has work, and
CLOSE-JOB frees a final job. R284, R292: TASKS places its entries round-robin over the cores that hold a crew of the launch. -/
def Obligations.ScopeAndTaskPacketsAct : Prop :=
  ∀ (s : State) (i : Nat) (p : Packet), s.decs = [] →
    let x := s.slot i
    let u := unitAt p.units
    let arg := pkArg p.units
    let h := u 1
    let j := h.toNat % 2 ^ 16
    let e := s.scope j
    (s.packetOf i 7 = some p → (u 2).toNat % 32 = 0 →
      (∀ n, arg % 2 ^ 8 = 0 → (u 3).toNat % 8 = 0 → (u 3 = 0 ∨ (x.refuses (u 3) 8 = false ∧ s.reach x.ctx true (u 3) 8 = .ok)) →
        s.freeScope = some n →
        let level := arg / 2 ^ 8 % 8
        (level = 4 → h = 0 → ∃ t, exec (.scopeCreate i) s = .next t ∧ t.mem = s.mem ∧ s.packetPassed t i p [] ∧
          (t.scope n).used = true ∧ (t.scope n).level = 4 ∧ (t.scope n).state = .opened ∧
          (t.scope n).ackaddr = ((u 2).setWidth 57).signExtend 64 ∧ (t.scope n).outstanding = 0 ∧ ∀ k, k ≠ n → t.scope k = s.scope k) ∧
        (level ≠ 4 → s.foreign h = false → s.stale h = false → e.level = level + 1 → e.sealed = false → e.state = .opened →
          j ≠ 0 → n ≠ j → ∃ t, exec (.scopeCreate i) s = .next t ∧ t.mem = s.mem ∧ s.packetPassed t i p [] ∧
          (t.scope n).used = true ∧ (t.scope n).level = level ∧ (t.scope n).state = .opened ∧ (t.scope n).parent = j ∧
          (t.scope n).ackaddr = ((u 2).setWidth 57).signExtend 64 ∧ (t.scope n).outstanding = 0 ∧
          t.scope j = e.adopt ∧ (t.scope j).outstanding = e.outstanding + 1 ∧ ∀ k, k ≠ n → k ≠ j → t.scope k = s.scope k)) ∧
      (s.foreign h = false → s.stale h = false →
        (arg % 2 ^ 8 = 1 → (e.level = 2 ∨ e.level = 3) → 0 < e.outstanding →
          ∃ t, exec (.scopeSeal i) s = .next t ∧ t.mem = s.mem ∧ s.packetPassed t i p [] ∧ t.scope j = { e with sealed := true } ∧
            ∀ k, k ≠ j → t.scope k = s.scope k) ∧
        (arg % 2 ^ 8 = 2 → e.level = 4 →
          (0 < e.outstanding → (e.state = .opened ∨ e.state = .cancelling) → ∃ t, exec (.scopeCloseJob i) s = .next t ∧
            t.mem = s.mem ∧ s.packetPassed t i p [] ∧ t.scope j = { e with sealed := true }) ∧
          ((e.state = .closed ∨ e.state = .cancelled) → ∃ t, exec (.scopeCloseJob i) s = .next t ∧ t.mem = s.mem ∧
            s.packetPassed t i p [] ∧ (t.scope j).used = false ∧ (t.scope j).gen = e.gen + 1)))) ∧
    (s.packetOf i 2 = some p → s.foreign h = false → s.stale h = false → e.level ≤ 1 → e.sealed = false → e.state = .opened →
      u 2 = 0 → ∀ id l, (s.ofLevel j 1).bind s.launchAt = some (id, l) → s.launch? id = some l → l.endBegun = false →
      let here := s.crewCores id (slotDie i)
      let cores := if here.isEmpty then s.crewCores id (1 - slotDie i) else here
      let order := cores.filter (fun c => l.lastTasks < c) ++ cores.filter (fun c => c ≤ l.lastTasks)
      let entry := fun (n : Nat) => ({ scope := j, body := (List.range 4).map (fun w => u (4 + 4 * n + w)) } : Entry)
      cores ≠ [] → s.entriesOf (coreDie (cores.headD 0)) + arg ≤ 65536 →
      ∃ t m, exec (.tasks i) s = .next t ∧ t.mem = s.mem ∧ s.packetPassed t i p [] ∧
        t.scope j = { e with outstanding := e.outstanding + arg } ∧ t.launch? id = some m ∧
        ∀ core, m.queues.get core [] = l.queues.get core [] ++
          ((List.range arg).filter (fun n => order.getD (n % order.length) 0 == core)).map entry)

/-- R288 to R290: a LAUNCH within its limits makes a launch scope under its graph scope and a launch with the kernel of its descriptor,
which waits for admission or for its counter; one that breaks them makes none. R337, R338: ATTEST sends its report; while partition 0 is
away it waits in the mailbox, and a full one answers BUSY (log 107). -/
def Obligations.LaunchAndAttestPacketsAct : Prop :=
  ∀ (s : State) (i : Nat) (p : Packet), s.decs = [] →
    let x := s.slot i
    let b := LaunchBody.ofUnits p.units
    let g := b.graph.toNat % 2 ^ 16
    let d := s.dieRead x.ctx b.desc 64
    let count := leNat ((d.drop 52).take 2)
    let declsAt := BitVec.ofNat 64 (leNat ((d.drop 56).take 8))
    let decls := s.dieRead x.ctx declsAt (16 * count)
    let opens := fun (kind : OpenKind) => [({ slot := i, ctx := x.ctx, offset := p.offset, event := pkEvent p.units, kind } : OpenPacket)]
    (s.packetOf i 1 = some p → b.ok = true → b.flag 3 = false → b.flag 4 = false → x.refuses b.desc 64 = false → x.refuses declsAt (16 * count) = false → count ≤ 64 →
      s.reach x.ctx false b.desc 64 = .ok → s.reach x.ctx false declsAt (16 * count) = .ok →
      s.launchCause b d decls [[], []] true = none → (s.scope g).state = .opened → g ≠ 0 → ∀ n, s.freeScope = some n → n ≠ g →
      let held := (counterOf b.wait).any (fun c => decide (0 < (s.counter c).count))
      ∃ t l, exec (.launch i) s = .next t ∧ t.mem = s.mem ∧ t.launches.find s.nextId = some l ∧ l.scope = n ∧
        l.gen = (s.scope n).gen ∧ l.die = i / 256 ∧ l.ctx = x.ctx ∧ l.prio = x.prio ∧ l.dimX = b.dimX ∧ l.dimY = b.dimY ∧
        l.dimZ = b.dimZ ∧ l.kernel = Kernel.ofBytes d decls ∧ l.code = p.code ∧ l.det = b.flag 1 ∧ l.check = b.flag 0 ∧
        l.phase = (if held then .bound else .waiting) ∧ l.startAt = s.t ∧ s.packetPassed t i p (opens (.launch n l.gen)) ∧
        (t.scope n).used = true ∧ (t.scope n).level = 1 ∧ (t.scope n).parent = g ∧ (t.scope n).state = .opened ∧
        t.scope g = (s.scope g).adopt ∧ (t.scope g).outstanding = (s.scope g).outstanding + 1 ∧
        (held = true → ∀ c, counterOf b.wait = some c → (t.counter c).bind = some (.launch s.nextId false))) ∧
    (s.packetOf i 1 = some p → b.ok = false → counterOf b.doneCnt = none →
      ∃ t, exec (.launch i) s = .next t ∧ t.mem = s.mem ∧ s.packetPassed t i p [] ∧ t.launches = s.launches ∧ t.scopes = s.scopes) ∧
    (s.packetOf i 8 = some p → p.units.length = 10 → (unitAt p.units 1).toNat % 64 = 0 → x.refuses (unitAt p.units 1) 768 = false →
      s.reach x.ctx true (unitAt p.units 1) 768 = .ok → (s.part (i / 256) 0).away = false →
      ∃ t ids, exec (.attest i) s = .next t ∧ t.mem = s.mem ∧ s.packetPassed t i p (opens (.report ids)) ∧
        ∀ e ∈ cutAt 128 8 (unitAt p.units 1) (s.report ((p.units.drop 2).take 8)), s.sentBytes t x.ctx e.1 e.2) ∧
    (s.packetOf i 8 = some p → (unitAt p.units 1).toNat % 64 = 0 → (s.part (i / 256) 0).away = true →
      let m := (s.part (i / 256) 0).mailbox
      let entry := Mail.attest x.queue.toNat p.offset
      ∃ t, exec (.attest i) s = .next t ∧ t.mem = s.mem ∧
        (m.length < 256 → (t.part (i / 256) 0).mailbox = m ++ [entry] ∧
          s.packetPassed t i p (opens (.attest (unitAt p.units 1) ((p.units.drop 2).take 8)))) ∧
        (256 ≤ m.length → t.parts = s.parts ∧ t.mailOut = s.mailOut ++ [{ die := i / 256, part := 0, entry, busy := true }] ∧
          s.packetPassed t i p []))

/-- R325, R330 to R334, R338: the commands of a replacement, in the phases that accept them, and BUSY in the others; a verified image
stands in slot B and is logged; EXPORT and SWITCH are steps of their own, and the new image starts with the block whose digest is
that of its sections; an image that misses its heartbeat is replaced by the old one; a mailbox takes an entry while it has room,
keeps it while its partition is away, and answers BUSY when it is full. The places of the images and blocks in the SRAM are the
model's choice (log 42); so are the times of EXPORT, SWITCH and FALLBACK within their bounds (log 68), the treatment of images of a
bad size (log 44), and which entries a running partition has served (log 69). The signature is the one that the image holds (log 15).
R326, R327: a leader renews its lease for 20 ms of its die's global time from at most 15 ms before its end, and tells the other
die, which takes that end when the message comes; one whose lease ends stops; the other die leads 1 ms after the last end that it
has received, or as soon as it receives HANDOFF. When a message comes is the model's choice (log 69). -/
def Obligations.FirmwareReplacedAndLeadershipPasses : Prop :=
  (∀ (s : State) (die part : Nat), s.powered = true → die < 2 → part < 3 →
     let p := s.part die part
     let becomes := fun (t : State) (q : Partition) =>
       t.part die part = q ∧ ∀ d r, 4 * d + r ≠ 4 * die + part → t.part d r = s.part d r
     let quiet := fun (t : State) (q : Partition) => t.mem = s.mem ∧ becomes t q
     let slotB := (2 * part + (1 - p.slot)) * 2 ^ 21
     let empty := p.images.drop (1 - p.slot)
     let cleared := fun (t : State) => ∀ x, slotB ≤ x → x < slotB + 2 ^ 21 → t.sramByte die x = 0
     let busy := fun (i : Instr) => ∃ t, exec i s = .next t ∧ quiet t { p with outcome := 8 }
     let key := die * 2 ^ 20 + 255 * 2 ^ 12 + part
     let starts := fun (t : State) (slot length : Nat) =>
       let a := t.agent key
       let pc := BitVec.ofNat 64 ((2 * part + slot) * 2 ^ 21 + 512)
       a.kind = .fw ∧ a.live = true ∧ a.threads = [(0, { pc, restart := pc, st := .ready })] ∧
         a.rawS 1 = BitVec.ofNat 64 (12 * 2 ^ 20 + part * 2 ^ 20) ∧ a.rawS 2 = BitVec.ofNat 64 length
     (s.allIdle = true → ∃ t, exec (.fwcmdStage die part) s = .next t ∧ quiet t { p with phase := .staging }) ∧
     (s.allIdle = false → busy (.fwcmdStage die part)) ∧
     (p.phase = .staging → ∀ image,
       (∀ o, s.imageRefused die part image = some o → ∃ t, exec (.stageEnd die part image) s = .next t ∧ cleared t ∧
         quiet t { p with phase := .idle, outcome := o, staged := none, images := empty }) ∧
       (s.imageRefused die part image = none → ∃ t, exec (.stageEnd die part image) s = .next t ∧
         quiet t { p with
           phase := .staged
           staged := some (Image.ofBytes image)
           images := empty.put (1 - p.slot) (image.take (2 ^ 21)) } ∧
         (∀ x, x < 2 ^ 21 → t.sramByte die (slotB + x) = image.getD x 0) ∧ (t.fw die).count = (s.fw die).count + 1)) ∧
     (p.phase = .staged →
       (∃ t, exec (.fwcmdReplace die part) s = .next t ∧ quiet t { p with phase := .quiesce, quiesceAt := s.t } ∧
         t.fw die = if part = 1 ∧ (s.fw die).leads = true then { s.fw die with leads := false, handoff := true } else s.fw die) ∧
       ∃ t, exec (.fwcmdDiscard die part) s = .next t ∧ cleared t ∧
         quiet t { p with phase := .idle, outcome := 7, staged := none, images := empty }) ∧
     (p.phase ≠ .staged → busy (.fwcmdReplace die part) ∧ busy (.fwcmdDiscard die part)) ∧
     (p.phase = .quiesce → p.quiesceAt + 15000000 ≤ s.t → ∃ t, exec (.quiesceTimeout die part) s = .next t ∧ cleared t ∧
       quiet t { p with phase := .idle, outcome := 6, staged := none, images := empty }) ∧
     (∀ i, p.staged = some i →
       (p.phase = .quiesce → s.t ≤ p.quiesceAt + 15000000 → ∃ t, exec (.fwExport die part) s = .next t ∧
         quiet t { p with phase := .exporting }) ∧
       (p.phase = .exporting → ∃ t block, exec (.fwExport die part) s = .next t ∧ quiet t { p with phase := .switching, block } ∧
         block.length ≤ 2 ^ 20 ∧ (block.drop 16).take 64 = digestBytes (sha512 (block.drop 80)) ∧
         (t.agent key).live = false) ∧
       (p.phase = .switching → ∃ t, exec (.fwExport die part) s = .next t ∧
         becomes t { p with phase := .probation, imported := blockOk p.block, switchAt := s.t, firstBeat := none, lastBeat := s.t } ∧
         starts t (1 - p.slot) p.block.length ∧ (t.fw die).count = (s.fw die).count + 1)) ∧
     (p.phase = .probation → p.deadline ≤ s.t → ∃ t, exec (.fallback die part) s = .next t ∧ cleared t ∧
       becomes t { p with phase := .idle, outcome := 2, staged := none, images := empty } ∧ starts t p.slot p.block.length) ∧
     ∀ entry, ∃ t served, exec (.mailboxRequest die part entry) s = .next t ∧ served.Sublist p.mailbox ∧
       (p.away = true → served = []) ∧ (∀ e ∈ served, ∃ w, e = .word w) ∧
       let rest := served.foldl (fun m e => m.erase e) p.mailbox
       let out := s.mailOut ++ served.map (fun e => ({ die, part, entry := e, busy := false } : MailAnswer))
       (rest.length < 256 → quiet t { p with mailbox := rest ++ [.word entry] } ∧ t.mailOut = out) ∧
       (256 ≤ rest.length → quiet t { p with mailbox := rest } ∧
         t.mailOut = out ++ [{ die, part, entry := .word entry, busy := true }])) ∧
  (∀ (s : State) (d : Nat), s.powered = true → d < 2 →
     let f := s.fw d
     let e := s.gtime d + 20000000
     let leads := fun (t : State) => t.mem = s.mem ∧ (t.fw d).leads = true ∧ (t.fw d).leaseEnd = e ∧
       e ∈ (t.fw (1 - d)).inbox
     (f.leads = true → f.inbox = [] → (s.fw (1 - d)).inbox = [] → s.gtime d < f.leaseEnd → f.leaseEnd ≤ s.gtime d + 15000000 →
       ∃ t, exec .leaseRenewal s = .next t ∧ leads t) ∧
     (∀ m r, f.inbox = m :: r → (d = 1 → (s.fw 0).inbox = []) →
       ∃ t, exec .leaseRenewal s = .next t ∧ { t with fws := s.fws } = s ∧ t.fw d = { f with leaseEnd := m, inbox := r } ∧
         t.fw (1 - d) = s.fw (1 - d)) ∧
     (f.leads = true → f.leaseEnd ≤ s.gtime d → ∃ t, exec .leaderLeaseExpiry s = .next t ∧ t.mem = s.mem ∧ (t.fw d).leads = false) ∧
     (f.leads = false → f.handoff = false → f.inbox = [] → f.leaseEnd + 1000000 ≤ s.gtime d → (d = 1 → s.heir ≠ some 0) →
       (s.part d 1).replacing = false → ∃ t, exec .leaderTakeover s = .next t ∧ leads t) ∧
     ((s.fw (1 - d)).handoff = true → f.handoff = false →
       ∃ t, exec .handoff s = .next t ∧ leads t ∧ (t.fw (1 - d)).handoff = false))

/-- R24, R67, R155, R278, R279, R312, R314, R317, R326, R329, R330, R335: the state after reset. No core has a scratchpad
way; no slot and no event queue is mapped, with every register zero; SLEWLIM is 0x28; no image is staged and each partition is IDLE in
slot 0; die 0 leads; each log holds the boot entries; the serial of cancels is 1. Memory reads as zero and FENCED is clear (the model's
choice, logs 3, 4 and 16); the agents that run are the firmware's partitions, from their boot images (R324, R325, log 1). -/
def Obligations.ResetState : Prop :=
  let s := State.reset
  s.inv ∧ s.powered = true ∧ s.t = 0 ∧
    (∀ c, (s.core c).w = 0 ∧ (s.core c).fenced = false ∧ ∀ i, (s.core c).tiles.get i 0 = 0) ∧
    (∀ k, (∀ d < 2, ∀ p < 3, k ≠ d * 2 ^ 20 + 255 * 2 ^ 12 + p) → (s.agent k).live = false ∧ (s.agent k).threads = []) ∧
    (∀ d < 2, ∀ p < 3, let a := s.agent (d * 2 ^ 20 + 255 * 2 ^ 12 + p)
      let pc := BitVec.ofNat 64 (2 * p * 2 ^ 21 + 512)
      a.live = true ∧ a.kind = .fw ∧ a.priv = true ∧ a.threads = [(0, { pc, restart := pc, st := .ready })]) ∧
    (∀ i, (s.slot i).en = false ∧ (s.slot i).state = .unmapped ∧ (s.slot i).base = 0 ∧ (s.slot i).size = 0 ∧ (s.slot i).head = 0 ∧
      (s.slot i).tail = 0 ∧ (s.slot i).ctx = 0 ∧ (s.slot i).prio = 0 ∧ (s.slot i).cause = 0 ∧ (s.slot i).acl = 0) ∧
    (∀ c, (s.evq c).base = 0 ∧ (s.evq c).size = 0 ∧ (s.evq c).head = 0 ∧ (s.evq c).tail = 0 ∧ (s.evq c).en = false ∧
      (s.evq c).vector = 0 ∧ (s.evq c).every = false ∧ (s.evq c).lost = 0) ∧
    (∀ d, (s.powerOf d).step = 0x28 ∧ (s.powerOf d).tlmBase = 0 ∧ (s.powerOf d).tlmSize = 0 ∧ (s.powerOf d).tlmSeq = 0) ∧
    (∀ d p, (s.part d p).slot = 0 ∧ (s.part d p).phase = .idle ∧ (s.part d p).outcome = 0 ∧ (s.part d p).staged = none ∧
      (s.part d p).img = 0 ∧ (s.part d p).hbeat = 0) ∧
    (s.fw 0).leads = true ∧ (s.fw 1).leads = false ∧
    (∀ d < 2, (s.fw d).count = 3 ∧ (s.fw d).entries = [bootEntry d 0, bootEntry d 1, bootEntry d 2] ∧
      (s.fw d).logd = logNext (logNext (logNext 0 (bootEntry d 0)) (bootEntry d 1)) (bootEntry d 2)) ∧
    s.cancelSerial = 1 ∧ (∀ i, (s.scope i).used = false) ∧ s.ops = [] ∧ s.reqs = [] ∧ (∀ a, Memory.read s.mem a = 0)

/-- The machine: from every state whose memory is in its canonical form, a step that answers a next state gives one whose memory
is. -/
def Obligations.StepKeepsTheMemoryForm : Prop :=
  ∀ (s t : State), s.inv → step s = .next t → t.inv

/-- The machine: every step answers a next state; no instruction and no step of the device stops the machine (log 76), and a
step of the device that is not due answers the state as it is (log 9). -/
def Obligations.StepAlwaysAnswersNext : Prop :=
  (∀ s : State, ∃ t, step s = .next t) ∧ (∀ (i : Instr) (s : State), ∃ t, exec i s = .next t)

/-- R101, R104, R107, R113 to R117: decoding the bytes of an instruction that can be encoded, whatever follows them, gives it back with
every operand; two instructions that can be encoded never have the same bytes. -/
def Obligations.DecodingGivesBackTheInstruction : Prop :=
  (∀ (i : Instr) (r : List Byte), i.encodable = true → decode (encode i ++ r) = .ok (i, r)) ∧
  (∀ i j : Instr, i.encodable = true → j.encodable = true → encode i = encode j → i = j)

/-- The words that the spec writes out beside its instructions (R409, R415, R418, R422, R431, R434, R435, R437, R371, R375, R441, R352,
R430, R423, R357) decode to those instructions. -/
def Obligations.DecodesTheSpecsWords : Prop :=
  let f0 : Fields := fieldsOf 0 0
  ∀ e ∈ ([
    (64, 0x0000060A15C00021, .sadd { f0 with len := 1, stall := 2, pred := 7, d := 5, a := 5, b := 6 }),
    (96, 0xFFFFFFFE0381000015C00002, .sli { f0 with len := 2, pred := 7, d := 5, mod := 1, bs := false, ext := 0xFFFFFFFE }),
    (64, 0x0600000E0DC90001, .sread { f0 with len := 1, setK := 1, setEn := true, pred := 7, d := 3, a := 7 }),
    (64, 0x0640000439C00001, .swriteHbeat { f0 with len := 1, pred := 7, d := 14, a := 2, b := 0 }),
    (64, 0x400D030411C00041, .vadd { f0 with len := 1, stall := 4, pred := 7, d := 4, a := 2, b := 3, mod := 0x0D }),
    (64, 0x43C0030445C00041, .vcmp { f0 with len := 1, stall := 4, pred := 7, d := 17, a := 2, b := 3 }),
    (64, 0x440005081A800001, .vsel { f0 with len := 1, pred := 2, pneg := true, d := 6, a := 4, b := 5 }),
    (64, 0x5180050649C00061, .fcmp { f0 with len := 1, stall := 6, pred := 7, d := 18, a := 3, b := 5 }),
    (64, 0x44F0831025C00081, .vshfl { f0 with len := 1, stall := 8, pred := 7, d := 9, a := 8, b := 3, bs := true, mod := 0x30 }),
    (64, 0xC041000041C00005, .brc { f0 with len := 1, rb := true, pred := 7, d := 16, mod := 1 }),
    (64, 0xC240000601C00005, .trap { f0 with len := 1, rb := true, pred := 7, a := 3 }),
    (64, 0xCC40000051C80001, .taskget { f0 with len := 1, setEn := true, pred := 7, d := 20 }),
    (128, 0x00002000C0000000E002000829C00007,
      .copy { f0 with len := 3, rb := true, pred := 7, d := 10, a := 4, mod := 2, ext := 0x00002000C0000000 })
    ] : List (Nat × Nat × Instr)), decodeTableWord e.1 e.2.1 = some e.2.2

/-- R28, R47, R101, R102: where no step of the device is due and the turn is an agent's whose port chooses it, and the fetch at its packet's PC gives
bytes, the step is the instruction that they decode to, of that agent at that PC; a step of the device that is due, or
whose turn it is, is that step. The agenda of turns is the model's own (log 1). -/
def Obligations.StepRunsTheDecodedInstruction : Prop :=
  ∀ (s : State) (r : List Turn), 
    (∀ i, s.dueStep = some i → isDevice i = true → step s = exec i s) ∧
    (s.dueStep = none →
    (∀ k pc bs, s.agenda = .issue k :: r →
      let u := { s with agenda := r, cur := k, curPc := none }
      u.myTurn k = true → u.packetPc k = some pc → u.fetchAt k pc = .bytes bs →
      (∀ (i : Instr) (rest : List Byte), decode (bs ++ List.replicate (16 - bs.length) 0) = .ok (i, rest) → bs.length ≤ 16 →
        step s = exec i { u with curPc := some pc })) ∧
    (∀ i, s.agenda = .event i :: r → isDevice i = true → step s = exec i { s with agenda := r }))
end

