-- ==== Sys2Proof/Laws/Memory.lean ====
section
/-!
SUPPORT. The laws of the one memory: what a read after a write gives, and that every operation keeps the canonical form.
-/

namespace Sys2Proof.Machine

set_option Elab.async false

@[simp] theorem Memory.read_nil (a : Nat) : Memory.read [] a = 0 := rfl

theorem Memory.read_cons (c : Host.Cell) (r : List Host.Cell) (a : Nat) :
    Memory.read (c :: r) a = if c.1 = a then c.2 else Memory.read r a := rfl

/-- The canonical form, cell by cell. -/
theorem Memory.wf_cons (c : Host.Cell) (r : List Host.Cell) :
    Memory.wf (c :: r) = true ↔ c.2 ≠ 0 ∧ (∀ d ∈ r.head?, c.1 < d.1) ∧ Memory.wf r = true := by
  cases r with
  | nil => simp [Memory.wf]
  | cons d r => simp [Memory.wf, and_assoc]

/-- In the canonical form every later cell has a greater address. -/
theorem Memory.lt_of_wf (c : Host.Cell) (r : List Host.Cell) (h : Memory.wf (c :: r) = true) :
    ∀ d ∈ r, c.1 < d.1 := by
  induction r generalizing c with
  | nil => simp
  | cons e r ih =>
    obtain ⟨-, h1, h2⟩ := (Memory.wf_cons _ _).1 h
    have hce : c.1 < e.1 := h1 e rfl
    intro d hd
    rcases List.mem_cons.1 hd with rfl | hd
    · exact hce
    · exact hce.trans (ih e h2 d hd)

/-- What is below the first listed address reads as an unlisted address does. -/
theorem Memory.read_of_lt (r : List Host.Cell) (a : Nat) (h : ∀ d ∈ r, a < d.1) : Memory.read r a = 0 := by
  induction r with
  | nil => rfl
  | cons c r ih =>
    have hc := h c (List.mem_cons_self ..)
    rw [Memory.read_cons, if_neg (by omega)]
    exact ih fun d hd => h d (List.mem_cons_of_mem _ hd)

theorem Memory.read_put (a : Nat) (b : Byte) (r : List Host.Cell) (x : Nat) (h : ∀ d ∈ r, a < d.1) :
    Memory.read (Memory.cons a b r) x = if x = a then b else Memory.read r x := by
  unfold Memory.cons
  split
  · rename_i hb
    split
    · rename_i hx
      subst hx hb
      exact Memory.read_of_lt r x h
    · rfl
  · rw [Memory.read_cons]
    simp only [eq_comm]

/-- A read after a write: the byte written there, and every other byte as before. -/
theorem Memory.read_write (m : List Host.Cell) (a : Nat) (b : Byte) (x : Nat) (h : Memory.wf m = true) :
    Memory.read (Memory.write m a b) x = if x = a then b else Memory.read m x := by
  induction m with
  | nil => exact Memory.read_put a b [] x (by simp)
  | cons c r ih =>
    have hlt := Memory.lt_of_wf c r h
    have hr := ((Memory.wf_cons c r).1 h).2.2
    simp only [Memory.write]
    split
    · rename_i hac
      apply Memory.read_put
      intro d hd
      rcases List.mem_cons.1 hd with rfl | hd
      · exact hac
      · exact hac.trans (hlt d hd)
    · split
      · rename_i _ hac
        subst hac
        rw [Memory.read_put c.1 b r x hlt, Memory.read_cons]
        split
        · rfl
        · rw [if_neg (by omega)]
      · rename_i h1 h2
        rw [Memory.read_cons, Memory.read_cons, ih hr]
        split
        · rw [if_neg (by omega)]
        · rfl

theorem Memory.wf_put (a : Nat) (b : Byte) (r : List Host.Cell) (h : ∀ d ∈ r, a < d.1) (hr : Memory.wf r = true) :
    Memory.wf (Memory.cons a b r) = true := by
  unfold Memory.cons
  split
  · exact hr
  · rename_i hb
    exact (Memory.wf_cons _ _).2 ⟨hb, fun d hd => h d (List.mem_of_mem_head? hd), hr⟩

theorem Memory.mem_write (m : List Host.Cell) (a : Nat) (b : Byte) (c : Host.Cell) (h : c ∈ Memory.write m a b) :
    c.1 = a ∨ c ∈ m := by
  induction m with
  | nil =>
    simp only [Memory.write, Memory.cons] at h
    split at h <;> simp_all
  | cons d r ih =>
    simp only [Memory.write, Memory.cons] at h
    split at h
    · split at h <;> simp_all
      rcases h with rfl | h
      · exact .inl rfl
      · exact .inr h
    · split at h
      · split at h <;> simp_all
        rcases h with rfl | h
        · exact .inl rfl
        · exact .inr (.inr h)
      · rcases List.mem_cons.1 h with rfl | h
        · exact .inr (List.mem_cons_self ..)
        · exact (ih h).imp_right (List.mem_cons_of_mem _)

/-- A write keeps the canonical form. -/
theorem Memory.wf_write (m : List Host.Cell) (a : Nat) (b : Byte) (h : Memory.wf m = true) :
    Memory.wf (Memory.write m a b) = true := by
  induction m with
  | nil => exact Memory.wf_put a b [] (by simp) rfl
  | cons c r ih =>
    have hlt := Memory.lt_of_wf c r h
    obtain ⟨hc, -, hr⟩ := (Memory.wf_cons c r).1 h
    simp only [Memory.write]
    split
    · rename_i hac
      refine Memory.wf_put a b (c :: r) (fun d hd => ?_) h
      rcases List.mem_cons.1 hd with rfl | hd
      · exact hac
      · exact hac.trans (hlt d hd)
    · split
      · rename_i _ hac
        exact Memory.wf_put a b r (fun d hd => hac ▸ hlt d hd) hr
      · refine (Memory.wf_cons _ _).2 ⟨hc, fun d hd => ?_, ih hr⟩
        rcases Memory.mem_write r a b d (List.mem_of_mem_head? hd) with h1 | h1
        · omega
        · exact hlt d h1

/-- Writing bytes keeps the canonical form. -/
theorem Memory.wf_writes (bs : List Byte) (m : List Host.Cell) (a : Nat) (h : Memory.wf m = true) :
    Memory.wf (Memory.writes m a bs) = true := by
  induction bs generalizing m a with
  | nil => exact h
  | cons b r ih => exact ih _ _ (Memory.wf_write m a b h)

/-- A read after bytes are written: outside them as before. -/
theorem Memory.read_writes_outside (bs : List Byte) (m : List Host.Cell) (a x : Nat) (h : Memory.wf m = true)
    (hx : x < a ∨ a + bs.length ≤ x) : Memory.read (Memory.writes m a bs) x = Memory.read m x := by
  induction bs generalizing m a with
  | nil => rfl
  | cons b r ih =>
    simp only [List.length_cons] at hx
    rw [Memory.writes, ih _ _ (Memory.wf_write m a b h) (by omega), Memory.read_write m a b x h, if_neg (by omega)]

/-- A read after bytes are written: inside them the byte written there. -/
theorem Memory.read_writes_inside (bs : List Byte) (m : List Host.Cell) (a i : Nat) (h : Memory.wf m = true)
    (hi : i < bs.length) : Memory.read (Memory.writes m a bs) (a + i) = bs[i] := by
  induction bs generalizing m a i with
  | nil => simp at hi
  | cons b r ih =>
    have hw := Memory.wf_write m a b h
    cases i with
    | zero =>
      rw [Memory.writes, Memory.read_writes_outside r _ _ _ hw (by omega), Memory.read_write m a b _ h]
      simp
    | succ i =>
      have := ih (Memory.write m a b) (a + 1) i hw (by simpa using hi)
      rw [Memory.writes, show a + (i + 1) = a + 1 + i by omega, this]
      simp

/-- Filtering cells keeps the canonical form. -/
theorem Memory.wf_filter (p : Host.Cell → Bool) (m : List Host.Cell) (h : Memory.wf m = true) :
    Memory.wf (m.filter p) = true := by
  induction m with
  | nil => rfl
  | cons c r ih =>
    obtain ⟨hc, -, hr⟩ := (Memory.wf_cons c r).1 h
    rw [List.filter_cons]
    split
    · refine (Memory.wf_cons _ _).2 ⟨hc, fun d hd => ?_, ih hr⟩
      exact Memory.lt_of_wf c r h d (List.mem_of_mem_filter (List.mem_of_mem_head? hd))
    · exact ih hr

/-- Clearing a range keeps the canonical form. -/
theorem Memory.wf_clear (m : List Host.Cell) (lo hi : Nat) (h : Memory.wf m = true) :
    Memory.wf (Memory.clear m lo hi) = true := Memory.wf_filter _ m h

/-- A read after a range is cleared: zero inside, as before outside. -/
theorem Memory.read_clear (m : List Host.Cell) (lo hi x : Nat) :
    Memory.read (Memory.clear m lo hi) x = if lo ≤ x ∧ x < hi then 0 else Memory.read m x := by
  induction m with
  | nil => simp [Memory.clear]
  | cons c r ih =>
    simp only [Memory.clear, List.filter_cons] at ih ⊢
    split
    · rename_i hc
      simp only [Bool.or_eq_true, decide_eq_true_eq] at hc
      rw [Memory.read_cons, Memory.read_cons, ih]
      split
      · rw [if_neg (by omega)]
      · rfl
    · rename_i hc
      simp only [Bool.or_eq_true, decide_eq_true_eq, not_or, not_lt, not_le] at hc
      rw [ih, Memory.read_cons]
      by_cases hx : c.1 = x
      · rw [if_pos (by omega), if_pos (by omega)]
      · rw [if_neg hx]

end Sys2Proof.Machine
end

