-- ==== Sys2Proof/Laws/Table.lean ====
section
/-!
SUPPORT. The laws of the finite tables.
-/

namespace Sys2Proof

set_option Elab.async false

variable {α : Type}

/-- What stands at a key after a value is put: the value there, the earlier content elsewhere. -/
@[simp] theorem Tbl.find_put (t : Tbl α) (k j : Nat) (v : α) :
    (t.put k v).find j = if j = k then some v else t.find j := by
  induction t with
  | nil =>
    simp only [Tbl.put, Tbl.find]
    simp only [eq_comm]
  | cons e r ih =>
    obtain ⟨i, x⟩ := e
    simp only [Tbl.put]
    split
    · simp only [Tbl.find]
      by_cases h : j = k
      · simp [h]
      · simp [h, Ne.symm h]
    · split
      · rename_i h1 h2
        subst h2
        simp only [Tbl.find]
        by_cases h : j = k
        · simp [h]
        · simp [h, Ne.symm h]
      · rename_i h1 h2
        simp only [Tbl.find, ih]
        by_cases h : i = j
        · subst h
          rw [if_pos rfl, if_neg (Ne.symm h2), if_pos rfl]
        · rw [if_neg h, if_neg h]

@[simp] theorem Tbl.get_put (t : Tbl α) (k j : Nat) (v d : α) :
    (t.put k v).get j d = if j = k then v else t.get j d := by
  simp only [Tbl.get, Tbl.find_put]
  split <;> rfl

/-- What stands at a key after a key is dropped. -/
@[simp] theorem Tbl.find_drop (t : Tbl α) (k j : Nat) :
    (t.drop k).find j = if j = k then none else t.find j := by
  induction t with
  | nil => simp [Tbl.drop, Tbl.find]
  | cons e r ih =>
    obtain ⟨i, x⟩ := e
    simp only [Tbl.drop, List.filter_cons] at ih ⊢
    by_cases hi : i = k
    · subst hi
      simp only [bne_self_eq_false, Bool.false_eq_true, if_false, Tbl.find]
      rw [ih]
      by_cases h : j = i
      · simp [h]
      · simp [h, Ne.symm h]
    · simp only [bne_iff_ne, ne_eq, hi, not_false_eq_true, if_true, Tbl.find]
      rw [ih]
      by_cases h : i = j
      · subst h; simp [hi]
      · simp [h]

@[simp] theorem Tbl.find_nil (k : Nat) : Tbl.find ([] : Tbl α) k = none := rfl

@[simp] theorem Tbl.get_nil (k : Nat) (d : α) : Tbl.get ([] : Tbl α) k d = d := rfl

/-- The later of two values put at one key stands. -/
@[simp] theorem Tbl.put_put (t : Tbl α) (k : Nat) (v w : α) : (t.put k v).put k w = t.put k w := by
  induction t with
  | nil => simp [Tbl.put]
  | cons e r ih =>
    obtain ⟨i, x⟩ := e
    simp only [Tbl.put]
    split
    · simp [Tbl.put]
    · split
      · simp [Tbl.put]
      · rename_i h1 h2
        simp [Tbl.put, h1, h2, ih]

end Sys2Proof
end

