-- ==== Sys2Proof/Laws/Effects.lean ====
section
/-!
SUPPORT. The laws of the effects and of the programs over them: what each leaves, and what no program can do.
-/

namespace Sys2Proof.Machine

set_option Elab.async false

/-! What each effect does. -/

@[simp] theorem applyEff_bytes (s : State) (a : Nat) (bs : List Byte) :
    applyEff s (.bytes a bs) = { s with mem := Memory.writes s.mem a bs } := rfl

@[simp] theorem applyEff_clear (s : State) (lo hi : Nat) :
    applyEff s (.clear lo hi) = { s with mem := Memory.clear s.mem lo hi } := rfl

@[simp] theorem applyEff_pass (s : State) (n : Nat) : applyEff s (.pass n) = { s with t := s.t + n } := rfl

@[simp] theorem applyEff_free (s : State) : applyEff s .free = { s with freeCtr := s.freeCtr + 1 } := rfl

@[simp] theorem applyEff_upd (s : State) (f : State → State) :
    applyEff s (.upd f) = { f s with mem := s.mem, t := s.t, freeCtr := s.freeCtr } := rfl

theorem applyEff_agent (s : State) (k : Nat) (f : Agent → Agent) :
    applyEff s (.agent k f) = match s.agents.find k with
      | some a => { s with agents := s.agents.put k (f a) }
      | none => s := rfl

theorem applyEff_agent_some (s : State) (k : Nat) (f : Agent → Agent) (a : Agent) (h : s.agents.find k = some a) :
    applyEff s (.agent k f) = { s with agents := s.agents.put k (f a) } := by
  rw [applyEff_agent, h]

@[simp] theorem applyEff_powerOn (s : State) :
    applyEff s .powerOn = { State.reset with agenda := s.agenda, freeCtr := s.freeCtr } := rfl

/-! Running programs. -/

@[simp] theorem Prog.run_skip (s : State) : Prog.skip.run s = s := rfl

@[simp] theorem Prog.run_act (e : Eff) (s : State) : (Prog.act e).run s = applyEff s e := rfl

@[simp] theorem Prog.run_seq (p q : Prog) (s : State) : (Prog.seq p q).run s = q.run (p.run s) := rfl

@[simp] theorem Prog.run_look (f : State → Prog) (s : State) : (Prog.look f).run s = (f s).run s := rfl

@[simp] theorem Prog.run_all_nil (s : State) : (Prog.all []).run s = s := rfl

@[simp] theorem Prog.run_all_cons (p : Prog) (r : List Prog) (s : State) :
    (Prog.all (p :: r)).run s = (Prog.all r).run (p.run s) := rfl

@[simp] theorem Prog.run_each_nil {α : Type} (f : α → Prog) (s : State) : (Prog.each [] f).run s = s := rfl

@[simp] theorem Prog.run_each_cons {α : Type} (x : α) (l : List α) (f : α → Prog) (s : State) :
    (Prog.each (x :: l) f).run s = (Prog.each l f).run ((f x).run s) := rfl

@[simp] theorem Prog.run_when (c : Bool) (p : Prog) (s : State) : (Prog.when c p).run s = if c then p.run s else s := by
  cases c <;> rfl

@[simp] theorem Prog.run_agent (k : Nat) (f : Agent → Agent) (s : State) :
    (Prog.agent k f).run s = applyEff s (.agent k f) := rfl

@[simp] theorem Prog.run_upd (f : State → State) (s : State) :
    (Prog.upd f).run s = { f s with mem := s.mem, t := s.t, freeCtr := s.freeCtr } := rfl

@[simp] theorem Prog.run_bytes (a : Nat) (bs : List Byte) (s : State) :
    (Prog.bytes a bs).run s = { s with mem := Memory.writes s.mem a bs } := rfl

/-! What an agent that changes leaves. -/

theorem applyEff_agent_find (s : State) (k j : Nat) (f : Agent → Agent) :
    (applyEff s (.agent k f)).agents.find j = if j = k then (s.agents.find j).map f else s.agents.find j := by
  rw [applyEff_agent]
  split
  · rename_i a h
    simp only [Tbl.find_put]
    split
    · rename_i hj
      rw [hj, h]; rfl
    · rfl
  · rename_i h
    split
    · rename_i hj
      rw [hj, h]; rfl
    · rfl

/-! What holds of every program. -/

/-- Every program keeps the canonical form of memory. -/
theorem Prog.run_wf (p : Prog) (s : State) (h : Memory.wf s.mem = true) : Memory.wf (p.run s).mem = true := by
  induction p generalizing s with
  | skip => exact h
  | act e =>
    cases e with
    | bytes a bs => exact Memory.wf_writes bs s.mem a h
    | clear lo hi => exact Memory.wf_clear s.mem lo hi h
    | agent k f =>
      rw [Prog.run_act, applyEff_agent]
      split <;> exact h
    | powerOn => rfl
    | pass _ => exact h
    | free => exact h
    | upd f => exact h
  | seq p q ihp ihq => exact ihq _ (ihp _ h)
  | look f ih => exact ih s s h

/-- Whether a program changes no byte of memory from some state. -/
def Prog.still : Prog → State → Prop
  | .skip, _ => True
  | .act e, s => (applyEff s e).mem = s.mem
  | .seq p q, s => p.still s ∧ q.still (p.run s)
  | .look f, s => (f s).still s

/-- A program whose effects leave memory leaves memory. -/
theorem Prog.run_mem_of_still (p : Prog) (s : State) (h : p.still s) : (p.run s).mem = s.mem := by
  induction p generalizing s with
  | skip => rfl
  | act e => exact h
  | seq p q ihp ihq => exact (ihq _ h.2).trans (ihp _ h.1)
  | look f ih => exact ih s s h

end Sys2Proof.Machine
end

