-- ==== Sys2Proof/Laws/Issue.lean ====
section
/-!
SUPPORT. What the issue of an instruction does: the one lemma about `perform` where the checks pass, where they trap and where
the agent may not issue, and what the parts of a performed packet leave.
-/

namespace Sys2Proof.Machine

set_option Elab.async false

/-! The packet. -/

@[simp] theorem pkt_k (s : State) (k : Nat) (pc : W64) (i : Instr) (f : Fields) : (s.pkt k pc i f).k = k := rfl
@[simp] theorem pkt_pc (s : State) (k : Nat) (pc : W64) (i : Instr) (f : Fields) : (s.pkt k pc i f).pc = pc := rfl
@[simp] theorem pkt_f (s : State) (k : Nat) (pc : W64) (i : Instr) (f : Fields) : (s.pkt k pc i f).f = f := rfl
@[simp] theorem pkt_kind (s : State) (k : Nat) (pc : W64) (i : Instr) (f : Fields) :
    (s.pkt k pc i f).kind = (s.agent k).kind := rfl
@[simp] theorem pkt_lanes (s : State) (k : Nat) (pc : W64) (i : Instr) (f : Fields) :
    (s.pkt k pc i f).lanes = (s.agent k).packetAt pc := rfl

@[simp] theorem pktOf_k (s : State) (i : Instr) (f : Fields) : (s.pktOf i f).k = s.cur := rfl
@[simp] theorem pktOf_f (s : State) (i : Instr) (f : Fields) : (s.pktOf i f).f = f := rfl
@[simp] theorem pktOf_kind (s : State) (i : Instr) (f : Fields) : (s.pktOf i f).kind = (s.agent s.cur).kind := rfl
@[simp] theorem pktOf_pc (s : State) (i : Instr) (f : Fields) : (s.pktOf i f).pc = s.issuePc.getD 0 := rfl

/-- An agent with a packet is there. -/
theorem find_of_packetAt (s : State) (k : Nat) (pc : W64) (h : (s.agent k).packetAt pc ≠ 0) :
    s.agents.find k = some (s.agent k) := by
  unfold State.agent Tbl.get at *
  cases hf : s.agents.find k with
  | some a => rfl
  | none => simp [hf, Agent.packetAt] at h

theorem State.issues_find (s : State) (i : Instr) (f : Fields) (h : s.issues i f = true) :
    s.agents.find s.cur = some (s.agent s.cur) := by
  simp only [State.issues, Bool.and_eq_true, bne_iff_ne, ne_eq] at h
  exact find_of_packetAt s s.cur _ h.1.1.1.2

/-! What `perform` answers. -/

theorem perform_issues (s : State) (i : Instr) (f : Fields) (m : Meaning) (dom opc : Nat)
    (ho : opcodeOf i = some (dom, opc, f)) (h : s.issues i f = true) :
    perform i m s = .next ((match s.check i m (s.pktOf i f) with
      | .hold => .skip
      | .trap c ta => .trapPacket (s.pktOf i f) c ta
      | .pass =>
        if (s.pktOf i f).act = 0 then
          .performPacket (s.pktOf i f) (specOf (s.pktOf i f).kind i) ((m.dests s (s.pktOf i f)).map Prod.fst)
            (.voidPacket (s.pktOf i f) (specOf (s.pktOf i f).kind i).lat) 0
        else match m.body s (s.pktOf i f) with
          | .wait => .yield s.cur
          | .hold => .skip
          | .trap c ta => .trapPacket (s.pktOf i f) c ta
          | .fail c ta q stay => .seq q (.trapPacket (s.pktOf i f) c ta stay)
          | .late q => .seq q (.yield s.cur)
          | .go q stay => .performPacket (s.pktOf i f) (specOf (s.pktOf i f).kind i)
              ((m.dests s (s.pktOf i f)).map Prod.fst) q stay : Prog).run s) := by
  simp only [State.issues, Bool.and_eq_true, bne_iff_ne, ne_eq] at h
  obtain ⟨⟨⟨⟨hpc, hl⟩, hm⟩, hw⟩, hs⟩ := h
  obtain ⟨pc, hpc⟩ := Option.isSome_iff_exists.1 hpc
  have hp : s.pktOf i f = s.pkt s.cur pc i f := by simp [State.pktOf, hpc]
  rw [hp] at hl ⊢
  simp only [perform, done, Prog.issue, Prog.run_look, ho, hpc, hm, hw, hs, hl, Bool.not_true, Bool.or_false,
    decide_false, Bool.false_eq_true, if_false, Bool.and_self]
  all_goals rfl

/-- Where the checks pass and the effect goes on, the packet is performed. -/
theorem perform_go (s : State) (i : Instr) (f : Fields) (m : Meaning) (dom opc : Nat) (q : Prog) (stay : W32)
    (ho : opcodeOf i = some (dom, opc, f))
    (h : s.performs i f (m.reads s (s.pktOf i f)) (m.writes s (s.pktOf i f)) (m.dests s (s.pktOf i f)) = true)
    (hi : m.illegal s (s.pktOf i f) = false) (hb : m.body s (s.pktOf i f) = .go q stay) :
    perform i m s = .next ((Prog.performPacket (s.pktOf i f) (specOf (s.agent s.cur).kind i)
      ((m.dests s (s.pktOf i f)).map Prod.fst) q stay).run s) := by
  simp only [State.performs, Bool.and_eq_true, bne_iff_ne, ne_eq, Bool.or_eq_true, Bool.not_eq_true',
    beq_iff_eq, decide_eq_true_eq, State.encodingOk] at h
  obtain ⟨⟨⟨⟨⟨hiss, ⟨_, hx⟩, hw⟩, ha⟩, hn⟩, hc⟩, hd⟩ := h
  have hcheck : s.check i m (s.pktOf i f) = .pass := by
    have hsp : (if needsFull (s.pktOf i f).kind i (s.pktOf i f).f = true then
        s.split (s.pktOf i f).k (s.pktOf i f).pc (s.pktOf i f).lanes else .go) = .go := by
      by_cases hnf : needsFull (s.agent s.cur).kind i f = true
      · rw [pktOf_kind, pktOf_f, if_pos hnf]
        rcases hn with hn | hn
        · rw [hnf] at hn; cases hn
        · exact hn
      · rw [pktOf_kind, pktOf_f, if_neg hnf]
    unfold State.check
    rw [hsp]
    simp only [pktOf_pc, pktOf_f, pktOf_kind, pktOf_k, hx, Option.isNone_iff_eq_none.1 hw, hi, ha,
      Bool.false_eq_true, if_false, reduceCtorEq]
    have hdem : ¬((m.dests s (s.pktOf i f) != [] && decide (s.demand s.cur ((s.pktOf i f).lastUse.filter
        (fun n => !((m.dests s (s.pktOf i f)).map Prod.fst).contains n)) (m.dests s (s.pktOf i f)) >
        (s.agent s.cur).g)) = true) := by
      rcases hd with hd | hd
      · simp [hd]
      · intro hcon
        simp only [Bool.and_eq_true, decide_eq_true_eq] at hcon
        exact absurd hd (Nat.not_le.2 hcon.2)
    split
    · rename_i c n heq
      by_cases hck : (s.agent s.cur).check = true
      · have heq := (if_pos hck).symm.trans heq
        rw [Option.isNone_iff_eq_none.1 (hc.resolve_left (by rw [hck]; decide))] at heq
        cases heq
      · cases (if_neg hck).symm.trans heq
    · exact if_neg hdem
  rw [perform_issues s i f m dom opc ho hiss, hcheck]
  simp only [if_neg ha, hb, pktOf_kind]

/-! The parts of a performed packet. -/

/-- The agent of a packet once its threads have gone on. -/
def Agent.advanced (a : Agent) (p : Pkt) (commit : Bool) (stay : W32) (now : Nat) : Agent :=
  { a with
    threads := a.threads.map (p.moved commit stay)
    k := if p.f.setEn then a.k.put p.f.setK.toNat (a.tok p.f.setK.toNat + 1) else a.k
    runPackets := (if a.runOpen then a.runPackets else 0) + 1
    runStalls := (if a.runOpen then a.runStalls else 0) + p.f.stall.toNat
    runOpen := true
    stalled := true
    stallEnd := now + Config.clock * (p.f.stall.toNat + 1)
    eligibleSince := now
    ageSteps := 0 }

theorem mapThreads_eq (a : Agent) (m : W32) (g : Nat → Thread → Thread) :
    a.mapThreads m g = { a with threads := a.threads.map (fun e => if m.getLsbD e.1 then (e.1, g e.1 e.2) else e) } := rfl

theorem mapThreads_threads (a : Agent) (m : W32) (g : Nat → Thread → Thread) :
    (a.mapThreads m g).threads = a.threads.map (fun e => if m.getLsbD e.1 then (e.1, g e.1 e.2) else e) := rfl

/-- The lanes of a mask without those of another. -/
theorem getLsbD_without (m n : W32) (l : Nat) : (m &&& ~~~n).getLsbD l = (m.getLsbD l && !n.getLsbD l) := by
  rw [BitVec.getLsbD_and, BitVec.getLsbD_not]
  cases hm : m.getLsbD l with
  | false => rfl
  | true => simp [BitVec.lt_of_getLsbD hm]

/-- An agent that has taken an issue slot (R46, R89). -/
def Agent.slotted (a : Agent) (n now : Nat) : Agent :=
  { a with
    runPackets := (if a.runOpen then a.runPackets else 0) + 1
    runStalls := (if a.runOpen then a.runStalls else 0) + n
    runOpen := true
    stalled := true
    stallEnd := now + Config.clock * (n + 1)
    eligibleSince := now
    ageSteps := 0 }

/-- A core whose port has issued a packet of an agent (01 R18). -/
def Core.took (c : Core) (k now : Nat) : Core :=
  { c with ports := c.ports.put (portOf k) k, portAt := c.portAt.put (portOf k) (now + Config.clock) }

/-- What taking an issue slot leaves. -/
theorem takeSlot_run (s : State) (k n : Nat) (a : Agent) (h : s.agents.find k = some a) :
    (Prog.takeSlot k n).run s =
      { s with
        agents := s.agents.put k (a.slotted n s.t)
        cores := s.cores.put (coreOf k) ((s.core (coreOf k)).took k s.t) } := by
  simp only [Prog.takeSlot, Prog.run_look, Prog.run_all_cons, Prog.run_all_nil, Prog.run_agent, applyEff_agent_some _ _ _ _ h,
    Prog.core, Prog.run_upd, Prog.stall]
  rw [applyEff_agent_some _ _ _ _ (by simp only [Tbl.find_put, if_true]; rfl)]
  simp only [Tbl.put_put, State.core, Agent.slotted, Core.took]

/-- What going on leaves (R26, R46, R49, R51, R89, R91). -/
theorem advance_run (s : State) (p : Pkt) (commit : Bool) (stay : W32) (a : Agent)
    (h : s.agents.find p.k = some a) :
    (Prog.advance p commit stay).run s =
      { s with
        agents := s.agents.put p.k (a.advanced p commit stay s.t)
        cores := s.cores.put (coreOf p.k) ((s.core (coreOf p.k)).took p.k s.t) } := by
  simp only [Prog.advance, Prog.run_all_cons, Prog.run_all_nil, Prog.run_agent, applyEff_agent_some _ _ _ _ h]
  rw [takeSlot_run _ _ _ _ (by simp only [Tbl.find_put, if_true]; rfl)]
  simp only [Tbl.put_put, State.core, Agent.advanced, Agent.slotted]
  congr 2
  cases hrs : p.f.rs <;> cases hen : p.f.setEn <;>
    simp only [Bool.false_eq_true, if_false, if_true, mapThreads_eq, List.map_map] <;>
    congr 1 <;> apply List.map_congr_left <;> rintro ⟨l, t⟩ _ <;>
    simp only [getLsbD_without, Pkt.moved, Function.comp, hrs] <;>
    cases hl : p.lanes.getLsbD l <;> cases hs : stay.getLsbD l <;> cases commit <;> simp [hl, hs]

/-- An agent that notes when the token of a fixed-latency result is released (R90). -/
def Agent.timed (b : Agent) (p : Pkt) (lat : Latency) (now : Nat) : Agent :=
  match lat with
  | .fixed l => if p.f.setEn then { b with timers := b.timers ++ [(p.f.setK.toNat, now + Config.clock * l)] } else b
  | _ => b

theorem timed_threads (b : Agent) (p : Pkt) (lat : Latency) (now : Nat) : (b.timed p lat now).threads = b.threads := by
  unfold Agent.timed
  split
  · split <;> rfl
  · rfl

/-- Whether the run ends with the packet (R46, R47, R303). -/
def Agent.endsRun (a : Agent) (p : Pkt) : Bool := p.f.rb || a.readyMask == 0 || a.stMask (· == .waiting) != 0

/-- The agent of a packet once the packet is retired. -/
def Agent.retired (a : Agent) (p : Pkt) (lat : Latency) (dests : List Nat) (stay : W32) (now : Nat) : Agent :=
  let b := if stay = 0 then (p.lastUse.filter (fun n => !dests.contains n)).foldl (fun a n => a.putV n .dead) a else a
  let c := b.timed p lat now
  if c.endsRun p then
    { c with runOpen := false, runPackets := 0, runStalls := 0, lastRunEnd := now }
  else c

/-- A core once the run of an agent has ended. -/
def Core.freed (c : Core) (k : Nat) : Core :=
  if c.ports.find (portOf k) = some k then
    { c with
      ports := c.ports.drop (portOf k)
      lastCtl := if 64 ≤ unitOf k && coreNo k != 255 then unitOf k - 64 else c.lastCtl }
  else c

theorem endRun_run (s : State) (k : Nat) (a : Agent) (h : s.agents.find k = some a) :
    (Prog.endRun k).run s = { s with
      agents := s.agents.put k { a with runOpen := false, runPackets := 0, runStalls := 0, lastRunEnd := s.t }
      cores := s.cores.put (coreOf k) ((s.core (coreOf k)).freed k) } := by
  simp only [Prog.endRun, Prog.run_seq, Prog.run_look, applyEff_agent_some _ _ _ _ h, Prog.run_agent]
  rw [applyEff_agent_some _ _ _ _ (by simp only [Tbl.find_put, if_true]; rfl)]
  simp only [Tbl.put_put, Prog.core, Prog.run_upd]
  rfl

@[simp] theorem putV_threads (a : Agent) (n : Nat) (x : VReg) : (a.putV n x).threads = a.threads := by
  unfold Agent.putV; split <;> rfl

theorem putV_fold_threads (l : List Nat) (a : Agent) :
    (l.foldl (fun a n => a.putV n .dead) a).threads = a.threads := by
  induction l generalizing a with
  | nil => rfl
  | cons n l ih => rw [List.foldl_cons, ih, putV_threads]

/-- The table `u` is `t` with the value `v` at the key `k`. -/
def Tbl.sets {α : Type} (t u : Tbl α) (k : Nat) (v : α) : Prop := ∀ j, u.find j = if j = k then some v else t.find j

theorem Tbl.sets_put {α : Type} (t : Tbl α) (k : Nat) (v : α) : Tbl.sets t (t.put k v) k v := fun j => Tbl.find_put t k j v

theorem Tbl.sets_self {α : Type} (t : Tbl α) (k : Nat) (v : α) (h : t.find k = some v) : Tbl.sets t t k v := by
  intro j
  split
  · rename_i hj; rw [hj, h]
  · rfl

theorem Tbl.sets_trans {α : Type} {t u w : Tbl α} {k : Nat} {x y : α} (h1 : Tbl.sets t u k x) (h2 : Tbl.sets u w k y) :
    Tbl.sets t w k y := by
  intro j
  rw [h2 j]
  split
  · rfl
  · rename_i hj
    rw [h1 j, if_neg hj]

/-- What changing an agent that is there leaves. -/
theorem agent_run (s : State) (k : Nat) (f : Agent → Agent) (a : Agent) (h : s.agents.find k = some a) :
    ∃ u, (Prog.agent k f).run s = { s with agents := u } ∧ Tbl.sets s.agents u k (f a) :=
  ⟨_, applyEff_agent_some s k f a h, Tbl.sets_put _ _ _⟩

/-- What retiring a packet leaves (R46, R47, R90, R93). -/
theorem retire_run (s : State) (p : Pkt) (lat : Latency) (dests : List Nat) (stay : W32) (a : Agent)
    (h : s.agents.find p.k = some a) :
    ∃ u, (Prog.retirePacket p lat dests stay).run s =
      { s with
        agents := u
        cores := if a.endsRun p then s.cores.put (coreOf p.k) ((s.core (coreOf p.k)).freed p.k) else s.cores
        freeCtr := s.freeCtr + 1 } ∧ Tbl.sets s.agents u p.k (a.retired p lat dests stay s.t) := by
  -- last use
  obtain ⟨u1, h1, hu1⟩ : ∃ u, (Prog.when (stay == 0) (.agent p.k (fun a =>
      (p.lastUse.filter (fun n => !dests.contains n)).foldl (fun a n => a.putV n .dead) a))).run s =
        { s with agents := u } ∧ Tbl.sets s.agents u p.k (if stay = 0 then
          (p.lastUse.filter (fun n => !dests.contains n)).foldl (fun a n => a.putV n .dead) a else a) := by
    rw [Prog.run_when]
    by_cases hs : stay = 0
    · rw [if_pos (by simpa using hs), if_pos hs]
      exact agent_run s p.k _ a h
    · rw [if_neg (by simpa using hs), if_neg hs]
      exact ⟨s.agents, rfl, Tbl.sets_self _ _ _ h⟩
  generalize hb : (if stay = 0 then
          (p.lastUse.filter (fun n => !dests.contains n)).foldl (fun a n => a.putV n .dead) a else a) = b at hu1
  have hbt : b.threads = a.threads := by
    rw [← hb]; split
    · exact putV_fold_threads ..
    · rfl
  -- the token of a fixed-latency result
  obtain ⟨u2, h2, hu2⟩ : ∃ u, ((match lat with
      | .fixed l => .when p.f.setEn (.agent p.k (fun a => { a with
          timers := a.timers ++ [(p.f.setK.toNat, s.t + Config.clock * l)] }))
      | _ => .skip : Prog)).run { s with agents := u1 } = { s with agents := u } ∧
        Tbl.sets s.agents u p.k (b.timed p lat s.t) := by
    have hf : Tbl.find u1 p.k = some b := by rw [hu1]; simp
    cases lat with
    | fixed l =>
      simp only [Prog.run_when, Agent.timed]
      split
      · obtain ⟨u, e, hu⟩ := agent_run { s with agents := u1 } p.k (fun a => { a with
          timers := a.timers ++ [(p.f.setK.toNat, s.t + Config.clock * l)] }) b hf
        exact ⟨u, e, Tbl.sets_trans hu1 hu⟩
      · exact ⟨u1, rfl, hu1⟩
    | _ => exact ⟨u1, rfl, hu1⟩
  generalize hc : b.timed p lat s.t = c at hu2
  have hct : c.endsRun p = a.endsRun p := by
    simp only [Agent.endsRun, Agent.readyMask, Agent.stMask, ← hc, timed_threads, hbt]
  have hf : Tbl.find u2 p.k = some c := by rw [hu2]; simp
  have hret : a.retired p lat dests stay s.t = if a.endsRun p then
      { c with runOpen := false, runPackets := 0, runStalls := 0, lastRunEnd := s.t } else c := by
    simp only [Agent.retired, hb, hc, hct]
  have hag : State.agent { s with agents := u2, freeCtr := s.freeCtr + 1 } p.k = c := by
    simp [State.agent, Tbl.get, hf]
  have hrun : (Prog.retirePacket p lat dests stay).run s = (Prog.all [.act .free, .look fun s =>
      .when ((s.agent p.k).endsRun p) (.endRun p.k)]).run { s with agents := u2 } := by
    rw [← h2]
    cases lat <;> simp only [Prog.retirePacket, Prog.run_all_cons, Prog.run_all_nil, h1, Prog.run_look, State.runOver,
      Agent.endsRun]
  rw [hrun]
  simp only [Prog.run_all_cons, Prog.run_all_nil, Prog.run_look, Prog.run_act, applyEff_free, Prog.run_when, hag, hct, hret]
  by_cases he : a.endsRun p = true
  · rw [if_pos he, if_pos he, if_pos he]
    rw [endRun_run _ _ c hf]
    refine ⟨_, rfl, Tbl.sets_trans hu2 (Tbl.sets_put _ _ _)⟩
  · rw [if_neg he, if_neg he, if_neg he]
    exact ⟨u2, rfl, hu2⟩

/-! What a performed packet leaves where its own effect is on its agent and the operations in flight. -/

/-- A program changes one agent by `g` and the operations in flight by `o`, and nothing else. -/
def Prog.onAgent (q : Prog) (k : Nat) (g : Agent → Agent) (o : Nat → List Op → List Op) (n : Nat → Nat) : Prop :=
  ∀ (s : State) (a : Agent), s.agents.find k = some a →
    ∃ u, q.run s = { s with agents := u, ops := o s.nextId s.ops, nextId := n s.nextId } ∧ Tbl.sets s.agents u k (g a)

/-- The operations after registers of an agent are written (R91). -/
def clashed (k : Nat) (rs : List Reg) (l : List Op) : List Op :=
  l.map (fun o => if o.agent = k then { o with clash := (rs.filter o.kind.dests.contains) ++ o.clash } else o)

theorem onAgent_skip (k : Nat) : Prog.onAgent .skip k id (fun _ l => l) id :=
  fun s _ h => ⟨s.agents, rfl, Tbl.sets_self _ _ _ h⟩

theorem onAgent_agent (k : Nat) (g : Agent → Agent) : Prog.onAgent (.agent k g) k g (fun _ l => l) id :=
  fun s a h => agent_run s k g a h

theorem onAgent_clash (k : Nat) (rs : List Reg) : Prog.onAgent (.clash k rs) k id (fun _ => clashed k rs) id :=
  fun s _ h => ⟨s.agents, rfl, Tbl.sets_self _ _ _ h⟩

theorem onAgent_seq {q r : Prog} {k : Nat} {g h : Agent → Agent} {o o' : Nat → List Op → List Op} {n n' : Nat → Nat}
    (hq : q.onAgent k g o n) (hr : r.onAgent k h o' n') :
    (Prog.seq q r).onAgent k (fun a => h (g a)) (fun i l => o' (n i) (o i l)) (fun i => n' (n i)) := by
  intro s a ha
  obtain ⟨u, e, hu⟩ := hq s a ha
  obtain ⟨w, e', hw⟩ := hr { s with agents := u, ops := o s.nextId s.ops, nextId := n s.nextId } (g a) (by
    rw [hu]; simp)
  exact ⟨w, by rw [Prog.run_seq, e, e'], Tbl.sets_trans hu hw⟩

theorem onAgent_addHeld (p : Pkt) (kind : OpKind) (lanes : W32) (commit : Bool) (held : W32) (lu : List Nat) :
    Prog.onAgent (.addHeld p kind lanes commit held lu) p.k id
      (fun i l => l ++ [p.opOf kind lanes commit held lu i]) (fun i => i + 1) :=
  fun s _ h => ⟨s.agents, rfl, Tbl.sets_self _ _ _ h⟩

/-- The core of an agent after its packet, but for its ports. -/
theorem freed_frame (c : Core) (k now : Nat) :
    { Core.freed (c.took k now) k with ports := c.ports, portAt := c.portAt, lastCtl := c.lastCtl } = c := by
  unfold Core.freed; split <;> rfl

/-- What a performed packet leaves (R120): its agent, changed by its effect, and its core's ports. -/
theorem perform_onAgent (s : State) (p : Pkt) (sp : Spec) (ds : List Nat) (q : Prog) (stay : W32) (a : Agent)
    {g : Agent → Agent} {o : Nat → List Op → List Op} {n : Nat → Nat}
    (h : s.agents.find p.k = some a) (hq : q.onAgent p.k g o n) :
    ∃ u c, (Prog.performPacket p sp ds q stay).run s =
        { s with
          agents := u
          cores := c
          ops := o s.nextId s.ops
          nextId := n s.nextId
          freeCtr := s.freeCtr + 1 } ∧
      Tbl.sets s.agents u p.k ((g (a.advanced p sp.commit stay s.t)).retired p sp.lat ds stay s.t) ∧
      (∀ j, j ≠ coreOf p.k → c.find j = s.cores.find j) ∧
      { c.get (coreOf p.k) {} with
        ports := (s.core (coreOf p.k)).ports
        portAt := (s.core (coreOf p.k)).portAt
        lastCtl := (s.core (coreOf p.k)).lastCtl } = s.core (coreOf p.k) := by
  simp only [Prog.performPacket, Prog.run_all_cons, Prog.run_all_nil]
  obtain ⟨u, e, hu⟩ := hq ((Prog.advance p sp.commit stay).run s) (a.advanced p sp.commit stay s.t)
    (by rw [advance_run s p sp.commit stay a h]; simp)
  have hf : Tbl.find u p.k = some (g (a.advanced p sp.commit stay s.t)) := by rw [hu]; simp
  obtain ⟨w, e', hw⟩ := retire_run _ p sp.lat ds stay (g (a.advanced p sp.commit stay s.t))
    (show Tbl.find (q.run ((Prog.advance p sp.commit stay).run s)).agents p.k = _ by rw [e]; exact hf)
  rw [e']
  rw [e] at hw ⊢
  rw [advance_run s p sp.commit stay a h] at hu hw ⊢
  refine ⟨_, _, rfl, Tbl.sets_trans (Tbl.sets_trans (Tbl.sets_put _ _ _) hu) hw, ?_, ?_⟩
  · intro j hj
    dsimp only
    split
    · simp [hj]
    · simp [hj]
  · dsimp only [State.core]
    split
    · simp only [Tbl.get_put, if_true]
      exact freed_frame (s.cores.get (coreOf p.k) {}) _ _
    · simp only [Tbl.get_put, if_true]
      rfl

/-! The agent after a retired packet. -/

theorem foldl_dead_eq (l : List Nat) (a : Agent) :
    ∃ v, l.foldl (fun a n => a.putV n .dead) a = { a with v := v } ∧
      ∀ n, n ∉ l → (l.foldl (fun a n => a.putV n .dead) a).rawV n = a.rawV n := by
  induction l generalizing a with
  | nil => exact ⟨a.v, rfl, fun _ _ => rfl⟩
  | cons m l ih =>
    obtain ⟨v, e, hv⟩ := ih (a.putV m .dead)
    rw [List.foldl_cons]
    refine ⟨v, ?_, ?_⟩
    · rw [e]; unfold Agent.putV; split <;> rfl
    · intro n hn
      simp only [List.mem_cons, not_or] at hn
      rw [hv n hn.2]
      unfold Agent.putV
      split
      · rfl
      · simp [Agent.rawV, hn.1]

theorem retired_eq (a : Agent) (p : Pkt) (lat : Latency) (ds : List Nat) (stay : W32) (now : Nat) :
    ∃ v ti ro rp rs le, a.retired p lat ds stay now =
        { a with v := v, timers := ti, runOpen := ro, runPackets := rp, runStalls := rs, lastRunEnd := le } ∧
      ∀ n, n ∉ p.lastUse ∨ n ∈ ds → (a.retired p lat ds stay now).rawV n = a.rawV n := by
  obtain ⟨v, e, hv⟩ : ∃ v, (if stay = 0 then (p.lastUse.filter (fun n => !ds.contains n)).foldl
      (fun a n => a.putV n .dead) a else a) = { a with v := v } ∧ ∀ n, n ∉ p.lastUse ∨ n ∈ ds → (if stay = 0 then
        (p.lastUse.filter (fun n => !ds.contains n)).foldl (fun a n => a.putV n .dead) a else a).rawV n = a.rawV n := by
    split
    · obtain ⟨v, e, hv⟩ := foldl_dead_eq (p.lastUse.filter (fun n => !ds.contains n)) a
      refine ⟨v, e, fun n hn => hv n fun hm => ?_⟩
      simp only [List.mem_filter, Bool.not_eq_true', List.contains_eq_mem, decide_eq_false_iff_not] at hm
      exact hn.elim (fun h => h hm.1) (fun h => hm.2 h)
    · exact ⟨a.v, rfl, fun _ _ => rfl⟩
  obtain ⟨ti, e2⟩ : ∃ ti, (Agent.timed { a with v := v } p lat now) = { a with v := v, timers := ti } := by
    unfold Agent.timed
    split
    · split
      · exact ⟨_, rfl⟩
      · exact ⟨_, rfl⟩
    · exact ⟨_, rfl⟩
  have key : ∃ ro rp rs le, a.retired p lat ds stay now =
      { a with v := v, timers := ti, runOpen := ro, runPackets := rp, runStalls := rs, lastRunEnd := le } := by
    simp only [Agent.retired]
    rw [e, e2]
    split
    · exact ⟨_, _, _, _, rfl⟩
    · exact ⟨_, _, _, _, rfl⟩
  obtain ⟨ro, rp, rs, le, key⟩ := key
  refine ⟨v, ti, ro, rp, rs, le, key, fun n hn => ?_⟩
  have := hv n hn
  rw [e] at this
  rw [key]
  exact this

/-- The token counts of an agent that has gone on. -/
theorem advanced_tok (a : Agent) (p : Pkt) (commit : Bool) (stay : W32) (now j : Nat) :
    (a.advanced p commit stay now).tok j = a.tok j + if p.f.setEn ∧ p.f.setK.toNat = j then 1 else 0 := by
  simp only [Agent.advanced, Agent.tok]
  cases hs : p.f.setEn
  · simp
  · by_cases hj : p.f.setK.toNat = j
    · simp [hj]
    · simp [hj, Ne.symm hj]

/-- What a performed packet leaves where its own effect is on the registers of its agent, and on the operations in flight. -/
theorem perform_registers (s : State) (p : Pkt) (sp : Spec) (ds : List Nat) (q : Prog) (stay : W32)
    {g : Agent → Agent} {o : Nat → List Op → List Op} {n : Nat → Nat} {vs ss ps : List Nat}
    (h : s.agents.find p.k = some (s.agent p.k)) (hq : q.onAgent p.k g o n)
    (hg : ∃ v r pr fl fd rc, g ((s.agent p.k).advanced p sp.commit stay s.t) =
      { (s.agent p.k).advanced p sp.commit stay s.t with
        v := v, s := r, p := pr, flags := fl, flagsDue := fd, recent := rc })
    (hv : ∀ m, m ∉ vs → (g ((s.agent p.k).advanced p sp.commit stay s.t)).rawV m = (s.agent p.k).rawV m)
    (hs : ∀ m, m ∉ ss → (g ((s.agent p.k).advanced p sp.commit stay s.t)).rawS m = (s.agent p.k).rawS m)
    (hp : ∀ m, m ∉ ps → (g ((s.agent p.k).advanced p sp.commit stay s.t)).rawP m = (s.agent p.k).rawP m) :
    ∃ t, (Prog.performPacket p sp ds q stay).run s = t ∧ s.onlyAgent t p.k ∧ s.wentOn t p sp.commit stay ∧
      (s.agent p.k).keeps (t.agent p.k) (vs ++ p.lastUse) ss ps ∧ t.ops = o s.nextId s.ops ∧
      t.nextId = n s.nextId ∧
      (∀ now, (t.agent p.k).flagsAt now = (g ((s.agent p.k).advanced p sp.commit stay s.t)).flagsAt now) ∧
      (∀ m, (t.agent p.k).rawS m = (g ((s.agent p.k).advanced p sp.commit stay s.t)).rawS m) ∧
      (∀ m, (t.agent p.k).rawP m = (g ((s.agent p.k).advanced p sp.commit stay s.t)).rawP m) ∧
      (∀ m, m ∉ p.lastUse ∨ m ∈ ds →
        (t.agent p.k).rawV m = (g ((s.agent p.k).advanced p sp.commit stay s.t)).rawV m) := by
  obtain ⟨u, c, e, hu, hc1, hc2⟩ := perform_onAgent s p sp ds q stay (s.agent p.k) h hq
  obtain ⟨v, r, pr, fl, fd, rc, hg⟩ := hg
  rw [hg] at hu hv hs hp ⊢
  obtain ⟨v', ti, ro, rp, rs, le, hr, hrv⟩ := retired_eq
    { (s.agent p.k).advanced p sp.commit stay s.t with
      v := v, s := r, p := pr, flags := fl, flagsDue := fd, recent := rc }
    p sp.lat ds stay s.t
  have hag : State.agent { s with
          agents := u
          cores := c
          ops := o s.nextId s.ops
          nextId := n s.nextId
          freeCtr := s.freeCtr + 1 } p.k = ({ (s.agent p.k).advanced p sp.commit stay s.t with
            v := v, s := r, p := pr, flags := fl, flagsDue := fd, recent := rc } : Agent).retired p sp.lat ds stay s.t := by
    simp only [State.agent, Tbl.get, hu p.k, if_true, Option.getD_some]
  refine ⟨_, e, ⟨rfl, fun j hj => ?_, hc1, hc2⟩, ?_, ?_, rfl, rfl, ?_, ?_, ?_, ?_⟩
  · show Tbl.find u j = _
    rw [hu j, if_neg hj]
  · unfold State.wentOn State.threadsGo
    rw [hag, hr]
    refine ⟨rfl, fun j => ?_, rfl, rfl⟩
    exact advanced_tok (s.agent p.k) p sp.commit stay s.t j
  · unfold Agent.keeps
    rw [hag]
    refine ⟨?_, fun m hm => ?_, fun m hm => ?_, fun m hm => ?_⟩
    · rw [hr]; rfl
    · simp only [List.mem_append, not_or] at hm
      rw [hrv m (.inl hm.2)]
      exact hv m hm.1
    · rw [hr]; exact hs m hm
    · rw [hr]; exact hp m hm
  · intro now; rw [hag, hr]; rfl
  · intro m; rw [hag, hr]; rfl
  · intro m; rw [hag, hr]; rfl
  · intro m hm; rw [hag]; exact hrv m hm

/-- What writing registers notes of the operations in flight changes nothing else of them. -/
theorem clashed_same (k : Nat) (rs : List Reg) (l : List Op) :
    (clashed k rs l).map (fun o => { o with clash := [] }) = l.map (fun o => { o with clash := [] }) := by
  simp only [clashed, List.map_map]
  apply List.map_congr_left
  intro o _
  simp only [Function.comp]
  split <;> rfl

end Sys2Proof.Machine
end

