-- ==== Sys2Proof/Laws/Registers.lean ====
section
/-!
SUPPORT. What writing a result to a register leaves: of the registers only the one that is written.
-/

namespace Sys2Proof.Machine

set_option Elab.async false

theorem putS_eq (a : Agent) (n : Nat) (x : W64) : ∃ r, a.putS n x = { a with s := r } := by
  unfold Agent.putS
  split
  · exact ⟨a.s, rfl⟩
  · exact ⟨_, rfl⟩

theorem putS_rawS (a : Agent) (n m : Nat) (x : W64) (h : n ≠ 0) :
    (a.putS n x).rawS m = if m = n then x else a.rawS m := by
  unfold Agent.putS Agent.rawS
  rw [if_neg h]
  by_cases hm : m = n
  · subst hm; simp [h]
  · simp [hm]

theorem putV_eq (a : Agent) (n : Nat) (x : VReg) : ∃ v, a.putV n x = { a with v := v } := by
  unfold Agent.putV
  split
  · exact ⟨a.v, rfl⟩
  · exact ⟨_, rfl⟩

theorem putV_rawV (a : Agent) (n m : Nat) (x : VReg) :
    (a.putV n x).rawV m = if m = n ∧ n < 126 then x else a.rawV m := by
  unfold Agent.putV Agent.rawV
  by_cases h : n ≥ 126
  · rw [if_pos h, if_neg (show ¬(m = n ∧ n < 126) by omega)]
  · rw [if_neg h]
    by_cases hm : m = n
    · subst hm
      rw [if_pos (show m = m ∧ m < 126 by omega), if_neg (show ¬m = 126 by omega), if_neg (show ¬m = 127 by omega)]
      simp
    · rw [if_neg (show ¬(m = n ∧ n < 126) by omega)]
      simp [hm]

theorem putP_eq (a : Agent) (n : Nat) (x m : W32) : ∃ p, a.putP n x m = { a with p := p } := by
  unfold Agent.putP
  split
  · exact ⟨a.p, rfl⟩
  · exact ⟨_, rfl⟩

theorem putP_rawP (a : Agent) (n j : Nat) (x m : W32) (h : n ≠ 7) :
    (a.putP n x m).rawP j = if j = n then (a.rawP n &&& ~~~m) ||| (x &&& m) else a.rawP j := by
  unfold Agent.putP
  rw [if_neg h]
  simp only [Agent.rawP]
  by_cases hj : j = n
  · subst hj; simp [h]
  · simp [hj]

/-- The flags of a result still to come (22 R418): FLAGS has them from its arrival on. -/
theorem dueFlags_eq (a : Agent) (now lat : Nat) (f : BitVec 5) : ∃ fd, a.dueFlags now lat f = { a with flagsDue := fd } := by
  unfold Agent.dueFlags
  split
  · exact ⟨a.flagsDue, rfl⟩
  · exact ⟨_, rfl⟩

theorem dueFlags_flagsAt (a : Agent) (t lat now : Nat) (f : BitVec 5) :
    (a.dueFlags t lat f).flagsAt now = a.flagsAt now ||| if t + Config.clock * lat ≤ now then f else 0 := by
  unfold Agent.dueFlags
  split
  · rename_i h; simp [h]
  · simp only [Agent.flagsAt, List.filter_append, List.foldl_append, List.filter_cons, List.filter_nil]
    by_cases h : t + Config.clock * lat ≤ now <;> simp [h]

theorem dueFlags_rawV (a : Agent) (t lat n : Nat) (f : BitVec 5) : (a.dueFlags t lat f).rawV n = a.rawV n := by
  obtain ⟨_, e⟩ := dueFlags_eq a t lat f
  rw [e]; rfl

theorem dueFlags_rawS (a : Agent) (t lat n : Nat) (f : BitVec 5) : (a.dueFlags t lat f).rawS n = a.rawS n := by
  obtain ⟨_, e⟩ := dueFlags_eq a t lat f
  rw [e]; rfl

theorem dueFlags_rawP (a : Agent) (t lat n : Nat) (f : BitVec 5) : (a.dueFlags t lat f).rawP n = a.rawP n := by
  obtain ⟨_, e⟩ := dueFlags_eq a t lat f
  rw [e]; rfl

/-- A fixed-latency S result (R89): it changes one S-register; the new value stands where no earlier result is still to come. -/
theorem fixS_law (s : State) (lat n : Nat) (x : W64) (a : Agent) :
    (∃ r rc, s.fixS lat n x a = { a with s := r, recent := rc }) ∧
      (∀ m, m ≠ n → (s.fixS lat n x a).rawS m = a.rawS m) ∧
      (n ≠ 0 → a.early (.s n) s.t = none → (s.fixS lat n x a).rawS n = x) := by
  by_cases h : n = 0
  · subst h
    exact ⟨⟨a.s, a.recent, rfl⟩, fun _ _ => rfl, fun h => absurd rfl h⟩
  · obtain ⟨y, hy, e⟩ : ∃ y, (a.early (.s n) s.t = none → y = x) ∧
        s.fixS lat n x a = (a.putS n y).note s.t (.s n) .dead (a.rawS n) lat := by
      unfold State.fixS
      rw [if_neg h]
      exact ⟨_, fun he => by rw [he], rfl⟩
    rw [e]
    obtain ⟨r, hr⟩ := putS_eq a n y
    refine ⟨⟨r, _, by rw [hr]; rfl⟩, fun m hm => ?_, fun _ he => ?_⟩
    · show (a.putS n y).rawS m = _
      rw [putS_rawS a n m y h, if_neg hm]
    · show (a.putS n y).rawS n = _
      rw [putS_rawS a n n y h, if_pos rfl, hy he]

/-- A fixed-latency predicate result (R89): it changes one predicate, in the lanes of the mask. -/
theorem fixP_law (s : State) (lat n : Nat) (x m : W32) (a : Agent) :
    (∃ r rc, s.fixP lat n x m a = { a with p := r, recent := rc }) ∧
      (∀ j, j ≠ n → (s.fixP lat n x m a).rawP j = a.rawP j) ∧
      (n ≠ 7 → a.early (.p n) s.t = none →
        (s.fixP lat n x m a).rawP n = (a.rawP n &&& ~~~m) ||| (x &&& m)) := by
  by_cases h : n = 7
  · subst h
    exact ⟨⟨a.p, a.recent, rfl⟩, fun _ _ => rfl, fun h => absurd rfl h⟩
  · obtain ⟨y, hy, e⟩ : ∃ y, (a.early (.p n) s.t = none → y = x) ∧
        s.fixP lat n x m a = (a.putP n y m).note s.t (.p n) .dead ((a.rawP n).zeroExtend 64) lat := by
      unfold State.fixP
      rw [if_neg h]
      exact ⟨_, fun he => by rw [he], rfl⟩
    rw [e]
    obtain ⟨r, hr⟩ := putP_eq a n y m
    refine ⟨⟨r, _, by rw [hr]; rfl⟩, fun j hj => ?_, fun _ he => ?_⟩
    · show (a.putP n y m).rawP j = _
      rw [putP_rawP a n j y m h, if_neg hj]
    · show (a.putP n y m).rawP n = _
      rw [putP_rawP a n n y m h, if_pos rfl, hy he]

/-- A fixed-latency V result (R89): it changes one V-register. -/
theorem fixV_law (s : State) (lat n : Nat) (x : VReg) (a : Agent) :
    (∃ r rc, s.fixV lat n x a = { a with v := r, recent := rc }) ∧
      (∀ m, m ≠ n → (s.fixV lat n x a).rawV m = a.rawV m) ∧
      (n ≥ 126 → s.fixV lat n x a = a) ∧
      (n < 126 → a.early (.v n) s.t = none → (s.fixV lat n x a).rawV n = x) := by
  by_cases h : n ≥ 126
  · have e : s.fixV lat n x a = a := by unfold State.fixV; rw [if_pos h]
    rw [e]
    exact ⟨⟨a.v, a.recent, rfl⟩, fun _ _ => rfl, fun _ => rfl, fun h' => absurd h' (by omega)⟩
  · obtain ⟨y, hy, e⟩ : ∃ y, (a.early (.v n) s.t = none → y = x) ∧
        s.fixV lat n x a = (a.putV n y).note s.t (.v n) (a.rawV n) 0 lat := by
      unfold State.fixV
      rw [if_neg h]
      exact ⟨_, fun he => by rw [he], rfl⟩
    rw [e]
    obtain ⟨r, hr⟩ := putV_eq a n y
    refine ⟨⟨r, _, by rw [hr]; rfl⟩, fun m hm => ?_, fun h' => absurd h' h, fun _ he => ?_⟩
    · show (a.putV n y).rawV m = _
      rw [putV_rawV, if_neg (by omega)]
    · show (a.putV n y).rawV n = _
      rw [putV_rawV, if_pos (by omega), hy he]

end Sys2Proof.Machine
end

