-- ==== Sys2Proof/Laws/Meanings.lean ====
section
/-!
SUPPORT. What the meanings of the scalar and of the vector arithmetic instructions do, said once for each shape: where an
instruction performs, its packet goes on, its destination holds the result, and nothing else of the agent changes; and
what the lanes of a written vector register are.
-/

namespace Sys2Proof.Machine

set_option Elab.async false

/-- A scalar instruction that performs writes its result to Sd and goes on. -/
theorem scalarMeaning_performs (s : State) (i : Instr) (f : Fields) (opc : Nat) (g : Fields → W64 → W64 → W64)
   (ho : opcodeOf i = some (0, opc, f)) (hc : (specOf (s.agent s.cur).kind i).commit = false)
   (h : s.performs i f [.s f.a.toNat, .s f.b.toNat] [.s f.d.toNat] [] = true) :
    ∃ t, perform i (scalarMeaning g) s = .next t ∧
      s.performed t (s.pktOf i f) [] [f.d.toNat] [] ∧ s.flagsStay t ∧
      (f.d = 0 → (t.agent s.cur).rawS 0 = 0) ∧
      (f.d ≠ 0 → (s.agent s.cur).early (.s f.d.toNat) s.t = none →
        (t.agent s.cur).rawS f.d.toNat = g f (s.readS s.cur f.a.toNat) (s.readS s.cur f.b.toNat)) := by
  have hfind := s.issues_find i f (by
    simp only [State.performs, Bool.and_eq_true] at h; exact h.1.1.1.1.1)
  rw [perform_go s i f (scalarMeaning g) 0 opc _ _ ho h rfl rfl]
  set v := g f (s.readS s.cur f.a.toNat) (s.readS s.cur f.b.toNat)
  set a1 := (s.agent s.cur).advanced (s.pktOf i f) (specOf (s.agent s.cur).kind i).commit 0 s.t with ha1
  obtain ⟨⟨r, rc, e⟩, h1, h2⟩ := fixS_law s 2 f.d.toNat v a1
  obtain ⟨t, et, k1, k2, k3, k4, k5, k6, k7, k8, k9⟩ := perform_registers s (s.pktOf i f) (specOf (s.agent s.cur).kind i)
    [] _ 0 hfind
    (onAgent_seq (onAgent_clash s.cur [.s f.d.toNat]) (onAgent_agent s.cur (s.fixS 2 f.d.toNat v)))
    (vs := []) (ss := [f.d.toNat]) (ps := [])
    ⟨a1.v, r, a1.p, a1.flags, a1.flagsDue, rc, e⟩ (fun m _ => by show (s.fixS 2 f.d.toNat v a1).rawV m = _; rw [e]; rfl)
    (fun m hm => h1 m (by simpa using hm)) (fun m _ => by show (s.fixS 2 f.d.toNat v a1).rawP m = _; rw [e]; rfl)
  refine ⟨t, congrArg _ et, ⟨k1, hc ▸ k2, ⟨?_, k5⟩, k3⟩, ?_, fun _ => rfl, fun hd he => ?_⟩
  · rw [k4]; exact clashed_same _ _ _
  · exact fun now => (k6 now).trans (by show (s.fixS 2 f.d.toNat v a1).flagsAt now = _; rw [e]; rfl)
  · exact (k7 _).trans (h2 (by simpa [BitVec.toNat_eq] using hd) he)

/-- A vector instruction that performs with one result writes it to Vd, adds its flags and goes on. -/
theorem vecMeaning_performs (s : State) (i : Instr) (mk : Fields → Instr) (f : Fields) (opc : Nat) (g : VIn → VOut) (x : VReg)
    (fl : BitVec 5) (b : Bool) (hmk : mk f = i)
   (ho : opcodeOf i = some (1, opc, f)) (hc : (specOf (s.agent s.cur).kind i).commit = false)
   (hg : g (s.vin (s.pktOf i f)) = { v := [(f.d.toNat, x)], p := [], flags := fl })
   (hb : (!(s.pktOf i f).covers || x.norm.general) = b)
   (h : s.performs i f (specReads (specOf .band i) f) [.v f.d.toNat] [(f.d.toNat, b)] = true) :
    ∃ t, perform i (vecMeaning mk (latencyOf i) g) s = .next t ∧
      s.performed t (s.pktOf i f) [f.d.toNat] [] [] ∧ s.flagsCome t i fl ∧
      (f.d.toNat < 126 → (s.agent s.cur).early (.v f.d.toNat) s.t = none →
        (t.agent s.cur).rawV f.d.toNat =
          ((s.agent s.cur).rawV f.d.toNat).merge x (s.pktOf i f).act (s.pktOf i f).covers) := by
  have hfind := s.issues_find i f (by
    simp only [State.performs, Bool.and_eq_true] at h; exact h.1.1.1.1.1)
  generalize hlat : latencyOf i = lat
  have hr : (vecMeaning mk lat g).reads s (s.pktOf i f) = specReads (specOf .band i) f := by
    simp only [vecMeaning, pktOf_f, hmk]
  have hw : (vecMeaning mk lat g).writes s (s.pktOf i f) = [.v f.d.toNat] := by
    simp only [vecMeaning, hg, VOut.regs, List.map_cons, List.map_nil, List.append_nil]
  have hd : (vecMeaning mk lat g).dests s (s.pktOf i f) = [(f.d.toNat, b)] := by
    simp only [vecMeaning, hg, VOut.dests, List.map_cons, List.map_nil, hb]
  rw [perform_go s i f (vecMeaning mk lat g) 1 opc (VOut.write (g (s.vin (s.pktOf i f))) s lat (s.pktOf i f)) 0 ho (by rw [hr, hw, hd]; exact h) rfl rfl, hd, hg]
  set p := s.pktOf i f
  have hpk : p.k = s.cur := rfl
  set a1 := (s.agent p.k).advanced p (specOf (s.agent s.cur).kind i).commit 0 s.t with ha1
  let g1 : Agent → Agent := fun a => (s.fixV lat f.d.toNat ((a.rawV f.d.toNat).merge x p.act p.covers) a).dueFlags s.t lat fl
  obtain ⟨⟨r, rc, e⟩, h1, h2, h3⟩ := fixV_law s lat f.d.toNat ((a1.rawV f.d.toNat).merge x p.act p.covers) a1
  obtain ⟨t, et, k1, k2, k3, k4, k5, k6, k7, k8, k9⟩ := perform_registers s p (specOf (s.agent s.cur).kind i)
    [f.d.toNat] (.seq (.clash p.k [.v f.d.toNat]) (.agent p.k g1)) 0 hfind
    (onAgent_seq (onAgent_clash p.k [.v f.d.toNat]) (onAgent_agent p.k g1))
    (vs := [f.d.toNat]) (ss := []) (ps := [])
    (by
      obtain ⟨fd, hfd⟩ := dueFlags_eq ({ a1 with v := r, recent := rc } : Agent) s.t lat fl
      exact ⟨r, a1.s, a1.p, a1.flags, fd, rc, (congrArg (fun a => Agent.dueFlags a s.t lat fl) e).trans hfd⟩)
    (fun m hm => (dueFlags_rawV _ s.t lat m fl).trans (h1 m (by simpa using hm)))
    (fun m _ => (dueFlags_rawS _ s.t lat m fl).trans (by show Agent.rawS (s.fixV lat f.d.toNat ((a1.rawV f.d.toNat).merge x p.act p.covers) a1) m = _; rw [e]; rfl))
    (fun m _ => (dueFlags_rawP _ s.t lat m fl).trans (by show Agent.rawP (s.fixV lat f.d.toNat ((a1.rawV f.d.toNat).merge x p.act p.covers) a1) m = _; rw [e]; rfl))
  refine ⟨t, congrArg _ et, ⟨k1, hc ▸ k2, ⟨?_, k5⟩, k3⟩, ?_, fun hd he => ?_⟩
  · rw [k4]; exact clashed_same _ _ _
  · intro now
    rw [hlat]
    exact (k6 now).trans ((dueFlags_flagsAt _ s.t lat now fl).trans
      (by
        show Agent.flagsAt (s.fixV lat f.d.toNat ((a1.rawV f.d.toNat).merge x p.act p.covers) a1) now ||| _ = _
        rw [e]; rfl))
  · exact (k9 _ (.inr (by simp))).trans ((dueFlags_rawV _ s.t lat _ fl).trans (h3 hd he))

theorem VReg.norm_lane (x : VReg) (l : Nat) : x.norm.lane l = x.lane l := by
  unfold VReg.norm; split
  · split
    · simp_all [VReg.lane]
    · rfl
  · rfl

theorem VReg.ofLanes_lane (g : Nat → W32) (l : Nat) (h : l < 32) : (VReg.ofLanes g).lane l = g l := by
  simp [VReg.ofLanes, VReg.lane, List.getD_eq_getElem?_getD, h]

theorem VReg.merge_lane (old new : VReg) (act : W32) (c : Bool) (l : Nat) (hl : l < 32) (ha : act.getLsbD l = true) :
   (old.merge new act c).lane l = new.lane l := by
  simp only [VReg.merge]
  split
  · split
    · rw [VReg.ofLanes_lane _ _ hl, if_pos ha]
    · exact VReg.norm_lane _ _
  · rw [VReg.ofLanes_lane _ _ hl, if_pos ha]

theorem perLane_norm_general (srcs : List VReg) (g : Nat → W32) : (perLane srcs g).norm.general = !srcs.all VReg.uniform := by
  unfold perLane; split <;> simp_all [VReg.norm, VReg.general, VReg.ofLanes]

theorem VReg.uniform_lane (x : VReg) (l : Nat) (h : x.uniform = true) : x.lane l = x.lane 0 := by
  cases x <;> simp_all [VReg.uniform, VReg.lane]

end Sys2Proof.Machine
end

