-- ==== Sys2Proof/Laws/PerInstr.lean ====
section
/-!
SUPPORT. What holds of every instruction as syntax: its domain and opcode fit their fields of the first word (05 R104), and
where it can be encoded, the opcode map (05 R113 to R116) gives it back from them and its fields.
-/

namespace Sys2Proof.Laws.OpcodeMap

set_option Elab.async false

/-- The domain and the opcode of an instruction fit their fields, and lead back to it where it can be encoded. -/
def Statement (i : Instr) : Prop :=
  ∀ dom opc f, opcodeOf i = some (dom, opc, f) →
    dom < 4 ∧ opc < 256 ∧ (i.encodable = true → instrAt dom opc f = some i)

/-- An instruction whose row of the map is its own. -/
theorem of_row (i : Instr) (d o : Nat) (g : Fields) (h : opcodeOf i = some (d, o, g)) (hd : d < 4) (ho : o < 256)
    (hr : i.formOk = true → instrAt d o g = some i) : Statement i := by
  intro dom opc f e
  rw [h] at e
  cases e
  refine ⟨hd, ho, fun he => hr ?_⟩
  simp only [Instr.encodable, h, Bool.and_eq_true] at he
  exact he.2

/-- An instruction that has no words. -/
theorem of_none (i : Instr) (h : opcodeOf i = none) : Statement i := by
  intro dom opc f e
  rw [h] at e
  cases e

theorem sadd (f : Fields) : Statement (.sadd f) :=
  of_row _ 0 0x00 f rfl (by decide) (by decide) (fun _ => rfl)

theorem ssub (f : Fields) : Statement (.ssub f) :=
  of_row _ 0 0x01 f rfl (by decide) (by decide) (fun _ => rfl)

theorem smul (f : Fields) : Statement (.smul f) :=
  of_row _ 0 0x02 f rfl (by decide) (by decide) (fun _ => rfl)

theorem smulhi (f : Fields) : Statement (.smulhi f) :=
  of_row _ 0 0x03 f rfl (by decide) (by decide) (fun _ => rfl)

theorem sand (f : Fields) : Statement (.sand f) :=
  of_row _ 0 0x04 f rfl (by decide) (by decide) (fun _ => rfl)

theorem sor (f : Fields) : Statement (.sor f) :=
  of_row _ 0 0x05 f rfl (by decide) (by decide) (fun _ => rfl)

theorem sxor (f : Fields) : Statement (.sxor f) :=
  of_row _ 0 0x06 f rfl (by decide) (by decide) (fun _ => rfl)

theorem sshl (f : Fields) : Statement (.sshl f) :=
  of_row _ 0 0x07 f rfl (by decide) (by decide) (fun _ => rfl)

theorem sshr (f : Fields) : Statement (.sshr f) :=
  of_row _ 0 0x08 f rfl (by decide) (by decide) (fun _ => rfl)

theorem smin (f : Fields) : Statement (.smin f) :=
  of_row _ 0 0x09 f rfl (by decide) (by decide) (fun _ => rfl)

theorem smax (f : Fields) : Statement (.smax f) :=
  of_row _ 0 0x0A f rfl (by decide) (by decide) (fun _ => rfl)

theorem scmp (f : Fields) : Statement (.scmp f) :=
  of_row _ 0 0x0B f rfl (by decide) (by decide) (fun _ => rfl)

theorem ssel (f : Fields) : Statement (.ssel f) :=
  of_row _ 0 0x0C f rfl (by decide) (by decide) (fun _ => rfl)

theorem smov (f : Fields) : Statement (.smov f) :=
  of_row _ 0 0x0D f rfl (by decide) (by decide) (fun _ => rfl)

theorem sli (f : Fields) : Statement (.sli f) :=
  of_row _ 0 0x0E f rfl (by decide) (by decide) (fun _ => rfl)

theorem sld (f : Fields) : Statement (.sld f) :=
  of_row _ 0 0x10 f rfl (by decide) (by decide) (fun _ => rfl)

theorem sst (f : Fields) : Statement (.sst f) :=
  of_row _ 0 0x11 f rfl (by decide) (by decide) (fun _ => rfl)

theorem sread (f : Fields) : Statement (.sread f) :=
  of_row _ 0 0x18 f rfl (by decide) (by decide) (by
    intro h
    simp_all [Instr.formOk, instrAt, scalarAt, Fields.mb])

theorem sreadClr (f : Fields) : Statement (.sreadClr f) :=
  of_row _ 0 0x18 f rfl (by decide) (by decide) (by
    intro h
    simp_all [Instr.formOk, instrAt, scalarAt, Fields.mb])

theorem swriteSeed (f : Fields) : Statement (.swriteSeed f) :=
  of_row _ 0 0x19 f rfl (by decide) (by decide) (by
    intro h
    simp_all [Instr.formOk, instrAt, scalarAt, swriteAt])

theorem swriteCheck (f : Fields) : Statement (.swriteCheck f) :=
  of_row _ 0 0x19 f rfl (by decide) (by decide) (by
    intro h
    simp_all [Instr.formOk, instrAt, scalarAt, swriteAt])

theorem swriteDet (f : Fields) : Statement (.swriteDet f) :=
  of_row _ 0 0x19 f rfl (by decide) (by decide) (by
    intro h
    simp_all [Instr.formOk, instrAt, scalarAt, swriteAt])

theorem swriteMonitor (f : Fields) : Statement (.swriteMonitor f) :=
  of_row _ 0 0x19 f rfl (by decide) (by decide) (by
    intro h
    simp_all [Instr.formOk, instrAt, scalarAt, swriteAt])

theorem swritePrivcx (f : Fields) : Statement (.swritePrivcx f) :=
  of_row _ 0 0x19 f rfl (by decide) (by decide) (by
    intro h
    simp_all [Instr.formOk, instrAt, scalarAt, swriteAt])

theorem swriteMqprio (f : Fields) : Statement (.swriteMqprio f) :=
  of_row _ 0 0x19 f rfl (by decide) (by decide) (by
    intro h
    simp_all [Instr.formOk, instrAt, scalarAt, swriteAt])

theorem swriteTilelo (f : Fields) : Statement (.swriteTilelo f) :=
  of_row _ 0 0x19 f rfl (by decide) (by decide) (by
    intro h
    simp_all [Instr.formOk, instrAt, scalarAt, swriteAt])

theorem swriteTilehi (f : Fields) : Statement (.swriteTilehi f) :=
  of_row _ 0 0x19 f rfl (by decide) (by decide) (by
    intro h
    simp_all [Instr.formOk, instrAt, scalarAt, swriteAt])

theorem swriteFenced (f : Fields) : Statement (.swriteFenced f) :=
  of_row _ 0 0x19 f rfl (by decide) (by decide) (by
    intro h
    simp_all [Instr.formOk, instrAt, scalarAt, swriteAt])

theorem swriteFreply (f : Fields) : Statement (.swriteFreply f) :=
  of_row _ 0 0x19 f rfl (by decide) (by decide) (by
    intro h
    simp_all [Instr.formOk, instrAt, scalarAt, swriteAt])

theorem swriteIndir (f : Fields) : Statement (.swriteIndir f) :=
  of_row _ 0 0x19 f rfl (by decide) (by decide) (by
    intro h
    simp_all [Instr.formOk, instrAt, scalarAt, swriteAt])

theorem swritePewter (f : Fields) : Statement (.swritePewter f) :=
  of_row _ 0 0x19 f rfl (by decide) (by decide) (by
    intro h
    simp_all [Instr.formOk, instrAt, scalarAt, swriteAt])

theorem swriteRoute (f : Fields) : Statement (.swriteRoute f) :=
  of_row _ 0 0x19 f rfl (by decide) (by decide) (by
    intro h
    simp_all [Instr.formOk, instrAt, scalarAt, swriteAt])

theorem swriteNode (f : Fields) : Statement (.swriteNode f) :=
  of_row _ 0 0x19 f rfl (by decide) (by decide) (by
    intro h
    simp_all [Instr.formOk, instrAt, scalarAt, swriteAt])

theorem swriteHbeat (f : Fields) : Statement (.swriteHbeat f) :=
  of_row _ 0 0x19 f rfl (by decide) (by decide) (by
    intro h
    simp only [Instr.formOk, decide_eq_true_eq] at h
    show some (swriteAt f.d.toNat f) = _
    unfold swriteAt
    split <;> first | rfl | omega)

theorem vadd (f : Fields) : Statement (.vadd f) :=
  of_row _ 1 0x00 f rfl (by decide) (by decide) (fun _ => rfl)

theorem vsub (f : Fields) : Statement (.vsub f) :=
  of_row _ 1 0x01 f rfl (by decide) (by decide) (fun _ => rfl)

theorem vmul (f : Fields) : Statement (.vmul f) :=
  of_row _ 1 0x02 f rfl (by decide) (by decide) (fun _ => rfl)

theorem vmulhi (f : Fields) : Statement (.vmulhi f) :=
  of_row _ 1 0x03 f rfl (by decide) (by decide) (fun _ => rfl)

theorem vmad (f : Fields) : Statement (.vmad f) :=
  of_row _ 1 0x04 f rfl (by decide) (by decide) (fun _ => rfl)

theorem vand (f : Fields) : Statement (.vand f) :=
  of_row _ 1 0x05 f rfl (by decide) (by decide) (fun _ => rfl)

theorem vor (f : Fields) : Statement (.vor f) :=
  of_row _ 1 0x06 f rfl (by decide) (by decide) (fun _ => rfl)

theorem vxor (f : Fields) : Statement (.vxor f) :=
  of_row _ 1 0x07 f rfl (by decide) (by decide) (fun _ => rfl)

theorem vshl (f : Fields) : Statement (.vshl f) :=
  of_row _ 1 0x08 f rfl (by decide) (by decide) (fun _ => rfl)

theorem vshr (f : Fields) : Statement (.vshr f) :=
  of_row _ 1 0x09 f rfl (by decide) (by decide) (fun _ => rfl)

theorem vmin (f : Fields) : Statement (.vmin f) :=
  of_row _ 1 0x0A f rfl (by decide) (by decide) (fun _ => rfl)

theorem vmax (f : Fields) : Statement (.vmax f) :=
  of_row _ 1 0x0B f rfl (by decide) (by decide) (fun _ => rfl)

theorem vabs (f : Fields) : Statement (.vabs f) :=
  of_row _ 1 0x0C f rfl (by decide) (by decide) (fun _ => rfl)

theorem vclz (f : Fields) : Statement (.vclz f) :=
  of_row _ 1 0x0D f rfl (by decide) (by decide) (fun _ => rfl)

theorem vpopc (f : Fields) : Statement (.vpopc f) :=
  of_row _ 1 0x0E f rfl (by decide) (by decide) (fun _ => rfl)

theorem vcmp (f : Fields) : Statement (.vcmp f) :=
  of_row _ 1 0x0F f rfl (by decide) (by decide) (fun _ => rfl)

theorem vsel (f : Fields) : Statement (.vsel f) :=
  of_row _ 1 0x10 f rfl (by decide) (by decide) (fun _ => rfl)

theorem vmov (f : Fields) : Statement (.vmov f) :=
  of_row _ 1 0x11 f rfl (by decide) (by decide) (fun _ => rfl)

theorem vaff (f : Fields) : Statement (.vaff f) :=
  of_row _ 1 0x12 f rfl (by decide) (by decide) (fun _ => rfl)

theorem vshfl (f : Fields) : Statement (.vshfl f) :=
  of_row _ 1 0x13 f rfl (by decide) (by decide) (fun _ => rfl)

theorem vreduce (f : Fields) : Statement (.vreduce f) :=
  of_row _ 1 0x14 f rfl (by decide) (by decide) (fun _ => rfl)

theorem vballot (f : Fields) : Statement (.vballot f) :=
  of_row _ 1 0x15 f rfl (by decide) (by decide) (fun _ => rfl)

theorem vscan (f : Fields) : Statement (.vscan f) :=
  of_row _ 1 0x16 f rfl (by decide) (by decide) (fun _ => rfl)

theorem fadd (f : Fields) : Statement (.fadd f) :=
  of_row _ 1 0x40 f rfl (by decide) (by decide) (fun _ => rfl)

theorem fsub (f : Fields) : Statement (.fsub f) :=
  of_row _ 1 0x41 f rfl (by decide) (by decide) (fun _ => rfl)

theorem fmul (f : Fields) : Statement (.fmul f) :=
  of_row _ 1 0x42 f rfl (by decide) (by decide) (fun _ => rfl)

theorem ffma (f : Fields) : Statement (.ffma f) :=
  of_row _ 1 0x43 f rfl (by decide) (by decide) (fun _ => rfl)

theorem fmin (f : Fields) : Statement (.fmin f) :=
  of_row _ 1 0x44 f rfl (by decide) (by decide) (fun _ => rfl)

theorem fmax (f : Fields) : Statement (.fmax f) :=
  of_row _ 1 0x45 f rfl (by decide) (by decide) (fun _ => rfl)

theorem fcmp (f : Fields) : Statement (.fcmp f) :=
  of_row _ 1 0x46 f rfl (by decide) (by decide) (fun _ => rfl)

theorem fclass (f : Fields) : Statement (.fclass f) :=
  of_row _ 1 0x47 f rfl (by decide) (by decide) (fun _ => rfl)

theorem fcvt (f : Fields) : Statement (.fcvt f) :=
  of_row _ 1 0x48 f rfl (by decide) (by decide) (fun _ => rfl)

theorem frnd (f : Fields) : Statement (.frnd f) :=
  of_row _ 1 0x49 f rfl (by decide) (by decide) (fun _ => rfl)

theorem fkey (f : Fields) : Statement (.fkey f) :=
  of_row _ 1 0x4A f rfl (by decide) (by decide) (fun _ => rfl)

theorem frcp (f : Fields) : Statement (.frcp f) :=
  of_row _ 1 0x50 f rfl (by decide) (by decide) (fun _ => rfl)

theorem frsq (f : Fields) : Statement (.frsq f) :=
  of_row _ 1 0x51 f rfl (by decide) (by decide) (fun _ => rfl)

theorem fsqrt (f : Fields) : Statement (.fsqrt f) :=
  of_row _ 1 0x52 f rfl (by decide) (by decide) (fun _ => rfl)

theorem fdiv (f : Fields) : Statement (.fdiv f) :=
  of_row _ 1 0x53 f rfl (by decide) (by decide) (fun _ => rfl)

theorem fexp2 (f : Fields) : Statement (.fexp2 f) :=
  of_row _ 1 0x54 f rfl (by decide) (by decide) (fun _ => rfl)

theorem flog2 (f : Fields) : Statement (.flog2 f) :=
  of_row _ 1 0x55 f rfl (by decide) (by decide) (fun _ => rfl)

theorem fsin (f : Fields) : Statement (.fsin f) :=
  of_row _ 1 0x56 f rfl (by decide) (by decide) (fun _ => rfl)

theorem fcos (f : Fields) : Statement (.fcos f) :=
  of_row _ 1 0x57 f rfl (by decide) (by decide) (fun _ => rfl)

theorem dxenc (f : Fields) : Statement (.dxenc f) :=
  of_row _ 1 0x60 f rfl (by decide) (by decide) (fun _ => rfl)

theorem dxdec (f : Fields) : Statement (.dxdec f) :=
  of_row _ 1 0x61 f rfl (by decide) (by decide) (fun _ => rfl)

theorem ld (f : Fields) : Statement (.ld f) :=
  of_row _ 2 0x00 f rfl (by decide) (by decide) (fun _ => rfl)

theorem st (f : Fields) : Statement (.st f) :=
  of_row _ 2 0x01 f rfl (by decide) (by decide) (fun _ => rfl)

theorem lds (f : Fields) : Statement (.lds f) :=
  of_row _ 2 0x02 f rfl (by decide) (by decide) (by
    intro h
    simp_all [Instr.formOk, instrAt, memoryAt, Fields.mb])

theorem ldsT (f : Fields) : Statement (.ldsT f) :=
  of_row _ 2 0x02 f rfl (by decide) (by decide) (by
    intro h
    simp_all [Instr.formOk, instrAt, memoryAt, Fields.mb])

theorem sts (f : Fields) : Statement (.sts f) :=
  of_row _ 2 0x03 f rfl (by decide) (by decide) (by
    intro h
    simp_all [Instr.formOk, instrAt, memoryAt, Fields.mb])

theorem stsT (f : Fields) : Statement (.stsT f) :=
  of_row _ 2 0x03 f rfl (by decide) (by decide) (by
    intro h
    simp_all [Instr.formOk, instrAt, memoryAt, Fields.mb])

theorem ldrc (f : Fields) : Statement (.ldrc f) :=
  of_row _ 2 0x04 f rfl (by decide) (by decide) (fun _ => rfl)

theorem atom (f : Fields) : Statement (.atom f) :=
  of_row _ 2 0x05 f rfl (by decide) (by decide) (fun _ => rfl)

theorem atoms (f : Fields) : Statement (.atoms f) :=
  of_row _ 2 0x06 f rfl (by decide) (by decide) (fun _ => rfl)

theorem pref (f : Fields) : Statement (.pref f) :=
  of_row _ 2 0x07 f rfl (by decide) (by decide) (fun _ => rfl)

theorem rtbox (f : Fields) : Statement (.rtbox f) :=
  of_row _ 2 0x40 f rfl (by decide) (by decide) (fun _ => rfl)

theorem rttri (f : Fields) : Statement (.rttri f) :=
  of_row _ 2 0x41 f rfl (by decide) (by decide) (fun _ => rfl)

theorem rtstep (f : Fields) : Statement (.rtstep f) :=
  of_row _ 2 0x42 f rfl (by decide) (by decide) (fun _ => rfl)

theorem rthit (f : Fields) : Statement (.rthit f) :=
  of_row _ 2 0x43 f rfl (by decide) (by decide) (fun _ => rfl)

theorem ltwalk (f : Fields) : Statement (.ltwalk f) :=
  of_row _ 2 0x44 f rfl (by decide) (by decide) (fun _ => rfl)

theorem rsvld (f : Fields) : Statement (.rsvld f) :=
  of_row _ 2 0x50 f rfl (by decide) (by decide) (fun _ => rfl)

theorem rsvst (f : Fields) : Statement (.rsvst f) :=
  of_row _ 2 0x51 f rfl (by decide) (by decide) (fun _ => rfl)

theorem rsvupd (f : Fields) : Statement (.rsvupd f) :=
  of_row _ 2 0x52 f rfl (by decide) (by decide) (fun _ => rfl)

theorem rsvmrg (f : Fields) : Statement (.rsvmrg f) :=
  of_row _ 2 0x53 f rfl (by decide) (by decide) (fun _ => rfl)

theorem rsvnrm (f : Fields) : Statement (.rsvnrm f) :=
  of_row _ 2 0x54 f rfl (by decide) (by decide) (fun _ => rfl)

theorem rng (f : Fields) : Statement (.rng f) :=
  of_row _ 2 0x55 f rfl (by decide) (by decide) (by
    intro h
    simp_all [Instr.formOk, instrAt, memoryAt, Fields.mb])

theorem rngU (f : Fields) : Statement (.rngU f) :=
  of_row _ 2 0x55 f rfl (by decide) (by decide) (by
    intro h
    simp_all [Instr.formOk, instrAt, memoryAt, Fields.mb])

theorem bra (f : Fields) : Statement (.bra f) :=
  of_row _ 3 0x00 f rfl (by decide) (by decide) (fun _ => rfl)

theorem brc (f : Fields) : Statement (.brc f) :=
  of_row _ 3 0x01 f rfl (by decide) (by decide) (fun _ => rfl)

theorem call (f : Fields) : Statement (.call f) :=
  of_row _ 3 0x02 f rfl (by decide) (by decide) (fun _ => rfl)

theorem callt (f : Fields) : Statement (.callt f) :=
  of_row _ 3 0x03 f rfl (by decide) (by decide) (fun _ => rfl)

theorem ret (f : Fields) : Statement (.ret f) :=
  of_row _ 3 0x04 f rfl (by decide) (by decide) (fun _ => rfl)

theorem bjoin (f : Fields) : Statement (.bjoin f) :=
  of_row _ 3 0x05 f rfl (by decide) (by decide) (by
    intro h
    simp_all [Instr.formOk, instrAt, Sys2Proof.controlAt, Fields.mb])

theorem bjoinAll (f : Fields) : Statement (.bjoinAll f) :=
  of_row _ 3 0x05 f rfl (by decide) (by decide) (by
    intro h
    simp_all [Instr.formOk, instrAt, Sys2Proof.controlAt, Fields.mb])

theorem exit (f : Fields) : Statement (.exit f) :=
  of_row _ 3 0x06 f rfl (by decide) (by decide) (fun _ => rfl)

theorem yield (f : Fields) : Statement (.yield f) :=
  of_row _ 3 0x07 f rfl (by decide) (by decide) (fun _ => rfl)

theorem nop (f : Fields) : Statement (.nop f) :=
  of_row _ 3 0x08 f rfl (by decide) (by decide) (fun _ => rfl)

theorem trap (f : Fields) : Statement (.trap f) :=
  of_row _ 3 0x09 f rfl (by decide) (by decide) (fun _ => rfl)

theorem eret (f : Fields) : Statement (.eret f) :=
  of_row _ 3 0x0A f rfl (by decide) (by decide) (by
    intro h
    simp_all [Instr.formOk, instrAt, Sys2Proof.controlAt, Fields.mb])

theorem eretNext (f : Fields) : Statement (.eretNext f) :=
  of_row _ 3 0x0A f rfl (by decide) (by decide) (by
    intro h
    simp_all [Instr.formOk, instrAt, Sys2Proof.controlAt, Fields.mb])

theorem bar (f : Fields) : Statement (.bar f) :=
  of_row _ 3 0x20 f rfl (by decide) (by decide) (fun _ => rfl)

theorem gbar (f : Fields) : Statement (.gbar f) :=
  of_row _ 3 0x21 f rfl (by decide) (by decide) (fun _ => rfl)

theorem fenceCrew (f : Fields) : Statement (.fenceCrew f) :=
  of_row _ 3 0x22 f rfl (by decide) (by decide) (by
    intro h
    simp_all [Instr.formOk, instrAt, Sys2Proof.controlAt, fenceAt])

theorem fenceDev (f : Fields) : Statement (.fenceDev f) :=
  of_row _ 3 0x22 f rfl (by decide) (by decide) (by
    intro h
    simp_all [Instr.formOk, instrAt, Sys2Proof.controlAt, fenceAt])

theorem fenceSys (f : Fields) : Statement (.fenceSys f) :=
  of_row _ 3 0x22 f rfl (by decide) (by decide) (by
    intro h
    simp only [Instr.formOk, Bool.or_eq_true, beq_iff_eq] at h
    show some (fenceAt f) = _
    rcases h with h | h <;> simp [fenceAt, h])

theorem cwait (f : Fields) : Statement (.cwait f) :=
  of_row _ 3 0x23 f rfl (by decide) (by decide) (by
    intro h
    simp_all [Instr.formOk, instrAt, Sys2Proof.controlAt, Fields.mb])

theorem cwaitPoll (f : Fields) : Statement (.cwaitPoll f) :=
  of_row _ 3 0x23 f rfl (by decide) (by decide) (by
    intro h
    simp_all [Instr.formOk, instrAt, Sys2Proof.controlAt, Fields.mb])

theorem spawn (f : Fields) : Statement (.spawn f) :=
  of_row _ 3 0x30 f rfl (by decide) (by decide) (fun _ => rfl)

theorem taskget (f : Fields) : Statement (.taskget f) :=
  of_row _ 3 0x31 f rfl (by decide) (by decide) (fun _ => rfl)

theorem taskend (f : Fields) : Statement (.taskend f) :=
  of_row _ 3 0x32 f rfl (by decide) (by decide) (fun _ => rfl)

theorem scope (f : Fields) : Statement (.scope f) :=
  of_row _ 3 0x33 f rfl (by decide) (by decide) (fun _ => rfl)

theorem sclose (f : Fields) : Statement (.sclose f) :=
  of_row _ 3 0x34 f rfl (by decide) (by decide) (fun _ => rfl)

theorem cancel (f : Fields) : Statement (.cancel f) :=
  of_row _ 3 0x35 f rfl (by decide) (by decide) (fun _ => rfl)

theorem scwait (f : Fields) : Statement (.scwait f) :=
  of_row _ 3 0x36 f rfl (by decide) (by decide) (fun _ => rfl)

theorem qpush (f : Fields) : Statement (.qpush f) :=
  of_row _ 3 0x37 f rfl (by decide) (by decide) (fun _ => rfl)

theorem tmarkReady (f : Fields) : Statement (.tmarkReady f) :=
  of_row _ 3 0x40 f rfl (by decide) (by decide) (by
    intro h
    simp_all [Instr.formOk, instrAt, Sys2Proof.controlAt, Fields.mb])

theorem tmarkEmpty (f : Fields) : Statement (.tmarkEmpty f) :=
  of_row _ 3 0x40 f rfl (by decide) (by decide) (by
    intro h
    simp_all [Instr.formOk, instrAt, Sys2Proof.controlAt, Fields.mb])

theorem tstat (f : Fields) : Statement (.tstat f) :=
  of_row _ 3 0x41 f rfl (by decide) (by decide) (fun _ => rfl)

theorem copy (f : Fields) : Statement (.copy f) :=
  of_row _ 3 0x80 f rfl (by decide) (by decide) (fun _ => rfl)

theorem ccopy (f : Fields) : Statement (.ccopy f) :=
  of_row _ 3 0x81 f rfl (by decide) (by decide) (fun _ => rfl)

theorem halo (f : Fields) : Statement (.halo f) :=
  of_row _ 3 0x82 f rfl (by decide) (by decide) (fun _ => rfl)

theorem mwload (f : Fields) : Statement (.mwload f) :=
  of_row _ 3 0x83 f rfl (by decide) (by decide) (fun _ => rfl)

theorem mmul (f : Fields) : Statement (.mmul f) :=
  of_row _ 3 0x84 f rfl (by decide) (by decide) (fun _ => rfl)

theorem mdrain (f : Fields) : Statement (.mdrain f) :=
  of_row _ 3 0x85 f rfl (by decide) (by decide) (fun _ => rfl)

theorem mzero (f : Fields) : Statement (.mzero f) :=
  of_row _ 3 0x86 f rfl (by decide) (by decide) (by
    intro h
    simp_all [Instr.formOk, instrAt, Sys2Proof.controlAt, Fields.mb])

theorem mzeroAuto (f : Fields) : Statement (.mzeroAuto f) :=
  of_row _ 3 0x86 f rfl (by decide) (by decide) (by
    intro h
    simp_all [Instr.formOk, instrAt, Sys2Proof.controlAt, Fields.mb])

theorem resample (f : Fields) : Statement (.resample f) :=
  of_row _ 3 0x87 f rfl (by decide) (by decide) (fun _ => rfl)

theorem carve (f : Fields) : Statement (.carve f) :=
  of_row _ 3 0x88 f rfl (by decide) (by decide) (fun _ => rfl)

theorem carveComplete (core : Nat) : Statement (.carveComplete core) := of_none _ rfl

theorem tokenRelease (agent token : Nat) : Statement (.tokenRelease agent token) := of_none _ rfl

theorem stallElapsed (agent : Nat) : Statement (.stallElapsed agent) := of_none _ rfl

theorem runEnd (agent : Nat) : Statement (.runEnd agent) := of_none _ rfl

theorem bandPriorityAgeing (agent : Nat) : Statement (.bandPriorityAgeing agent) := of_none _ rfl

theorem loadReply (req : Nat) : Statement (.loadReply req) := of_none _ rfl

theorem sliceFetch (req : Nat) : Statement (.sliceFetch req) := of_none _ rfl

theorem sliceStoreArrival (req : Nat) : Statement (.sliceStoreArrival req) := of_none _ rfl

theorem storeVisible (req : Nat) : Statement (.storeVisible req) := of_none _ rfl

theorem leaseEnd (core line : Nat) : Statement (.leaseEnd core line) := of_none _ rfl

theorem l2BankService (bank : Nat) : Statement (.l2BankService bank) := of_none _ rfl

theorem remoteReply (req : Nat) (nack : Bool) (data : List Byte) : Statement (.remoteReply req nack data) := of_none _ rfl

theorem remoteTimeout (req : Nat) : Statement (.remoteTimeout req) := of_none _ rfl

theorem remoteRequest (node : Nat) (r : PeerRequest) : Statement (.remoteRequest node r) := of_none _ rfl

theorem hostCompletion (req : Nat) (ok : Bool) (data : List Byte) : Statement (.hostCompletion req ok data) := of_none _ rfl

theorem hostCompletionTimeout (req : Nat) : Statement (.hostCompletionTimeout req) := of_none _ rfl

theorem hostBar2Access (write : Bool) (offset len : Nat) (data : List Byte) : Statement (.hostBar2Access write offset len data) := of_none _ rfl

theorem hostBar4Access (write : Bool) (offset len : Nat) (data : List Byte) : Statement (.hostBar4Access write offset len data) := of_none _ rfl

theorem taskDelivery (crew : Nat) : Statement (.taskDelivery crew) := of_none _ rfl

theorem crewAdmission (launch core : Nat) : Statement (.crewAdmission launch core) := of_none _ rfl

theorem launchAgeing (launch : Nat) : Statement (.launchAgeing launch) := of_none _ rfl

theorem launchSplit (launch : Nat) : Statement (.launchSplit launch) := of_none _ rfl

theorem gbarRelease (launch : Nat) : Statement (.gbarRelease launch) := of_none _ rfl

theorem cancelBroadcastArrival (target scope : Nat) : Statement (.cancelBroadcastArrival target scope) := of_none _ rfl

theorem crewLanding (agent : Nat) : Statement (.crewLanding agent) := of_none _ rfl

theorem ackRecordWrite (scope : Nat) : Statement (.ackRecordWrite scope) := of_none _ rfl

theorem peerCancelMessage (node : Nat) (handle : W64) : Statement (.peerCancelMessage node handle) := of_none _ rfl

theorem peerAcknowledgement (scope node : Nat) : Statement (.peerAcknowledgement scope node) := of_none _ rfl

theorem peerAckTimeout (scope node : Nat) : Statement (.peerAckTimeout scope node) := of_none _ rfl

theorem copySegment (core cx : Nat) : Statement (.copySegment core cx) := of_none _ rfl

theorem copyComplete (core cx : Nat) : Statement (.copyComplete core cx) := of_none _ rfl

theorem ccopyCommit (core cx : Nat) : Statement (.ccopyCommit core cx) := of_none _ rfl

theorem mwloadLatch (core : Nat) : Statement (.mwloadLatch core) := of_none _ rfl

theorem mzeroExecute (core : Nat) : Statement (.mzeroExecute core) := of_none _ rfl

theorem mmulKStep (core : Nat) : Statement (.mmulKStep core) := of_none _ rfl

theorem mdrainComplete (core : Nat) : Statement (.mdrainComplete core) := of_none _ rfl

theorem matrixPriorityAgeing (core cx : Nat) : Statement (.matrixPriorityAgeing core cx) := of_none _ rfl

theorem governorGrant (core : Nat) : Statement (.governorGrant core) := of_none _ rfl

theorem resampleStart (core cx : Nat) : Statement (.resampleStart core cx) := of_none _ rfl

theorem resamplePixel (core cx : Nat) : Statement (.resamplePixel core cx) := of_none _ rfl

theorem resampleComplete (core cx : Nat) : Statement (.resampleComplete core cx) := of_none _ rfl

theorem preemption (crew : Nat) (area : Nat) : Statement (.preemption crew area) := of_none _ rfl

theorem restore (crew : Nat) (target : Nat) : Statement (.restore crew target) := of_none _ rfl

theorem contextSwitch (ctx : Nat) (area : Nat) : Statement (.contextSwitch ctx area) := of_none _ rfl

theorem accumulatorReclaim (crew : Nat) (area : Nat) : Statement (.accumulatorReclaim crew area) := of_none _ rfl

theorem qtailWrite (slot : Nat) (value : W64) : Statement (.qtailWrite slot value) := of_none _ rfl

theorem qctlWrite (slot : Nat) (value : W64) : Statement (.qctlWrite slot value) := of_none _ rfl

theorem packetRead (slot : Nat) : Statement (.packetRead slot) := of_none _ rfl

theorem queueAgeing (slot : Nat) : Statement (.queueAgeing slot) := of_none _ rfl

theorem pad (slot : Nat) : Statement (.pad slot) := of_none _ rfl

theorem launch (slot : Nat) : Statement (.launch slot) := of_none _ rfl

theorem tasks (slot : Nat) : Statement (.tasks slot) := of_none _ rfl

theorem signalWrite (slot : Nat) : Statement (.signalWrite slot) := of_none _ rfl

theorem signalDec (slot : Nat) : Statement (.signalDec slot) := of_none _ rfl

theorem signalArm (slot : Nat) : Statement (.signalArm slot) := of_none _ rfl

theorem signalInc (slot : Nat) : Statement (.signalInc slot) := of_none _ rfl

theorem waitCounterZero (slot : Nat) : Statement (.waitCounterZero slot) := of_none _ rfl

theorem waitWordGe (slot : Nat) : Statement (.waitWordGe slot) := of_none _ rfl

theorem waitWordEq (slot : Nat) : Statement (.waitWordEq slot) := of_none _ rfl

theorem waitCheck (slot : Nat) : Statement (.waitCheck slot) := of_none _ rfl

theorem cancelPacket (slot : Nat) : Statement (.cancelPacket slot) := of_none _ rfl

theorem fencePacketDev (slot : Nat) : Statement (.fencePacketDev slot) := of_none _ rfl

theorem fencePacketSys (slot : Nat) : Statement (.fencePacketSys slot) := of_none _ rfl

theorem scopeCreate (slot : Nat) : Statement (.scopeCreate slot) := of_none _ rfl

theorem scopeSeal (slot : Nat) : Statement (.scopeSeal slot) := of_none _ rfl

theorem scopeCloseJob (slot : Nat) : Statement (.scopeCloseJob slot) := of_none _ rfl

theorem attest (slot : Nat) : Statement (.attest slot) := of_none _ rfl

theorem slewlimWrite (die : Nat) (value : W64) : Statement (.slewlimWrite die value) := of_none _ rfl

theorem telemetryRecord (die : Nat) : Statement (.telemetryRecord die) := of_none _ rfl

theorem currentSample (die : Nat) : Statement (.currentSample die) := of_none _ rfl

theorem monitorInterval (core : Nat) : Statement (.monitorInterval core) := of_none _ rfl

theorem eccRetry (site : Nat) (place : Nat) (ok : Bool) : Statement (.eccRetry site place ok) := of_none _ rfl

theorem dieLinkLaneFailure (link : Nat) : Statement (.dieLinkLaneFailure link) := of_none _ rfl

theorem tropexPortFailure (port : Nat) : Statement (.tropexPortFailure port) := of_none _ rfl

theorem powerOn : Statement .powerOn := of_none _ rfl

theorem fwcmdStage (die part : Nat) : Statement (.fwcmdStage die part) := of_none _ rfl

theorem stageEnd (die part : Nat) (image : List Byte) : Statement (.stageEnd die part image) := of_none _ rfl

theorem fwcmdReplace (die part : Nat) : Statement (.fwcmdReplace die part) := of_none _ rfl

theorem fwcmdDiscard (die part : Nat) : Statement (.fwcmdDiscard die part) := of_none _ rfl

theorem quiesceTimeout (die part : Nat) : Statement (.quiesceTimeout die part) := of_none _ rfl

theorem fwExport (die part : Nat) : Statement (.fwExport die part) := of_none _ rfl

theorem fallback (die part : Nat) : Statement (.fallback die part) := of_none _ rfl

theorem mailboxRequest (die part : Nat) (entry : W64) : Statement (.mailboxRequest die part entry) := of_none _ rfl

theorem leaseRenewal : Statement .leaseRenewal := of_none _ rfl

theorem leaderLeaseExpiry : Statement .leaderLeaseExpiry := of_none _ rfl

theorem leaderTakeover : Statement .leaderTakeover := of_none _ rfl

theorem handoff : Statement .handoff := of_none _ rfl

theorem registerWrite (fn : Nat) (offset : Nat) (value : W64) : Statement (.registerWrite fn offset value) := of_none _ rfl

theorem unassignedEncoding (w : W64) : Statement (.unassignedEncoding w) := of_none _ rfl

theorem variableLatencyResult (op : Nat) : Statement (.variableLatencyResult op) := of_none _ rfl

theorem coreReset (core : Nat) : Statement (.coreReset core) := of_none _ rfl

theorem powerOff : Statement .powerOff := of_none _ rfl

theorem tlbInvalidation (tag page : Nat) : Statement (.tlbInvalidation tag page) := of_none _ rfl

theorem monitorClear (unit : Nat) : Statement (.monitorClear unit) := of_none _ rfl

end Sys2Proof.Laws.OpcodeMap
end

