-- ==== Sys2Proof/Laws/State.lean ====
section
/-!
SUPPORT. What each named update leaves, field by field: each theorem says of one update that every other field of the
state stands, and each of its parts is a rewrite rule of its own, so that no later proof unfolds a record update.
-/

namespace Sys2Proof.Machine

set_option Elab.async false

/-- Storing bytes changes memory alone. -/
@[simp] theorem Prog.run_bytes_rest (s : State) (a : Nat) (bs : List Byte) :
    ((Prog.bytes a bs).run s).t = s.t ∧ ((Prog.bytes a bs).run s).powered = s.powered ∧
    ((Prog.bytes a bs).run s).poison = s.poison ∧ ((Prog.bytes a bs).run s).agents = s.agents ∧
    ((Prog.bytes a bs).run s).crews = s.crews ∧ ((Prog.bytes a bs).run s).cores = s.cores ∧
    ((Prog.bytes a bs).run s).scopes = s.scopes ∧ ((Prog.bytes a bs).run s).launches = s.launches ∧
    ((Prog.bytes a bs).run s).counters = s.counters ∧ ((Prog.bytes a bs).run s).decs = s.decs ∧
    ((Prog.bytes a bs).run s).slots = s.slots ∧ ((Prog.bytes a bs).run s).queues = s.queues ∧
    ((Prog.bytes a bs).run s).queueCtx = s.queueCtx ∧ ((Prog.bytes a bs).run s).opens = s.opens ∧
    ((Prog.bytes a bs).run s).frontLast = s.frontLast ∧ ((Prog.bytes a bs).run s).ops = s.ops ∧
    ((Prog.bytes a bs).run s).reqs = s.reqs ∧ ((Prog.bytes a bs).run s).lines = s.lines ∧
    ((Prog.bytes a bs).run s).casts = s.casts ∧ ((Prog.bytes a bs).run s).faults = s.faults ∧
    ((Prog.bytes a bs).run s).faultSerial = s.faultSerial ∧ ((Prog.bytes a bs).run s).ctxs = s.ctxs ∧
    ((Prog.bytes a bs).run s).evqs = s.evqs ∧ ((Prog.bytes a bs).run s).indir = s.indir ∧
    ((Prog.bytes a bs).run s).pieces = s.pieces ∧ ((Prog.bytes a bs).run s).pewter = s.pewter ∧
    ((Prog.bytes a bs).run s).node = s.node ∧ ((Prog.bytes a bs).run s).routes = s.routes ∧
    ((Prog.bytes a bs).run s).portsDown = s.portsDown ∧ ((Prog.bytes a bs).run s).links = s.links ∧
    ((Prog.bytes a bs).run s).power = s.power ∧ ((Prog.bytes a bs).run s).parts = s.parts ∧
    ((Prog.bytes a bs).run s).mailOut = s.mailOut ∧ ((Prog.bytes a bs).run s).fws = s.fws ∧
    ((Prog.bytes a bs).run s).msi = s.msi ∧ ((Prog.bytes a bs).run s).errors = s.errors ∧
    ((Prog.bytes a bs).run s).correctable = s.correctable ∧ ((Prog.bytes a bs).run s).dieMonitors = s.dieMonitors ∧
    ((Prog.bytes a bs).run s).heldPeers = s.heldPeers ∧ ((Prog.bytes a bs).run s).peerAcks = s.peerAcks ∧
    ((Prog.bytes a bs).run s).peerOut = s.peerOut ∧ ((Prog.bytes a bs).run s).hostOut = s.hostOut ∧
    ((Prog.bytes a bs).run s).nacks = s.nacks ∧ ((Prog.bytes a bs).run s).peerMsgs = s.peerMsgs ∧
    ((Prog.bytes a bs).run s).bar2 = s.bar2 ∧ ((Prog.bytes a bs).run s).vfs = s.vfs ∧
    ((Prog.bytes a bs).run s).cancelSerial = s.cancelSerial ∧ ((Prog.bytes a bs).run s).cancelLast = s.cancelLast ∧
    ((Prog.bytes a bs).run s).jobCancels = s.jobCancels ∧ ((Prog.bytes a bs).run s).nextId = s.nextId ∧
    ((Prog.bytes a bs).run s).agenda = s.agenda ∧ ((Prog.bytes a bs).run s).cur = s.cur ∧
    ((Prog.bytes a bs).run s).curPc = s.curPc ∧ ((Prog.bytes a bs).run s).freeCtr = s.freeCtr := by
  repeat first | exact rfl | refine ⟨rfl, ?_⟩

/-- The passing of time changes the time alone. -/
@[simp] theorem Prog.run_pass_rest (s : State) (n : Nat) :
    (applyEff s (.pass n)).powered = s.powered ∧ (applyEff s (.pass n)).mem = s.mem ∧
    (applyEff s (.pass n)).poison = s.poison ∧ (applyEff s (.pass n)).agents = s.agents ∧
    (applyEff s (.pass n)).crews = s.crews ∧ (applyEff s (.pass n)).cores = s.cores ∧
    (applyEff s (.pass n)).scopes = s.scopes ∧ (applyEff s (.pass n)).launches = s.launches ∧
    (applyEff s (.pass n)).counters = s.counters ∧ (applyEff s (.pass n)).decs = s.decs ∧
    (applyEff s (.pass n)).slots = s.slots ∧ (applyEff s (.pass n)).queues = s.queues ∧
    (applyEff s (.pass n)).queueCtx = s.queueCtx ∧ (applyEff s (.pass n)).opens = s.opens ∧
    (applyEff s (.pass n)).frontLast = s.frontLast ∧ (applyEff s (.pass n)).ops = s.ops ∧
    (applyEff s (.pass n)).reqs = s.reqs ∧ (applyEff s (.pass n)).lines = s.lines ∧ (applyEff s (.pass n)).casts = s.casts ∧
    (applyEff s (.pass n)).faults = s.faults ∧ (applyEff s (.pass n)).faultSerial = s.faultSerial ∧
    (applyEff s (.pass n)).ctxs = s.ctxs ∧ (applyEff s (.pass n)).evqs = s.evqs ∧ (applyEff s (.pass n)).indir = s.indir ∧
    (applyEff s (.pass n)).pieces = s.pieces ∧ (applyEff s (.pass n)).pewter = s.pewter ∧
    (applyEff s (.pass n)).node = s.node ∧ (applyEff s (.pass n)).routes = s.routes ∧
    (applyEff s (.pass n)).portsDown = s.portsDown ∧ (applyEff s (.pass n)).links = s.links ∧
    (applyEff s (.pass n)).power = s.power ∧ (applyEff s (.pass n)).parts = s.parts ∧
    (applyEff s (.pass n)).mailOut = s.mailOut ∧ (applyEff s (.pass n)).fws = s.fws ∧ (applyEff s (.pass n)).msi = s.msi ∧
    (applyEff s (.pass n)).errors = s.errors ∧ (applyEff s (.pass n)).correctable = s.correctable ∧
    (applyEff s (.pass n)).dieMonitors = s.dieMonitors ∧ (applyEff s (.pass n)).heldPeers = s.heldPeers ∧
    (applyEff s (.pass n)).peerAcks = s.peerAcks ∧ (applyEff s (.pass n)).peerOut = s.peerOut ∧
    (applyEff s (.pass n)).hostOut = s.hostOut ∧ (applyEff s (.pass n)).nacks = s.nacks ∧
    (applyEff s (.pass n)).peerMsgs = s.peerMsgs ∧ (applyEff s (.pass n)).bar2 = s.bar2 ∧
    (applyEff s (.pass n)).vfs = s.vfs ∧ (applyEff s (.pass n)).cancelSerial = s.cancelSerial ∧
    (applyEff s (.pass n)).cancelLast = s.cancelLast ∧ (applyEff s (.pass n)).jobCancels = s.jobCancels ∧
    (applyEff s (.pass n)).nextId = s.nextId ∧ (applyEff s (.pass n)).agenda = s.agenda ∧
    (applyEff s (.pass n)).cur = s.cur ∧ (applyEff s (.pass n)).curPc = s.curPc ∧ (applyEff s (.pass n)).freeCtr = s.freeCtr := by
  repeat first | exact rfl | refine ⟨rfl, ?_⟩

/-- Taking a free value counts it and changes nothing else. -/
@[simp] theorem Prog.run_free_rest (s : State) :
    (applyEff s .free).t = s.t ∧ (applyEff s .free).powered = s.powered ∧ (applyEff s .free).mem = s.mem ∧
    (applyEff s .free).poison = s.poison ∧ (applyEff s .free).agents = s.agents ∧ (applyEff s .free).crews = s.crews ∧
    (applyEff s .free).cores = s.cores ∧ (applyEff s .free).scopes = s.scopes ∧ (applyEff s .free).launches = s.launches ∧
    (applyEff s .free).counters = s.counters ∧ (applyEff s .free).decs = s.decs ∧ (applyEff s .free).slots = s.slots ∧
    (applyEff s .free).queues = s.queues ∧ (applyEff s .free).queueCtx = s.queueCtx ∧ (applyEff s .free).opens = s.opens ∧
    (applyEff s .free).frontLast = s.frontLast ∧ (applyEff s .free).ops = s.ops ∧ (applyEff s .free).reqs = s.reqs ∧
    (applyEff s .free).lines = s.lines ∧ (applyEff s .free).casts = s.casts ∧ (applyEff s .free).faults = s.faults ∧
    (applyEff s .free).faultSerial = s.faultSerial ∧ (applyEff s .free).ctxs = s.ctxs ∧ (applyEff s .free).evqs = s.evqs ∧
    (applyEff s .free).indir = s.indir ∧ (applyEff s .free).pieces = s.pieces ∧ (applyEff s .free).pewter = s.pewter ∧
    (applyEff s .free).node = s.node ∧ (applyEff s .free).routes = s.routes ∧ (applyEff s .free).portsDown = s.portsDown ∧
    (applyEff s .free).links = s.links ∧ (applyEff s .free).power = s.power ∧ (applyEff s .free).parts = s.parts ∧
    (applyEff s .free).mailOut = s.mailOut ∧ (applyEff s .free).fws = s.fws ∧ (applyEff s .free).msi = s.msi ∧
    (applyEff s .free).errors = s.errors ∧ (applyEff s .free).correctable = s.correctable ∧
    (applyEff s .free).dieMonitors = s.dieMonitors ∧ (applyEff s .free).heldPeers = s.heldPeers ∧
    (applyEff s .free).peerAcks = s.peerAcks ∧ (applyEff s .free).peerOut = s.peerOut ∧
    (applyEff s .free).hostOut = s.hostOut ∧ (applyEff s .free).nacks = s.nacks ∧ (applyEff s .free).peerMsgs = s.peerMsgs ∧
    (applyEff s .free).bar2 = s.bar2 ∧ (applyEff s .free).vfs = s.vfs ∧ (applyEff s .free).cancelSerial = s.cancelSerial ∧
    (applyEff s .free).cancelLast = s.cancelLast ∧ (applyEff s .free).jobCancels = s.jobCancels ∧
    (applyEff s .free).nextId = s.nextId ∧ (applyEff s .free).agenda = s.agenda ∧ (applyEff s .free).cur = s.cur ∧
    (applyEff s .free).curPc = s.curPc := by
  repeat first | exact rfl | refine ⟨rfl, ?_⟩

/-- A change of an agent changes the agents alone. -/
@[simp] theorem applyEff_agent_rest (s : State) (k : Nat) (f : Agent → Agent) :
    (applyEff s (.agent k f)).t = s.t ∧ (applyEff s (.agent k f)).powered = s.powered ∧
    (applyEff s (.agent k f)).mem = s.mem ∧ (applyEff s (.agent k f)).poison = s.poison ∧
    (applyEff s (.agent k f)).crews = s.crews ∧ (applyEff s (.agent k f)).cores = s.cores ∧
    (applyEff s (.agent k f)).scopes = s.scopes ∧ (applyEff s (.agent k f)).launches = s.launches ∧
    (applyEff s (.agent k f)).counters = s.counters ∧ (applyEff s (.agent k f)).decs = s.decs ∧
    (applyEff s (.agent k f)).slots = s.slots ∧ (applyEff s (.agent k f)).queues = s.queues ∧
    (applyEff s (.agent k f)).queueCtx = s.queueCtx ∧ (applyEff s (.agent k f)).opens = s.opens ∧
    (applyEff s (.agent k f)).frontLast = s.frontLast ∧ (applyEff s (.agent k f)).ops = s.ops ∧
    (applyEff s (.agent k f)).reqs = s.reqs ∧ (applyEff s (.agent k f)).lines = s.lines ∧
    (applyEff s (.agent k f)).casts = s.casts ∧ (applyEff s (.agent k f)).faults = s.faults ∧
    (applyEff s (.agent k f)).faultSerial = s.faultSerial ∧ (applyEff s (.agent k f)).ctxs = s.ctxs ∧
    (applyEff s (.agent k f)).evqs = s.evqs ∧ (applyEff s (.agent k f)).indir = s.indir ∧
    (applyEff s (.agent k f)).pieces = s.pieces ∧ (applyEff s (.agent k f)).pewter = s.pewter ∧
    (applyEff s (.agent k f)).node = s.node ∧ (applyEff s (.agent k f)).routes = s.routes ∧
    (applyEff s (.agent k f)).portsDown = s.portsDown ∧ (applyEff s (.agent k f)).links = s.links ∧
    (applyEff s (.agent k f)).power = s.power ∧ (applyEff s (.agent k f)).parts = s.parts ∧
    (applyEff s (.agent k f)).mailOut = s.mailOut ∧ (applyEff s (.agent k f)).fws = s.fws ∧
    (applyEff s (.agent k f)).msi = s.msi ∧ (applyEff s (.agent k f)).errors = s.errors ∧
    (applyEff s (.agent k f)).correctable = s.correctable ∧ (applyEff s (.agent k f)).dieMonitors = s.dieMonitors ∧
    (applyEff s (.agent k f)).heldPeers = s.heldPeers ∧ (applyEff s (.agent k f)).peerAcks = s.peerAcks ∧
    (applyEff s (.agent k f)).peerOut = s.peerOut ∧ (applyEff s (.agent k f)).hostOut = s.hostOut ∧
    (applyEff s (.agent k f)).nacks = s.nacks ∧ (applyEff s (.agent k f)).peerMsgs = s.peerMsgs ∧
    (applyEff s (.agent k f)).bar2 = s.bar2 ∧ (applyEff s (.agent k f)).vfs = s.vfs ∧
    (applyEff s (.agent k f)).cancelSerial = s.cancelSerial ∧ (applyEff s (.agent k f)).cancelLast = s.cancelLast ∧
    (applyEff s (.agent k f)).jobCancels = s.jobCancels ∧ (applyEff s (.agent k f)).nextId = s.nextId ∧
    (applyEff s (.agent k f)).agenda = s.agenda ∧ (applyEff s (.agent k f)).cur = s.cur ∧
    (applyEff s (.agent k f)).curPc = s.curPc ∧ (applyEff s (.agent k f)).freeCtr = s.freeCtr := by
  rw [applyEff_agent]
  split <;> repeat first | exact rfl | refine ⟨rfl, ?_⟩

/-- `Prog.newAgent` changes the agents alone. -/
@[simp] theorem Prog.run_newAgent_rest (s : State) (k : Nat) (a : Agent) :
    ((Prog.newAgent k a).run s).t = s.t ∧ ((Prog.newAgent k a).run s).powered = s.powered ∧
    ((Prog.newAgent k a).run s).mem = s.mem ∧ ((Prog.newAgent k a).run s).poison = s.poison ∧
    ((Prog.newAgent k a).run s).crews = s.crews ∧ ((Prog.newAgent k a).run s).cores = s.cores ∧
    ((Prog.newAgent k a).run s).scopes = s.scopes ∧ ((Prog.newAgent k a).run s).launches = s.launches ∧
    ((Prog.newAgent k a).run s).counters = s.counters ∧ ((Prog.newAgent k a).run s).decs = s.decs ∧
    ((Prog.newAgent k a).run s).slots = s.slots ∧ ((Prog.newAgent k a).run s).queues = s.queues ∧
    ((Prog.newAgent k a).run s).queueCtx = s.queueCtx ∧ ((Prog.newAgent k a).run s).opens = s.opens ∧
    ((Prog.newAgent k a).run s).frontLast = s.frontLast ∧ ((Prog.newAgent k a).run s).ops = s.ops ∧
    ((Prog.newAgent k a).run s).reqs = s.reqs ∧ ((Prog.newAgent k a).run s).lines = s.lines ∧
    ((Prog.newAgent k a).run s).casts = s.casts ∧ ((Prog.newAgent k a).run s).faults = s.faults ∧
    ((Prog.newAgent k a).run s).faultSerial = s.faultSerial ∧ ((Prog.newAgent k a).run s).ctxs = s.ctxs ∧
    ((Prog.newAgent k a).run s).evqs = s.evqs ∧ ((Prog.newAgent k a).run s).indir = s.indir ∧
    ((Prog.newAgent k a).run s).pieces = s.pieces ∧ ((Prog.newAgent k a).run s).pewter = s.pewter ∧
    ((Prog.newAgent k a).run s).node = s.node ∧ ((Prog.newAgent k a).run s).routes = s.routes ∧
    ((Prog.newAgent k a).run s).portsDown = s.portsDown ∧ ((Prog.newAgent k a).run s).links = s.links ∧
    ((Prog.newAgent k a).run s).power = s.power ∧ ((Prog.newAgent k a).run s).parts = s.parts ∧
    ((Prog.newAgent k a).run s).mailOut = s.mailOut ∧ ((Prog.newAgent k a).run s).fws = s.fws ∧
    ((Prog.newAgent k a).run s).msi = s.msi ∧ ((Prog.newAgent k a).run s).errors = s.errors ∧
    ((Prog.newAgent k a).run s).correctable = s.correctable ∧ ((Prog.newAgent k a).run s).dieMonitors = s.dieMonitors ∧
    ((Prog.newAgent k a).run s).heldPeers = s.heldPeers ∧ ((Prog.newAgent k a).run s).peerAcks = s.peerAcks ∧
    ((Prog.newAgent k a).run s).peerOut = s.peerOut ∧ ((Prog.newAgent k a).run s).hostOut = s.hostOut ∧
    ((Prog.newAgent k a).run s).nacks = s.nacks ∧ ((Prog.newAgent k a).run s).peerMsgs = s.peerMsgs ∧
    ((Prog.newAgent k a).run s).bar2 = s.bar2 ∧ ((Prog.newAgent k a).run s).vfs = s.vfs ∧
    ((Prog.newAgent k a).run s).cancelSerial = s.cancelSerial ∧ ((Prog.newAgent k a).run s).cancelLast = s.cancelLast ∧
    ((Prog.newAgent k a).run s).jobCancels = s.jobCancels ∧ ((Prog.newAgent k a).run s).nextId = s.nextId ∧
    ((Prog.newAgent k a).run s).agenda = s.agenda ∧ ((Prog.newAgent k a).run s).cur = s.cur ∧
    ((Prog.newAgent k a).run s).curPc = s.curPc ∧ ((Prog.newAgent k a).run s).freeCtr = s.freeCtr := by
  repeat first | exact rfl | refine ⟨rfl, ?_⟩

/-- `Prog.core` changes the cores alone. -/
@[simp] theorem Prog.run_core_rest (s : State) (c : Nat) (f : Core → Core) :
    ((Prog.core c f).run s).t = s.t ∧ ((Prog.core c f).run s).powered = s.powered ∧ ((Prog.core c f).run s).mem = s.mem ∧
    ((Prog.core c f).run s).poison = s.poison ∧ ((Prog.core c f).run s).agents = s.agents ∧
    ((Prog.core c f).run s).crews = s.crews ∧ ((Prog.core c f).run s).scopes = s.scopes ∧
    ((Prog.core c f).run s).launches = s.launches ∧ ((Prog.core c f).run s).counters = s.counters ∧
    ((Prog.core c f).run s).decs = s.decs ∧ ((Prog.core c f).run s).slots = s.slots ∧
    ((Prog.core c f).run s).queues = s.queues ∧ ((Prog.core c f).run s).queueCtx = s.queueCtx ∧
    ((Prog.core c f).run s).opens = s.opens ∧ ((Prog.core c f).run s).frontLast = s.frontLast ∧
    ((Prog.core c f).run s).ops = s.ops ∧ ((Prog.core c f).run s).reqs = s.reqs ∧ ((Prog.core c f).run s).lines = s.lines ∧
    ((Prog.core c f).run s).casts = s.casts ∧ ((Prog.core c f).run s).faults = s.faults ∧
    ((Prog.core c f).run s).faultSerial = s.faultSerial ∧ ((Prog.core c f).run s).ctxs = s.ctxs ∧
    ((Prog.core c f).run s).evqs = s.evqs ∧ ((Prog.core c f).run s).indir = s.indir ∧
    ((Prog.core c f).run s).pieces = s.pieces ∧ ((Prog.core c f).run s).pewter = s.pewter ∧
    ((Prog.core c f).run s).node = s.node ∧ ((Prog.core c f).run s).routes = s.routes ∧
    ((Prog.core c f).run s).portsDown = s.portsDown ∧ ((Prog.core c f).run s).links = s.links ∧
    ((Prog.core c f).run s).power = s.power ∧ ((Prog.core c f).run s).parts = s.parts ∧
    ((Prog.core c f).run s).mailOut = s.mailOut ∧ ((Prog.core c f).run s).fws = s.fws ∧ ((Prog.core c f).run s).msi = s.msi ∧
    ((Prog.core c f).run s).errors = s.errors ∧ ((Prog.core c f).run s).correctable = s.correctable ∧
    ((Prog.core c f).run s).dieMonitors = s.dieMonitors ∧ ((Prog.core c f).run s).heldPeers = s.heldPeers ∧
    ((Prog.core c f).run s).peerAcks = s.peerAcks ∧ ((Prog.core c f).run s).peerOut = s.peerOut ∧
    ((Prog.core c f).run s).hostOut = s.hostOut ∧ ((Prog.core c f).run s).nacks = s.nacks ∧
    ((Prog.core c f).run s).peerMsgs = s.peerMsgs ∧ ((Prog.core c f).run s).bar2 = s.bar2 ∧
    ((Prog.core c f).run s).vfs = s.vfs ∧ ((Prog.core c f).run s).cancelSerial = s.cancelSerial ∧
    ((Prog.core c f).run s).cancelLast = s.cancelLast ∧ ((Prog.core c f).run s).jobCancels = s.jobCancels ∧
    ((Prog.core c f).run s).nextId = s.nextId ∧ ((Prog.core c f).run s).agenda = s.agenda ∧
    ((Prog.core c f).run s).cur = s.cur ∧ ((Prog.core c f).run s).curPc = s.curPc ∧
    ((Prog.core c f).run s).freeCtr = s.freeCtr := by
  repeat first | exact rfl | refine ⟨rfl, ?_⟩

/-- `Prog.scope` changes the scopes alone. -/
@[simp] theorem Prog.run_scope_rest (s : State) (i : Nat) (f : Scope → Scope) :
    ((Prog.scope i f).run s).t = s.t ∧ ((Prog.scope i f).run s).powered = s.powered ∧ ((Prog.scope i f).run s).mem = s.mem ∧
    ((Prog.scope i f).run s).poison = s.poison ∧ ((Prog.scope i f).run s).agents = s.agents ∧
    ((Prog.scope i f).run s).crews = s.crews ∧ ((Prog.scope i f).run s).cores = s.cores ∧
    ((Prog.scope i f).run s).launches = s.launches ∧ ((Prog.scope i f).run s).counters = s.counters ∧
    ((Prog.scope i f).run s).decs = s.decs ∧ ((Prog.scope i f).run s).slots = s.slots ∧
    ((Prog.scope i f).run s).queues = s.queues ∧ ((Prog.scope i f).run s).queueCtx = s.queueCtx ∧
    ((Prog.scope i f).run s).opens = s.opens ∧ ((Prog.scope i f).run s).frontLast = s.frontLast ∧
    ((Prog.scope i f).run s).ops = s.ops ∧ ((Prog.scope i f).run s).reqs = s.reqs ∧
    ((Prog.scope i f).run s).lines = s.lines ∧ ((Prog.scope i f).run s).casts = s.casts ∧
    ((Prog.scope i f).run s).faults = s.faults ∧ ((Prog.scope i f).run s).faultSerial = s.faultSerial ∧
    ((Prog.scope i f).run s).ctxs = s.ctxs ∧ ((Prog.scope i f).run s).evqs = s.evqs ∧
    ((Prog.scope i f).run s).indir = s.indir ∧ ((Prog.scope i f).run s).pieces = s.pieces ∧
    ((Prog.scope i f).run s).pewter = s.pewter ∧ ((Prog.scope i f).run s).node = s.node ∧
    ((Prog.scope i f).run s).routes = s.routes ∧ ((Prog.scope i f).run s).portsDown = s.portsDown ∧
    ((Prog.scope i f).run s).links = s.links ∧ ((Prog.scope i f).run s).power = s.power ∧
    ((Prog.scope i f).run s).parts = s.parts ∧ ((Prog.scope i f).run s).mailOut = s.mailOut ∧
    ((Prog.scope i f).run s).fws = s.fws ∧ ((Prog.scope i f).run s).msi = s.msi ∧
    ((Prog.scope i f).run s).errors = s.errors ∧ ((Prog.scope i f).run s).correctable = s.correctable ∧
    ((Prog.scope i f).run s).dieMonitors = s.dieMonitors ∧ ((Prog.scope i f).run s).heldPeers = s.heldPeers ∧
    ((Prog.scope i f).run s).peerAcks = s.peerAcks ∧ ((Prog.scope i f).run s).peerOut = s.peerOut ∧
    ((Prog.scope i f).run s).hostOut = s.hostOut ∧ ((Prog.scope i f).run s).nacks = s.nacks ∧
    ((Prog.scope i f).run s).peerMsgs = s.peerMsgs ∧ ((Prog.scope i f).run s).bar2 = s.bar2 ∧
    ((Prog.scope i f).run s).vfs = s.vfs ∧ ((Prog.scope i f).run s).cancelSerial = s.cancelSerial ∧
    ((Prog.scope i f).run s).cancelLast = s.cancelLast ∧ ((Prog.scope i f).run s).jobCancels = s.jobCancels ∧
    ((Prog.scope i f).run s).nextId = s.nextId ∧ ((Prog.scope i f).run s).agenda = s.agenda ∧
    ((Prog.scope i f).run s).cur = s.cur ∧ ((Prog.scope i f).run s).curPc = s.curPc ∧
    ((Prog.scope i f).run s).freeCtr = s.freeCtr := by
  repeat first | exact rfl | refine ⟨rfl, ?_⟩

/-- `Prog.counter` changes the counters alone. -/
@[simp] theorem Prog.run_counter_rest (s : State) (d : Nat) (f : Counter → Counter) :
    ((Prog.counter d f).run s).t = s.t ∧ ((Prog.counter d f).run s).powered = s.powered ∧
    ((Prog.counter d f).run s).mem = s.mem ∧ ((Prog.counter d f).run s).poison = s.poison ∧
    ((Prog.counter d f).run s).agents = s.agents ∧ ((Prog.counter d f).run s).crews = s.crews ∧
    ((Prog.counter d f).run s).cores = s.cores ∧ ((Prog.counter d f).run s).scopes = s.scopes ∧
    ((Prog.counter d f).run s).launches = s.launches ∧ ((Prog.counter d f).run s).decs = s.decs ∧
    ((Prog.counter d f).run s).slots = s.slots ∧ ((Prog.counter d f).run s).queues = s.queues ∧
    ((Prog.counter d f).run s).queueCtx = s.queueCtx ∧ ((Prog.counter d f).run s).opens = s.opens ∧
    ((Prog.counter d f).run s).frontLast = s.frontLast ∧ ((Prog.counter d f).run s).ops = s.ops ∧
    ((Prog.counter d f).run s).reqs = s.reqs ∧ ((Prog.counter d f).run s).lines = s.lines ∧
    ((Prog.counter d f).run s).casts = s.casts ∧ ((Prog.counter d f).run s).faults = s.faults ∧
    ((Prog.counter d f).run s).faultSerial = s.faultSerial ∧ ((Prog.counter d f).run s).ctxs = s.ctxs ∧
    ((Prog.counter d f).run s).evqs = s.evqs ∧ ((Prog.counter d f).run s).indir = s.indir ∧
    ((Prog.counter d f).run s).pieces = s.pieces ∧ ((Prog.counter d f).run s).pewter = s.pewter ∧
    ((Prog.counter d f).run s).node = s.node ∧ ((Prog.counter d f).run s).routes = s.routes ∧
    ((Prog.counter d f).run s).portsDown = s.portsDown ∧ ((Prog.counter d f).run s).links = s.links ∧
    ((Prog.counter d f).run s).power = s.power ∧ ((Prog.counter d f).run s).parts = s.parts ∧
    ((Prog.counter d f).run s).mailOut = s.mailOut ∧ ((Prog.counter d f).run s).fws = s.fws ∧
    ((Prog.counter d f).run s).msi = s.msi ∧ ((Prog.counter d f).run s).errors = s.errors ∧
    ((Prog.counter d f).run s).correctable = s.correctable ∧ ((Prog.counter d f).run s).dieMonitors = s.dieMonitors ∧
    ((Prog.counter d f).run s).heldPeers = s.heldPeers ∧ ((Prog.counter d f).run s).peerAcks = s.peerAcks ∧
    ((Prog.counter d f).run s).peerOut = s.peerOut ∧ ((Prog.counter d f).run s).hostOut = s.hostOut ∧
    ((Prog.counter d f).run s).nacks = s.nacks ∧ ((Prog.counter d f).run s).peerMsgs = s.peerMsgs ∧
    ((Prog.counter d f).run s).bar2 = s.bar2 ∧ ((Prog.counter d f).run s).vfs = s.vfs ∧
    ((Prog.counter d f).run s).cancelSerial = s.cancelSerial ∧ ((Prog.counter d f).run s).cancelLast = s.cancelLast ∧
    ((Prog.counter d f).run s).jobCancels = s.jobCancels ∧ ((Prog.counter d f).run s).nextId = s.nextId ∧
    ((Prog.counter d f).run s).agenda = s.agenda ∧ ((Prog.counter d f).run s).cur = s.cur ∧
    ((Prog.counter d f).run s).curPc = s.curPc ∧ ((Prog.counter d f).run s).freeCtr = s.freeCtr := by
  repeat first | exact rfl | refine ⟨rfl, ?_⟩

/-- `Prog.slot` changes the slots alone. -/
@[simp] theorem Prog.run_slot_rest (s : State) (i : Nat) (f : Slot → Slot) :
    ((Prog.slot i f).run s).t = s.t ∧ ((Prog.slot i f).run s).powered = s.powered ∧ ((Prog.slot i f).run s).mem = s.mem ∧
    ((Prog.slot i f).run s).poison = s.poison ∧ ((Prog.slot i f).run s).agents = s.agents ∧
    ((Prog.slot i f).run s).crews = s.crews ∧ ((Prog.slot i f).run s).cores = s.cores ∧
    ((Prog.slot i f).run s).scopes = s.scopes ∧ ((Prog.slot i f).run s).launches = s.launches ∧
    ((Prog.slot i f).run s).counters = s.counters ∧ ((Prog.slot i f).run s).decs = s.decs ∧
    ((Prog.slot i f).run s).queues = s.queues ∧ ((Prog.slot i f).run s).queueCtx = s.queueCtx ∧
    ((Prog.slot i f).run s).opens = s.opens ∧ ((Prog.slot i f).run s).frontLast = s.frontLast ∧
    ((Prog.slot i f).run s).ops = s.ops ∧ ((Prog.slot i f).run s).reqs = s.reqs ∧ ((Prog.slot i f).run s).lines = s.lines ∧
    ((Prog.slot i f).run s).casts = s.casts ∧ ((Prog.slot i f).run s).faults = s.faults ∧
    ((Prog.slot i f).run s).faultSerial = s.faultSerial ∧ ((Prog.slot i f).run s).ctxs = s.ctxs ∧
    ((Prog.slot i f).run s).evqs = s.evqs ∧ ((Prog.slot i f).run s).indir = s.indir ∧
    ((Prog.slot i f).run s).pieces = s.pieces ∧ ((Prog.slot i f).run s).pewter = s.pewter ∧
    ((Prog.slot i f).run s).node = s.node ∧ ((Prog.slot i f).run s).routes = s.routes ∧
    ((Prog.slot i f).run s).portsDown = s.portsDown ∧ ((Prog.slot i f).run s).links = s.links ∧
    ((Prog.slot i f).run s).power = s.power ∧ ((Prog.slot i f).run s).parts = s.parts ∧
    ((Prog.slot i f).run s).mailOut = s.mailOut ∧ ((Prog.slot i f).run s).fws = s.fws ∧ ((Prog.slot i f).run s).msi = s.msi ∧
    ((Prog.slot i f).run s).errors = s.errors ∧ ((Prog.slot i f).run s).correctable = s.correctable ∧
    ((Prog.slot i f).run s).dieMonitors = s.dieMonitors ∧ ((Prog.slot i f).run s).heldPeers = s.heldPeers ∧
    ((Prog.slot i f).run s).peerAcks = s.peerAcks ∧ ((Prog.slot i f).run s).peerOut = s.peerOut ∧
    ((Prog.slot i f).run s).hostOut = s.hostOut ∧ ((Prog.slot i f).run s).nacks = s.nacks ∧
    ((Prog.slot i f).run s).peerMsgs = s.peerMsgs ∧ ((Prog.slot i f).run s).bar2 = s.bar2 ∧
    ((Prog.slot i f).run s).vfs = s.vfs ∧ ((Prog.slot i f).run s).cancelSerial = s.cancelSerial ∧
    ((Prog.slot i f).run s).cancelLast = s.cancelLast ∧ ((Prog.slot i f).run s).jobCancels = s.jobCancels ∧
    ((Prog.slot i f).run s).nextId = s.nextId ∧ ((Prog.slot i f).run s).agenda = s.agenda ∧
    ((Prog.slot i f).run s).cur = s.cur ∧ ((Prog.slot i f).run s).curPc = s.curPc ∧
    ((Prog.slot i f).run s).freeCtr = s.freeCtr := by
  repeat first | exact rfl | refine ⟨rfl, ?_⟩

/-- `Prog.part` changes the partitions alone. -/
@[simp] theorem Prog.run_part_rest (s : State) (die p : Nat) (f : Partition → Partition) :
    ((Prog.part die p f).run s).t = s.t ∧ ((Prog.part die p f).run s).powered = s.powered ∧
    ((Prog.part die p f).run s).mem = s.mem ∧ ((Prog.part die p f).run s).poison = s.poison ∧
    ((Prog.part die p f).run s).agents = s.agents ∧ ((Prog.part die p f).run s).crews = s.crews ∧
    ((Prog.part die p f).run s).cores = s.cores ∧ ((Prog.part die p f).run s).scopes = s.scopes ∧
    ((Prog.part die p f).run s).launches = s.launches ∧ ((Prog.part die p f).run s).counters = s.counters ∧
    ((Prog.part die p f).run s).decs = s.decs ∧ ((Prog.part die p f).run s).slots = s.slots ∧
    ((Prog.part die p f).run s).queues = s.queues ∧ ((Prog.part die p f).run s).queueCtx = s.queueCtx ∧
    ((Prog.part die p f).run s).opens = s.opens ∧ ((Prog.part die p f).run s).frontLast = s.frontLast ∧
    ((Prog.part die p f).run s).ops = s.ops ∧ ((Prog.part die p f).run s).reqs = s.reqs ∧
    ((Prog.part die p f).run s).lines = s.lines ∧ ((Prog.part die p f).run s).casts = s.casts ∧
    ((Prog.part die p f).run s).faults = s.faults ∧ ((Prog.part die p f).run s).faultSerial = s.faultSerial ∧
    ((Prog.part die p f).run s).ctxs = s.ctxs ∧ ((Prog.part die p f).run s).evqs = s.evqs ∧
    ((Prog.part die p f).run s).indir = s.indir ∧ ((Prog.part die p f).run s).pieces = s.pieces ∧
    ((Prog.part die p f).run s).pewter = s.pewter ∧ ((Prog.part die p f).run s).node = s.node ∧
    ((Prog.part die p f).run s).routes = s.routes ∧ ((Prog.part die p f).run s).portsDown = s.portsDown ∧
    ((Prog.part die p f).run s).links = s.links ∧ ((Prog.part die p f).run s).power = s.power ∧
    ((Prog.part die p f).run s).mailOut = s.mailOut ∧ ((Prog.part die p f).run s).fws = s.fws ∧
    ((Prog.part die p f).run s).msi = s.msi ∧ ((Prog.part die p f).run s).errors = s.errors ∧
    ((Prog.part die p f).run s).correctable = s.correctable ∧ ((Prog.part die p f).run s).dieMonitors = s.dieMonitors ∧
    ((Prog.part die p f).run s).heldPeers = s.heldPeers ∧ ((Prog.part die p f).run s).peerAcks = s.peerAcks ∧
    ((Prog.part die p f).run s).peerOut = s.peerOut ∧ ((Prog.part die p f).run s).hostOut = s.hostOut ∧
    ((Prog.part die p f).run s).nacks = s.nacks ∧ ((Prog.part die p f).run s).peerMsgs = s.peerMsgs ∧
    ((Prog.part die p f).run s).bar2 = s.bar2 ∧ ((Prog.part die p f).run s).vfs = s.vfs ∧
    ((Prog.part die p f).run s).cancelSerial = s.cancelSerial ∧ ((Prog.part die p f).run s).cancelLast = s.cancelLast ∧
    ((Prog.part die p f).run s).jobCancels = s.jobCancels ∧ ((Prog.part die p f).run s).nextId = s.nextId ∧
    ((Prog.part die p f).run s).agenda = s.agenda ∧ ((Prog.part die p f).run s).cur = s.cur ∧
    ((Prog.part die p f).run s).curPc = s.curPc ∧ ((Prog.part die p f).run s).freeCtr = s.freeCtr := by
  repeat first | exact rfl | refine ⟨rfl, ?_⟩

/-- `Prog.fw` changes the firmware cores alone. -/
@[simp] theorem Prog.run_fw_rest (s : State) (d : Nat) (f : FwCore → FwCore) :
    ((Prog.fw d f).run s).t = s.t ∧ ((Prog.fw d f).run s).powered = s.powered ∧ ((Prog.fw d f).run s).mem = s.mem ∧
    ((Prog.fw d f).run s).poison = s.poison ∧ ((Prog.fw d f).run s).agents = s.agents ∧
    ((Prog.fw d f).run s).crews = s.crews ∧ ((Prog.fw d f).run s).cores = s.cores ∧ ((Prog.fw d f).run s).scopes = s.scopes ∧
    ((Prog.fw d f).run s).launches = s.launches ∧ ((Prog.fw d f).run s).counters = s.counters ∧
    ((Prog.fw d f).run s).decs = s.decs ∧ ((Prog.fw d f).run s).slots = s.slots ∧ ((Prog.fw d f).run s).queues = s.queues ∧
    ((Prog.fw d f).run s).queueCtx = s.queueCtx ∧ ((Prog.fw d f).run s).opens = s.opens ∧
    ((Prog.fw d f).run s).frontLast = s.frontLast ∧ ((Prog.fw d f).run s).ops = s.ops ∧ ((Prog.fw d f).run s).reqs = s.reqs ∧
    ((Prog.fw d f).run s).lines = s.lines ∧ ((Prog.fw d f).run s).casts = s.casts ∧ ((Prog.fw d f).run s).faults = s.faults ∧
    ((Prog.fw d f).run s).faultSerial = s.faultSerial ∧ ((Prog.fw d f).run s).ctxs = s.ctxs ∧
    ((Prog.fw d f).run s).evqs = s.evqs ∧ ((Prog.fw d f).run s).indir = s.indir ∧ ((Prog.fw d f).run s).pieces = s.pieces ∧
    ((Prog.fw d f).run s).pewter = s.pewter ∧ ((Prog.fw d f).run s).node = s.node ∧ ((Prog.fw d f).run s).routes = s.routes ∧
    ((Prog.fw d f).run s).portsDown = s.portsDown ∧ ((Prog.fw d f).run s).links = s.links ∧
    ((Prog.fw d f).run s).power = s.power ∧ ((Prog.fw d f).run s).parts = s.parts ∧
    ((Prog.fw d f).run s).mailOut = s.mailOut ∧ ((Prog.fw d f).run s).msi = s.msi ∧ ((Prog.fw d f).run s).errors = s.errors ∧
    ((Prog.fw d f).run s).correctable = s.correctable ∧ ((Prog.fw d f).run s).dieMonitors = s.dieMonitors ∧
    ((Prog.fw d f).run s).heldPeers = s.heldPeers ∧ ((Prog.fw d f).run s).peerAcks = s.peerAcks ∧
    ((Prog.fw d f).run s).peerOut = s.peerOut ∧ ((Prog.fw d f).run s).hostOut = s.hostOut ∧
    ((Prog.fw d f).run s).nacks = s.nacks ∧ ((Prog.fw d f).run s).peerMsgs = s.peerMsgs ∧
    ((Prog.fw d f).run s).bar2 = s.bar2 ∧ ((Prog.fw d f).run s).vfs = s.vfs ∧
    ((Prog.fw d f).run s).cancelSerial = s.cancelSerial ∧ ((Prog.fw d f).run s).cancelLast = s.cancelLast ∧
    ((Prog.fw d f).run s).jobCancels = s.jobCancels ∧ ((Prog.fw d f).run s).nextId = s.nextId ∧
    ((Prog.fw d f).run s).agenda = s.agenda ∧ ((Prog.fw d f).run s).cur = s.cur ∧ ((Prog.fw d f).run s).curPc = s.curPc ∧
    ((Prog.fw d f).run s).freeCtr = s.freeCtr := by
  repeat first | exact rfl | refine ⟨rfl, ?_⟩

/-- `Prog.powerOf` changes the power registers alone. -/
@[simp] theorem Prog.run_powerOf_rest (s : State) (d : Nat) (f : Power → Power) :
    ((Prog.powerOf d f).run s).t = s.t ∧ ((Prog.powerOf d f).run s).powered = s.powered ∧
    ((Prog.powerOf d f).run s).mem = s.mem ∧ ((Prog.powerOf d f).run s).poison = s.poison ∧
    ((Prog.powerOf d f).run s).agents = s.agents ∧ ((Prog.powerOf d f).run s).crews = s.crews ∧
    ((Prog.powerOf d f).run s).cores = s.cores ∧ ((Prog.powerOf d f).run s).scopes = s.scopes ∧
    ((Prog.powerOf d f).run s).launches = s.launches ∧ ((Prog.powerOf d f).run s).counters = s.counters ∧
    ((Prog.powerOf d f).run s).decs = s.decs ∧ ((Prog.powerOf d f).run s).slots = s.slots ∧
    ((Prog.powerOf d f).run s).queues = s.queues ∧ ((Prog.powerOf d f).run s).queueCtx = s.queueCtx ∧
    ((Prog.powerOf d f).run s).opens = s.opens ∧ ((Prog.powerOf d f).run s).frontLast = s.frontLast ∧
    ((Prog.powerOf d f).run s).ops = s.ops ∧ ((Prog.powerOf d f).run s).reqs = s.reqs ∧
    ((Prog.powerOf d f).run s).lines = s.lines ∧ ((Prog.powerOf d f).run s).casts = s.casts ∧
    ((Prog.powerOf d f).run s).faults = s.faults ∧ ((Prog.powerOf d f).run s).faultSerial = s.faultSerial ∧
    ((Prog.powerOf d f).run s).ctxs = s.ctxs ∧ ((Prog.powerOf d f).run s).evqs = s.evqs ∧
    ((Prog.powerOf d f).run s).indir = s.indir ∧ ((Prog.powerOf d f).run s).pieces = s.pieces ∧
    ((Prog.powerOf d f).run s).pewter = s.pewter ∧ ((Prog.powerOf d f).run s).node = s.node ∧
    ((Prog.powerOf d f).run s).routes = s.routes ∧ ((Prog.powerOf d f).run s).portsDown = s.portsDown ∧
    ((Prog.powerOf d f).run s).links = s.links ∧ ((Prog.powerOf d f).run s).parts = s.parts ∧
    ((Prog.powerOf d f).run s).mailOut = s.mailOut ∧ ((Prog.powerOf d f).run s).fws = s.fws ∧
    ((Prog.powerOf d f).run s).msi = s.msi ∧ ((Prog.powerOf d f).run s).errors = s.errors ∧
    ((Prog.powerOf d f).run s).correctable = s.correctable ∧ ((Prog.powerOf d f).run s).dieMonitors = s.dieMonitors ∧
    ((Prog.powerOf d f).run s).heldPeers = s.heldPeers ∧ ((Prog.powerOf d f).run s).peerAcks = s.peerAcks ∧
    ((Prog.powerOf d f).run s).peerOut = s.peerOut ∧ ((Prog.powerOf d f).run s).hostOut = s.hostOut ∧
    ((Prog.powerOf d f).run s).nacks = s.nacks ∧ ((Prog.powerOf d f).run s).peerMsgs = s.peerMsgs ∧
    ((Prog.powerOf d f).run s).bar2 = s.bar2 ∧ ((Prog.powerOf d f).run s).vfs = s.vfs ∧
    ((Prog.powerOf d f).run s).cancelSerial = s.cancelSerial ∧ ((Prog.powerOf d f).run s).cancelLast = s.cancelLast ∧
    ((Prog.powerOf d f).run s).jobCancels = s.jobCancels ∧ ((Prog.powerOf d f).run s).nextId = s.nextId ∧
    ((Prog.powerOf d f).run s).agenda = s.agenda ∧ ((Prog.powerOf d f).run s).cur = s.cur ∧
    ((Prog.powerOf d f).run s).curPc = s.curPc ∧ ((Prog.powerOf d f).run s).freeCtr = s.freeCtr := by
  repeat first | exact rfl | refine ⟨rfl, ?_⟩

/-- `Prog.line` changes the records of the lines alone. -/
@[simp] theorem Prog.run_line_rest (s : State) (l : Nat) (f : LineRec → LineRec) :
    ((Prog.line l f).run s).t = s.t ∧ ((Prog.line l f).run s).powered = s.powered ∧ ((Prog.line l f).run s).mem = s.mem ∧
    ((Prog.line l f).run s).poison = s.poison ∧ ((Prog.line l f).run s).agents = s.agents ∧
    ((Prog.line l f).run s).crews = s.crews ∧ ((Prog.line l f).run s).cores = s.cores ∧
    ((Prog.line l f).run s).scopes = s.scopes ∧ ((Prog.line l f).run s).launches = s.launches ∧
    ((Prog.line l f).run s).counters = s.counters ∧ ((Prog.line l f).run s).decs = s.decs ∧
    ((Prog.line l f).run s).slots = s.slots ∧ ((Prog.line l f).run s).queues = s.queues ∧
    ((Prog.line l f).run s).queueCtx = s.queueCtx ∧ ((Prog.line l f).run s).opens = s.opens ∧
    ((Prog.line l f).run s).frontLast = s.frontLast ∧ ((Prog.line l f).run s).ops = s.ops ∧
    ((Prog.line l f).run s).reqs = s.reqs ∧ ((Prog.line l f).run s).casts = s.casts ∧
    ((Prog.line l f).run s).faults = s.faults ∧ ((Prog.line l f).run s).faultSerial = s.faultSerial ∧
    ((Prog.line l f).run s).ctxs = s.ctxs ∧ ((Prog.line l f).run s).evqs = s.evqs ∧ ((Prog.line l f).run s).indir = s.indir ∧
    ((Prog.line l f).run s).pieces = s.pieces ∧ ((Prog.line l f).run s).pewter = s.pewter ∧
    ((Prog.line l f).run s).node = s.node ∧ ((Prog.line l f).run s).routes = s.routes ∧
    ((Prog.line l f).run s).portsDown = s.portsDown ∧ ((Prog.line l f).run s).links = s.links ∧
    ((Prog.line l f).run s).power = s.power ∧ ((Prog.line l f).run s).parts = s.parts ∧
    ((Prog.line l f).run s).mailOut = s.mailOut ∧ ((Prog.line l f).run s).fws = s.fws ∧ ((Prog.line l f).run s).msi = s.msi ∧
    ((Prog.line l f).run s).errors = s.errors ∧ ((Prog.line l f).run s).correctable = s.correctable ∧
    ((Prog.line l f).run s).dieMonitors = s.dieMonitors ∧ ((Prog.line l f).run s).heldPeers = s.heldPeers ∧
    ((Prog.line l f).run s).peerAcks = s.peerAcks ∧ ((Prog.line l f).run s).peerOut = s.peerOut ∧
    ((Prog.line l f).run s).hostOut = s.hostOut ∧ ((Prog.line l f).run s).nacks = s.nacks ∧
    ((Prog.line l f).run s).peerMsgs = s.peerMsgs ∧ ((Prog.line l f).run s).bar2 = s.bar2 ∧
    ((Prog.line l f).run s).vfs = s.vfs ∧ ((Prog.line l f).run s).cancelSerial = s.cancelSerial ∧
    ((Prog.line l f).run s).cancelLast = s.cancelLast ∧ ((Prog.line l f).run s).jobCancels = s.jobCancels ∧
    ((Prog.line l f).run s).nextId = s.nextId ∧ ((Prog.line l f).run s).agenda = s.agenda ∧
    ((Prog.line l f).run s).cur = s.cur ∧ ((Prog.line l f).run s).curPc = s.curPc ∧
    ((Prog.line l f).run s).freeCtr = s.freeCtr := by
  repeat first | exact rfl | refine ⟨rfl, ?_⟩

/-- `Prog.op` changes the operations in flight alone. -/
@[simp] theorem Prog.run_op_rest (s : State) (i : Nat) (f : Op → Op) :
    ((Prog.op i f).run s).t = s.t ∧ ((Prog.op i f).run s).powered = s.powered ∧ ((Prog.op i f).run s).mem = s.mem ∧
    ((Prog.op i f).run s).poison = s.poison ∧ ((Prog.op i f).run s).agents = s.agents ∧
    ((Prog.op i f).run s).crews = s.crews ∧ ((Prog.op i f).run s).cores = s.cores ∧ ((Prog.op i f).run s).scopes = s.scopes ∧
    ((Prog.op i f).run s).launches = s.launches ∧ ((Prog.op i f).run s).counters = s.counters ∧
    ((Prog.op i f).run s).decs = s.decs ∧ ((Prog.op i f).run s).slots = s.slots ∧ ((Prog.op i f).run s).queues = s.queues ∧
    ((Prog.op i f).run s).queueCtx = s.queueCtx ∧ ((Prog.op i f).run s).opens = s.opens ∧
    ((Prog.op i f).run s).frontLast = s.frontLast ∧ ((Prog.op i f).run s).reqs = s.reqs ∧
    ((Prog.op i f).run s).lines = s.lines ∧ ((Prog.op i f).run s).casts = s.casts ∧ ((Prog.op i f).run s).faults = s.faults ∧
    ((Prog.op i f).run s).faultSerial = s.faultSerial ∧ ((Prog.op i f).run s).ctxs = s.ctxs ∧
    ((Prog.op i f).run s).evqs = s.evqs ∧ ((Prog.op i f).run s).indir = s.indir ∧ ((Prog.op i f).run s).pieces = s.pieces ∧
    ((Prog.op i f).run s).pewter = s.pewter ∧ ((Prog.op i f).run s).node = s.node ∧ ((Prog.op i f).run s).routes = s.routes ∧
    ((Prog.op i f).run s).portsDown = s.portsDown ∧ ((Prog.op i f).run s).links = s.links ∧
    ((Prog.op i f).run s).power = s.power ∧ ((Prog.op i f).run s).parts = s.parts ∧
    ((Prog.op i f).run s).mailOut = s.mailOut ∧ ((Prog.op i f).run s).fws = s.fws ∧ ((Prog.op i f).run s).msi = s.msi ∧
    ((Prog.op i f).run s).errors = s.errors ∧ ((Prog.op i f).run s).correctable = s.correctable ∧
    ((Prog.op i f).run s).dieMonitors = s.dieMonitors ∧ ((Prog.op i f).run s).heldPeers = s.heldPeers ∧
    ((Prog.op i f).run s).peerAcks = s.peerAcks ∧ ((Prog.op i f).run s).peerOut = s.peerOut ∧
    ((Prog.op i f).run s).hostOut = s.hostOut ∧ ((Prog.op i f).run s).nacks = s.nacks ∧
    ((Prog.op i f).run s).peerMsgs = s.peerMsgs ∧ ((Prog.op i f).run s).bar2 = s.bar2 ∧ ((Prog.op i f).run s).vfs = s.vfs ∧
    ((Prog.op i f).run s).cancelSerial = s.cancelSerial ∧ ((Prog.op i f).run s).cancelLast = s.cancelLast ∧
    ((Prog.op i f).run s).jobCancels = s.jobCancels ∧ ((Prog.op i f).run s).nextId = s.nextId ∧
    ((Prog.op i f).run s).agenda = s.agenda ∧ ((Prog.op i f).run s).cur = s.cur ∧ ((Prog.op i f).run s).curPc = s.curPc ∧
    ((Prog.op i f).run s).freeCtr = s.freeCtr := by
  repeat first | exact rfl | refine ⟨rfl, ?_⟩

/-- `Prog.req` changes the requests in flight alone. -/
@[simp] theorem Prog.run_req_rest (s : State) (i : Nat) (f : Req → Req) :
    ((Prog.req i f).run s).t = s.t ∧ ((Prog.req i f).run s).powered = s.powered ∧ ((Prog.req i f).run s).mem = s.mem ∧
    ((Prog.req i f).run s).poison = s.poison ∧ ((Prog.req i f).run s).agents = s.agents ∧
    ((Prog.req i f).run s).crews = s.crews ∧ ((Prog.req i f).run s).cores = s.cores ∧
    ((Prog.req i f).run s).scopes = s.scopes ∧ ((Prog.req i f).run s).launches = s.launches ∧
    ((Prog.req i f).run s).counters = s.counters ∧ ((Prog.req i f).run s).decs = s.decs ∧
    ((Prog.req i f).run s).slots = s.slots ∧ ((Prog.req i f).run s).queues = s.queues ∧
    ((Prog.req i f).run s).queueCtx = s.queueCtx ∧ ((Prog.req i f).run s).opens = s.opens ∧
    ((Prog.req i f).run s).frontLast = s.frontLast ∧ ((Prog.req i f).run s).ops = s.ops ∧
    ((Prog.req i f).run s).lines = s.lines ∧ ((Prog.req i f).run s).casts = s.casts ∧
    ((Prog.req i f).run s).faults = s.faults ∧ ((Prog.req i f).run s).faultSerial = s.faultSerial ∧
    ((Prog.req i f).run s).ctxs = s.ctxs ∧ ((Prog.req i f).run s).evqs = s.evqs ∧ ((Prog.req i f).run s).indir = s.indir ∧
    ((Prog.req i f).run s).pieces = s.pieces ∧ ((Prog.req i f).run s).pewter = s.pewter ∧
    ((Prog.req i f).run s).node = s.node ∧ ((Prog.req i f).run s).routes = s.routes ∧
    ((Prog.req i f).run s).portsDown = s.portsDown ∧ ((Prog.req i f).run s).links = s.links ∧
    ((Prog.req i f).run s).power = s.power ∧ ((Prog.req i f).run s).parts = s.parts ∧
    ((Prog.req i f).run s).mailOut = s.mailOut ∧ ((Prog.req i f).run s).fws = s.fws ∧ ((Prog.req i f).run s).msi = s.msi ∧
    ((Prog.req i f).run s).errors = s.errors ∧ ((Prog.req i f).run s).correctable = s.correctable ∧
    ((Prog.req i f).run s).dieMonitors = s.dieMonitors ∧ ((Prog.req i f).run s).heldPeers = s.heldPeers ∧
    ((Prog.req i f).run s).peerAcks = s.peerAcks ∧ ((Prog.req i f).run s).peerOut = s.peerOut ∧
    ((Prog.req i f).run s).hostOut = s.hostOut ∧ ((Prog.req i f).run s).nacks = s.nacks ∧
    ((Prog.req i f).run s).peerMsgs = s.peerMsgs ∧ ((Prog.req i f).run s).bar2 = s.bar2 ∧
    ((Prog.req i f).run s).vfs = s.vfs ∧ ((Prog.req i f).run s).cancelSerial = s.cancelSerial ∧
    ((Prog.req i f).run s).cancelLast = s.cancelLast ∧ ((Prog.req i f).run s).jobCancels = s.jobCancels ∧
    ((Prog.req i f).run s).nextId = s.nextId ∧ ((Prog.req i f).run s).agenda = s.agenda ∧
    ((Prog.req i f).run s).cur = s.cur ∧ ((Prog.req i f).run s).curPc = s.curPc ∧ ((Prog.req i f).run s).freeCtr = s.freeCtr := by
  repeat first | exact rfl | refine ⟨rfl, ?_⟩

/-- `Prog.dropOp` changes the operations in flight alone. -/
@[simp] theorem Prog.run_dropOp_rest (s : State) (i : Nat) :
    ((Prog.dropOp i).run s).t = s.t ∧ ((Prog.dropOp i).run s).powered = s.powered ∧ ((Prog.dropOp i).run s).mem = s.mem ∧
    ((Prog.dropOp i).run s).poison = s.poison ∧ ((Prog.dropOp i).run s).agents = s.agents ∧
    ((Prog.dropOp i).run s).crews = s.crews ∧ ((Prog.dropOp i).run s).cores = s.cores ∧
    ((Prog.dropOp i).run s).scopes = s.scopes ∧ ((Prog.dropOp i).run s).launches = s.launches ∧
    ((Prog.dropOp i).run s).counters = s.counters ∧ ((Prog.dropOp i).run s).decs = s.decs ∧
    ((Prog.dropOp i).run s).slots = s.slots ∧ ((Prog.dropOp i).run s).queues = s.queues ∧
    ((Prog.dropOp i).run s).queueCtx = s.queueCtx ∧ ((Prog.dropOp i).run s).opens = s.opens ∧
    ((Prog.dropOp i).run s).frontLast = s.frontLast ∧ ((Prog.dropOp i).run s).reqs = s.reqs ∧
    ((Prog.dropOp i).run s).lines = s.lines ∧ ((Prog.dropOp i).run s).casts = s.casts ∧
    ((Prog.dropOp i).run s).faults = s.faults ∧ ((Prog.dropOp i).run s).faultSerial = s.faultSerial ∧
    ((Prog.dropOp i).run s).ctxs = s.ctxs ∧ ((Prog.dropOp i).run s).evqs = s.evqs ∧ ((Prog.dropOp i).run s).indir = s.indir ∧
    ((Prog.dropOp i).run s).pieces = s.pieces ∧ ((Prog.dropOp i).run s).pewter = s.pewter ∧
    ((Prog.dropOp i).run s).node = s.node ∧ ((Prog.dropOp i).run s).routes = s.routes ∧
    ((Prog.dropOp i).run s).portsDown = s.portsDown ∧ ((Prog.dropOp i).run s).links = s.links ∧
    ((Prog.dropOp i).run s).power = s.power ∧ ((Prog.dropOp i).run s).parts = s.parts ∧
    ((Prog.dropOp i).run s).mailOut = s.mailOut ∧ ((Prog.dropOp i).run s).fws = s.fws ∧ ((Prog.dropOp i).run s).msi = s.msi ∧
    ((Prog.dropOp i).run s).errors = s.errors ∧ ((Prog.dropOp i).run s).correctable = s.correctable ∧
    ((Prog.dropOp i).run s).dieMonitors = s.dieMonitors ∧ ((Prog.dropOp i).run s).heldPeers = s.heldPeers ∧
    ((Prog.dropOp i).run s).peerAcks = s.peerAcks ∧ ((Prog.dropOp i).run s).peerOut = s.peerOut ∧
    ((Prog.dropOp i).run s).hostOut = s.hostOut ∧ ((Prog.dropOp i).run s).nacks = s.nacks ∧
    ((Prog.dropOp i).run s).peerMsgs = s.peerMsgs ∧ ((Prog.dropOp i).run s).bar2 = s.bar2 ∧
    ((Prog.dropOp i).run s).vfs = s.vfs ∧ ((Prog.dropOp i).run s).cancelSerial = s.cancelSerial ∧
    ((Prog.dropOp i).run s).cancelLast = s.cancelLast ∧ ((Prog.dropOp i).run s).jobCancels = s.jobCancels ∧
    ((Prog.dropOp i).run s).nextId = s.nextId ∧ ((Prog.dropOp i).run s).agenda = s.agenda ∧
    ((Prog.dropOp i).run s).cur = s.cur ∧ ((Prog.dropOp i).run s).curPc = s.curPc ∧
    ((Prog.dropOp i).run s).freeCtr = s.freeCtr := by
  repeat first | exact rfl | refine ⟨rfl, ?_⟩

/-- `Prog.dropReq` changes the requests in flight alone. -/
@[simp] theorem Prog.run_dropReq_rest (s : State) (i : Nat) :
    ((Prog.dropReq i).run s).t = s.t ∧ ((Prog.dropReq i).run s).powered = s.powered ∧ ((Prog.dropReq i).run s).mem = s.mem ∧
    ((Prog.dropReq i).run s).poison = s.poison ∧ ((Prog.dropReq i).run s).agents = s.agents ∧
    ((Prog.dropReq i).run s).crews = s.crews ∧ ((Prog.dropReq i).run s).cores = s.cores ∧
    ((Prog.dropReq i).run s).scopes = s.scopes ∧ ((Prog.dropReq i).run s).launches = s.launches ∧
    ((Prog.dropReq i).run s).counters = s.counters ∧ ((Prog.dropReq i).run s).decs = s.decs ∧
    ((Prog.dropReq i).run s).slots = s.slots ∧ ((Prog.dropReq i).run s).queues = s.queues ∧
    ((Prog.dropReq i).run s).queueCtx = s.queueCtx ∧ ((Prog.dropReq i).run s).opens = s.opens ∧
    ((Prog.dropReq i).run s).frontLast = s.frontLast ∧ ((Prog.dropReq i).run s).ops = s.ops ∧
    ((Prog.dropReq i).run s).lines = s.lines ∧ ((Prog.dropReq i).run s).casts = s.casts ∧
    ((Prog.dropReq i).run s).faults = s.faults ∧ ((Prog.dropReq i).run s).faultSerial = s.faultSerial ∧
    ((Prog.dropReq i).run s).ctxs = s.ctxs ∧ ((Prog.dropReq i).run s).evqs = s.evqs ∧
    ((Prog.dropReq i).run s).indir = s.indir ∧ ((Prog.dropReq i).run s).pieces = s.pieces ∧
    ((Prog.dropReq i).run s).pewter = s.pewter ∧ ((Prog.dropReq i).run s).node = s.node ∧
    ((Prog.dropReq i).run s).routes = s.routes ∧ ((Prog.dropReq i).run s).portsDown = s.portsDown ∧
    ((Prog.dropReq i).run s).links = s.links ∧ ((Prog.dropReq i).run s).power = s.power ∧
    ((Prog.dropReq i).run s).parts = s.parts ∧ ((Prog.dropReq i).run s).mailOut = s.mailOut ∧
    ((Prog.dropReq i).run s).fws = s.fws ∧ ((Prog.dropReq i).run s).msi = s.msi ∧
    ((Prog.dropReq i).run s).errors = s.errors ∧ ((Prog.dropReq i).run s).correctable = s.correctable ∧
    ((Prog.dropReq i).run s).dieMonitors = s.dieMonitors ∧ ((Prog.dropReq i).run s).heldPeers = s.heldPeers ∧
    ((Prog.dropReq i).run s).peerAcks = s.peerAcks ∧ ((Prog.dropReq i).run s).peerOut = s.peerOut ∧
    ((Prog.dropReq i).run s).hostOut = s.hostOut ∧ ((Prog.dropReq i).run s).nacks = s.nacks ∧
    ((Prog.dropReq i).run s).peerMsgs = s.peerMsgs ∧ ((Prog.dropReq i).run s).bar2 = s.bar2 ∧
    ((Prog.dropReq i).run s).vfs = s.vfs ∧ ((Prog.dropReq i).run s).cancelSerial = s.cancelSerial ∧
    ((Prog.dropReq i).run s).cancelLast = s.cancelLast ∧ ((Prog.dropReq i).run s).jobCancels = s.jobCancels ∧
    ((Prog.dropReq i).run s).nextId = s.nextId ∧ ((Prog.dropReq i).run s).agenda = s.agenda ∧
    ((Prog.dropReq i).run s).cur = s.cur ∧ ((Prog.dropReq i).run s).curPc = s.curPc ∧
    ((Prog.dropReq i).run s).freeCtr = s.freeCtr := by
  repeat first | exact rfl | refine ⟨rfl, ?_⟩

/-- `Prog.crew` changes the crews alone. -/
@[simp] theorem Prog.run_crew_rest (s : State) (k : Nat) (f : Crew → Crew) :
    ((Prog.crew k f).run s).t = s.t ∧ ((Prog.crew k f).run s).powered = s.powered ∧ ((Prog.crew k f).run s).mem = s.mem ∧
    ((Prog.crew k f).run s).poison = s.poison ∧ ((Prog.crew k f).run s).agents = s.agents ∧
    ((Prog.crew k f).run s).cores = s.cores ∧ ((Prog.crew k f).run s).scopes = s.scopes ∧
    ((Prog.crew k f).run s).launches = s.launches ∧ ((Prog.crew k f).run s).counters = s.counters ∧
    ((Prog.crew k f).run s).decs = s.decs ∧ ((Prog.crew k f).run s).slots = s.slots ∧
    ((Prog.crew k f).run s).queues = s.queues ∧ ((Prog.crew k f).run s).queueCtx = s.queueCtx ∧
    ((Prog.crew k f).run s).opens = s.opens ∧ ((Prog.crew k f).run s).frontLast = s.frontLast ∧
    ((Prog.crew k f).run s).ops = s.ops ∧ ((Prog.crew k f).run s).reqs = s.reqs ∧ ((Prog.crew k f).run s).lines = s.lines ∧
    ((Prog.crew k f).run s).casts = s.casts ∧ ((Prog.crew k f).run s).faults = s.faults ∧
    ((Prog.crew k f).run s).faultSerial = s.faultSerial ∧ ((Prog.crew k f).run s).ctxs = s.ctxs ∧
    ((Prog.crew k f).run s).evqs = s.evqs ∧ ((Prog.crew k f).run s).indir = s.indir ∧
    ((Prog.crew k f).run s).pieces = s.pieces ∧ ((Prog.crew k f).run s).pewter = s.pewter ∧
    ((Prog.crew k f).run s).node = s.node ∧ ((Prog.crew k f).run s).routes = s.routes ∧
    ((Prog.crew k f).run s).portsDown = s.portsDown ∧ ((Prog.crew k f).run s).links = s.links ∧
    ((Prog.crew k f).run s).power = s.power ∧ ((Prog.crew k f).run s).parts = s.parts ∧
    ((Prog.crew k f).run s).mailOut = s.mailOut ∧ ((Prog.crew k f).run s).fws = s.fws ∧ ((Prog.crew k f).run s).msi = s.msi ∧
    ((Prog.crew k f).run s).errors = s.errors ∧ ((Prog.crew k f).run s).correctable = s.correctable ∧
    ((Prog.crew k f).run s).dieMonitors = s.dieMonitors ∧ ((Prog.crew k f).run s).heldPeers = s.heldPeers ∧
    ((Prog.crew k f).run s).peerAcks = s.peerAcks ∧ ((Prog.crew k f).run s).peerOut = s.peerOut ∧
    ((Prog.crew k f).run s).hostOut = s.hostOut ∧ ((Prog.crew k f).run s).nacks = s.nacks ∧
    ((Prog.crew k f).run s).peerMsgs = s.peerMsgs ∧ ((Prog.crew k f).run s).bar2 = s.bar2 ∧
    ((Prog.crew k f).run s).vfs = s.vfs ∧ ((Prog.crew k f).run s).cancelSerial = s.cancelSerial ∧
    ((Prog.crew k f).run s).cancelLast = s.cancelLast ∧ ((Prog.crew k f).run s).jobCancels = s.jobCancels ∧
    ((Prog.crew k f).run s).nextId = s.nextId ∧ ((Prog.crew k f).run s).agenda = s.agenda ∧
    ((Prog.crew k f).run s).cur = s.cur ∧ ((Prog.crew k f).run s).curPc = s.curPc ∧
    ((Prog.crew k f).run s).freeCtr = s.freeCtr := by
  rw [Prog.crew, Prog.run_upd]
  cases s.crew? k <;> repeat first | exact rfl | refine ⟨rfl, ?_⟩

/-- `Prog.launch` changes the launches alone. -/
@[simp] theorem Prog.run_launch_rest (s : State) (i : Nat) (f : Launch → Launch) :
    ((Prog.launch i f).run s).t = s.t ∧ ((Prog.launch i f).run s).powered = s.powered ∧
    ((Prog.launch i f).run s).mem = s.mem ∧ ((Prog.launch i f).run s).poison = s.poison ∧
    ((Prog.launch i f).run s).agents = s.agents ∧ ((Prog.launch i f).run s).crews = s.crews ∧
    ((Prog.launch i f).run s).cores = s.cores ∧ ((Prog.launch i f).run s).scopes = s.scopes ∧
    ((Prog.launch i f).run s).counters = s.counters ∧ ((Prog.launch i f).run s).decs = s.decs ∧
    ((Prog.launch i f).run s).slots = s.slots ∧ ((Prog.launch i f).run s).queues = s.queues ∧
    ((Prog.launch i f).run s).queueCtx = s.queueCtx ∧ ((Prog.launch i f).run s).opens = s.opens ∧
    ((Prog.launch i f).run s).frontLast = s.frontLast ∧ ((Prog.launch i f).run s).ops = s.ops ∧
    ((Prog.launch i f).run s).reqs = s.reqs ∧ ((Prog.launch i f).run s).lines = s.lines ∧
    ((Prog.launch i f).run s).casts = s.casts ∧ ((Prog.launch i f).run s).faults = s.faults ∧
    ((Prog.launch i f).run s).faultSerial = s.faultSerial ∧ ((Prog.launch i f).run s).ctxs = s.ctxs ∧
    ((Prog.launch i f).run s).evqs = s.evqs ∧ ((Prog.launch i f).run s).indir = s.indir ∧
    ((Prog.launch i f).run s).pieces = s.pieces ∧ ((Prog.launch i f).run s).pewter = s.pewter ∧
    ((Prog.launch i f).run s).node = s.node ∧ ((Prog.launch i f).run s).routes = s.routes ∧
    ((Prog.launch i f).run s).portsDown = s.portsDown ∧ ((Prog.launch i f).run s).links = s.links ∧
    ((Prog.launch i f).run s).power = s.power ∧ ((Prog.launch i f).run s).parts = s.parts ∧
    ((Prog.launch i f).run s).mailOut = s.mailOut ∧ ((Prog.launch i f).run s).fws = s.fws ∧
    ((Prog.launch i f).run s).msi = s.msi ∧ ((Prog.launch i f).run s).errors = s.errors ∧
    ((Prog.launch i f).run s).correctable = s.correctable ∧ ((Prog.launch i f).run s).dieMonitors = s.dieMonitors ∧
    ((Prog.launch i f).run s).heldPeers = s.heldPeers ∧ ((Prog.launch i f).run s).peerAcks = s.peerAcks ∧
    ((Prog.launch i f).run s).peerOut = s.peerOut ∧ ((Prog.launch i f).run s).hostOut = s.hostOut ∧
    ((Prog.launch i f).run s).nacks = s.nacks ∧ ((Prog.launch i f).run s).peerMsgs = s.peerMsgs ∧
    ((Prog.launch i f).run s).bar2 = s.bar2 ∧ ((Prog.launch i f).run s).vfs = s.vfs ∧
    ((Prog.launch i f).run s).cancelSerial = s.cancelSerial ∧ ((Prog.launch i f).run s).cancelLast = s.cancelLast ∧
    ((Prog.launch i f).run s).jobCancels = s.jobCancels ∧ ((Prog.launch i f).run s).nextId = s.nextId ∧
    ((Prog.launch i f).run s).agenda = s.agenda ∧ ((Prog.launch i f).run s).cur = s.cur ∧
    ((Prog.launch i f).run s).curPc = s.curPc ∧ ((Prog.launch i f).run s).freeCtr = s.freeCtr := by
  rw [Prog.launch, Prog.run_upd]
  cases s.launch? i <;> repeat first | exact rfl | refine ⟨rfl, ?_⟩

/-! What an update leaves at its own key and at the others. -/

/-- The core with the key is what the function makes of it; the others stand. -/
theorem Prog.run_core_get (s : State) (c : Nat) (f : Core → Core) (j : Nat) :
    ((Prog.core c f).run s).core j = if j = c then f (s.core c) else s.core j := by
  simp only [Prog.core, Prog.run_upd, State.core, Tbl.get, Tbl.find_put]
  split <;> rfl

/-- The scope with the key is what the function makes of it; the others stand. -/
theorem Prog.run_scope_get (s : State) (i : Nat) (f : Scope → Scope) (j : Nat) :
    ((Prog.scope i f).run s).scope j = if j = i then f (s.scope i) else s.scope j := by
  simp only [Prog.scope, Prog.run_upd, State.scope, Tbl.get, Tbl.find_put]
  split <;> rfl

/-- The counter with the key is what the function makes of it; the others stand. -/
theorem Prog.run_counter_get (s : State) (d : Nat) (f : Counter → Counter) (j : Nat) :
    ((Prog.counter d f).run s).counter j = if j = d then f (s.counter d) else s.counter j := by
  simp only [Prog.counter, Prog.run_upd, State.counter, Tbl.get, Tbl.find_put]
  split <;> rfl

/-- The slot with the key is what the function makes of it; the others stand. -/
theorem Prog.run_slot_get (s : State) (i : Nat) (f : Slot → Slot) (j : Nat) :
    ((Prog.slot i f).run s).slot j = if j = i then f (s.slot i) else s.slot j := by
  simp only [Prog.slot, Prog.run_upd, State.slot, Tbl.get, Tbl.find_put]
  split <;> rfl

/-- The firmware core with the key is what the function makes of it; the others stand. -/
theorem Prog.run_fw_get (s : State) (d : Nat) (f : FwCore → FwCore) (j : Nat) :
    ((Prog.fw d f).run s).fw j = if j = d then f (s.fw d) else s.fw j := by
  simp only [Prog.fw, Prog.run_upd, State.fw, Tbl.get, Tbl.find_put]
  split <;> rfl

/-- The set of power registers with the key is what the function makes of it; the others stand. -/
theorem Prog.run_powerOf_get (s : State) (d : Nat) (f : Power → Power) (j : Nat) :
    ((Prog.powerOf d f).run s).powerOf j = if j = d then f (s.powerOf d) else s.powerOf j := by
  simp only [Prog.powerOf, Prog.run_upd, State.powerOf, Tbl.get, Tbl.find_put]
  split <;> rfl

/-- The line with the key is what the function makes of it; the others stand. -/
theorem Prog.run_line_get (s : State) (l : Nat) (f : LineRec → LineRec) (j : Nat) :
    ((Prog.line l f).run s).lineRec j = if j = l then f (s.lineRec l) else s.lineRec j := by
  simp only [Prog.line, Prog.run_upd, State.lineRec, Tbl.get, Tbl.find_put]
  split <;> rfl

end Sys2Proof.Machine
end

