-- ==== Sys2Proof/Tests/Slice0.lean ====
section
/-!
SUPPORT. The model's own tests: what each check of well-formedness turns away, what the spec's words decode to, values that the spec
works out, and a witness for the hypotheses of each obligation.
-/

set_option Elab.async false
set_option maxRecDepth 100000

namespace Sys2Proof.Tests

open Sys2Proof.Machine

/-! Small states: a band of 32 threads, a control context and a firmware partition, at an instruction (log 1). -/

/-- Fields of an instruction: LEN, D, A, B, MOD; SET.EN and BS; the extension. -/
def fd (len d a b mod : Nat) (set_ : Bool := false) (bs : Bool := false) (ext : Nat := 0) : Fields :=
  { fieldsOf 0 0 with
    len := BitVec.ofNat 2 len
    pred := 7
    d := BitVec.ofNat 7 d
    a := BitVec.ofNat 7 a
    b := BitVec.ofNat 7 b
    mod := BitVec.ofNat 6 mod
    setEn := set_
    bs
    ext := BitVec.ofNat 64 ext }

/-- A band that issues, and its crew's control context and the partitions of die 0 that do. -/
def band0 : State := State.reset.placeCode 0 []
def ctl0 : State := { State.reset.placeCode 64 [] with cur := 64 }
def fw0 (part : Nat) : State := { State.reset.placeFw (agentKey 0 255 part) [] with cur := agentKey 0 255 part }

/-- The agent of the turn, changed. -/
def withAgent (s : State) (g : Agent → Agent) : State := { s with agents := s.agents.put s.cur (g (s.agent s.cur)) }

/-- An S- or V-register of the agent of the turn holds a value in every lane. -/
def withS (s : State) (n v : Nat) : State := withAgent s (fun a => { a with s := a.s.put n (BitVec.ofNat 64 v) })
def withV (s : State) (n v : Nat) : State := withAgent s (fun a => { a with v := a.v.put n (.uni (BitVec.ofNat 32 v)) })

/-- A V-register holds a multiple of its lane, from a first value. -/
def withLanes (s : State) (n v step : Nat) : State :=
  withAgent s (fun a => { a with v := a.v.put n (.aff (BitVec.ofNat 32 v) (BitVec.ofNat 32 step)) })

theorem test_reset_memory : Memory.wf State.reset.mem = true := by decide

/-! Witnesses of the statements on scalar and vector instructions. -/

def scalarAsks (n : Nat) (f : Fields) : Bool :=
  ((scalarRules f)[n]?).any (fun e => band0.performs e.1 f [.s f.a.toNat, .s f.b.toNat] [.s f.d.toNat] [])

theorem witness_scalar : (∀ n < 11, scalarAsks n (fd 1 4 2 3 0) = true) ∧ scalarAsks 11 (fd 1 4 2 0 0) = true ∧
    scalarAsks 0 (fd 1 0 2 3 0) = true ∧ (band0.agent 0).early (.s 4) band0.t = none := by decide

theorem witness_immediate : band0.performs (.sli (fd 2 4 0 0 0)) (fd 2 4 0 0 0) [] [.s 4] [] = true ∧
    band0.performs (.ssel (fd 1 4 2 3 0)) (fd 1 4 2 3 0) [.p 0, .s 2, .s 3] [.s 4] [] = true := by decide

def intAsks (n : Nat) (f : Fields) : Bool :=
  ((intRules f)[n]?).any (fun e =>
    let x := band0.vin (band0.pktOf e.i f)
    band0.performs e.i f (specReads (specOf .band e.i) f) [.v f.d.toNat]
      [(f.d.toNat, generalResult x (e.sources x) (e.affine x))])

theorem witness_integer : (∀ n < 15, intAsks n (if n = 4 then fd 2 4 2 3 0 else if n < 12 then fd 1 4 2 3 0 else fd 1 4 2 0 0) = true) ∧
    (band0.pktOf (.vadd (fd 1 4 2 3 0)) (fd 1 4 2 3 0)).act.getLsbD 31 = true ∧
    (band0.agent 0).early (.v 4) band0.t = none := by decide

def laneAsks (rules : Fields → List LaneRule) (n : Nat) (f : Fields) : Bool :=
  ((rules f)[n]?).any (fun e =>
    let x := band0.vin (band0.pktOf e.i f)
    e.ok x && band0.performs e.i f (specReads (specOf .band e.i) f) [.v f.d.toNat] [(f.d.toNat, !x.covers || e.general x)])

theorem witness_lanes : ∀ e ∈ [(0, fd 1 4 2 3 0), (1, fd 1 4 2 0 0), (2, fd 2 4 0 3 0), (3, fd 1 4 2 3 0), (4, fd 1 4 2 0 0),
    (5, fd 1 4 2 0 0), (6, fd 1 4 2 3 0), (7, fd 1 4 2 3 0 false true), (8, fd 1 4 2 0 0)],
    laneAsks (fun f => moveRules f ++ reduceRules f ++ blockRules f) e.1 e.2 = true := by decide

theorem witness_float : ∀ n < 16, laneAsks floatRules n
    (if n = 3 then fd 2 4 2 3 0 else if n = 6 ∨ 8 ≤ n then fd 1 4 2 0 0 else fd 1 4 2 3 0) = true := by decide

theorem witness_compare : ∀ n < 3, ((compareRules (fd 1 4 2 3 0))[n]?).any (fun e =>
    band0.performs e.i (fd 1 4 2 3 0) e.reads [.p 4] []) = true ∧ ((compareRules (fd 1 7 2 3 0))[n]?).any (fun e =>
    band0.performs e.i (fd 1 7 2 3 0) e.reads [.p 7] []) = true := by decide

theorem witness_float_reduce : let x : VIn := { band0.vin (band0.pktOf (.vscan (fd 1 4 2 0 2)) (fd 1 4 2 0 2)) with act := 0x5F }
    2 ≤ x.f.m 2 0 ∧ x.f.m 5 3 = 0 ∧ x.f.b.getLsbD 0 = false ∧ x.f.b.getLsbD 1 = false := by decide

/-! Witnesses of the statements on memory, scratchpad and the special-purpose vector instructions. -/

/-- The crew of these states, changed: a scratchpad of 4 KiB, and its tile T3 in entry 5, of 4 rows of 32 elements. -/
def withCrew (s : State) (g : Crew → Crew) : State := { s with crews := s.crews.put 64 (g (s.crews.get 64 { core := 0, launch := 0, bands := [] })) }
def withPad (s : State) : State := withCrew s (fun c => { c with scratchSize := 4096 })
def withTile (s : State) (st : Nat) (fmt : Nat := 0) (n : Nat := 3) : State :=
  let t := withCrew (withPad s) (fun c => { c with tiles := c.tiles.put n (n + 2) })
  { t with cores := t.cores.put 0 { t.core 0 with
      tiles := (t.core 0).tiles.put (n + 2) (BitVec.ofNat 128 (2 ^ 110 * st + 2 ^ 106 + 2 ^ 100 * fmt + 2 ^ 80 * 32 + 2 ^ 64 * 4)) } }

/-- A band whose V2 has 64 bytes a lane from 0x20000 on, and whose V4 on hold zero. -/
def memBand : State := withLanes band0 2 0x20000 64

def accessAsks (n : Nat) (f : Fields) : Bool :=
  ((accessRules f)[n]?).any (fun e => memBand.performs e.i f e.reads e.writes e.dests && e.ok memBand &&
    (List.range 32).all (fun l => memBand.reaches 0 e.bytes e.acc e.op (laneAddr f (memBand.regs 0) l)))

theorem witness_access : memBand.slotFor 0 ≠ .none ∧ ∀ e ∈ [(0, fd 1 4 2 3 0 true), (1, fd 2 4 2 3 0 true false 0x0D), (2, fd 2 4 2 3 0 true),
    (3, fd 1 4 2 3 0), (4, fd 2 4 2 3 0), (5, fd 1 4 2 3 0 true)], accessAsks e.1 e.2 = true := by decide

/-- Its page has the entry `e`; some of its lanes have another page. -/
def paged (e : Nat) : State := { memBand with mem := Memory.writes memBand.mem 0x3000 (leBytes 8 (2 ^ 54 * 0x1FF + e)) }
def twoPages : State := withAgent band0 (fun a => { a with
  v := a.v.put 2 (.gen ((List.range 32).map (fun l => BitVec.ofNat 32 (if l < 16 then 0x20000 + 64 * l else 2 ^ 30 + 64 * l)))) })

/-- The load of a band that fails a check: the state, and which lanes fail. -/
def ldF : Fields := fd 1 4 2 3 0 true
def pageOfLane (s : State) (l : Nat) : Xlat := s.xlatCore 0 0 (laneAddr ldF (s.regs 0) l)
def failing : List (State × (State → Nat → Bool)) := [
  (withLanes band0 2 0x20001 64, fun s l => (laneAddr ldF (s.regs 0) l).toNat % 4 != 0),
  (withS memBand 3 (2 ^ 60), fun s l => pageOfLane s l == .access),
  (paged 0x35, fun s l => match pageOfLane s l with
    | .ok t => !permits .load t 0
    | _ => false),
  ({ memBand with poison := [0x20000 / 32] }, fun s l => match pageOfLane s l with
    | .ok t => t.place == .slice && s.poisoned t.addr 4
    | _ => false),
  (withS memBand 3 (2 ^ 30), fun s l => pageOfLane s l == .absent 2),
  (twoPages, fun s l => pageOfLane s l == .absent 2)]

theorem witness_access_faults : (∀ e ∈ failing, ((accessRules ldF)[0]?).any (fun r => e.1.performs r.i ldF r.reads r.writes r.dests && r.ok e.1) = true ∧
      e.1.slotFor 0 ≠ .none ∧ e.1.handles 0 = true ∧ (∀ l < 32, e.1.walkPoisoned 0 (laneAddr ldF (e.1.regs 0) l) = false)) ∧
    (failing.map (fun e => ((List.range 32).filter (e.2 e.1)).head?)) = [some 0, some 0, some 0, some 0, some 0, some 16] ∧
    (∀ s ∈ [withS memBand 3 (2 ^ 30), twoPages], s.openFault 0 0 (laneAddr ldF (s.regs 0) 16) = none ∧ s.queued 0 = 0) ∧
    (∀ l < 16, twoPages.reaches 0 4 .load 0 (laneAddr ldF (twoPages.regs 0) l) = true) := by decide

/-- Its page has a lease. -/
def leased : State := { memBand with mem := Memory.writes memBand.mem 0x3000 (leBytes 8 (2 ^ 54 * 0x1FF + 2 ^ 52 + 0x3D)) }

theorem witness_prefetch : leased.performs (.pref (fd 1 0 2 3 0)) (fd 1 0 2 3 0) [.v 2, .s 3] [] [] = true ∧
    (leased.prefHits (leased.pktOf (.pref (fd 1 0 2 3 0)) (fd 1 0 2 3 0)) 0).isEmpty = false := by decide

def padBand : State := withPad (withLanes band0 2 64 16)
def tileBand (st : Nat) : State := withTile (withLanes band0 2 0 4) st

def padAsks (n : Nat) (s : State) (f : Fields) (loads : Bool) : Bool :=
  ((if loads then padForms f (.lds f) (.ldsT f) else padForms f (.sts f) (.stsT f))[n]?).any (fun e =>
    (if loads then s.performs e.1 f e.2.1 (groupRegs f.d.toNat (sizeRegs (f.m 2 0))) (groupDests f.d.toNat (sizeRegs (f.m 2 0)))
     else s.performs e.1 f (groupRegs f.d.toNat (sizeRegs (f.m 2 0)) ++ e.2.1) [] []) &&
    (List.range 32).all (fun l => (e.2.2 s (s.pktOf e.1 f) (sizeBytes (f.m 2 0)) loads l).isSome))

theorem witness_scratchpad : padAsks 0 padBand (fd 1 4 2 3 0 true) true = true ∧ padAsks 0 padBand (fd 1 4 2 3 0) false = true ∧
    padAsks 1 (tileBand 2) (fd 1 4 2 3 8 true) true = true ∧ padAsks 1 (tileBand 0) (fd 1 4 2 3 8) false = true ∧
    padBand.poisoned (Space.scratchAt 0 64) 4 = false := by decide

/-- Scratchpad accesses that fail: not aligned, past the end, of a poisoned sector; a tile form without its tile. -/
def padFails : List State := [withPad (withLanes band0 2 65 16), withPad (withLanes band0 2 4096 16),
  { padBand with poison := [Space.scratchAt 0 64 / 32] }]

theorem witness_scratchpad_faults : (∀ s ∈ padFails, ((padRules (fd 1 4 2 3 0 true))[0]?).any (fun e =>
      s.performs e.i (fd 1 4 2 3 0 true) e.reads e.writes e.dests) = true ∧ s.handles 0 = true ∧ s.padDone 0 s.nextId = true) ∧
    padFails.map (fun s => (laneAddr (fd 1 4 2 3 0) (s.regs 0) 0).toNat) = [65, 4096, 64] ∧ (padBand.scratchOf 0).2 = 4096 ∧
    padFails.map (fun s => s.poisoned ((s.scratchOf 0).1 + 64) 4) = [false, false, true] ∧
    padBand.performs (.ldsT (fd 1 4 2 3 8 true)) (fd 1 4 2 3 8 true) [.v 2] (groupRegs 4 1) (groupDests 4 1) = true ∧
    padBand.tile? (padBand.agent 0).crew 3 = none := by decide

theorem witness_scratch_atomic : padBand.performs (.atoms (fd 1 4 2 3 0 true)) (fd 1 4 2 3 0 true)
      (atomRegs (fd 1 4 2 3 0 true) ++ [.v 2, .s 3]) [.v 4] [(4, true)] = true ∧
    (∀ l < 32, (padBand.padAddr (padBand.pktOf (.atoms (fd 1 4 2 3 0 true)) (fd 1 4 2 3 0 true)) 4 true l).isSome = true) := by decide

/-- An access to the scratchpad is in flight. -/
def onPad (kind : OpKind) : State := { padBand with ops := [{ id := 5, agent := 0, kind, lanes := 3, tok := some 1 }] }

theorem witness_scratch_performs : ∀ k ∈ [OpKind.lds 4 0 [(0, 0x10000000040), (1, 0x10000000044)],
      .sts [(0x10000000040, [1, 2, 3, 4]), (0x10000000044, [5, 6, 7, 8])], .atoms 4 0 [(0, 0x10000000040, 7, 0), (1, 0x10000000044, 9, 0)]],
    ((onPad k).op? 5).map Op.kind = some k ∧ (onPad k).padDone 0 5 = true ∧ ((onPad k).agent 0).liveMask ≠ 0 ∧
    ((onPad k).agents.find 0).isSome = true ∧ Memory.wf (onPad k).mem = true ∧ (onPad k).poisoned (0x10000000040) 8 = false := by decide

def sctl : State := withS ctl0 2 0x20000

theorem witness_scalar_memory : sctl.performs (.sld (fd 1 4 2 0 6 true)) (fd 1 4 2 0 6 true) [.s 2] [.s 4] [] = true ∧
    sctl.performs (.sst (fd 1 0 2 3 6)) (fd 1 0 2 3 6) [.s 2, .s 3] [] [] = true ∧
    sctl.reaches 64 8 .load 0 (sctl.readS 64 2) = true ∧ sctl.reaches 64 8 .store 0 (sctl.readS 64 2) = true ∧ sctl.slotFor 64 ≠ .none := by decide

def sramFw : State := withS (fw0 1) 2 (2 ^ 22)

theorem witness_scalar_sram : sramFw.performs (.sld (fd 1 4 2 0 6 true)) (fd 1 4 2 0 6 true) [.s 2] [.s 4] [] = true ∧
    sramFw.performs (.sst (fd 1 0 2 3 6)) (fd 1 0 2 3 6) [.s 2, .s 3] [] [] = true ∧
    (∀ w, sramFw.sramOpen 0 1 (2 ^ 22) 8 w = true) ∧ (sramFw.agent sramFw.cur).kind = .fw ∧ unitOf sramFw.cur = 1 ∧
    (sramFw.readS sramFw.cur 2).toNat = 2 ^ 22 := by decide

def groupAsks (n : Nat) (f : Fields) : Bool :=
  ((groupRules f)[n]?).any (fun e =>
    let x := band0.vin (band0.pktOf e.i f)
    band0.performs e.i f e.reads ((e.words x).map (fun r => .v r.1)) (e.dests x))

theorem witness_group : ∀ e ∈ [(0, fd 1 16 4 3 0), (1, fd 2 16 4 0 0), (2, fd 2 8 4 0 0 false false 0x100), (3, fd 2 8 16 3 0 false false 0x100),
    (4, fd 1 8 0 0 0), (5, fd 1 4 2 0 0), (6, fd 1 4 2 0 1)], groupAsks e.1 e.2 = true := by decide

/-- A ray at a fresh node of one leaf child with one primitive, of one inner child, and of none; a weight that counts and one that does
not. -/
theorem witness_ray_steps : (0x800 : Nat) / 256 % 4 ≠ 3 ∧ (0x800 : Nat) % 256 < 32 ∧ ((0x800 : W32).getLsbD 11) = true ∧
    (0x10011 : Nat).testBit 0 = true ∧ (0x10011 : Nat).testBit 4 = true ∧ (0x10011 : Nat) / 2 ^ 16 % 16 = 1 ∧
    (1 : Nat).testBit 4 = false ∧ (∀ p < 4, (0 : Nat).testBit p = false) ∧ (0x300 : Nat) / 256 % 4 = 3 := by decide

theorem witness_weights : noWeight 0x7FC00000 ∧ ¬ noWeight 0x3F800000 ∧ ¬ noWeight 0x80000000 := by
  simp only [noWeight]
  decide

/-- A band whose ray's node, primitive and light words are zero, with a light tree at 0x20000 whose root is a leaf. -/
def rayBand : State := withS band0 3 0x20000
def walkBand : State := withV rayBand 8 0xFFFFFFFF
def lightBand : State :=
  let s := walkBand
  { s with mem := Memory.writes s.mem 0x20018 [1] }

theorem witness_ray :
    rayBand.performs (.rtbox (fd 1 4 32 3 0 true)) (fd 1 4 32 3 0 true) ((boxReads (fd 1 4 32 3 0)).map Reg.v ++ [.s 3])
      (groupRegs 4 7) ((List.range 7).map (fun i => (4 + i, false))) = true ∧
    rayAction ((rayBand.readV 0 47).lane 0) = 0 ∧ rayBand.reaches 0 64 .load 0 0x20000 = true ∧
    rayBand.performs (.rttri (fd 1 4 32 3 0 true)) (fd 1 4 32 3 0 true) ((triReads (fd 1 4 32 3 0)).map Reg.v ++ [.s 3])
      (groupRegs 4 5) ((List.range 5).map (fun i => (4 + i, false))) = true ∧
    (∀ i < 3, rayBand.reaches 0 16 .load 0 (BitVec.ofNat 64 (0x20000 + 16 * i)) = true) ∧ rayBand.slotFor 0 ≠ .none := by decide

theorem witness_light :
    let f := fd 2 4 32 3 0 true
    lightBand.performs (.ltwalk f) f (groupRegs 4 5 ++ groupRegs 32 3 ++ [.s 3]) (groupRegs 4 5)
      ((List.range 5).map (fun i => (4 + i, false))) = true ∧ lightBand.loadsDone 0 = true ∧ lightBand.reqs = [] ∧ (lightBand.readS 0 3).toNat % 64 = 0 ∧
    (∀ l < 32, lightBand.walkReady (lightBand.pktOf (.ltwalk f) f) l = true) ∧
    (lightBand.walkNode (lightBand.pktOf (.ltwalk f) f) 0).leaf = true ∧ lightBand.slotFor 0 ≠ .none ∧
    walkBand.walkReady (walkBand.pktOf (.ltwalk f) f) 0 = true ∧ (walkBand.walkNode (walkBand.pktOf (.ltwalk f) f) 0).leaf = false := by
  decide

/-- An operation of one lane whose bytes have arrived. -/
def gathered (kind : OpKind) : State :=
  let o : Op := { id := 5, agent := 0, kind, lanes := 1, tok := some 1 }
  let r : Req := { id := 3, op := 5, agent := 0, core := 0, place := .slice, access := .load, line := 0x400, stage := .answered
                   parts := [{ lane := 0, piece := 0, addr := 0x20000, va := 0x20000, len := 64 }]
                   got := [List.replicate 64 0] }
  { band0 with
    ops := [o]
    reqs := [r] }

theorem witness_group_result : ∀ k ∈ [OpKind.rtbox 4 (List.replicate 32 (List.replicate 16 0)) false,
      .rttri 4 0 (List.replicate 32 (List.replicate 16 0)) true, .walk 4 (List.replicate 32 [0, 0, 0, 0, 0xFFFFFFFF, 0, 0, 0])
        (List.replicate 32 (List.replicate 32 0)) false],
    ((gathered k).op? 5).any (fun o => ((gathered k).groupResult o).isSome && o.held == 0 && o.clash == []) = true ∧
    ((gathered k).agents.find 0).isSome = true ∧
    (∀ r ∈ (gathered k).reqs, r.op = 5 → r.stage = .answered ∧ r.access = .load ∧ r.failed = false) := by decide

/-! Witnesses of the statements on special registers, control flow, synchronisation and tasks. -/

/-- The launch of these states, changed. -/
def withLaunch (s : State) (g : Launch → Launch) : State := { s with launches := s.launches.map (fun e => (e.1, g e.2)) }

/-- Threads of the agent of the turn, changed. -/
def withThreads (s : State) (g : Nat → Thread → Thread) : State :=
  withAgent s (fun a => { a with threads := a.threads.map (fun e => (e.1, g e.1 e.2)) })

/-- A firmware partition of a die with a crew on core 0. -/
def fwWith (part : Nat) : State :=
  { (State.reset.placeCode 0 []).placeFw (agentKey 0 255 part) [] with cur := agentKey 0 255 part }

theorem witness_roots : ∀ e ∈ [(float1Rule (.fsqrt (fd 1 4 2 0 0 true)) (fd 1 4 2 0 0 true) fpSqrt, fd 1 4 2 0 0 true),
    (float2Rule (.fdiv (fd 1 4 2 3 0 true)) (fd 1 4 2 3 0 true) fpDiv, fd 1 4 2 3 0 true)],
    band0.performs e.1.i e.2 (specReads (specOf .band e.1.i) e.2) [.v 4]
      [(4, !(band0.pktOf e.1.i e.2).covers || e.1.general (band0.vin (band0.pktOf e.1.i e.2)))] = true := by decide

theorem witness_special_read : (∀ c ∈ [0x04, 0x05, 0x06, 0x0A, 0x0B, 0x0C, 0x0D, 0x0E, 0x0F],
      band0.performs (.sread (fd 1 4 c 0 0 true)) (fd 1 4 c 0 0 true) [] [.s 4] [] = true) ∧
    (∀ c ∈ [0x0A, 0x0B, 0x0F],
      band0.performs (.sreadClr (fd 1 4 c 0 1 true)) (fd 1 4 c 0 1 true) [] [.s 4] [] = true) := by decide

def wr (code : Nat) : Fields := fd 1 code 2 3 0

def writeAsks (n v b : Nat) : Bool :=
  let s := withS (withS (fwWith 1) 2 v) 3 b
  ((agentWrites (wr n))[n]?).any (fun e => s.performs e.i (wr n) [.s 2, .s 3] [] [] && s.writer == 1 &&
    e.ok (s.readS s.cur 3) (s.readS s.cur 2))

theorem witness_agent_write : (∀ n < 6, writeAsks n 1 0 = true) ∧ writeAsks 2 1 (2 ^ 20) = true ∧ writeAsks 3 63 0 = true := by
  decide

def asksWrite (part v b : Nat) (i : Fields → Instr) (code : Nat) : Bool :=
  let s := withS (withS (fwWith part) 2 v) 3 b
  s.performs (i (wr code)) (wr code) [.s 2, .s 3] [] [] && s.writer == part

theorem witness_module_write : asksWrite 1 5 0x300 .swriteTilelo 6 = true ∧ asksWrite 1 5 0x300 .swriteTilehi 7 = true ∧
    asksWrite 1 1 0 .swriteFenced 8 = true ∧ asksWrite 0 (2 ^ 33 - 1) 5 .swriteIndir 10 = true ∧
    asksWrite 2 (2 ^ 18 - 1) 7 .swriteRoute 12 = true ∧ asksWrite 2 383 0 .swriteNode 13 = true := by decide

/-- INDIR entry 3 of controller 5 of die 0 with frame 3 in a piece; copying into another one, or not. -/
def indirect (old : W64) : State := let s := withS (fwWith 0) 3 0x30005; { s with indir := [(0x50003, old)] }

def indirAsks (old v : W64) (copies : Bool) : Bool :=
  let s := withS (indirect old) 2 v.toNat
  s.performs (.swriteIndir (wr 10)) (wr 10) [.s 2, .s 3] [] [] && s.writer == 0 && s.indirOf 0 5 3 == old &&
    (indirCopying old && !(indirCopying v && indirNew v == indirNew old)) == copies

theorem witness_indir : indirAsks 7 7 false = true ∧ indirAsks 7 9 false = true ∧ indirAsks 0x100090007 9 true = true ∧
    indirAsks 0x100090007 7 true = true ∧ indirPiece 0x100090007 = 7 ∧ indirNew 0x100090007 = 9 := by decide

theorem witness_pewter : asksWrite 0 8 0 .swritePewter 11 = true ∧ asksWrite 0 0 0 .swritePewter 11 = true ∧
    asksWrite 2 9 0 .swriteHbeat 14 = true := by decide

/-- A fault record that a parked thread of band 0 waits for, and a partition in PROBATION. -/
def aRecord : FaultRec :=
  { die := 0, serial := 7, va := 0x50000, ctx := 0, core := 0, agent := 0, access := 0, slot := 0, level := 0, time := 0, lanes := 1 }
def parkedFw : State := withS (withS { fwWith 0 with faults := [aRecord] } 2 (2 ^ 32 + 7)) 3 0
def onTrial (g : Partition → Partition) : State :=
  { fwWith 2 with parts := (fwWith 2).parts.put 2 (g { (fwWith 2).part 0 2 with phase := .probation, staged := some {} }) }
def beating : State := onTrial id
/-- A new image that has beaten, before and after its 500 ms; one whose block was not imported. -/
def beatenAt (t : Nat) : State := { onTrial (fun p => { p with firstBeat := some 3, lastBeat := t - 6 }) with t }
def notImported : State := onTrial (fun p => { p with imported := false })

/-- Threads 1 and 2 of band 0 wait at 0x10000 for a page. -/
def parkedBand (kind : Nat) : State :=
  let s := { fwWith 0 with faults := [aRecord] }
  withS (withS { s with agents := s.agents.put 0 { s.agent 0 with
    threads := (s.agent 0).threads.map (fun e => (e.1, if e.1 = 1 ∨ e.1 = 2 then { e.2 with st := .parked 0 7 (BitVec.ofNat 64 (0x50000 + e.1)) } else e.2)) } }
    2 (2 ^ 32 * kind + 7)) 3 0

theorem witness_beat_and_reply :
    beating.performs (.swriteHbeat (wr 14)) (wr 14) [.s 2, .s 3] [] [] = true ∧
    (beating.part 0 2).phase = .probation ∧ (beating.part 0 2).firstBeat = none ∧
    parkedFw.performs (.swriteFreply (wr 9)) (wr 9) [.s 2, .s 3] [] [] = true ∧ parkedFw.writer = 0 ∧
    (parkedFw.readS parkedFw.cur 2).toNat / 2 ^ 32 = 1 ∧ (parkedFw.faultNamed 0 7).isSome = true := by decide

theorem witness_later_beats : (∀ s ∈ [beating, beatenAt 9, beatenAt 1500000003, notImported],
      s.performs (.swriteHbeat (wr 14)) (wr 14) [.s 2, .s 3] [] [] = true ∧ (s.part 0 2).phase = .probation ∧ s.writer = 2) ∧
    (beating.part 0 2).imported = true ∧ beating.t ≤ (beating.part 0 2).switchAt + 60000000 ∧ (notImported.part 0 2).imported = false ∧
    (∀ t ∈ [9, 1500000003], ((beatenAt t).part 0 2).firstBeat = some 3 ∧ ((beatenAt t).part 0 2).staged = some {} ∧
      t ≤ ((beatenAt t).part 0 2).lastBeat + 6000000) ∧ 9 < 3 + 1500000000 ∧ 3 + 1500000000 ≤ 1500000003 := by decide

theorem witness_denied_reply : ∀ kind ∈ [1, 2, 3], (parkedBand kind).performs (.swriteFreply (wr 9)) (wr 9) [.s 2, .s 3] [] [] = true ∧
    (parkedBand kind).writer = 0 ∧ ((parkedBand kind).readS (parkedBand kind).cur 2).toNat / 2 ^ 32 = kind ∧
    (parkedBand kind).faultNamed 0 7 = some aRecord ∧ (parkedBand kind).cur ≠ 0 ∧ ((parkedBand kind).agent 0).waitingFor 0 7 = 6 ∧
    (lanesOf (6 : W32)).head? = some 1 ∧ (∀ j ∈ [1, 2], (((parkedBand kind).agent 0).thread j).pc = 0x10000) ∧
    ((parkedBand kind).agent 0).live = true ∧ ((parkedBand kind).agent 0).landing = none ∧ (parkedBand kind).handles 0 = true ∧
    (∀ c ∈ (parkedBand kind).cores, c.2.copyQ = []) ∧ (∀ x ∈ (parkedBand kind).scopes, x.2.ackWait = none) ∧
    (∀ x ∈ (parkedBand kind).launches, x.2.traceWait.find 0 = none) := by decide

theorem witness_branch : band0.performs (.bra (fd 1 4 2 0 0)) (fd 1 4 2 0 0) [] [] [] = true ∧
    band0.performs (.brc (fd 1 4 2 0 0)) (fd 1 4 2 0 0) [.p 0] [] [] = true ∧
    band0.performs (.call (fd 1 4 2 0 0)) (fd 1 4 2 0 0) []
      (linkRegs (band0.pktOf (.call (fd 1 4 2 0 0)) (fd 1 4 2 0 0)) 4)
      (linkDests (band0.pktOf (.call (fd 1 4 2 0 0)) (fd 1 4 2 0 0))) = true ∧
    band0.performs (.ret (fd 1 0 2 0 0)) (fd 1 0 2 0 0) (linkRegs (band0.pktOf (.ret (fd 1 0 2 0 0)) (fd 1 0 2 0 0)) 2) [] [] = true ∧
    ctl0.performs (.call (fd 1 4 2 0 0)) (fd 1 4 2 0 0) [] [.s 4] [] = true := by decide

def shaderBand (index : Nat) : State :=
  withLaunch (withV band0 2 index) (fun l => { l with kernel := { l.kernel with shaderBase := 0x20000, shaderLimit := 4 } })
def callt : Fields := fd 1 4 2 0 0 true

theorem witness_table_call : (∀ n ∈ [3, 4],
      (shaderBand n).performs (.callt callt) callt [.v 2] (linkRegs ((shaderBand n).pktOf (.callt callt) callt) 4)
        (linkDests ((shaderBand n).pktOf (.callt callt) callt)) = true) ∧
    ((shaderBand 3).shaderTable 0).2 = 4 ∧ (shaderBand 3).slotFor 0 ≠ .none ∧ (shaderBand 3).reaches 0 8 .load 0 0x20018 = true ∧ (shaderBand 4).handles 0 = true := by
  decide

/-- P2 holds for lanes 0 and 1 only. -/
def halfBand : State := withAgent band0 (fun a => { a with p := [(2, 3)] })
def half (f : Fields) : Fields := { f with pred := 2 }

theorem witness_join : (withS band0 2 0xFFFFFFFF).performs (.bjoin (fd 1 0 2 0 0)) (fd 1 0 2 0 0) [.s 2] [] [] = true ∧
    band0.performs (.bjoinAll (fd 1 0 0 0 1)) (fd 1 0 0 0 1) [] [] [] = true ∧
    halfBand.performs (.bjoinAll (half (fd 1 0 0 0 1))) (half (fd 1 0 0 0 1)) [] [] [] = true ∧
    (∀ e ∈ (band0.agent 0).threads, e.2.st.joining = none) := by decide

/-- A crew of two bands; the second one stands at the barrier, or does not. -/
def twoBands (waits : Bool) : State :=
  let s := withCrew band0 (fun c => { c with bands := [0, 1] })
  { s with agents := s.agents.put 1 { (s.agent 0) with
      band := 1
      threads := [(0, { pc := 0x20000, restart := 0x20000, st := if waits then .bar else .ready })] } }

theorem witness_barrier : ∀ b : Bool, (twoBands b).performs (.bar (fd 1 0 0 0 0)) (fd 1 0 0 0 0) [] [] [] = true ∧
    (twoBands b).crewFence 0 (twoBands b).nextId = true ∧ ((twoBands b).agent 1).atBar = b ∧
    ((twoBands b).agent 1).liveMask ≠ 0 ∧ ((twoBands b).crew? 64).map (fun c => c.parts 64) = some [0, 1, 64] ∧
    ((twoBands b).agent 64).liveMask = 0 := by decide

theorem witness_gbar : ∀ b : Bool, (withCrew band0 (fun c => { c with member := b })).performs (.gbar (fd 1 4 0 0 0 true)) (fd 1 4 0 0 0 true)
      [] [.s 4] [] = true ∧
    (((withCrew band0 (fun c => { c with member := b })).crewOf 0).map Crew.member).getD false = b := by decide

/-- A store of the band that has not reached its slice, and a posted store that failed. -/
def storing : State := { band0 with
  reqs := [{ id := 0, op := 0, agent := 0, core := 0, place := .slice, access := .store, line := 9, parts := [] }] }
def failedBand : State := withAgent band0 (fun a => { a with failed := [(3, 0x70000, true), (3, 0x70080, false)] })

theorem witness_fence : (∀ e ∈ [(Instr.fenceCrew (fd 1 0 0 0 0), fd 1 0 0 0 0), (.fenceDev (fd 1 0 0 0 1), fd 1 0 0 0 1),
      (.fenceSys (fd 1 0 0 0 2), fd 1 0 0 0 2)],
      band0.performs e.1 e.2 [] [] [] = true ∧ storing.performs e.1 e.2 [] [] [] = true ∧
      failedBand.performs e.1 e.2 [] [] [] = true) ∧
    storing.crewFence 0 storing.nextId = false ∧ storing.devFence 0 storing.nextId = false ∧
    storing.sysFence 0 storing.nextId = false ∧ band0.crewFence 0 band0.nextId = true ∧ band0.devFence 0 band0.nextId = true ∧
    band0.sysFence 0 band0.nextId = true ∧ failedBand.sysFence 0 failedBand.nextId = true ∧ failedBand.handles 0 = true := by decide

/-- A control context with a queue push to a peer in flight, and one whose handler waits for it. -/
def pushingCtl : State := { ctl0 with ops := [{ id := 0, agent := 64, kind := .push 4 7 0 none, lanes := 1, tok := none }] }

theorem witness_fence_conditions : pushingCtl.crewFence 64 1 = true ∧ pushingCtl.devFence 64 1 = true ∧ pushingCtl.sysFence 64 1 = false ∧
    ({ pushingCtl with ops := pushingCtl.ops.map (fun o => { o with kind := .spawn 4 none [] none }) } : State).devFence 64 1 = false ∧
    (pushingCtl.agent 64).kind = .ctl := by decide

theorem witness_counter_wait : ∀ n ∈ [0, 2],
    let s := { withS band0 2 (2 ^ 15 + 5) with counters := [(5, { count := n, status := 3 })] }
    s.performs (.cwait (fd 1 4 2 0 0 true)) (fd 1 4 2 0 0 true) [.s 2] [.s 4] [] = true ∧
    s.performs (.cwaitPoll (fd 1 4 2 0 1 true)) (fd 1 4 2 0 1 true) [.s 2] [.s 4] [] = true ∧
    (s.readS 0 2).toNat = 2 ^ 15 + 5 ∧ (s.counter 5).count = n := by decide

/-- No thread's P2 is true. -/
def voidBand (s : State) : State := withAgent s (fun a => { a with p := [(2, 0)] })

theorem witness_void_packet : (∀ e ∈ [(band0, Instr.vadd (half (fd 1 4 2 3 0)), half (fd 1 4 2 3 0)), (band0, .ld (half (fd 1 4 2 3 0 true)), half (fd 1 4 2 3 0 true)),
      (band0, .bar (half (fd 1 0 0 0 0)), half (fd 1 0 0 0 0)), (ctl0, .carve (half (fd 1 4 2 0 0 true)), half (fd 1 4 2 0 0 true)),
      (ctl0, .scope (half (fd 1 4 2 0 0 true)), half (fd 1 4 2 0 0 true))],
      (voidBand e.1).voids e.2.1 e.2.2 = true ∧ (opcodeOf e.2.1).map (fun o => o.2.2) = some e.2.2 ∧ (voidBand e.1).handles e.1.cur = true) ∧
    ownCheck (.carve (half (fd 1 4 2 0 0 true))) = true ∧ ownCheck (.vadd (half (fd 1 4 2 3 0))) = false := by decide

theorem witness_nop_exit : band0.performs (.nop (fd 1 0 0 0 0)) (fd 1 0 0 0 0) [] [] [] = true ∧
    band0.performs (.yield (fd 1 0 0 0 0)) (fd 1 0 0 0 0) [] [] [] = true ∧
    halfBand.performs (.exit (half (fd 1 0 0 0 0))) (half (fd 1 0 0 0 0)) [] [] [] = true ∧
    (halfBand.agent 0).received = true ∧ (halfBand.agent 0).hmask = 0 ∧
    ((halfBand.agent 0).readyMask &&& ~~~(halfBand.pktOf (.exit (half (fd 1 0 0 0 0))) (half (fd 1 0 0 0 0))).act).getLsbD 2 = true := by
  decide

/-- A band at the last word of a fetch block. -/
def atEnd : State := withThreads band0 (fun _ t => { t with pc := 0x1001C })

theorem witness_trap : band0.performs (.trap (fd 1 0 2 0 0)) (fd 1 0 2 0 0) [.s 2] [] [] = true ∧ band0.handles 0 = true ∧
    band0.issues (.sadd (fd 1 4 2 3 9)) (fd 1 4 2 3 9) = true ∧ crosses 0x10000 (fd 1 4 2 3 9) = false ∧
    checkWords .band false 126 (.sadd (fd 1 4 2 3 9)) = some 6 ∧ atEnd.issues (.sadd (fd 1 4 2 3 0)) (fd 1 4 2 3 0) = true ∧
    crosses (atEnd.issuePc.getD 0) (fd 1 4 2 3 0) = true ∧ atEnd.handles 0 = true := by decide

theorem witness_unassigned : band0.issuePc = some 0x10000 ∧ (band0.agent 0).packetAt 0x10000 ≠ 0 ∧ band0.mayIssue 0 = true ∧
    atEnd.issuePc = some 0x1001C ∧ (atEnd.agent 0).packetAt 0x1001C ≠ 0 ∧ atEnd.mayIssue 0 = true := by decide

def inHandler : State := withAgent band0 (fun a => { a with hmask := 0xFFFFFFFF, tpc := 0x10000 })

theorem witness_return : inHandler.performs (.eret (fd 1 0 0 0 0)) (fd 1 0 0 0 0) [] [] [] = true ∧
    inHandler.performs (.eretNext (fd 1 0 0 0 1)) (fd 1 0 0 0 1) [] [] [] = true ∧
    (inHandler.pktOf (.eret (fd 1 0 0 0 0)) (fd 1 0 0 0 0)).act &&& ~~~(inHandler.agent 0).hmask = 0 := by decide

theorem witness_no_handler : ∀ i ∈ [Instr.eret (fd 1 0 0 0 0), .eret (half (fd 1 0 0 0 0))],
    (voidBand band0).issues i (if i = .eret (fd 1 0 0 0 0) then fd 1 0 0 0 0 else half (fd 1 0 0 0 0)) = true ∧
    ((voidBand band0).pktOf i (half (fd 1 0 0 0 0))).lanes &&& ~~~((voidBand band0).agent 0).hmask ≠ 0 ∧
    (voidBand band0).encodingOk i (if i = .eret (fd 1 0 0 0 0) then fd 1 0 0 0 0 else half (fd 1 0 0 0 0)) = true ∧
    (voidBand band0).handles 0 = true := by decide

def spawn : Fields := fd 2 4 8 3 0 true
def noTask : State := withCrew band0 (fun c => { c with task := none })
def pushing : State :=
  let s := withS band0 3 0x20000
  { s with mem := Memory.writes s.mem 0x20000 (leBytes 8 (3 * 2 ^ 16)) }
def qpush : Fields := fd 2 4 2 3 0 true

theorem witness_spawn_push : (∀ s ∈ [band0, noTask], s.performs (.spawn spawn) spawn
      ([.s 8, .s 9, .s 10, .s 11] ++ [.s 3] ++ if spawn.cs then [.s spawn.cReg] else []) [.s 4] [] = true) ∧
    band0.holdsTask 0 = true ∧ noTask.holdsTask 0 = false ∧
    pushing.performs (.qpush qpush) qpush [.s 2, .s 3] [.s 4] [] = true ∧ pushing.loadsDone 0 = true ∧
    pushing.reaches 0 8 .load 0 0x20000 = true ∧ pushing.reqs = [] ∧
    pkLen (unitsOf 1 (pushing.bytesAt 0 0x20000 8)) = 3 ∧ pushing.slotFor 0 ≠ .none ∧
    (pushing.lineRec (lineOf (pushing.physical 0 0x20000))).owners = [] ∧
    (∀ e ∈ rangeParts 0 0x20008 16, (pushing.lineRec (lineOf (pushing.physical 0 e.va))).owners = []) ∧
    (∀ e ∈ rangeParts 0 0x20008 16, pushing.serves 0 e.len .load 0 e.va = true) := by decide

/-- A spawn in flight of an agent whose task has ended, and one that an earlier store holds up. -/
def spawning (s : State) : State := { s with ops := [{ id := 5, agent := 0, kind := .spawn 4 none [1, 2, 3, 4] none, lanes := 1, tok := some 1 }] }

theorem witness_spawn_performs : (spawning noTask).devFence 0 5 = true ∧ (spawning storing).devFence 0 5 = false ∧
    ((spawning noTask).opCrew 0).map (fun e => (e.1, e.2.1.replay, decide ((spawning noTask).gate e.2.1 0 = .go))) = some (1, false, true) ∧
    (spawning noTask).holdsTask 0 = false ∧ ((spawning noTask).op? 5).map Op.kind = some (.spawn 4 none [1, 2, 3, 4] none) := by decide

def asking : State := withCrew ctl0 (fun c => { c with task := none })

theorem witness_task : asking.performs (.taskget (fd 1 4 0 0 0 true)) (fd 1 4 0 0 0 true) [] [.s 4, .s 5, .s 6, .s 7, .s 8] [] = true ∧
    (asking.crew? 64).map (fun c => (c.task, c.endGiven)) = some (none, false) ∧
    (twoBands false).performs (.taskend (fd 1 0 2 0 0)) (fd 1 0 2 0 0) [.s 2] [] [] = true ∧
    (∃ k ∈ [0, 1, 64], k ≠ 0 ∧ (twoBands false).partDone ((twoBands false).crews.get 64 placeCrewRec) k = false) ∧
    ((twoBands false).agent 0).ended = false := by decide

/-- A user scope under the launch's, with work. -/
def aScope : Scope := { used := true, level := 0, parent := 3, path := [3, 2, 1, 5], outstanding := 1, gen := 9 }
def userScope : State := { ctl0 with scopes := ctl0.scopes.put 4 aScope }
def named (i gen : Nat) (s : State) : State := withS s 2 (i + 2 ^ 16 * gen + 2 ^ 48 * 0x1FF)

theorem witness_scope : (withS ctl0 2 0x20000).performs (.scope (fd 1 4 2 0 0 true)) (fd 1 4 2 0 0 true) [.s 2] [.s 4] [] = true ∧
    ctl0.taskScope 64 = some 3 ∧ (ctl0.scope 3).state = .opened ∧ ctl0.userDepth 3 = 0 ∧ ctl0.freeScope = some 4 ∧
    (named 4 9 userScope).performs (.sclose (fd 1 0 2 0 0)) (fd 1 0 2 0 0) [.s 2] [] [] = true ∧
    (named 4 9 userScope).foreign ((named 4 9 userScope).readS 64 2) = false ∧
    (named 4 9 userScope).stale ((named 4 9 userScope).readS 64 2) = false ∧
    (named 4 9 userScope).within 4 ((named 4 9 userScope).launchHome 64) = true ∧ (userScope.scope 4).outstanding = 1 ∧
    (userScope.scope 4).sealed = false := by decide

theorem witness_cancel : (named 4 9 userScope).performs (.cancel (fd 1 4 2 0 0 true)) (fd 1 4 2 0 0 true) [.s 2] [.s 4] [] = true ∧
    userScope.jobOf 4 = some 5 ∧ userScope.jobOf 3 = some 5 ∧ (userScope.scope 4).level = 0 ∧ (userScope.agent 64).det = false ∧
    (named 4 9 userScope).performs (.scwait (fd 1 4 2 0 0 true)) (fd 1 4 2 0 0 true) [.s 2] [.s 4] [] = true ∧
    userScope.taskScope 64 = some 3 ∧ userScope.within 3 4 = false ∧ (named 4 9 userScope).launchJob 64 = some 5 ∧
    (named 4 9 userScope).cancelTurn 64 = true ∧
    (let s := { named 4 9 userScope with cancelLast := ((named 4 9 userScope).clocks, cancelPlace 64 + 1) }
     s.cancelTurn 64 = false ∧ s.performs (.cancel (fd 1 4 2 0 0 true)) (fd 1 4 2 0 0 true) [.s 2] [.s 4] [] = true) := by decide
/-! Witnesses of the statements on tiles and engine commands. -/

/-- The crew's tile n, in entry n + 2: its state, format, rows, columns and offset. -/
def withTileOf (s : State) (n st fmt rows cols off : Nat) : State :=
  let t := withCrew s (fun c => { c with tiles := c.tiles.put n (n + 2), scratchSize := 2 ^ 18 })
  let e := BitVec.ofNat 128 (2 ^ 110 * st + 2 ^ 106 + 2 ^ 100 * fmt + 2 ^ 80 * cols + 2 ^ 64 * rows + off)
  { t with cores := t.cores.put 0 { t.core 0 with tiles := (t.core 0).tiles.put (n + 2) e } }

theorem witness_tile : (withTile ctl0 0).performs (.tmarkReady (fd 1 3 0 0 1)) (fd 1 3 0 0 1) [] [] [] = true ∧
    (withTile ctl0 2).performs (.tmarkEmpty (fd 1 3 0 0 0)) (fd 1 3 0 0 0) [] [] [] = true ∧
    (withTile ctl0 0).tileIndex 64 3 = some 5 ∧ tState (((withTile ctl0 0).core 0).tiles.get 5 0) = 0 ∧
    tState (((withTile ctl0 2).core 0).tiles.get 5 0) = 2 ∧ (withTile ctl0 2).padDone 64 (withTile ctl0 2).nextId = true ∧ (withTile ctl0 2).tileHeld 64 3 = false ∧
    ctl0.performs (.tstat (fd 1 4 0 0 3 true)) (fd 1 4 0 0 3 true) [] [.s 4] [] = true := by decide

/-- The state at 60 ns, in whose clock a band in slot 5 has marked the crew's tile. -/
def tileMarked (st at_ : Nat) : State :=
  let s := withTile ctl0 st
  { s with t := 180, cores := s.cores.put 0 { s.core 0 with tileAt := at_, tileEvents := [(5, 7)] } }

theorem witness_tile_turn : (withTile ctl0 0).tileTurn 64 3 (tilePlace 64) = true ∧ ctl0.tileNow 64 3 = [] ∧
    (tileMarked 0 (tileMarked 0 0).clocks).tileTurn 64 3 (tilePlace 64) = false ∧
    (tileMarked 0 (tileMarked 0 0).clocks).tileNow 64 3 ≠ [] ∧ (tileMarked 0 1).tileNow 64 3 = [] ∧
    (tileMarked 0 (tileMarked 0 0).clocks).performs (.tmarkReady (fd 1 3 0 0 1)) (fd 1 3 0 0 1) [] [] [] = true ∧
    (tileMarked 0 (tileMarked 0 0).clocks).performs (.tstat (fd 1 4 0 0 3 true)) (fd 1 4 0 0 3 true) [] [.s 4] [] = true ∧
    (tileMarked 0 (tileMarked 0 0).clocks).padDone 64 ctl0.nextId = true := by decide

/-- A control context whose crew has an A tile T3 and a weight tile T5, bound, both READY, an EMPTY tile T6 for the results,
and one accumulator tile. -/
def engines : State :=
  let s := withTileOf (withTileOf (withTileOf ctl0 3 2 2 4 128 0) 5 2 2 128 128 4096) 6 0 1 4 128 65536
  withAgent (withCrew s (fun c => { c with accs := [0] })) (fun a => { a with bound := some 5 })

theorem witness_tile_turns (n : Nat) : ctl0.tileTurn 64 n 0 = true ∧ engines.tileTurn 64 n 0 = true := by
  have h : (ctl0.core 0).tileEvents = [] ∧ (engines.core 0).tileEvents = [] := by decide
  have c : (ctl0.crew? 64).map Crew.core = some 0 ∧ (engines.crew? 64).map Crew.core = some 0 := by decide
  obtain ⟨x, hx, hx'⟩ := Option.map_eq_some_iff.1 c.1
  obtain ⟨y, hy, hy'⟩ := Option.map_eq_some_iff.1 c.2
  constructor <;> simp only [State.tileTurn, State.tileNow, hx, hy] <;> split <;> simp_all

def haloState : State := withS engines 4 (2 ^ 36)
def mmulDesc : Nat := 2 ^ 52 * 3 + 2 ^ 22 + 2 ^ 17 + 2 ^ 14

def cmdAsks (n : Nat) (s : State) (f : Fields) : Bool :=
  ((cmdRules f)[n]?).any (fun e => s.performs e.i f e.reads [] [] && e.ok s (s.pktOf e.i f) &&
    s.cmdScope 64 e.scopeReg == .queued 3 && decide (((s.core 0).queue e.kind.isMatrix 0).length < 16))

theorem witness_command : cmdAsks 0 ctl0 (fd 3 4 2 3 0) = true ∧
    cmdAsks 0 (withS (withS engines 4 4) 5 512) (fd 3 4 2 0 2 false false (2 ^ 46 * 6)) = true ∧ cmdAsks 1 ctl0 (fd 3 4 2 3 0) = true ∧
    cmdAsks 2 haloState (fd 3 4 2 0 0) = true ∧ cmdAsks 3 engines (fd 2 0 0 0 0 false false 0x500) = true ∧
    cmdAsks 4 engines (fd 3 0 0 0 0 false false mmulDesc) = true ∧
    cmdAsks 5 engines (fd 2 0 2 0 0 false false 0x600) = true ∧ cmdAsks 6 engines (fd 1 0 2 0 0) = true ∧
    cmdAsks 7 engines (fd 1 0 0 0 1) = true := by decide

def resampleDesc : Nat := 2 ^ 14 + 2 ^ 5

theorem witness_resample : let f := fd 3 4 0 0 0 false false resampleDesc
    ctl0.performs (.resample f) f ((List.range 6).map (fun i => .s (4 + i)) ++ [.s f.scopeReg]) [] [] = true ∧
    f.cnt = 0 ∧ f.x 29 14 ≠ 0 ∧ 1 ≤ f.x 10 5 ∧ f.x 10 5 ≤ 32 ∧ ctl0.cmdScope 64 f.scopeReg = .queued 3 := by decide

theorem witness_carve : ∀ n ∈ [0, 1, 8], (withS ctl0 2 n).performs (.carve (fd 1 4 2 0 0 true)) (fd 1 4 2 0 0 true) [.s 2] [.s 4] [] = true ∧
    ((withS ctl0 2 n).readS 64 2).toNat = n ∧ ((withS ctl0 2 n).core 0).carving = none ∧
    ((withS ctl0 2 n).core 0).carveOp = none := by decide

/-- An earlier CARVE whose status is still to be written. -/
def carvePending : State :=
  { ctl0 with
    ops := [{ id := 5, agent := 64, kind := .values [(4, 1)] [] 0, lanes := 1, tok := some 1 }]
    cores := ctl0.cores.put 0 { ctl0.core 0 with carveOp := some 5 } }

theorem witness_carve_waits : carvePending.performs (.carve (fd 1 4 2 0 0 true)) (fd 1 4 2 0 0 true) [.s 2] [.s 4] [] = true ∧
    (carvePending.core 0).carveOp = some 5 ∧ (carvePending.op? 5).isSome = true := by decide

/-! Witnesses of the statements on the steps of the memory system and the platform. -/

/-- Time has passed. -/
def later (s : State) (t : Nat) : State := { s with t }

/-- A band with a due token, a due STALL and an open run that has used its 24 packets. -/
def dueBand : State := later (withAgent band0 (fun a => { a with
  timers := [(2, 5)]
  k := [(2, 1)]
  stalled := true
  stallEnd := 9
  runOpen := true
  runPackets := 24 })) 10

/-- A band whose launch has base priority 4 and that has waited 64 µs. -/
def oldBand : State := later (withLaunch band0 (fun l => { l with prio := 4 })) 192000

theorem witness_timers : (∃ e ∈ (dueBand.agent 0).timers, e.1 = 2 ∧ e.2 ≤ dueBand.t) ∧ (dueBand.agent 0).stalled = true ∧
    (dueBand.agent 0).stallEnd ≤ dueBand.t ∧ (dueBand.agent 0).live = true ∧ (dueBand.agent 0).runOpen = true ∧
    24 ≤ (dueBand.agent 0).runPackets ∧
    (oldBand.eligibleFrom 0).any (fun since => decide (since + ((oldBand.agent 0).ageSteps + 1) * 192000 ≤ oldBand.t)) = true ∧
    (oldBand.agent 0).ageSteps < oldBand.basePrio 0 := by decide

def anOp (kind : OpKind) : Op := { id := 5, agent := 0, kind, lanes := 0xFFFFFFFF, tok := some 1 }
def withOp (s : State) (kind : OpKind) : State := withAgent { s with ops := [anOp kind] } (fun a => { a with k := [(1, 1)] })

theorem witness_late_result : ((withOp band0 (.values [(4, 9)] [] 0)).op? 5).map Op.kind = some (.values [(4, 9)] [] 0) ∧
    ((withOp band0 (.values [] [(4, .uni 9)] 0)).op? 5).map Op.kind = some (.values [] [(4, .uni 9)] 0) ∧
    isSaved 0 = false ∧ (anOp .store).clash = [] ∧ (band0.agent 0).liveMask ≠ 0 := by decide

/-- A request of band 0 for 4 bytes at 0x20000. -/
def aReq (access : Access) (stage : Stage) (place : Place := .slice) : Req :=
  { id := 3, op := 5, agent := 0, core := 0, place, access, line := 0x20000 / 128, stage, lease := 500, got := [[1, 2, 3, 4]]
    parts := [{ lane := 0, piece := 0, addr := 0x20000, va := 0x20000, len := 4, data := if access = .load then [] else [9, 8, 7, 6] }] }
def withReq (s : State) (r : Req) : State := { s with reqs := [r] }
def loading (stage : Stage) (place : Place := .slice) : State := withReq (withOp band0 (.load 4 4)) (aReq .load stage place)
def atomicReq (stage : Stage) : State := withReq (withOp band0 (.atomic 4 0)) (aReq .atomic stage)
def storeReq (stage : Stage) : State := withReq (withOp band0 .store) (aReq .store stage)

/-- The core's L1 has the sector of the load. -/
def cachedLoad : State :=
  let s := later (loading .sent) 9
  { s with cores := s.cores.put 0 { s.core 0 with l1 := [{ line := 0x20000 / 128, leaseEnd := 50, count := 1 }] } }

theorem witness_load : (loading .sent).servable (aReq .load .sent) = true ∧ (loading .sent).bankTurn (aReq .load .sent) = true ∧
    (loading .sent).req? 3 = some (aReq .load .sent) ∧ (loading .sent).poisoned 0x20000 4 = false ∧
    cachedLoad.hits (aReq .load .sent) = true ∧ cachedLoad.loadTurn (aReq .load .sent) = true ∧
    cachedLoad.req? 3 = some (aReq .load .sent) ∧ (aReq .load .sent).failed = false ∧
    (loading .fetched).req? 3 = some (aReq .load .fetched) ∧ (loading .fetched).op? 5 = some (anOp (.load 4 4)) := by decide

theorem witness_store : (storeReq .sent).servable (aReq .store .sent) = true ∧ (storeReq .sent).bankTurn (aReq .store .sent) = true ∧
    (storeReq .sent).req? 3 = some (aReq .store .sent) ∧
    (∀ o ∈ (storeReq .sent).ops, o.id = 5 → o.held = 0 ∧ isSaved o.agent = false) ∧
    (atomicReq .sent).servable (aReq .atomic .sent) = true ∧ (atomicReq .sent).bankTurn (aReq .atomic .sent) = true ∧ Memory.wf (storeReq .arrived).mem = true ∧
    (storeReq .arrived).decs = [] ∧ (storeReq .arrived).evqs = [] ∧ (storeReq .arrived).poison = [] ∧ (aReq .store .arrived).v ≤ (storeReq .arrived).ns ∧
    (storeReq .arrived).req? 3 = some (aReq .store .arrived) ∧ (atomicReq .arrived).req? 3 = some (aReq .atomic .arrived) := by decide

theorem witness_bank : (∀ s ∈ [loading .sent, storeReq .sent], ∃ r ∈ s.reqs, s.reqs = [] ++ r :: [] ∧ s.servable r = true ∧
    (s.reqs.filter (fun x => bankOf x.line == bankOf r.line && s.servable x)).length ≤ 32) := by decide

/-- A load of two lines, of which the other is answered or still to come. -/
def twoLines (other : Stage) : State :=
  let s := loading .fetched
  { s with reqs := s.reqs ++ [{ aReq .load other with id := 4, line := 0x20000 / 128 + 1, parts := [] }] }

theorem witness_two_lines : (∀ st ∈ [Stage.answered, .sent], (twoLines st).req? 3 = some (aReq .load .fetched) ∧
      (∀ x ∈ (twoLines st).reqs, x.op = 5 → x.access = .load ∧ x.failed = false) ∧
      ((twoLines st).reqs.filter (fun x => x.op == 5 && x.id != 3)).map Req.stage = [st]) ∧ (anOp (.load 4 4)).held = 0 := by decide

/-- A store of a whole poisoned sector, and of a part of it. -/
def poisonedStore (n : Nat) : State :=
  { storeReq .arrived with
    poison := [0x20000 / 32]
    reqs := (storeReq .arrived).reqs.map (fun r => { r with parts := r.parts.map (fun p => { p with data := List.replicate n 9 }) }) }

theorem witness_poisoned_store : ∀ n ∈ [4, 32], ((poisonedStore n).req? 3).any (fun r => r.access == .store && r.stage == .arrived &&
      decide (r.v ≤ (poisonedStore n).ns) && r.parts.map (fun p => (p.addr, p.data)) == [(0x20000, List.replicate n 9)] &&
      r.parts.all (fun p => p.op != 1)) = true ∧ 0x20000 / 32 ∈ (poisonedStore n).poison ∧ (poisonedStore n).heldPeers = [] ∧
    (poisonedStore n).decs = [] ∧ (poisonedStore n).evqs = [] ∧ Memory.wf (poisonedStore n).mem = true := by decide

/-- A store whose V is at 7 ns, before it and at it. -/
def toBeVisible (t : Nat) : State := later (withReq band0 { aReq .store .arrived with v := 7 }) t

theorem witness_due : ((toBeVisible 21).dueStore).map Req.id = some 3 ∧ (toBeVisible 21).dueStep = some (.storeVisible 3) ∧
    (toBeVisible 20).ns < 7 ∧ (toBeVisible 20).dueStep = none ∧ (toBeVisible 20).powered = true ∧
    { toBeVisible 20 with agenda := [.pass 5] }.dueStep = none := by decide

/-- A load of a peer's or the host's memory, whose thread waits at the instruction. -/
def farOp : Op := { anOp (.load 4 4) with tok := none, lanes := 1, held := 1, pc := 0x10000, next := 0x10008 }
def farLoad (place : Place) : State :=
  let s := withReq { band0 with ops := [farOp] } (aReq .load .sent place)
  { withThreads s (fun l t => if l = 0 then { t with st := .waiting } else t) with routes := [(7, 1)] }

theorem witness_far : (∀ p ∈ [Place.node 7, .host], (farLoad p).req? 3 = some (aReq .load .sent p) ∧ (farLoad p).op? 5 = some farOp ∧
      (farLoad p).handles 0 = true) ∧ (farLoad (.node 7)).reachable 7 = true ∧ farOp.tok = none ∧ farOp.commit = false ∧
    (∀ p ∈ (aReq .load .sent .host).parts, farOp.held.getLsbD p.lane = true ∧ p.piece = 0) ∧
    (∀ x ∈ (farLoad .host).reqs, x.op = 5 → x.id = 3) ∧ (farLoad .host).away 0 = false ∧
    (farLoad .host).t < (aReq .load .sent .host).sentAt + 300000 ∧ (aReq .load .sent .host).bad = false ∧
    (aReq .load .sent .host).sentAt + 30000000 ≤ (later (farLoad .host) 30000000).t := by decide

/-- A posted store to a peer or the host, and a push to a peer. -/
def farStore (place : Place) : State := { withReq (withOp band0 .store) (aReq .store .sent place) with routes := [(7, 1)] }
def farPush : State := { withOp band0 (.push 4 7 0 none) with routes := [(7, 1)] }

theorem witness_far_store : (∀ p ∈ [Place.node 7, .host], (farStore p).req? 3 = some (aReq .store .sent p) ∧
      (farStore p).op? 5 = some (anOp .store) ∧ (aReq .store .sent p).scope = none ∧ (farStore p).decs = []) ∧
    (farStore (.node 7)).reachable 7 = true ∧ farPush.op? 5 = some (anOp (.push 4 7 0 none)) ∧ farPush.req? 5 = none ∧
    farPush.reachable 7 = true ∧ farPush.t < 0 + 300000 ∧ 0 + 300000 ≤ (later farPush 300000).t := by decide

theorem witness_host_store : (∃ tg ∈ (match band0.xlat 0 0x20000 with
      | .ok t => [t]
      | _ => []), tg.place = .slice ∧ tg.w = true ∧ tg.addr = 0x20000) ∧ band0.poisoned 0x20000 4 = false ∧ band0.heldPeers = [] ∧
    0x20000 + 4 ≤ 2 ^ min band0.bar2 38 ∧ 2 ^ min band0.bar2 38 < 2 ^ 38 + 4 ∧ (∀ r ∈ band0.reqs, r.agent ≠ hostKey) ∧
    (band0.lineRec (0x20000 / 128)).owners = [] ∧ (band0.lineRec ((2 ^ 38 + 8) / 128)).owners = [] ∧
    band0.pewterSize 0 < 8 + 4 ∧ (8 : Nat) % 2 ^ 30 + 4 ≤ ({ band0 with pewter := [(0, 8)] } : State).pewterSize 0 := by decide

/-- Frames of die 0 that firmware withholds (23 of them over the 64 that each die reserves), and a node of the domain. -/
theorem witness_withheld : band0.withheldRange 0x20000 4 = false ∧ band0.withheldRange (2 ^ 37 - 4) 4 = true ∧
    2 ^ 37 - 4 + 4 ≤ 2 ^ min ({ band0 with bar2 := 38 } : State).bar2 38 ∧ 383 < 384 ∧ band0.withheld 0x40000 = false := by decide

/-- A core whose interval is at its end, with prefetches issued, used and early. -/
def monitored : State :=
  later { band0 with cores := band0.cores.put 0 { band0.core 0 with prefIssued := 8, prefUsed := 4, prefEarly := 1 } } 3000000

theorem witness_monitor : (monitored.core 0).intervalAt / 3000000 < monitored.t / 3000000 ∧
    ((monitored.core 0).prefIssued - (monitored.core 0).prefAt.1).toNat = 8 ∧ ((band0.core 0).prefIssued).toNat = 0 := by decide

/-- A tile and a crew's register file, where an error can last; a line of L1. -/
theorem witness_error_sites : (∀ site ∈ [0, 1, 2, 3, 4, 5, 11], band0.eccWaits site 0x20000 = false) ∧
    (band0.crew? (band0.agent 0).crew).any (fun c => c.task.isSome && c.parts (band0.agent 0).crew == [0, 64]) = true ∧
    band0.holds 0 = true ∧ band0.decs = [] ∧ band0.faultScope 0 = 3 ∧ (band0.scope 3).used = true ∧ (band0.scope 3).level = 1 ∧
    (band0.scope 3).fault = none ∧ (cachedLoad.core 0).l1.map L1Line.line = [0x20000 / 128] := by decide

/-- A die whose telemetry ring is at 0x40000, with an interval at its end. -/
def telling (base : W64) : State := later { band0 with power := [(0, { tlmBase := base, tlmSize := 4 })] } 3000000

theorem witness_power : ((telling 0x40000).powerOf 0).lastRecord + 3000000 ≤ (telling 0x40000).t ∧
    ((telling 0x40000).powerOf 0).tlmBase.toNat / 4096 ≠ 0 ∧ ((telling 0x40000).powerOf 0).tlmBase.getLsbD 0 = false ∧
    ((telling 0).powerOf 0).tlmBase.toNat / 4096 = 0 ∧ (telling 0x40000).lineOpen (0x40000 / 128) = true ∧
    (telling 0x40000).poison = [] ∧ Memory.wf (telling 0x40000).mem = true ∧ (1 : W64).toNat % 64 = 1 ∧ (40 : W64).toNat % 64 = 40 ∧
    ((telling 0).powerOf 0).lastSample + 3000 ≤ (telling 0).t ∧ 255 % 128 < 128 ∧ 95 < Config.cores ∧
    ((telling 0).core 95).intervalAt / 3000000 < (telling 0).t / 3000000 := by
  decide

/-- A core whose scratchpad grows from one way to two. -/
def growing : State :=
  { band0 with
    ops := [anOp (.carve 4)]
    cores := band0.cores.put 0 { w := 1, carving := some { target := 2, op := 5, since := 0 } } }

theorem witness_power_cycle : ({ band0 with powered := false } : State).powered = false ∧
    (∀ e ∈ band0.crews, e.2.core ≠ 7) ∧ (growing.core 0).carving = some { target := 2, op := 5, since := 0 } ∧
    (growing.core 0).w ≤ 2 ∧ growing.op? 5 = some (anOp (.carve 4)) ∧ growing.powered = true := by decide

/-! Witnesses of the statements on tasks, launches, cancels, scopes and copies. -/

/-- A crew that asks for a task, its core's chunk at position 1 of a launch of 2 × 2, and its control context in TASKGET. -/
def hungry : State :=
  let s := withCrew ctl0 (fun c => { c with task := none, asked := true })
  let s := withLaunch s (fun l => { l with dimX := 2, dimY := 2, chunks := [(0, (1, 4))] })
  withThreads (withAgent s (fun a => { a with received := false, taskWait := some { dest := 8, tok := 2 }, k := [(2, 1)] }))
    (fun _ t => { t with st := .waiting })

theorem witness_delivery : (hungry.crew? 64).map (fun c => c.asked && c.task.isNone && !c.endGiven && c.launch == 1) = some true ∧
    (hungry.launch? 1).map (fun l => !l.replay && !l.map && l.chunks == [(0, (1, 4))] && (l.traceWait.find 0).isNone &&
      l.traceHeld.get 0 [] == [] && l.queue 0 == []) = some true ∧ (hungry.core 0).fenced = false ∧ (hungry.ctx 0).out = false ∧
    (hungry.crew? 64).map Crew.saved = some none ∧
    (hungry.scope 3).state ≠ .cancelled ∧ (hungry.agent 64).taskWait = some { dest := 8, tok := 2 } ∧
    (∃ e ∈ (hungry.agent 64).threads, e.2.st = .waiting) ∧ (hungry.agent 64).early (.s 8) hungry.t = none ∧
    (hungry.launch? 1).map (fun l => (hungry.past l, hungry.known 16 l.scope)) = some (false, false) ∧
    (hungry.agent 64).landing = none := by decide

/-- A launch with a scratchpad of 256 bytes and an accumulator tile waits, and no crew is resident. -/
def waitingLaunch : State :=
  let s := withLaunch band0 (fun l => { l with
    phase := .waiting
    split := false
    crewsOf := []
    prio := 3
    kernel := { l.kernel with bands := 2, scratch := 256, acc := 1, g := 20 } })
  { s with
    t := 2
    crews := []
    agents := []
    cores := [(0, { w := 1 })] }

theorem witness_admission : waitingLaunch.waitsOn 1 (waitingLaunch.launches.get 1 (placeLaunch [])) 0 = true ∧
    (waitingLaunch.roomFor 0 (waitingLaunch.launches.get 1 (placeLaunch [])).kernel).isSome = true ∧
    (waitingLaunch.launch? 1).isSome = true ∧ ((waitingLaunch.roomFor 0 (waitingLaunch.launches.get 1 (placeLaunch [])).kernel).map
      (fun r => (r.slots, r.accs))) = some ([0, 1], [0]) := by decide

/-- The launch has waited 64 µs; another one, unsplit, has crews on both dies. -/
def agedLaunch : State := later waitingLaunch 192000
def unsplit (map : Bool) : State :=
  later (withLaunch band0 (fun l => { l with formed := false, split := map, map, crewsOf := [(0, 1), (1, 3)], dimX := 10 })) 150000

/-- A member crew whose band waits at the GBAR. -/
def atGbar : State := withThreads (withAgent (withCrew band0 (fun c => { c with member := true })) (fun a => { a with gbarDest := [(4, none)] }))
  (fun _ t => { t with st := .gbar })

/-- Its launch is being cancelled. -/
def goneGbar : State := { atGbar with scopes := atGbar.scopes.put 3 { (atGbar.scope 3) with state := .cancelling } }

theorem witness_launch : (agedLaunch.launch? 1).map (fun l => decide (l.processed + (l.ageSteps + 1) * 192000 ≤ agedLaunch.t ∧
      l.ageSteps < l.prio)) = some true ∧
    (∀ m, ((unsplit m).launch? 1).map (fun l => (l.formed, l.map, l.replay, l.phase, decide (l.startAt + 150000 ≤ (unsplit m).t))) =
      some (false, m, false, .running, true) ∧ (unsplit m).inCancelled 3 = false) ∧ goneGbar.inCancelled 3 = true ∧ goneGbar.casting 3 = false ∧ (atGbar.launch? 1).map (fun l => (l.formed, l.scope)) = some (true, 3) ∧
    (goneGbar.agent 0).stMask (· == .gbar) ≠ 0 ∧ (goneGbar.gbarCrews 1).map Prod.fst = [64] ∧
    atGbar.atGbar 0 = true ∧ (atGbar.agent 0).stMask (· == .gbar) ≠ 0 ∧ atGbar.inCancelled 3 = false ∧
    (atGbar.gbarCrews 1).map Prod.fst = [64] ∧ (∀ e ∈ atGbar.gbarCrews 1, e.2.saved = none) := by decide

theorem witness_gone_launch : (∀ s ∈ [(goneGbar, true), (atGbar, false), (unsplit false, false)], (s.1.launch? 1).map s.1.gone = some s.2) ∧
    (goneGbar.launch? 1).map (fun l => (goneGbar.home l).any goneGbar.casting) = some false := by decide

theorem witness_gbar_waits : ({ goneGbar with casts := [{ scope := 3 }] } : State).casting 3 = true ∧
    ((withLaunch atGbar (fun l => { l with formed := false })).launch? 1).map Launch.formed = some false := by decide

/-- A cancel of the launch scope is on its way to core 0; its task's crew holds it. -/
def cast : Cast := { scope := 3 }
def casting : State := { band0 with casts := [cast] }
/-- A band that is to land, whose crew's second band goes on. -/
def landing : State := withAgent (twoBands false) (fun a => { a with landing := some .cancelled, k := [(1, 2)], hmask := 1 })

theorem witness_cancel_arrival : casting.casts.find? (fun x => x.scope == 3) = some cast ∧ casting.replayDue 0 3 = true ∧
    (casting.crews.filter (fun e => e.2.core == 0)).map Prod.fst = [64] ∧ casting.within 3 3 = true ∧
    (casting.core 0).queue false 0 ++ (casting.core 0).queue true 0 = [] ∧ casting.holds 0 = true ∧
    (casting.agent 0).atBar = false ∧ (0 : Nat) ∉ cast.done ∧ casting.decs = [] ∧
    casting.replayRuns 0 cast = false ∧ (casting.crew? 64).map (fun c => (c.saved, c.killed)) = some (none, false) := by decide

theorem witness_landing : landing.cmdsMet 0 .cancelled = true ∧ (landing.agent 0).liveMask ≠ 0 ∧
    (landing.agent 0).received = true ∧ (landing.agent 0).runOpen = false ∧ landing.ops = [] ∧ landing.decs = [] ∧
    (landing.crew? 64).any (fun c => c.task.isSome && c.parts 64 == [0, 1, 64] && !landing.partDone c 1) = true := by decide

/-- A scope whose count has reached zero, under the launch scope, which has more work. -/
def doneScope (quiet : Option Nat) : State :=
  let x : Scope := { aScope with outstanding := 0, zeroAt := some 5, quietAt := quiet, ackaddr := 0x20000 }
  let p : Scope := { ctl0.scope 3 with outstanding := 2 }
  later { ctl0 with scopes := (ctl0.scopes.put 4 x).put 3 p } 30

/-- A scope with a peer that was asked to cancel 100 µs ago. -/
def peered : State := later { ctl0 with
  routes := [(7, 1)]
  scopes := ctl0.scopes.put 4 { aScope with outstanding := 2, remote := [{ node := 7, handle := 5, sent := some 0 }] } } 300000

/-- A scope whose record has been written, or is to be written to host memory. -/
def recorded : State := let s := doneScope (some 3); { s with scopes := s.scopes.put 4 { s.scope 4 with ackReq := some 99 } }
def hostRecord : State := let s := doneScope (some 3); { s with mem := Memory.writes s.mem 0x3000 (leBytes 8 (2 ^ 54 * 0x1FF + 2 ^ 50 + 0x3D)) }

theorem witness_ack_elsewhere : (recorded.scope 4).ackReq = some 99 ∧ recorded.req? 99 = none ∧ (recorded.scope 4).zeroAt.isSome = true ∧
    (recorded.scope 4).ackWait = none ∧ (hostRecord.scope 4).ackReq = none ∧ 3 < hostRecord.ns ∧
    (match hostRecord.reachStore 0 0x20000 with
     | .now t => t.place == .host
     | _ => false) = true := by decide

theorem witness_ack : ∀ q ∈ [none, some 3], ((doneScope q).scope 4).used = true ∧ ((doneScope q).scope 4).zeroAt.isSome = true ∧
    ((doneScope q).scope 4).ackWait = none ∧ ((doneScope q).scope 4).ackReq = none ∧ ((doneScope q).scope 4).after = [] ∧ (doneScope q).launchAt 4 = none ∧
    (match (doneScope q).reachStore 0 0x20000 with
     | .now t => t.place == .slice
     | _ => false) = true ∧ ((doneScope q).scope 3).parent ≠ 4 ∧ 2 ≤ ((doneScope q).scope 3).outstanding ∧ ((doneScope q).scope 4).outstanding = 0 ∧
    (3 < (doneScope q).ns) ∧ Memory.wf (doneScope q).mem = true := by decide

theorem witness_peer : userScope.foreign (BitVec.ofNat 64 (4 + 2 ^ 16 * 9 + 2 ^ 48 * 0x1FF)) = false ∧
    userScope.stale (BitVec.ofNat 64 (4 + 2 ^ 16 * 9 + 2 ^ 48 * 0x1FF)) = false ∧ (userScope.scope 4).state = .opened ∧
    (peered.peerOf 4 7).map Peer.sent = some (some 0) ∧ (peered.scope 4).used = true ∧ peered.reachable 7 = true ∧ 2 ≤ (peered.scope 4).outstanding ∧ 0 + 300000 ≤ peered.t := by
  decide

/-- A scope without a place for its record, and one with a link to a scope of this module that is final. -/
def unrecorded : State := let s := doneScope none; { s with scopes := s.scopes.put 4 { s.scope 4 with ackaddr := 0 } }
def linkOf : Peer := { node := 0x1FF, handle := 0x01FF000000040009 }
def linked : State :=
  let x : Scope := { aScope with outstanding := 2, remote := [linkOf] }
  let y : Scope := { aScope with gen := 4, state := .cancelled }
  { ctl0 with scopes := (ctl0.scopes.put 4 x).put 9 y }

theorem witness_settling : (unrecorded.scope 4).ackaddr = 0 ∧ (unrecorded.scope 4).zeroAt.isSome = true ∧ (unrecorded.scope 4).outstanding = 0 ∧
    (linked.peerOf 4 0x1FF).map (fun p => (p.settled, linked.stale p.handle, (linked.scope (hIndex p.handle)).final)) = some (false, false, true) ∧
    userScope.stale (BitVec.ofNat 64 (4 + 2 ^ 16 * 8 + 2 ^ 48 * 0x1FF)) = true := by decide

/-- A command at the head of control context 0's queue, whose scope has more work. -/
def withCmd (s : State) (c : Cmd) : State :=
  { s with
    scopes := s.scopes.put 3 { (s.scope 3) with outstanding := 3 }
    nextId := 100
    cores := s.cores.put 0 { s.core 0 with
      copyQ := if c.kind.isMatrix then [] else [(0, [c])]
      matQ := if c.kind.isMatrix then [(0, [c])] else [] } }

def aCmd (kind : CmdKind) (f : Fields) (regs : List Nat) : Cmd :=
  { id := 50, kind, pc := 0x10000, f, regs := regs.map (BitVec.ofNat 64), scope := 3 }

/-- COPYs of 4 rows of 512 bytes: from memory into T6, from T3 into memory that it owns, and one that is finished. -/
def copyIn : Cmd := aCmd .copy (fd 3 4 2 0 2 false false (2 ^ 46 * 6)) [4, 512, 512, 0, 0x20000, 0, 0]
def copyOut : Cmd := aCmd .copy (fd 3 4 0 3 1 false false (2 ^ 52 * 3)) [4, 256, 0, 256, 0, 0x21000, 0]
def copyingIn : State := withCmd engines copyIn
def copyingOut : State := { withCmd engines copyOut with lines := (List.range 8).map (fun i => (0x21000 / 128 + i, { owners := [50] })) }
def noRows : Cmd := { copyIn with regs := [0, 512, 512, 0, 0x20000, 0, 0].map (BitVec.ofNat 64) }
def copied : State := withCmd engines { copyIn with started := true, finished := true, done := 1 }

theorem witness_copy : copyingIn.copyNext 0 = some 0 ∧ (copyingIn.plan 0 0 copyIn).pieces 0 ≠ [] ∧
    copyingIn.segMeets 0 0 (copyingIn.plan 0 0 copyIn) ((copyingIn.plan 0 0 copyIn).pieces 0) = .ok ∧
    (copyingIn.plan 0 0 copyIn).srcPad = false ∧ (copyingIn.plan 0 0 copyIn).dstPad = true ∧
    (∀ e ∈ (copyingIn.plan 0 0 copyIn).pieces 0, copyingIn.farFails 0 0 e.1 e.2.2 = false ∧
      ∀ l ∈ copyingIn.rangeLines 0 0 e.1 e.2.2, copyingIn.opened 0 copyIn l = true) := by decide

/-- R195: a copy reads lines that its own engine's commands own; another core's command holds it up until it has written. -/
theorem test_copy_line_held : let s := fun (os : List Nat) => { copyingIn with lines := [(0x20000 / 128, { owners := os })] }
    (s [50]).opened 0 copyIn (0x20000 / 128) = true ∧ (s [51]).opened 0 copyIn (0x20000 / 128) = false ∧
    (s [52]).opened 0 { copyIn with met := [(0x20000 / 128, (51, 0))] } (0x20000 / 128) = true := by decide

theorem witness_copy_out : copyingOut.copyNext 0 = some 0 ∧ (copyingOut.plan 0 0 copyOut).pieces 0 ≠ [] ∧
    copyingOut.segMeets 0 0 (copyingOut.plan 0 0 copyOut) ((copyingOut.plan 0 0 copyOut).pieces 0) = .ok ∧
    (copyingOut.plan 0 0 copyOut).srcPad = true ∧ (copyingOut.plan 0 0 copyOut).dstPad = false ∧
    (∀ e ∈ (copyingOut.plan 0 0 copyOut).pieces 0, ∀ l ∈ copyingOut.rangeLines 0 0 e.2.1 e.2.2,
      (copyingOut.lineRec l).owners.head? = some 50) := by decide

theorem witness_copy_end : ((withCmd engines noRows).plan 0 0 noRows).rows = 0 ∧ noRows.finished = false ∧ copied.decs = [] ∧ copied.tileTurn 64 6 1 = true ∧ 2 ≤ (copied.scope 3).outstanding ∧ counterOf 0 = none ∧ copied.reqs = [] ∧ copied.stopping 0 0 = false ∧
    ((copied.crew? 64).map (fun w => (w.parts 64).any (fun k => (copied.agent k).liveMask != 0 && !copied.partDone w k))) = some true ∧
    (copied.crew? 64).isSome = true ∧ copied.tileIndex 64 6 = some 8 := by decide

/-- A CCOPY of 16 bytes that has read them, with a version word of zero at 0x22000. -/
def ccopy (expect : Nat) : Cmd :=
  { aCmd .ccopy (fd 3 4 2 3 0) [1, 16, 16, 16, 0x20000, 0x21000, 0, 0x22000, expect] with
    started := true
    done := 1
    data := List.replicate 16 7 }
def committing (expect : Nat) : State := later (withCmd ctl0 (ccopy expect)) 30

theorem witness_commit : ∀ e ∈ [0, 1], ((committing e).plan 0 0 (ccopy e)).pieces 1 = [] ∧
    (committing e).ccopyPlace 0 0 ((committing e).plan 0 0 (ccopy e)) (ccopy e) = .ok ∧
    ((committing e).ccopyLines 0 0 ((committing e).plan 0 0 (ccopy e)) (ccopy e)).length = 2 ∧ (committing e).lines = [] ∧
    BitVec.ofNat 64 (leNat (((committing e).engineRead 0 0 0x22000 8).map Prod.fst)) = 0 ∧
    (∀ j < 8, (committing e).placed 0 0 (0x22000 + BitVec.ofNat 64 j) = 0x22000 + j) ∧
    (∀ j < 16, (committing e).placed 0 0 (0x21000 + BitVec.ofNat 64 j) = 0x21000 + j) ∧
    ((committing e).plan 0 0 (ccopy e)).touches 0x21000 = false ∧ (committing e).stopping 0 0 = false ∧ (ccopy e).wait = none := by decide

/-! Witnesses of the statements on matrix commands, RESAMPLE, pre-emption and restore. -/

def mwloadCmd : Cmd := aCmd .mwload (fd 2 0 0 0 0 false false 0x500) []
def mzeroCmd (auto : Bool) : Cmd := aCmd (.mzero auto) (fd 1 0 2 0 0) [3]
def mdrainCmd : Cmd := aCmd .mdrain (fd 2 0 2 0 0 false false 0x600) [0, 0, 0]
/-- An MMUL of 4 rows and one k-step, and one of two. -/
def mmulCmd (ks : Nat) : Cmd := { aCmd .mmul (fd 3 0 0 0 0 false false (2 ^ 52 * 3 + 2 ^ 24 + 2 ^ 17 * ks + 2 ^ 14)) [0] with weights := some 5 }
def matrixState (c : Cmd) : State := later (withCmd engines c) 30000
def granted (c : Cmd) : State := let s := matrixState c; { s with cores := s.cores.put 0 { s.core 0 with grantedAt := some 3 } }

theorem witness_matrix : (matrixState mwloadCmd).matReady 0 (· == .mwload) (fun _ _ => 128) = some (0, mwloadCmd) ∧
    (∀ a, (matrixState (mzeroCmd a)).matReady 0 (fun k => k == .mzero true || k == .mzero false) (fun _ _ => 128) =
      some (0, mzeroCmd a)) ∧
    (matrixState mdrainCmd).matReady 0 (· == .mdrain) (fun _ _ => 8) = some (0, mdrainCmd) ∧
    (matrixState mdrainCmd).tileTurn 64 6 1 = true ∧ (matrixState mdrainCmd).accIndex 64 0 = some 0 ∧ (matrixState mdrainCmd).tileIndex 64 6 = some 8 ∧
    (∀ ks ∈ [1, 2], (granted (mmulCmd ks)).matReady 0 (· == .mmul) ((granted (mmulCmd ks)).kClocks 0) = some (0, mmulCmd ks) ∧
      ((granted (mmulCmd ks)).kBegin 0).any (fun b => decide (b + (granted (mmulCmd ks)).kClocks 0 0 (mmulCmd ks) ≤
        (granted (mmulCmd ks)).clocks)) = true) ∧
    2 ≤ ((matrixState mwloadCmd).scope 3).outstanding ∧ (matrixState mwloadCmd).decs = [] ∧ (matrixState mwloadCmd).reqs = [] ∧
    (∀ c ∈ [mwloadCmd, mzeroCmd false, mdrainCmd, mmulCmd 1], c.tiles.all (fun n => (matrixState c).tileTurn 64 n 1) = true) ∧
    ((matrixState mwloadCmd).crew? 64).any (fun w => (w.parts 64).any (fun k =>
      ((matrixState mwloadCmd).agent k).liveMask != 0 && !(matrixState mwloadCmd).partDone w k)) = true := by decide

/-- A head that waits for its grant, with an aged priority. -/
def ageingHead : State := later (withCmd (withAgent engines (fun a => { a with mqprio := 3 })) (mmulCmd 1)) 96000

theorem witness_matrix_steps : ({} : Acc).fits [((0, 0), some (3, 0)), ((0, 1), some (5, -1))] = true ∧
    (ageingHead.agent 64).mqprio = 3 ∧ ageingHead.matRuns 0 = none ∧ (ageingHead.core 0).running = none ∧
    ((ageingHead.core 0).queue true 0).head? = some (mmulCmd 1) ∧ (mmulCmd 1).headSince + 1 * 96000 ≤ ageingHead.t ∧
    (matrixState (mmulCmd 1)).startAsked 0 = some 0 ∧ (matrixState (mmulCmd 1)).budget 0 = 1500 := by decide

/-- A surface of 256 × 16 pixels at 0x20000, its map at 0x50000 and its descriptor at 0x40000; the motion vectors are zeros. -/
def surfaceBytes : List Byte := leBytes 8 0x20000 ++ leBytes 2 256 ++ leBytes 2 16 ++ leBytes 1 16 ++ leBytes 3 0 ++ leBytes 8 0x50000 ++
  leBytes 40 0
def resampleCmd : Cmd := aCmd .resample (fd 3 4 0 0 0 false false resampleDesc) [0x40000, 0x40000, 0x40000, 0x60000, 0, 0x10000, 0, 0]
def begun : Cmd := { resampleCmd with started := true, data := surfaceBytes ++ surfaceBytes ++ surfaceBytes ++ [0] }
def withSurface (c : Cmd) : State := let s := withCmd ctl0 c; { s with mem := Memory.writes s.mem 0x40000 surfaceBytes }

def gotBytes : Got → Option (List Byte)
  | .bytes bs false => some bs
  | _ => none

theorem witness_resample_start : gotBytes ((withSurface resampleCmd).overRead 0 0 resampleCmd 0x40000 64) = some surfaceBytes ∧
    (Surface.ofBytes surfaceBytes).any (fun a => a.inside 0 0 && a.die [0] 0 0 == 0 &&
      gotBytes ((withSurface resampleCmd).overRead 0 0 resampleCmd a.map a.mapBytes) == some [0]) = true ∧
    (withSurface resampleCmd).stopping 0 0 = false ∧ resampleCmd.maxV ≤ (withSurface resampleCmd).ns := by decide

theorem witness_resample_pixel : (withSurface begun).overTurn 0 = some 0 ∧
    (match (withSurface begun).row 0 0 begun 0 0 with
     | .ok l => l.head?.any (fun e => !e.2.2)
     | .error _ => false) = true ∧
    begun.row = [] ∧ { begun with row := [(List.replicate 8 1, 0, false)] }.row.head? = some (List.replicate 8 1, 0, false) ∧
    (begun.surface 2).any (fun a => decide ((withSurface begun).meets 0 0 true (a.base + BitVec.ofNat 64 (a.offset 0 0)) 32 = .ok)) = true ∧
    (∀ l ∈ (withSurface begun).rangeLines 0 0 0x20000 32, (withSurface begun).mine 50 l = true) := by decide

/-- A crew that can be saved, and one that is saved, with an empty area at 2^20 and a scratchpad image of 256 bytes. -/
def preempted : State := { withCrew engines (fun c => { c with scratchSize := 256 }) with nextId := 7 }
def savedState (accs : List Nat) : State :=
  let c : Crew := { placeCrewRec with
    bands := [savedKey 7 0]
    scratchSize := 256
    accs
    saved := some (2 ^ 20)
    padImage := 2 ^ 20 + 2304 + 1024 + 128 }
  let a : Agent := { placeBand .band 32 0 with live := false, crew := savedKey 7 64, n := 2, g := 2 }
  let b : Agent := { placeBand .ctl 1 0 with live := false, crew := savedKey 7 64 }
  { band0 with crews := [(savedKey 7 64, c)], agents := [(savedKey 7 0, a), (savedKey 7 64, b)], cores := [(0, { w := 1 })] }

theorem witness_preemption : preempted.mayStop 64 (preempted.crews.get 64 placeCrewRec) = true ∧
    preempted.areaOk (2 ^ 20) (preempted.areaSize (preempted.crews.get 64 placeCrewRec)) = true ∧
    (∀ k ∈ [64, 0], (preempted.agent k).landing = none) ∧ preempted.ops = [] ∧ preempted.decs = [] ∧ preempted.nextId = 7 ∧
    (preempted.crew? 64).any (fun c => c.bands == [0] && (c.task.map (fun t => t.payload.length)) == some 4) = true ∧
    preempted.partDone (preempted.crews.get 64 placeCrewRec) 64 = false ∧ (preempted.agent 64).liveMask ≠ 0 ∧
    (preempted.agent 64).atBar = false ∧ Memory.wf preempted.mem = true := by decide

/-- A slot of context 0 with a PAD read, and one without a packet. -/
def slotsOut : State :=
  let x : Slot := { base := 0x20000, size := 12, tail := 1, state := .running, en := true }
  { preempted with
    crews := []
    slots := [(3, { x with cur := some { offset := 0, units := [2 ^ 16] } }), (4, x)] }

theorem witness_switch : slotsOut.crewsOut 0 (2 ^ 21) = [] ∧ slotsOut.areaOk (2 ^ 21) 0 = true ∧ slotsOut.packetGoesOn 3 = true ∧
    (slotsOut.slot 4).cur = none := by decide

theorem witness_reclaim : ((savedState [0]).crew? (savedKey 7 64)).map (fun c => (c.padImage, c.reclaimed, c.accs)) = some (
      2 ^ 20 + 2304 + 1024 * 1 + ((savedState [0]).areaTail ((savedState [0]).crews.get (savedKey 7 64) placeCrewRec)).length, false, [0]) ∧
    (savedState [0]).areaOk (2 ^ 21) 98368 = true := by decide

theorem witness_restore : ((savedState []).launch? 1).isSome = true ∧
    ((savedState []).room 0 1 126 256 0 0 none).map (fun r => (r.slots, r.ctx)) = some ([0], 0) ∧ (savedState []).ops = [] ∧
    ((savedState []).agent (savedKey 7 0)).ended = false ∧ ((savedState []).agent (savedKey 7 0)).received = true ∧
    leNat ((((savedState []).readBytes (2 ^ 20 + 1280) 1024).drop 256).take 4) = 0 ∧ (savedState []).reqs = [] ∧ (savedState []).casts = [] ∧
    ((savedState []).core 0).fenced = false ∧ ((savedState []).agent (savedKey 7 0)).landing = none := by decide

/-! Witnesses of the statements on queues, packets and firmware. -/

/-- Queue slot 3 with a ring of 4 KiB at 0x20000 that holds a packet, read or not. -/
def ringOf (u : List W64) (read : Bool := true) : Slot :=
  { base := 0x20000
    size := 12
    tail := BitVec.ofNat 32 u.length
    state := .running
    en := true
    prio := 2
    cur := if read then some { offset := 0, units := u } else none }
def withSlot (s : State) (x : Slot) : State := { s with slots := [(3, x)] }

/-- The units of a packet: its type, its arg, the units after the header. -/
def packet (type arg : Nat) (rest : List Nat) : List W64 :=
  ((type + 2 ^ 16 * (1 + rest.length) + 2 ^ 32 * arg) :: rest).map (BitVec.ofNat 64)
def slotted (s : State) (type arg : Nat) (rest : List Nat) : State := withSlot s (ringOf (packet type arg rest))

/-- The packet in memory, still to be read. -/
def unread (u : List W64) : State :=
  { withSlot band0 (ringOf u false) with mem := Memory.writes band0.mem 0x20000 (u.flatMap (fun w => leBytes 8 w.toNat)) }

/-- A ring whose page firmware has denied, and one whose page has no R. -/
def deniedRing : State := withSlot (unread (packet 0 0 [])) { ringOf (packet 0 0 []) false with denied := [0x20000 / 65536] }
def closedRing : State :=
  let s := unread (packet 0 0 [])
  { s with mem := Memory.writes s.mem 0x3000 (leBytes 8 (2 ^ 54 * 0x1FF + 0x35)) }

theorem witness_ring_faults : deniedRing.nextSlot 0 = some 3 ∧ (deniedRing.slot 3).refuses 0x20000 8 = true ∧
    closedRing.nextSlot 0 = some 3 ∧ closedRing.reach 0 false 0x20000 8 = .fail ∧
    (ringOf (packet 0 0 []) false).refuses 0x20000 8 = false ∧ lengthFault (ringOf (packet 0 0 []) false) [0] = some 1 ∧
    lengthFault (ringOf (packet 0 0 []) false) (packet 0 0 []) = none ∧
    (unread [0]).nextSlot 0 = some 3 ∧ (unread [0]).headUnits (ringOf [0] false) = [0] := by decide

/-- A slot that is not mapped, and one whose packet goes on. -/
def unmappedSlot : Slot := { base := 0x20000, size := 12, tail := 600 }
theorem witness_slot_registers : unmappedSlot.en = false ∧ unmappedSlot.base.toNat % 4096 = 0 ∧ unmappedSlot.size.toNat % 32 = 12 ∧
    unmappedSlot.units < (unmappedSlot.tail - unmappedSlot.head).toNat ∧
    (ringOf []).en = true ∧ (ringOf []).state ≠ .stopped ∧ (ringOf []).units < ((600 : W32) - (ringOf []).head).toNat ∧
    (slotted band0 0 0 []).packetGoesOn 3 = true ∧ (unread (packet 0 0 [])).packetGoesOn 3 = false ∧
    ((unread (packet 0 0 [])).slot 3).en = true ∧ ({ ringOf [] with leaving := some 0 } : Slot).leaving ≠ none := by decide

theorem witness_slot : (unread (packet 0 0 [])).nextSlot 0 = some 3 ∧
    headerFault (ringOf (packet 0 0 []) false) ((unread (packet 0 0 [])).headUnits (ringOf (packet 0 0 []) false)) = none ∧
    (unread (packet 0 0 [])).reach 0 false 0x20000 8 = .ok ∧ reservedOk (packet 0 0 []) = true ∧ reservedOk (packet 0 1 []) = false ∧
    headerFault (ringOf (packet 9 0 []) false) ((unread (packet 9 0 [])).headUnits (ringOf (packet 9 0 []) false)) = some 4 ∧
    (unread (packet 9 0 [])).nextSlot 0 = some 3 ∧ (later (unread (packet 0 0 [])) 192000).packetWaits 3 = true ∧
    (unread (packet 0 0 [])).decs = [] := by decide

/-- A dependence counter with work, and one that is zero: designators 2^15 + 5 and 2^15 + 6. -/
def counting : State := { band0 with counters := [(5, { count := 3 })] }

theorem witness_packets : (∀ e ∈ [(0, 0, []), (3, 0, [0x20008, 7]), (3, 1, [2 ^ 15 + 5, 0]), (3, 2, [2 ^ 15 + 6, 9]), (3, 3, [2 ^ 15 + 5, 9]),
      (4, 0, [2 ^ 15 + 6, 0]), (4, 1, [0x20008, 0]), (4, 2, [0x20008, 7]), (6, 0, []), (6, 1, [])],
      (slotted counting e.1 e.2.1 e.2.2).packetOf 3 e.1 = some { offset := 0, units := packet e.1 e.2.1 e.2.2 }) ∧
    counterOf (2 ^ 15 + 5) = some 5 ∧ counterOf (2 ^ 15 + 6) = some 6 ∧ (counting.counter 5).count = 3 ∧ (counting.counter 6).count = 0 ∧
    (∀ t ≤ 8, (slotted counting t 0 []).openOf 3 = []) ∧ counting.reach 0 true 0x20008 8 = .ok ∧ leNat (counting.dieRead 0 0x20008 8) = 0 := by decide

/-- A WAIT whose slot waits, and packets of slot 3 that are still to complete. -/
def waitingSlot : State :=
  later (withSlot counting { ringOf (packet 4 0 [2 ^ 15 + 6, 0]) with state := .waiting, checked := 4 }) 6004
def opened (kind : OpenKind) : State := { withSlot counting (ringOf [] false) with opens := [(0, [{ slot := 3, ctx := 0, offset := 0, event := false, kind }])] }

theorem witness_waiting_packets : waitingSlot.packetOf 3 4 = some { offset := 0, units := packet 4 0 [2 ^ 15 + 6, 0] } ∧
    (waitingSlot.slot 3).state = .waiting ∧ (waitingSlot.slot 3).checked + 6000 ≤ waitingSlot.t ∧
    (∀ sys, (opened (.fence sys (some [9]))).packetOf 3 6 = none ∧
      ((opened (.fence sys (some [9]))).openHead 3 (OpenKind.fences sys)).map Prod.fst = some 0 ∧
      (opened (.fence sys (some [9]))).req? 9 = none) ∧
    ((opened (.write 0x20008 7)).openHead 3 OpenKind.writes).any (fun e => e.1 == 0 && e.2.wait.isNone && !e.2.denied && e.2.ctx == 0) = true ∧
    (opened (.write 0x20008 7)).packetOf 3 3 = none ∧ (opened (.write 0x20008 7)).reach 0 true 0x20008 8 = .ok ∧
    ({ opened (.write 0x20008 7) with slots := [(3, ringOf (packet 3 0 [0x20008, 7]))] } : State).openOf 3 ≠ [] := by decide

/-- A handle of this module. -/
def handleOf (i gen : Nat) : Nat := i + 2 ^ 16 * gen + 2 ^ 48 * 0x1FF

theorem witness_scope_packets : (∀ e ∈ [(7, 0x400, [0, 0x20000, 0x20008]), (7, 0x300, [handleOf 5 0, 0x20000, 0]), (7, 1, [handleOf 1 0, 0, 0]),
      (7, 2, [handleOf 5 0, 0, 0]), (5, 0, [handleOf 3 0, 0x20008])],
      (slotted ctl0 e.1 e.2.1 e.2.2).packetOf 3 e.1 = some { offset := 0, units := packet e.1 e.2.1 e.2.2 }) ∧
    (∀ i ∈ [5, 1, 3], ctl0.foreign (BitVec.ofNat 64 (handleOf i 0)) = false ∧ ctl0.stale (BitVec.ofNat 64 (handleOf i 0)) = false ∧
      (ctl0.scope i).state = .opened) ∧ ctl0.freeScope = some 4 ∧ (ctl0.scope 1).level = 3 ∧ (ctl0.scope 5).level = 4 := by decide

/-- TASKS with two entries for the launch of the resident crew. -/
def tasksUnits : List Nat := [handleOf 3 0, 0, 0, 1, 2, 3, 4, 5, 6, 7, 8]
theorem witness_tasks : (slotted ctl0 2 2 tasksUnits).packetOf 3 2 = some { offset := 0, units := packet 2 2 tasksUnits } ∧
    ctl0.stale (BitVec.ofNat 64 (handleOf 3 0)) = false ∧ (ctl0.scope 3).level = 1 ∧ ((ctl0.ofLevel 3 1).bind ctl0.launchAt).map Prod.fst = some 1 ∧
    (ctl0.launch? 1).map Launch.endBegun = some false ∧ ctl0.crewCores 1 0 = [0] ∧ ctl0.entriesOf 0 + 2 ≤ 65536 := by decide

/-- A kernel descriptor without tiles at 0x40000: one band, 32 registers, a scratchpad of 256 bytes. -/
def descBytes : List Byte := leBytes 40 0 ++ leBytes 4 0 ++ [1, 32, 16, 0] ++ leBytes 4 256 ++ leBytes 2 0 ++ leBytes 2 0 ++ leBytes 8 0x40000
/-- A LAUNCH of 4 × 2 coordinates under graph 2 with chunks of one, with a wait counter or none. -/
def launchUnits (wait chunk : Nat) : List Nat := [0x40000, handleOf 2 0, 0x20000, 3 + 2 ^ 32, 2 ^ 32 * wait + 2 ^ 48 * 2 ^ 15 * 0, 2 ^ 48 * chunk, 0, 0, 0]
def launching (wait chunk : Nat) : State :=
  let s := slotted counting 1 77 (launchUnits wait chunk)
  { s with mem := Memory.writes s.mem 0x40000 descBytes }
def launchOf (wait chunk : Nat) : LaunchBody := LaunchBody.ofUnits (packet 1 77 (launchUnits wait chunk))
def attesting : State := slotted band0 8 0 (0x20000 :: List.replicate 8 5)

theorem witness_launch_packet : (∀ w ∈ [0, 2 ^ 15 + 5], (launching w 1).packetOf 3 1 = some { offset := 0, units := packet 1 77 (launchUnits w 1) } ∧
      (launchOf w 1).ok = true ∧ (launchOf w 1).flag 3 = false ∧ (launchOf w 1).flag 4 = false ∧
      ((launching w 1).slot 3).refuses 0x40000 64 = false ∧ (launching w 1).reach 0 false 0x40000 64 = .ok ∧
      (launching w 1).launchCause (launchOf w 1) ((launching w 1).dieRead 0 0x40000 64) [] [[], []] true = none) ∧
    (launchOf 0 0).ok = false ∧ counterOf (launchOf 0 0).doneCnt = none ∧
    (launching 0 1).freeScope = some 4 ∧ ((launching 0 1).scope 2).state = .opened ∧
    attesting.packetOf 3 8 = some { offset := 0, units := packet 8 0 (0x20000 :: List.replicate 8 5) } ∧
    attesting.reach 0 true 0x20000 768 = .ok ∧ (attesting.part 0 0).away = false := by decide

/-- The module's management partition is away, and its mailbox has room or is full. -/
def attestAway (n : Nat) : State :=
  { attesting with parts := attesting.parts.put 0 { attesting.part 0 0 with phase := .exporting, mailbox := List.replicate n (.word 7) } }

theorem witness_attest_waits : ∀ n ∈ [255, 256], ((attestAway n).part 0 0).away = true ∧ ((attestAway n).part 0 0).mailbox.length = n ∧
    (attestAway n).packetOf 3 8 = attesting.packetOf 3 8 := by decide

/-- The shader partition of die 0 in a phase. -/
def phased (p : Partition) : State := { band0 with parts := [(2, p)] }
def noImage : List Byte := List.replicate 512 0

theorem witness_firmware : band0.allIdle = true ∧ (phased { phase := .staging }).allIdle = false ∧
    ((phased { phase := .staging }).part 0 2).phase = .staging ∧
    (phased { phase := .staging }).imageRefused 0 2 (noImage) = some 3 ∧
    ((phased { phase := .staged, staged := some {} }).part 0 2).phase = .staged ∧
    ((phased { phase := .quiesce, staged := some {} }).part 0 2).staged = some {} ∧
    (∀ ph ∈ [FwPhase.exporting, .switching], ((phased { phase := ph, staged := some {} }).part 0 2).phase = ph) ∧
    (phased { phase := .exporting, mailbox := List.replicate 256 (.word 1) }).part 0 2 ≠ {} ∧
    ({ phase := .exporting } : Partition).away = true ∧ ({} : Partition).away = false ∧
    ({ phase := .probation, staged := some {} } : Partition).deadline ≤ 60000000 ∧ Memory.wf band0.mem = true := by decide

/-- Firmware whose die 0 leads, until 5 ms; whose lease has ended; or which hands over. -/
def leading (t : Nat) (f : FwCore) : State := later { band0 with fws := [(0, f), (1, { leaseEnd := f.leaseEnd })] } t

theorem witness_leadership : ((leading 3000 { leads := true, leaseEnd := 5000000 }).fw 0).leads = true ∧
    (leading 3000 { leads := true, leaseEnd := 5000000 }).gtime 0 < 5000000 ∧
    5000000 ≤ (leading 15000000 { leads := true, leaseEnd := 5000000 }).gtime 0 ∧
    ((leading 3000 { inbox := [20003000] }).fw 0).inbox = [20003000] ∧
    (leading 30000000 { leaseEnd := 5000000 }).heir = some 0 ∧
    5000000 + 1000000 ≤ (leading 30000000 { leaseEnd := 5000000 }).gtime 0 ∧
    ((leading 30000000 { leaseEnd := 5000000 }).part 0 1).replacing = false ∧
    ((leading 3000 { handoff := true }).fw 0).handoff = true := by decide

/-! Words. -/

/-- Bits of a word from their lowest places and values, as the tables of 05 R104, R107 list them. -/
def word (l : List (Nat × Nat)) : Nat := l.foldl (fun n e => n + 2 ^ e.1 * e.2) 0

/-- LEN, PRED 7, D, A, B, MOD, OPC, DOM of a first word (R104). -/
def first (len d a b mod opc dom : Nat) : List (Nat × Nat) :=
  [(0, len), (22, 7), (26, d), (33, a), (40, b), (48, mod), (54, opc), (62, dom)]

/-- One word for each family, laid out by R104 to R107 with the opcodes of R113 to R116. -/
theorem test_words_by_family : ∀ e ∈ ([
    (64, word (first 1 4 2 3 1 0x08 0), .sshr (fd 1 4 2 3 1)),
    (96, word (first 2 4 2 0 0 0x10 0 ++ [(64, 0xFFFFFFF8)]), .sld (fd 2 4 2 0 0 false false 0xFFFFFFF8)),
    (64, word (first 1 6 2 3 1 0x19 0), .swriteTilelo (fd 1 6 2 3 1)),
    (96, word (first 2 4 2 3 0 0x04 1 ++ [(64, 9)]), .vmad (fd 2 4 2 3 0 false false 9)),
    (64, word (first 1 4 2 3 0 0x53 1), .fdiv (fd 1 4 2 3 0)),
    (64, word (first 1 4 2 0 12 0x60 1), .dxenc (fd 1 4 2 0 12)),
    (96, word (first 2 4 2 0 2 0x05 2 ++ [(19, 1), (16, 3), (64, 5)]), .atom { fd 2 4 2 0 2 true false 5 with setK := 3 }),
    (64, word (first 1 4 2 0 8 0x03 2), .stsT (fd 1 4 2 0 8)),
    (64, word (first 1 20 2 3 0 0x40 2 ++ [(19, 1)]), .rtbox (fd 1 20 2 3 0 true)),
    (96, word (first 2 4 2 0 0 0x52 2), .rsvupd (fd 2 4 2 0 0)),
    (64, word (first 1 4 0 0 1 0x55 2), .rngU (fd 1 4 0 0 1)),
    (64, word (first 1 0x7F 0x7F 0x7F 0x3F 0x00 3), .bra (fd 1 0x7F 0x7F 0x7F 0x3F)),
    (128, word (first 3 4 2 3 1 0x80 3 ++ [(64, 2 ^ 63 + 1)]), .copy (fd 3 4 2 3 1 false false (2 ^ 63 + 1))),
    (64, word (first 1 4 2 0 0 0x88 3 ++ [(19, 1)]), .carve (fd 1 4 2 0 0 true)),
    (64, word (first 0 4 2 3 0 0x00 0), .unassignedEncoding (BitVec.ofNat 64 (word (first 0 4 2 3 0 0x00 0)))),
    (64, word (first 1 4 2 3 0 0x17 1), .unassignedEncoding (BitVec.ofNat 64 (word (first 1 4 2 3 0 0x17 1))))
    ] : List (Nat × Nat × Instr)), decodeTableWord e.1 e.2.1 = some e.2.2 := by decide

theorem test_short_bytes_refused : decode (List.replicate 7 0x01) = .error .truncatedFirstWord ∧
    decode (0x02 :: List.replicate 9 0) = .error .truncatedExtension := by decide

/-- Each check of R120 on the words refuses a term. -/
theorem test_ill_formed_refused : ∀ e ∈ ([
    (.band, 0x03, .copy (fd 3 4 2 3 0)), (.ctl, 0x03, .vadd (fd 1 4 2 3 0)), (.band, 0x04, .swriteSeed (fd 1 0 2 3 0)),
    (.band, 0x05, .sadd (fd 2 4 2 3 0)), (.band, 0x06, .fadd (fd 1 4 2 3 7)), (.band, 0x07, .vadd (fd 1 4 2 3 0x10)),
    (.band, 0x07, .nop { fd 1 0 0 0 0 with setK := 2 }), (.band, 0x08, .vadd (fd 1 127 2 3 0)), (.band, 0x08, .sadd (fd 1 64 2 3 0)),
    (.band, 0x08, .vadd (fd 1 4 2 126 0 |> fun f => { f with luB := true })), (.band, 0x09, .rtbox (fd 1 20 2 3 0)),
    (.band, 0x0A, .sread (fd 1 3 0x7F 0 0 true))] : List (AgentKind × Nat × Instr)),
    checkWords e.1 false 126 e.2.2 = some e.2.1 := by decide

/-- Terms that no word stands for: LEN 0b00, an extension beyond LEN, a form of another constructor. -/
theorem test_unencodable_refused : ∀ i ∈ [Instr.sadd (fd 0 4 2 3 0), .vadd (fd 1 4 2 3 0 false false 1), .bjoinAll (fd 1 0 0 0 0),
    .swriteHbeat (fd 1 3 2 0 0)], i.wf = false := by decide

/-! Values that the spec works out. -/

/-- 04 R100: the image of 8 registers of which four are live is 368 bytes long, and its tags begin 0x39, 0x03. -/
theorem test_register_image : let a : Agent := { n := 8, g := 4, v := [(0, .uni 5), (1, .aff 0x100 4), (2, .gen []), (4, .gen [])] }
    (imageBytes a).length = 368 ∧ ((imageBytes a).drop 64).take 2 = [0x39, 0x03] := by decide

/-- 06 R138: under SR with SEED 0, 1 + 2^−8 rounds to 0x3F81 in BF16, and 1 + 2^−23 to 0x3F80; RNE gives 0x3F80. -/
theorem test_stochastic_rounding : mix 0 0x8000 = 0x972C229A ∧ mix 0 1 = 0x67D0952C ∧
    (fpCvt 2 0 5 0 0x3F808000).1.toNat % 2 ^ 16 = 0x3F81 ∧ (fpCvt 2 0 5 0 0x3F800001).1.toNat % 2 ^ 16 = 0x3F80 ∧
    (fpCvt 2 0 0 0 0x3F808000).1.toNat % 2 ^ 16 = 0x3F80 := by decide

/-- 06 R147: the block of 1.0, 0.25, −0.375, 0.1 and zeros. -/
theorem test_dx4_block : (dxEncode 2 rneMode 0 false 2
    (([0x3F800000, 0x3E800000, 0xBEC00000, 0x3DCCCCCD] ++ List.replicate 28 0).map Fmt.f32.decode)).1 = 0x172A7F7D := by decide

/-- 06 R140: FRCP of 2.0 is 0.5. -/
theorem test_frcp_of_two : fpRcp Fmt.f32 0x40000000 = (0x3F000000, 0) := by decide

/-- 21 R398: −2.5 rounds to −2.0 under RNE. -/
theorem test_frnd : (fpRnd Fmt.f32 0 0 0xC0200000).1 = 0xC0000000 := by decide

/-- 23 R440: a segmented sum of 1 to 8 whose segments begin at lanes 3 and 6. -/
def scanned (b : Nat) : List Nat :=
  let x : VIn := { f := fd 1 4 2 b 0, lanes := 0xFF, act := 0xFF, live := 0xFF, seed := 0
                   r := { v := fun _ => .aff 1 1, s := fun _ => 0, p := fun _ => 0x48 } }
  (List.range 8).map (fun l => ((scanOut x).v.head?.map (fun e => (e.2.lane l).toNat)).getD 0)

theorem test_segmented_scan : scanned 0x0E = [1, 3, 6, 4, 9, 15, 7, 15] ∧ scanned 0x0F = [0, 1, 3, 0, 4, 9, 0, 7] := by decide

/-- 11 R275: the record of pixel (300, 20) of a surface 1,024 wide. -/
theorem test_surface_offset : Surface.offset { base := 0, width := 1024, height := 1024, halo := 0, map := 0, haloBase := 0 } 300 20 = 0xA4980 := by
  decide

/-- 12 R285: in a ring of 4 KiB, a packet of 8 units at 4,080 stops with cause 2, and one of 600 with cause 3. -/
theorem test_ring_causes : headerFault { ringOf [] with head := 510 } (packet 2 1 [0, 0, 0, 0, 0, 0, 0]) = some 2 ∧
    headerFault { ringOf [] with head := 500 } [BitVec.ofNat 64 (2 ^ 16 * 600)] = some 3 ∧
    headerFault { ringOf [] with head := 500 } [BitVec.ofNat 64 (1 + 2 ^ 16 * 10)] = none := by decide

/-- 14 R322: a monitor with loads of 420 ns and 530 ns. -/
theorem test_monitor : let m := (Monitor.sample {} 420).sample 530
    m.field 0 = 420 ∧ m.field 1 = 530 ∧ m.field 2 = 2 ∧ m.field 6 = 0x10001 ∧ m.field 5 = 0 := by decide

/-! Single steps. -/

/-- One instruction placed by its word, and the state after the step. -/
def ran (nbits w : Nat) : State := stateOf (step (State.reset.withFetchWord nbits w)) State.reset

/-- 22 R413: SLI with MOD[0] sign-extends −2, and the packet goes on after 12 bytes. -/
theorem test_sli_step : let s := ran 96 0xFFFFFFFE0381000015C00002
    (s.agent 0).rawS 5 = 0xFFFFFFFFFFFFFFFE ∧ ((s.agent 0).thread 31).pc = 0x1000C := by decide

/-- 23 R431: VADD of LANE and LANE gives 2 · lane, an affine register. -/
theorem test_vadd_step : ((ran 64 (word (first 1 4 127 127 0 0 1))).agent 0).rawV 4 = .aff 0 2 := by decide

/-- 05 R120: LEN 0b00 raises ILLEGAL with sub-code 1 in every thread, at the handler. -/
theorem test_illegal_step : let a := (ran 64 0).agent 0
    a.tcode = 1 ∧ a.taddr = 1 ∧ a.tpc = 0x10000 ∧ a.hmask = 0xFFFFFFFF ∧ (a.thread 0).pc = 0x10100 := by decide

/-! Witnesses of the statements on the whole machine. -/

theorem witness_decoding : (Instr.copy (fd 3 4 2 3 1 false false (2 ^ 63 + 1))).encodable = true ∧
    (Instr.unassignedEncoding 0x10).encodable = false ∧ (Instr.bra (fd 1 0x7F 0x7F 0x7F 0x3F)).encodable = true := by decide

def placed : State := State.reset.withFetchWord 64 (word (first 1 5 5 6 0 0 0))
def placedTurn : State := { placed with agenda := [], cur := 0, curPc := none }
theorem witness_step : placed.dueStep = none ∧ placed.agenda = [.issue 0] ∧ placedTurn.myTurn 0 = true ∧
    placedTurn.packetPc 0 = some 0x10000 := by decide

theorem witness_fetch : (match placedTurn.fetchAt 0 0x10000 with
    | .bytes bs => bs.length == 16 && leNat bs == word (first 1 5 5 6 0 0 0)
    | _ => false) = true := by decide

theorem witness_step_word : decodeTableWord 64 (word (first 1 5 5 6 0 0 0)) = some (.sadd (fd 1 5 5 6 0)) := by decide

theorem witness_device_turn : ({ State.reset with agenda := [.event .powerOn] } : State).dueStep = none ∧ isDevice .powerOn = true := by decide

theorem witness_memory_form : Memory.wf placed.mem = true := by decide

end Sys2Proof.Tests
end

section
/-!
The statement on ray, record and random results fails at RNG's counter. A register of tag G has 32 words (04 R85), but the list that
stands for them in the state may be shorter: a lane past its end reads zero, and `VReg.bump` maps over the words that are there, so
that RNG leaves zero in such a lane, where 11 R261 writes the counter + 1. Every step writes 32 words to a G register; the statement
speaks of all states and does not ask for them.
-/

namespace Sys2Proof.Machine

/-- A lane that a G counter holds no word for is still zero once the counter is one further. -/
theorem VReg.bump_lane_of_short (ls : List W32) (l : Nat) (h : ls.length ≤ l) : (VReg.gen ls).bump.lane l = 0 := by
  simp [VReg.bump, VReg.lane, List.getD_eq_getElem?_getD, h]

/-- The fields of `RNG V4, V2`: the counter stands in V2 and its key in V3 (11 R261). -/
def rngFields : Fields := { fieldsOf 0 0 with len := 1, pred := 7, d := 4, a := 2 }

/-- The rule that the statement has for `RNG V4, V2`. -/
def rngRule : GroupRule := (groupRules rngFields)[5]'(by decide)

/-- A band of 32 READY threads whose V2 has the tag G and no words. -/
def shortCounter : State :=
  let s := State.reset.placeCode 0 []
  { s with agents := s.agents.put s.cur { s.agent s.cur with v := (s.agent s.cur).v.put 2 (.gen []) } }

/-- The packet that issues RNG in `shortCounter`, and what RNG sees. -/
def shortCounterPkt : Pkt := shortCounter.pktOf rngRule.i rngFields
def shortCounterIn : VIn := shortCounter.vin shortCounterPkt

theorem shortCounter_performs_rng :
    shortCounter.performs rngRule.i rngFields rngRule.reads ((rngRule.words shortCounterIn).map (fun r => .v r.1))
      (rngRule.dests shortCounterIn) = true := by decide

theorem shortCounterPkt_act : shortCounterPkt.act.getLsbD 0 = true := by decide

/-- The model's RNG writes to the counter the register of no words, one further. -/
theorem rng_writes_shortCounter :
    ((stateOf (exec rngRule.i shortCounter) shortCounter).agent shortCounter.cur).rawV 2 =
      (VReg.gen []).merge (VReg.gen []).bump shortCounterPkt.act shortCounterPkt.covers := by decide

/-- The rule of the statement asks for 1 in lane 0 of the counter. -/
theorem rngRule_counter : (2, fun l => (shortCounterIn.r.v 2).lane l + 1) ∈ rngRule.words shortCounterIn ∧
    (shortCounterIn.r.v 2).lane 0 + 1 = 1 :=
  ⟨List.mem_cons_of_mem _ (List.mem_singleton_self _), by decide⟩

/-- Refutes O9: RNG whose counter is a G register without words leaves zero in lane 0, not the counter + 1. -/
theorem not_rayRecordAndRandomResults : ¬ Obligations.RayRecordAndRandomResults := by
  unfold Obligations.RayRecordAndRandomResults
  rintro ⟨hgroup, -⟩
  obtain ⟨t, hexec, -, -, hword⟩ := hgroup rngFields shortCounter rngRule (List.getElem_mem _) shortCounter_performs_rng
  obtain ⟨hmem, hone⟩ := rngRule_counter
  have hasked : ((t.agent shortCounter.cur).rawV 2).lane 0 = 1 :=
    (hword _ hmem (by decide) (by decide) 0 (by decide) shortCounterPkt_act).trans hone
  have hreg : (t.agent shortCounter.cur).rawV 2 = (VReg.gen []).merge (VReg.gen []).bump _ _ :=
    (congrArg (fun o => ((stateOf o shortCounter).agent shortCounter.cur).rawV 2) hexec).symm.trans rng_writes_shortCounter
  have hleft : ((t.agent shortCounter.cur).rawV 2).lane 0 = 0 := by
    rw [hreg, VReg.merge_lane _ _ _ _ 0 (by decide) shortCounterPkt_act, VReg.bump_lane_of_short [] 0 (Nat.le_refl 0)]
  exact absurd (hleft.symm.trans hasked) (by decide)

end Sys2Proof.Machine
end

section
/-!
The statement on the scalar ALU instructions, SLI and SSEL. The values that the rules name agree with the model's value functions; the
packets go on and write Sd by `scalarMeaning_performs`, and for SLI and SSEL, which read other registers, by what their common
effect leaves.
-/

namespace Sys2Proof.Machine

/-! The values of the scalar ALU (22 R409). -/

theorem clampInt_eq (lo hi x : Int) (h : lo ≤ hi) : clampInt lo hi x = max lo (min hi x) := by
  unfold clampInt
  split
  · omega
  · split <;> omega

theorem satScalar_signed (sg un : Int) : satScalar 1 sg un = satSigned64 sg := by
  simp [satScalar, satSigned64, clampInt_eq]

theorem satScalar_unsigned (sg un : Int) : satScalar 2 sg un = BitVec.ofInt 64 (max 0 (min (2 ^ 64 - 1) un)) := by
  simp [satScalar, clampInt_eq]

theorem satScalar_wrap (mode : Nat) (sg un : Int) (h1 : mode ≠ 1) (h2 : mode ≠ 2) :
    satScalar mode sg un = BitVec.ofInt 64 un := by
  simp [satScalar, h1, h2]

theorem saddVal_eq (f : Fields) (a b : W64) :
    saddVal f a b = match f.m 1 0 with
      | 1 => satSigned64 (a.toInt + b.toInt)
      | 2 => BitVec.ofNat 64 (min (2 ^ 64 - 1) (a.toNat + b.toNat))
      | _ => a + b := by
  unfold saddVal
  split
  case h_1 h => rw [h, satScalar_signed]
  case h_2 h =>
    rw [h, satScalar_unsigned, ← BitVec.ofInt_natCast]
    congr 1; omega
  case h_3 h1 h2 =>
    rw [satScalar_wrap _ _ _ h1 h2, BitVec.ofInt_natCast, BitVec.ofNat_add, BitVec.ofNat_toNat, BitVec.ofNat_toNat,
      BitVec.setWidth_eq, BitVec.setWidth_eq]

theorem ssubVal_eq (f : Fields) (a b : W64) :
    ssubVal f a b = match f.m 1 0 with
      | 1 => satSigned64 (a.toInt - b.toInt)
      | 2 => BitVec.ofNat 64 (a.toNat - b.toNat)
      | _ => a - b := by
  unfold ssubVal
  split
  case h_1 h => rw [h, satScalar_signed]
  case h_2 h =>
    rw [h, satScalar_unsigned, ← BitVec.ofInt_natCast]
    congr 1; omega
  case h_3 h1 h2 =>
    rw [satScalar_wrap _ _ _ h1 h2]
    rw [Int.sub_eq_add_neg, BitVec.ofInt_add, BitVec.ofInt_neg, BitVec.ofInt_natCast, BitVec.ofInt_natCast,
      BitVec.ofNat_toNat, BitVec.ofNat_toNat, BitVec.setWidth_eq, BitVec.setWidth_eq, ← BitVec.sub_eq_add_neg]

theorem smulVal_eq (f : Fields) (a b : W64) : smulVal f a b = BitVec.ofNat 64 (a.toNat * b.toNat) := by
  apply BitVec.eq_of_toNat_eq
  simp [smulVal]

theorem sshlVal_eq (f : Fields) (a b : W64) :
    sshlVal f a b = if b.toNat < 64 then BitVec.ofNat 64 (a.toNat * 2 ^ b.toNat) else 0 := by
  unfold sshlVal
  by_cases hb : b.toNat < 64
  · rw [if_neg (Nat.not_le.2 hb), if_pos hb]
    apply BitVec.eq_of_toNat_eq
    rw [BitVec.toNat_shiftLeft, Nat.shiftLeft_eq, BitVec.toNat_ofNat]
  · rw [if_pos (Nat.not_lt.1 hb), if_neg hb]

/-- An arithmetic shift by the whole width leaves only the sign. -/
theorem sshiftRight_width (a : W64) : a.sshiftRight 64 = if a.toInt < 0 then -1 else 0 := by
  have hlo : -2 ^ 63 ≤ a.toInt := BitVec.le_toInt a
  have hhi : a.toInt < 2 ^ 63 := BitVec.toInt_lt
  have hdiv : a.toInt / 2 ^ 64 = if a.toInt < 0 then -1 else 0 := by split <;> omega
  rw [BitVec.sshiftRight_eq, Int.shiftRight_eq_div_pow]
  change BitVec.ofInt 64 (a.toInt / 2 ^ 64) = _
  rw [hdiv]
  split <;> rfl

theorem sshrVal_eq (f : Fields) (a b : W64) :
    sshrVal f a b =
      if f.mb 0 then (if b.toNat < 64 then BitVec.ofInt 64 (a.toInt / 2 ^ b.toNat) else if a.toInt < 0 then -1 else 0)
      else if b.toNat < 64 then BitVec.ofNat 64 (a.toNat / 2 ^ b.toNat) else 0 := by
  unfold sshrVal
  by_cases hb : b.toNat < 64
  · rw [if_neg (Nat.not_le.2 hb), if_pos hb, if_pos hb, Nat.min_eq_left (Nat.le_of_lt hb)]
    congr 1
    · simp [BitVec.sshiftRight, Int.shiftRight_eq_div_pow]
    · apply BitVec.eq_of_toNat_eq
      simp [Nat.shiftRight_eq_div_pow, Nat.mod_eq_of_lt (Nat.lt_of_le_of_lt (Nat.div_le_self _ _) a.isLt)]
  · rw [if_pos (Nat.not_lt.1 hb), if_neg hb, if_neg hb, Nat.min_eq_right (Nat.not_lt.1 hb), sshiftRight_width]

theorem less_eq (signed : Bool) (a b : W64) :
    less signed a b = if signed then decide (a.toInt < b.toInt) else decide (a.toNat < b.toNat) := rfl

theorem sminVal_eq (f : Fields) (a b : W64) :
    sminVal f a b = if f.mb 0 then (if a.toInt ≤ b.toInt then a else b) else if a.toNat ≤ b.toNat then a else b := by
  unfold sminVal
  cases f.mb 0 with
  | true => simp only [less_eq, if_true, decide_eq_true_eq, ← Int.not_lt, ite_not]
  | false => simp only [less_eq, Bool.false_eq_true, if_false, decide_eq_true_eq, ← Nat.not_lt, ite_not]

/-- A choice may take either side where the two values are equal. -/
theorem ite_eq_ite_of_iff_or_eq {p q : Prop} [Decidable p] [Decidable q] {a b : W64} (h : q ↔ p ∨ a = b) :
    (if p then b else a) = if q then b else a := by
  by_cases hp : p
  · rw [if_pos hp, if_pos (h.2 (.inl hp))]
  · rw [if_neg hp]
    split
    · exact (h.1 ‹q›).resolve_left hp
    · rfl

theorem smaxVal_eq (f : Fields) (a b : W64) :
    smaxVal f a b = if f.mb 0 then (if a.toInt ≤ b.toInt then b else a) else if a.toNat ≤ b.toNat then b else a := by
  unfold smaxVal
  cases f.mb 0 with
  | true =>
    simp only [less_eq, if_true, decide_eq_true_eq]
    exact ite_eq_ite_of_iff_or_eq (Int.le_iff_lt_or_eq.trans (or_congr_right BitVec.toInt_inj))
  | false =>
    simp only [less_eq, Bool.false_eq_true, if_false, decide_eq_true_eq]
    exact ite_eq_ite_of_iff_or_eq (Nat.le_iff_lt_or_eq.trans (or_congr_right BitVec.toNat_inj))

/-- The model's meaning of each scalar ALU instruction is the common scalar meaning, with the rule's value. -/
theorem scalarRules_meaning (f : Fields) : ∀ e ∈ scalarRules f, ∃ g opc,
    (∀ s, exec e.1 s = perform e.1 (scalarMeaning g) s) ∧ opcodeOf e.1 = some (0, opc, f) ∧
      (∀ k, (specOf k e.1).commit = false) ∧ ∀ a b, g f a b = e.2 a b := by
  simp only [scalarRules, List.forall_mem_cons]
  exact ⟨⟨saddVal, 0x00, fun _ => rfl, rfl, fun _ => rfl, saddVal_eq f⟩,
    ⟨ssubVal, 0x01, fun _ => rfl, rfl, fun _ => rfl, ssubVal_eq f⟩,
    ⟨smulVal, 0x02, fun _ => rfl, rfl, fun _ => rfl, smulVal_eq f⟩,
    ⟨smulhiVal, 0x03, fun _ => rfl, rfl, fun _ => rfl, fun _ _ => rfl⟩,
    ⟨fun _ a b => a &&& b, 0x04, fun _ => rfl, rfl, fun _ => rfl, fun _ _ => rfl⟩,
    ⟨fun _ a b => a ||| b, 0x05, fun _ => rfl, rfl, fun _ => rfl, fun _ _ => rfl⟩,
    ⟨fun _ a b => a ^^^ b, 0x06, fun _ => rfl, rfl, fun _ => rfl, fun _ _ => rfl⟩,
    ⟨sshlVal, 0x07, fun _ => rfl, rfl, fun _ => rfl, sshlVal_eq f⟩,
    ⟨sshrVal, 0x08, fun _ => rfl, rfl, fun _ => rfl, sshrVal_eq f⟩,
    ⟨sminVal, 0x09, fun _ => rfl, rfl, fun _ => rfl, sminVal_eq f⟩,
    ⟨smaxVal, 0x0A, fun _ => rfl, rfl, fun _ => rfl, smaxVal_eq f⟩,
    ⟨fun _ a _ => a, 0x0D, fun _ => rfl, rfl, fun _ => rfl, fun _ _ => rfl⟩,
    fun _ h => absurd h List.not_mem_nil⟩

/-! SLI and SSEL (22 R415, R411). -/

theorem sliVal_eq (f : Fields) :
    sliVal f = if f.len = 3 then f.ext
      else if f.mb 0 then BitVec.ofInt 64 f.imm32.toInt else BitVec.ofNat 64 f.imm32.toNat := by
  rw [BitVec.ofNat_toNat]
  rfl

theorem mem_lanesOf (m : W32) (l : Nat) : l ∈ lanesOf m ↔ m.getLsbD l = true := by
  simp only [lanesOf, List.mem_filter, List.mem_range]
  exact and_iff_right_of_imp BitVec.lt_of_getLsbD

/-- Two masks share no lane where no lane of the one is in the other. -/
theorem and_eq_zero_iff_lanesOf (m c : W32) : m &&& c = 0 ↔ ∀ l ∈ lanesOf m, c.getLsbD l = false := by
  refine BitVec.zero_iff_eq_false.trans (forall_congr' fun l => ?_)
  rw [BitVec.getLsbD_and, Bool.and_eq_false_imp, mem_lanesOf]

/-- No lane of a mask is without a condition: it holds in all of them. -/
theorem and_not_beq_zero (m c : W32) (g : Nat → Bool) (hg : ∀ l ∈ lanesOf m, c.getLsbD l = g l) :
    (m &&& ~~~c == 0) = (lanesOf m).all g := by
  rw [Bool.eq_iff_iff, beq_iff_eq, and_eq_zero_iff_lanesOf, List.all_eq_true]
  refine forall₂_congr fun l hl => ?_
  have hl32 : l < 32 := BitVec.lt_of_getLsbD ((mem_lanesOf m l).1 hl)
  simp [hl32, ← hg l hl]

/-- Some lane of a mask has a condition. -/
theorem and_bne_zero (m c : W32) (g : Nat → Bool) (hg : ∀ l ∈ lanesOf m, c.getLsbD l = g l) :
    (m &&& c != 0) = (lanesOf m).any g := by
  rw [Bool.eq_iff_iff, bne_iff_ne, ne_eq, and_eq_zero_iff_lanesOf, ← Bool.not_eq_false, List.any_eq_false]
  refine not_congr (forall₂_congr fun l hl => ?_)
  rw [hg l hl, Bool.not_eq_true]

/-- A predicate, inverted or not, in the lanes of a mask. -/
theorem getLsbD_invert (m q : W32) (inv : Bool) : ∀ l ∈ lanesOf m,
    (if inv then ~~~q else q).getLsbD l = (q.getLsbD l != inv) := by
  intro l hl
  have hl32 : l < 32 := BitVec.lt_of_getLsbD ((mem_lanesOf m l).1 hl)
  cases inv <;> simp [hl32]

theorem sselCond_eq (f : Fields) (act q : W32) :
    sselCond f act q =
      (if f.mb 4 then (lanesOf act).all else (lanesOf act).any) (fun l => q.getLsbD l != f.mb 3) := by
  unfold sselCond
  cases f.mb 4 with
  | true => exact and_not_beq_zero act _ _ (getLsbD_invert act q (f.mb 3))
  | false => exact and_bne_zero act _ _ (getLsbD_invert act q (f.mb 3))

theorem State.issues_of_performs (s : State) (i : Instr) (f : Fields) (reads writes : List Reg) (dests : List (Nat × Bool))
    (h : s.performs i f reads writes dests = true) : s.issues i f = true := by
  simp only [State.performs, Bool.and_eq_true] at h
  obtain ⟨⟨⟨⟨⟨hissues, -⟩, -⟩, -⟩, -⟩, -⟩ := h
  exact hissues

/-- What a packet leaves whose effect is a fixed-latency result in Sd. -/
theorem performPacket_fixS (s : State) (p : Pkt) (sp : Spec) (d : Nat) (v : W64) (hk : p.k = s.cur) (hc : sp.commit = false)
    (hfind : s.agents.find s.cur = some (s.agent s.cur)) :
    ∃ t, (Prog.performPacket p sp [] (.seq (.clash p.k [.s d]) (.agent p.k (s.fixS 2 d v))) 0).run s = t ∧
      s.performed t p [] [d] [] ∧ s.flagsStay t ∧
      (d ≠ 0 → (s.agent s.cur).early (.s d) s.t = none → (t.agent s.cur).rawS d = v) := by
  rw [← hk] at hfind
  set a1 := (s.agent p.k).advanced p sp.commit 0 s.t
  obtain ⟨⟨r, rc, e⟩, hothers, hvalue⟩ := fixS_law s 2 d v a1
  obtain ⟨t, et, honly, hwent, hkeeps, hops, hid, hflags, hS, -, -⟩ := perform_registers s p sp [] _ 0 hfind
    (onAgent_seq (onAgent_clash p.k [.s d]) (onAgent_agent p.k (s.fixS 2 d v)))
    (vs := []) (ss := [d]) (ps := [])
    ⟨a1.v, r, a1.p, a1.flags, a1.flagsDue, rc, e⟩
    (fun m _ => (congrArg (Agent.rawV · m) e :)) (fun m hm => hothers m (by simpa using hm))
    (fun m _ => (congrArg (Agent.rawP · m) e :))
  refine ⟨t, et, ⟨honly, hc ▸ hwent, ⟨?_, hid⟩, hkeeps⟩, fun now => ?_, fun hd he => ?_⟩
  · rw [hops]
    exact clashed_same _ _ _
  · rw [← hk]
    exact (hflags now).trans ((congrArg (Agent.flagsAt · now) e :))
  · rw [← hk] at he ⊢
    exact (hS d).trans (hvalue hd he)

/-- An instruction of any reads that performs, and whose effect is a fixed-latency result in Sd, writes it and goes on. -/
theorem fixS_performs (s : State) (i : Instr) (f : Fields) (m : Meaning) (opc : Nat) (v : W64)
    (ho : opcodeOf i = some (0, opc, f)) (hc : (specOf (s.agent s.cur).kind i).commit = false)
    (hd : m.dests s (s.pktOf i f) = []) (hi : m.illegal s (s.pktOf i f) = false)
    (hb : m.body s (s.pktOf i f) = .go (.seq (.clash s.cur [.s f.d.toNat]) (.agent s.cur (s.fixS 2 f.d.toNat v))) 0)
    (h : s.performs i f (m.reads s (s.pktOf i f)) (m.writes s (s.pktOf i f)) [] = true) :
    ∃ t, perform i m s = .next t ∧ s.performed t (s.pktOf i f) [] [f.d.toNat] [] ∧ s.flagsStay t ∧
      (f.d ≠ 0 → (s.agent s.cur).early (.s f.d.toNat) s.t = none → (t.agent s.cur).rawS f.d.toNat = v) := by
  have hfind := s.issues_find i f (s.issues_of_performs i f _ _ _ h)
  obtain ⟨t, et, hperf, hflags, hvalue⟩ :=
    performPacket_fixS s (s.pktOf i f) (specOf (s.agent s.cur).kind i) f.d.toNat v rfl hc hfind
  refine ⟨t, ?_, hperf, hflags, fun hd0 => hvalue (by simpa [BitVec.toNat_eq] using hd0)⟩
  rw [perform_go s i f m 0 opc _ _ ho (by rw [hd]; exact h) hi hb, hd, ← et]
  rfl

theorem sli_performs (f : Fields) (s : State) (h : s.performs (.sli f) f [] [.s f.d.toNat] [] = true) :
    ∃ t, exec (.sli f) s = .next t ∧ s.performed t (s.pktOf (.sli f) f) [] [f.d.toNat] [] ∧ s.flagsStay t ∧
      (f.d ≠ 0 → (s.agent s.cur).early (.s f.d.toNat) s.t = none → (t.agent s.cur).rawS f.d.toNat = sliVal f) :=
  fixS_performs s (.sli f) f sliMeaning 0x0E _ rfl rfl rfl rfl rfl h

theorem ssel_performs (f : Fields) (s : State)
    (h : s.performs (.ssel f) f [.p (f.m 2 0), .s f.a.toNat, .s f.b.toNat] [.s f.d.toNat] [] = true) :
    ∃ t, exec (.ssel f) s = .next t ∧ s.performed t (s.pktOf (.ssel f) f) [] [f.d.toNat] [] ∧ s.flagsStay t ∧
      (f.d ≠ 0 → (s.agent s.cur).early (.s f.d.toNat) s.t = none → (t.agent s.cur).rawS f.d.toNat =
        if sselCond f (s.pktOf (.ssel f) f).act (s.readP s.cur (f.m 2 0)) then s.readS s.cur f.a.toNat
        else s.readS s.cur f.b.toNat) :=
  fixS_performs s (.ssel f) f sselMeaning 0x0C _ rfl rfl rfl rfl rfl h

/-- Settles O1: the common scalar meaning with the rule's value; for SLI and SSEL, whose reads differ, their common effect. -/
theorem scalarInstructionsWriteTheirResult : Obligations.ScalarInstructionsWriteTheirResult := by
  unfold Obligations.ScalarInstructionsWriteTheirResult
  refine ⟨fun f s e he h => ?_, fun f s h => ?_, fun f s h => ?_⟩
  · obtain ⟨g, opc, hexec, hopc, hcommit, hvalue⟩ := scalarRules_meaning f e he
    rw [hexec, ← hvalue]
    exact scalarMeaning_performs s e.1 f opc g hopc (hcommit _) h
  · rw [← sliVal_eq]
    exact sli_performs f s h
  · rw [← sselCond_eq]
    exact ssel_performs f s h

end Sys2Proof.Machine
end
